-- ==== Sys2Proof/Word.lean ====
section
/-!
DEFINITION. The value types of the block: bytes and Words (00_scope.md R6, R9), line levels and pins.
Every value is unsigned (R9). A pin is an opaque natural number (R6 `PIN_BITS`, 92_eei_decisions.md D11).
-/

namespace Sys2Proof

/-- One serial transfer: 8 bits (00_scope.md R6 `BYTE_BITS`). -/
abbrev Byte := BitVec 8

/-- A Word: 16 bits, a unit of payload data (00_scope.md R6 `WORD_BITS`). -/
abbrev Word := BitVec 16

/-- A pin identifier: a natural number (00_scope.md R6 `PIN_BITS`). -/
abbrev Pin := Nat

/-- The level of a line (00_scope.md R9). -/
inductive Level where
  | low
  | high
deriving DecidableEq, Repr, Inhabited

/-- The opposite level, `not l` of 40_lifecycle_and_lines.md R102. -/
def Level.flip : Level → Level
  | .low => .high
  | .high => .low

end Sys2Proof
end

