-- ==== Sys2Proof/Config.lean ====
section
/-!
DEFINITION. The parameters of the block (00_scope.md R6) and the free values of the environment.
A parameter the spec fixes is a constant here. A parameter the spec leaves OPEN is a field of `Config`, which
`State` carries and no step writes, so that a claim over all states is a claim for all its values.
-/

namespace Sys2Proof

/-- The parameters that are arguments of the model (00_scope.md R6; 92_eei_decisions.md, "Parameters left open"). -/
structure Config where
  /-- READY_POLL_LIMIT: none, or some N with N at least 1 (40_lifecycle_and_lines.md R110). -/
  readyPollLimit : Option Nat
  /-- CS_ASSERT_LEVEL: the level of chip-select that means asserted (92_eei_decisions.md D2). -/
  csAssertLevel : Level
  /-- SPI_CPOL (92_eei_decisions.md D16). -/
  spiCpol : Bool
  /-- SPI_CPHA (92_eei_decisions.md D16). -/
  spiCpha : Bool
  /-- SPI_CLKDIV (92_eei_decisions.md D16). -/
  spiClkdiv : Nat
deriving DecidableEq, Repr

/-- The range 00_scope.md R6 gives READY_POLL_LIMIT: `none`, or `some N` with N at least 1. -/
abbrev Config.InRange (c : Config) : Prop := c.readyPollLimit ≠ some 0

/-- Free value (log 6): the clock polarity, fixed but not given. -/
opaque Config.openCpol : Bool

/-- Free value (log 6): the clock phase, fixed but not given. -/
opaque Config.openCpha : Bool

/-- Free value (log 6): the clock divider, fixed but not given. -/
opaque Config.openClkdiv : Nat

/-- The configuration of the reference behaviour: no poll limit (D7), chip-select asserted LOW (D2), and the
three serial parameters the spec leaves open (log 6, log 7). -/
def Config.reference : Config :=
  { readyPollLimit := none
    csAssertLevel := .low
    spiCpol := Config.openCpol
    spiCpha := Config.openCpha
    spiClkdiv := Config.openClkdiv }

/-- Free value (log 5): the environment's k-th unconstrained answer to `Init()` (93_implementation_defined.md U3). -/
opaque Config.freeInit : Nat → Bool

/-- Free value (log 5): the environment's k-th unconstrained ready sample (93_implementation_defined.md U4). -/
opaque Config.freeLevel : Nat → Level

/-- Free value (log 5): the environment's k-th unconstrained inbound byte (93_implementation_defined.md U5). -/
opaque Config.freeByte : Nat → Byte

/-- PRE_DATA_WRITE, the preamble of a plain data write (00_scope.md R6, 30_encoding.md R77). -/
abbrev preDataWrite : Word := 0x0000#16

/-- PRE_DATA_READ, the preamble of a data read (00_scope.md R6, 30_encoding.md R77). -/
abbrev preDataRead : Word := 0x1000#16

/-- PRE_COMMAND, the preamble of a command write (00_scope.md R6, 30_encoding.md R77). -/
abbrev preCommand : Word := 0x6000#16

/-- READY_LEVEL, the level of the ready input that means ready (00_scope.md R6). -/
abbrev readyLevel : Level := .high

/-- RESET_ASSERT_LEVEL, the level that holds the device in reset (00_scope.md R6). -/
abbrev resetAssertLevel : Level := .low

/-- T_RESET_HOLD, in milliseconds (00_scope.md R6). -/
abbrev tResetHold : Nat := 100

end Sys2Proof
end

