-- ==== Sys2Proof/Syntax.lean ====
section
/-!
DEFINITION. The syntax of the block: the twelve operations a host can offer (30_encoding.md R86) and the three
preamble Words of the wire (30_encoding.md R77), one constructor per row of spec/opcode_table.json; the items of
the host descriptor (R71); and the reasons a descriptor spells no operation (R83).
-/

namespace Sys2Proof

/-- LA, the line assignment: three roles, each independently optional (10_state.md R22). -/
structure LineAssign where
  ready : Option Pin
  chipSelect : Option Pin
  reset : Option Pin
deriving DecidableEq, Repr

/-- DEFAULT_LA, the value a host passes to OPEN when it has no other (10_state.md R23). -/
def LineAssign.default : LineAssign :=
  { ready := some 24, chipSelect := some 8, reset := some 17 }

/-- The operations (30_encoding.md R86) and the preamble Words (30_encoding.md R77). -/
inductive Instr where
  /-- OPEN(la), 40_lifecycle_and_lines.md R103. -/
  | openOp (la : LineAssign)
  /-- CLOSE, 40_lifecycle_and_lines.md R106. -/
  | closeOp
  /-- RESET_DEVICE, 40_lifecycle_and_lines.md R107. -/
  | resetDevice
  /-- WAIT_READY, 40_lifecycle_and_lines.md R108. -/
  | waitReady
  /-- READ(preamble, count), 41_transport_transfers.md R135. -/
  | read (preamble : Word) (count : Nat)
  /-- WRITE(preamble, words), 41_transport_transfers.md R137. -/
  | write (preamble : Word) (words : List Word)
  /-- WRITE_BULK(bytes), 41_transport_transfers.md R139. -/
  | writeBulk (bytes : List Byte)
  /-- WRITE_COMMAND(code, args), 42_command_layer.md R172. -/
  | writeCommand (code : Word) (args : List Word)
  /-- WRITE_DATA(words), 42_command_layer.md R170. -/
  | writeData (words : List Word)
  /-- READ_DATA(n), 42_command_layer.md R171. -/
  | readData (count : Nat)
  /-- READ_SINGLE_WORD, 42_command_layer.md R174. -/
  | readSingleWord
  /-- WRITE_PIXELS(pixel_words), 42_command_layer.md R176. -/
  | writePixels (words : List Word)
  /-- The preamble Word 0x0000 on the wire, 30_encoding.md R77. -/
  | preambleWriteData
  /-- The preamble Word 0x1000 on the wire, 30_encoding.md R77. -/
  | preambleReadData
  /-- The preamble Word 0x6000 on the wire, 30_encoding.md R77. -/
  | preambleWriteCommand
deriving DecidableEq, Repr

/-- Is this one of the twelve operations a host can offer (00_scope.md R2)? A preamble Word is not. -/
def Instr.isOperation : Instr → Bool
  | .openOp _ => true
  | .closeOp => true
  | .resetDevice => true
  | .waitReady => true
  | .read _ _ => true
  | .write _ _ => true
  | .writeBulk _ => true
  | .writeCommand _ _ => true
  | .writeData _ => true
  | .readData _ => true
  | .readSingleWord => true
  | .writePixels _ => true
  | .preambleWriteData => false
  | .preambleReadData => false
  | .preambleWriteCommand => false

/-- Is this one of the five Command Layer operations (00_scope.md R2)? -/
def Instr.isCommandLayer : Instr → Bool
  | .openOp _ => false
  | .closeOp => false
  | .resetDevice => false
  | .waitReady => false
  | .read _ _ => false
  | .write _ _ => false
  | .writeBulk _ => false
  | .writeCommand _ _ => true
  | .writeData _ => true
  | .readData _ => true
  | .readSingleWord => true
  | .writePixels _ => true
  | .preambleWriteData => false
  | .preambleReadData => false
  | .preambleWriteCommand => false

/-- One transfer session: its kind, its preamble and its operand (30_encoding.md R78 to R80). -/
inductive Session where
  /-- The session of READ(preamble, count). -/
  | read (preamble : Word) (count : Nat)
  /-- The session of WRITE(preamble, words). -/
  | write (preamble : Word) (words : List Word)
  /-- The session of WRITE_BULK(bytes); its preamble is 0x0000. -/
  | bulk (bytes : List Byte)
deriving DecidableEq, Repr

/-- One item of what the host hands over: a 32-bit header or argument word, or a payload item
(30_encoding.md R71; the items are not split into bytes, log 8). -/
inductive HostItem where
  | word32 (v : BitVec 32)
  | word16 (v : Word)
  | byte (v : Byte)
deriving DecidableEq, Repr

/-- Why what the host offers spells no operation (30_encoding.md R83; log 9, log 16). -/
inductive DecodeError where
  /-- The host offers nothing (70_reset_and_hazards.md R245). -/
  | nothingOffered
  /-- The first item is not a 32-bit header (log 9). -/
  | notAHeader
  /-- OPSEL is 0x7, 0xD, 0xE or 0xF. -/
  | reservedOpsel
  /-- RSV is not zero. -/
  | reservedField
  /-- ARG16 is not zero where R72 says 0. -/
  | argNotZero
  /-- The argument word W1 is missing or is not a 32-bit item (log 9). -/
  | missingArgument
  /-- A reserved bit of LINEASSIGN is not zero (30_encoding.md R73). -/
  | lineAssignReserved
  /-- A pin field of LINEASSIGN is not zero while its valid bit is clear (30_encoding.md R73). -/
  | pinWithoutValid
  /-- Two assigned roles name the same pin (30_encoding.md R73). -/
  | rolesSharePin
  /-- Fewer payload items than LEN (log 9). -/
  | payloadShort
  /-- A payload item of the wrong kind (log 9). -/
  | payloadKind
  /-- A 16-bit Word that is none of the three preambles (30_encoding.md R77). -/
  | notAPreamble
deriving DecidableEq, Repr

end Sys2Proof
end

