-- ==== Sys2Proof/WellFormed.lean ====
section
/-!
DEFINITION. Well-formed operations. `LineAssign.RolesDistinct` is the one validity condition the spec puts on an
operation itself (30_encoding.md R73, R83). `Instr.WellFormed` adds the bounds of the host descriptor, 8 bits for a
pin and 32 bits for a count or length (00_scope.md R6): the operations that have an encoding. The machine does not
ask for the bounds (92_eei_decisions.md D11, D12).
-/

namespace Sys2Proof

/-- Do two roles name the same pin? Two unassigned roles do not. -/
def samePin : Option Pin → Option Pin → Bool
  | some p, some q => p == q
  | _, _ => false

/-- No two assigned roles name the same pin (30_encoding.md R73). -/
def LineAssign.rolesDistinct (la : LineAssign) : Bool :=
  !samePin la.ready la.chipSelect && !samePin la.ready la.reset && !samePin la.chipSelect la.reset

/-- A pin that fits the descriptor's 8 bits (00_scope.md R6 `PIN_BITS`). -/
def pinFits : Option Pin → Bool
  | none => true
  | some p => decide (p < 2 ^ 8)

/-- A count or length that fits the descriptor's 32 bits (00_scope.md R6 `LEN_BITS`). -/
def lenFits (k : Nat) : Bool := decide (k < 2 ^ 32)

/-- The operation has a descriptor (30_encoding.md R71 to R74), or is a preamble Word (R77). -/
def Instr.wellFormed : Instr → Bool
  | .openOp la => la.rolesDistinct && pinFits la.ready && pinFits la.chipSelect && pinFits la.reset
  | .closeOp => true
  | .resetDevice => true
  | .waitReady => true
  | .read _ count => lenFits count
  | .write _ words => lenFits words.length
  | .writeBulk bytes => lenFits bytes.length
  | .writeCommand _ args => lenFits args.length
  | .writeData words => lenFits words.length
  | .readData count => lenFits count
  | .readSingleWord => true
  | .writePixels words => lenFits words.length
  | .preambleWriteData => true
  | .preambleReadData => true
  | .preambleWriteCommand => true

/-- `Instr.wellFormed` as a proposition. -/
abbrev Instr.WellFormed (i : Instr) : Prop := i.wellFormed = true

end Sys2Proof
end

