-- ==== Sys2Proof/Decode.lean ====
section
/-!
DEFINITION. The decoder of the host descriptor (30_encoding.md R71 to R74, rejections R83) and of the preamble Word
of the wire (30_encoding.md R77), and after it the encoder written from the same tables.
A descriptor is read from a stream of items: a header, for the formats L1 and LP an argument word, for LP the payload.
What follows the descriptor in the stream is left for the next one.
-/

namespace Sys2Proof

/-! ### The header's fields (30_encoding.md R71) -/

/-- OPSEL = H[31:28]. -/
def headerOpsel (h : BitVec 32) : Nat := (h.extractLsb' 28 4).toNat

/-- RSV = H[27:16], which must be zero. -/
def headerRsv (h : BitVec 32) : BitVec 12 := h.extractLsb' 16 12

/-- ARG16 = H[15:0]. -/
def headerArg (h : BitVec 32) : Word := h.extractLsb' 0 16

/-! ### The items after the header -/

/-- The argument word W1 of the formats L1 and LP, and what follows it. -/
def takeArgument : List HostItem → Except DecodeError (BitVec 32 × List HostItem)
  | .word32 w :: rest => .ok (w, rest)
  | .word16 _ :: _ => .error .missingArgument
  | .byte _ :: _ => .error .missingArgument
  | [] => .error .missingArgument

/-- `k` payload items that are Words, in index order, and what follows them. -/
def takeWords : Nat → List HostItem → Except DecodeError (List Word × List HostItem)
  | 0, items => .ok ([], items)
  | _ + 1, [] => .error .payloadShort
  | k + 1, .word16 w :: rest =>
    match takeWords k rest with
    | .ok (ws, rest') => .ok (w :: ws, rest')
    | .error e => .error e
  | _ + 1, .word32 _ :: _ => .error .payloadKind
  | _ + 1, .byte _ :: _ => .error .payloadKind

/-- `k` payload items that are bytes, in index order, and what follows them. -/
def takeBytes : Nat → List HostItem → Except DecodeError (List Byte × List HostItem)
  | 0, items => .ok ([], items)
  | _ + 1, [] => .error .payloadShort
  | k + 1, .byte b :: rest =>
    match takeBytes k rest with
    | .ok (bs, rest') => .ok (b :: bs, rest')
    | .error e => .error e
  | _ + 1, .word32 _ :: _ => .error .payloadKind
  | _ + 1, .word16 _ :: _ => .error .payloadKind

/-! ### LINEASSIGN (30_encoding.md R73) -/

/-- One role of LINEASSIGN: its valid bit and its pin field. -/
def decodeRole (valid : Bool) (pin : BitVec 8) : Except DecodeError (Option Pin) :=
  if valid then .ok (some pin.toNat)
  else if pin = 0#8 then .ok none
  else .error .pinWithoutValid

/-- LINEASSIGN: bit 31 and bits 27:24 reserved, RST_V = 30, CS_V = 29, RDY_V = 28, RST_PIN = 23:16,
CS_PIN = 15:8, RDY_PIN = 7:0; two roles on one pin are refused. -/
def decodeLineAssign (w : BitVec 32) : Except DecodeError LineAssign :=
  if w.getLsbD 31 || w.extractLsb' 24 4 != 0#4 then .error .lineAssignReserved
  else
    match decodeRole (w.getLsbD 28) (w.extractLsb' 0 8), decodeRole (w.getLsbD 29) (w.extractLsb' 8 8),
        decodeRole (w.getLsbD 30) (w.extractLsb' 16 8) with
    | .ok ready, .ok chipSelect, .ok reset =>
      if (LineAssign.mk ready chipSelect reset).rolesDistinct then .ok ⟨ready, chipSelect, reset⟩
      else .error .rolesSharePin
    | .error e, _, _ => .error e
    | .ok _, .error e, _ => .error e
    | .ok _, .ok _, .error e => .error e

/-! ### The formats L0, L1 and LP (30_encoding.md R71) -/

/-- Format L0: the header alone. -/
def formatL0 (i : Instr) (rest : List HostItem) : Except DecodeError (Instr × List HostItem) :=
  .ok (i, rest)

/-- Format L1 of OPEN: the argument word is LINEASSIGN. -/
def formatOpen (rest : List HostItem) : Except DecodeError (Instr × List HostItem) :=
  match takeArgument rest with
  | .error e => .error e
  | .ok (w, rest') =>
    match decodeLineAssign w with
    | .error e => .error e
    | .ok la => .ok (.openOp la, rest')

/-- Format L1 with W1 = COUNT. -/
def formatCount (mk : Nat → Instr) (rest : List HostItem) : Except DecodeError (Instr × List HostItem) :=
  match takeArgument rest with
  | .error e => .error e
  | .ok (w, rest') => .ok (mk w.toNat, rest')

/-- Format LP with a payload of Words: W1 = LEN, then LEN Words. -/
def formatWords (mk : List Word → Instr) (rest : List HostItem) : Except DecodeError (Instr × List HostItem) :=
  match takeArgument rest with
  | .error e => .error e
  | .ok (w, rest') =>
    match takeWords w.toNat rest' with
    | .error e => .error e
    | .ok (ws, rest'') => .ok (mk ws, rest'')

/-- Format LP with a payload of bytes: W1 = LEN, then LEN bytes. -/
def formatBytes (mk : List Byte → Instr) (rest : List HostItem) : Except DecodeError (Instr × List HostItem) :=
  match takeArgument rest with
  | .error e => .error e
  | .ok (w, rest') =>
    match takeBytes w.toNat rest' with
    | .error e => .error e
    | .ok (bs, rest'') => .ok (mk bs, rest'')

/-- Where R72 says that ARG16 is 0, it must be. -/
def zeroArg (arg : Word) (k : Except DecodeError (Instr × List HostItem)) :
    Except DecodeError (Instr × List HostItem) :=
  if arg = 0#16 then k else .error .argNotZero

/-- The operation selector (30_encoding.md R72). -/
def decodeBody (opsel : Nat) (arg : Word) (rest : List HostItem) : Except DecodeError (Instr × List HostItem) :=
  match opsel with
  | 0x0 => zeroArg arg (formatOpen rest)
  | 0x1 => zeroArg arg (formatL0 .closeOp rest)
  | 0x2 => zeroArg arg (formatL0 .resetDevice rest)
  | 0x3 => zeroArg arg (formatL0 .waitReady rest)
  | 0x4 => formatCount (.read arg) rest
  | 0x5 => formatWords (.write arg) rest
  | 0x6 => zeroArg arg (formatBytes .writeBulk rest)
  | 0x8 => formatWords (.writeCommand arg) rest
  | 0x9 => zeroArg arg (formatWords .writeData rest)
  | 0xA => zeroArg arg (formatCount .readData rest)
  | 0xB => zeroArg arg (formatL0 .readSingleWord rest)
  | 0xC => zeroArg arg (formatWords .writePixels rest)
  | _ => .error .reservedOpsel

/-- Is OPSEL reserved (30_encoding.md R72, R83)? -/
def opselReserved (opsel : Nat) : Bool := opsel == 0x7 || decide (0xD ≤ opsel)

/-- A descriptor that begins with the header `h`: a reserved OPSEL, then a non-zero RSV, are refused first. -/
def decodeHeader (h : BitVec 32) (rest : List HostItem) : Except DecodeError (Instr × List HostItem) :=
  if opselReserved (headerOpsel h) then .error .reservedOpsel
  else if headerRsv h ≠ 0#12 then .error .reservedField
  else decodeBody (headerOpsel h) (headerArg h) rest

/-- The decoder of the host descriptor: the first operation of a stream of items, and what follows it. -/
def decodeDescriptor : List HostItem → Except DecodeError (Instr × List HostItem)
  | [] => .error .nothingOffered
  | .word32 h :: rest => decodeHeader h rest
  | .word16 _ :: _ => .error .notAHeader
  | .byte _ :: _ => .error .notAHeader

/-- The decoder of the wire's preamble Word (30_encoding.md R77): three values have a name. -/
def decodePreamble (w : Word) : Option Instr :=
  if w = preDataWrite then some .preambleWriteData
  else if w = preDataRead then some .preambleReadData
  else if w = preCommand then some .preambleWriteCommand
  else none

/-- Both encodings of 30_encoding.md R70: a 16-bit Word is a preamble of the wire, a 32-bit one begins a descriptor. -/
def decode : List HostItem → Except DecodeError (Instr × List HostItem)
  | .word16 w :: rest =>
    match decodePreamble w with
    | some i => .ok (i, rest)
    | none => .error .notAPreamble
  | [] => decodeDescriptor []
  | .word32 h :: rest => decodeDescriptor (.word32 h :: rest)
  | .byte b :: rest => decodeDescriptor (.byte b :: rest)

/-! ### The encoder (30_encoding.md R71 to R74, R77) -/

/-- The header word: OPSEL, RSV = 0, ARG16. -/
def encodeHeader (opsel : BitVec 4) (arg : Word) : HostItem :=
  .word32 (opsel ++ 0#12 ++ arg)

/-- A role's valid bit. -/
def encodeValid : Option Pin → BitVec 1
  | none => 0#1
  | some _ => 1#1

/-- A role's pin field: zero when the role has no pin. -/
def encodePin : Option Pin → BitVec 8
  | none => 0#8
  | some p => BitVec.ofNat 8 p

/-- LINEASSIGN (30_encoding.md R73). -/
def encodeLineAssign (la : LineAssign) : BitVec 32 :=
  0#1 ++ encodeValid la.reset ++ encodeValid la.chipSelect ++ encodeValid la.ready ++ 0#4
    ++ encodePin la.reset ++ encodePin la.chipSelect ++ encodePin la.ready

/-- An argument word that is a count or a length. -/
def encodeCount (k : Nat) : HostItem := .word32 (BitVec.ofNat 32 k)

/-- The descriptor of an operation, or the Word of a preamble. -/
def encode : Instr → List HostItem
  | .openOp la => [encodeHeader 0x0#4 0#16, .word32 (encodeLineAssign la)]
  | .closeOp => [encodeHeader 0x1#4 0#16]
  | .resetDevice => [encodeHeader 0x2#4 0#16]
  | .waitReady => [encodeHeader 0x3#4 0#16]
  | .read p count => [encodeHeader 0x4#4 p, encodeCount count]
  | .write p ws => encodeHeader 0x5#4 p :: encodeCount ws.length :: ws.map .word16
  | .writeBulk bs => encodeHeader 0x6#4 0#16 :: encodeCount bs.length :: bs.map .byte
  | .writeCommand code args => encodeHeader 0x8#4 code :: encodeCount args.length :: args.map .word16
  | .writeData ws => encodeHeader 0x9#4 0#16 :: encodeCount ws.length :: ws.map .word16
  | .readData count => [encodeHeader 0xA#4 0#16, encodeCount count]
  | .readSingleWord => [encodeHeader 0xB#4 0#16]
  | .writePixels ws => encodeHeader 0xC#4 0#16 :: encodeCount ws.length :: ws.map .word16
  | .preambleWriteData => [.word16 preDataWrite]
  | .preambleReadData => [.word16 preDataRead]
  | .preambleWriteCommand => [.word16 preCommand]

/-! ### The opcode table's numbering of bits -/

/-- How many payload items, and of which width, follow the argument word of the header `h`. -/
def tablePayload (opsel len w : Nat) : List HostItem :=
  match opsel with
  | 0x5 => (List.range len).map fun k => .word16 (BitVec.ofNat 16 (w >>> (64 + 16 * k)))
  | 0x6 => (List.range len).map fun k => .byte (BitVec.ofNat 8 (w >>> (64 + 8 * k)))
  | 0x8 => (List.range len).map fun k => .word16 (BitVec.ofNat 16 (w >>> (64 + 16 * k)))
  | 0x9 => (List.range len).map fun k => .word16 (BitVec.ofNat 16 (w >>> (64 + 16 * k)))
  | 0xC => (List.range len).map fun k => .word16 (BitVec.ofNat 16 (w >>> (64 + 16 * k)))
  | _ => []

/-- Has the format of this OPSEL an argument word (L1 or LP, 30_encoding.md R72)? -/
def hasArgument (opsel : Nat) : Bool :=
  opsel == 0x0 || opsel == 0x4 || opsel == 0x5 || opsel == 0x6 || opsel == 0x8 || opsel == 0x9 ||
    opsel == 0xA || opsel == 0xC

/-- The items of the descriptor whose bits are `w`, numbered as the opcode table numbers them: the header in bits
31:0, the argument word in bits 63:32, the payload above. Only the low `nbits` bits of `w` count. -/
def tableItems (nbits w : Nat) : List HostItem :=
  let v := w % 2 ^ nbits
  let h := BitVec.ofNat 32 v
  let w1 := (v >>> 32) % 2 ^ 32
  if hasArgument (headerOpsel h) then
    .word32 h :: .word32 (BitVec.ofNat 32 w1) :: tablePayload (headerOpsel h) w1 v
  else [.word32 h]

/-- The instruction the decoder reads from an instruction whose bits are `w` (the host's question): a row of at most
16 bits is a preamble Word, a longer one a host descriptor. -/
def decodeTableWord (nbits w : Nat) : Option Instr :=
  if nbits ≤ 16 then decodePreamble (BitVec.ofNat 16 (w % 2 ^ nbits))
  else
    match decodeDescriptor (tableItems nbits w) with
    | .ok (i, _) => some i
    | .error _ => none

end Sys2Proof
end

