-- ==== Sys2Proof/Machine/State.lean ====
section
/-!
DEFINITION. The state of the block: every piece of state 10_state.md names, the parameters, and the outside world
as plain data; its reset value (10_state.md R38); the two ways a step can stop.
-/

namespace Sys2Proof.Machine

/-- STATUS, the lifecycle status (10_state.md R21). -/
inductive Status where
  | unopened
  | opened
  | closed
deriving DecidableEq, Repr

/-- The logical state of the chip-select output (10_state.md R24). -/
inductive CsState where
  | asserted
  | deasserted
deriving DecidableEq, Repr

/-- The direction of a pin (00_scope.md R8). -/
inductive Direction where
  | input
  | output
deriving DecidableEq, Repr

/-- The pull of a pin: the only mode any rule uses is DOWN (00_scope.md R8). -/
inductive Pull where
  | down
deriving DecidableEq, Repr

/-- What the peripheral service remembers of a configured pin (10_state.md R34). -/
structure PinConf where
  direction : Direction
  pull : Option Pull
deriving DecidableEq, Repr

/-- The bit order of the serial mode: most-significant bit first (00_scope.md R6 `BIT_ORDER`). -/
inductive BitOrder where
  | msbFirst
deriving DecidableEq, Repr

/-- SPICFG, the serial mode the peripheral holds (10_state.md R35). -/
structure SpiMode where
  bitOrder : BitOrder
  cpol : Bool
  cpha : Bool
  clkdiv : Nat
deriving DecidableEq, Repr

/-- PH, the sequencer phases (41_transport_transfers.md R143). -/
inductive Phase where
  | idle | chk
  | rdy1 | csA | preH | preL | rdy2 | dmy0 | dmy1 | rdy3 | rdH | rdL | wrH | wrL | blk | csD | abort
  | init | cfgCs | cfgRst | cfgRdy | pullRdy | csInit | close | rstA | rstHold | rstD | wait
  | done
deriving DecidableEq, Repr

/-- The result kinds an operation can end with (60_exceptions.md R200). -/
inductive ErrKind where
  | ok
  | initializationError
  | configurationError
  | emptyResponseError
  | deviceNotRespondingError
deriving DecidableEq, Repr

/-- The numeric code of a result kind (60_exceptions.md R200). -/
def ErrKind.code : ErrKind → Byte
  | .ok => 0x00#8
  | .initializationError => 0x01#8
  | .configurationError => 0x02#8
  | .emptyResponseError => 0x03#8
  | .deviceNotRespondingError => 0x04#8

/-- An event of the peripheral-service boundary with the environment's answer (00_scope.md R8). -/
inductive Event where
  | init (ok : Bool)
  | close
  | configurePin (p : Pin) (d : Direction)
  | setPull (p : Pin) (m : Pull)
  | writePin (p : Pin) (l : Level)
  | readPin (p : Pin) (answer : Level)
  | xfer (tx : Byte) (rx : Byte)
  | xferBulk (buf : List Byte)
  | hold (milliseconds : Nat)
deriving DecidableEq, Repr

/-- The response the host gets when an operation ends (30_encoding.md R75). -/
structure Response where
  code : Byte
  info : Nat
  result : List Word
deriving DecidableEq, Repr

/-- The environment as plain data (00_scope.md R5; log 5): its answers still to come, and the number of free values
already drawn. When a list is empty the answer is an opaque free value of `Config`. -/
@[ext] structure Env where
  /-- Answers to `Init()`. -/
  initAnswers : List Bool
  /-- Levels the ready line shows at each `ReadPin`. -/
  readyLevels : List Level
  /-- Bytes that come back from each `Xfer`. -/
  rxBytes : List Byte
  /-- The model's own counter of free values drawn. -/
  draws : Nat
deriving DecidableEq, Repr

/-- The state of the block. -/
@[ext]
structure State where
  /-- The parameters of 00_scope.md R6 that are arguments of the model; no step writes them. -/
  cfg : Config
  /-- STATUS (10_state.md R21). -/
  status : Status
  /-- LA (10_state.md R22). -/
  la : LineAssign
  /-- CS_OUT (10_state.md R24). -/
  csOut : Option CsState
  /-- RST_OUT (10_state.md R25). -/
  rstOut : Option Level
  /-- PINCFG (10_state.md R34): pin and configuration, pins strictly rising; a pin not listed is `none` (log 23). -/
  pincfg : List (Pin × PinConf)
  /-- SPICFG (10_state.md R35). -/
  spicfg : SpiMode
  /-- BUSY (10_state.md R30). -/
  busy : Bool
  /-- OP (10_state.md R28), with the operands the host keeps unchanged (20_memory.md R51). -/
  op : Option Instr
  /-- PH (10_state.md R28). -/
  ph : Phase
  /-- ERR (10_state.md R31). -/
  err : ErrKind
  /-- PRE (10_state.md R27). -/
  pre : Word
  /-- N (10_state.md R27). -/
  n : Nat
  /-- IDX (10_state.md R27). -/
  idx : Nat
  /-- RXH (10_state.md R27). -/
  rxh : Byte
  /-- POLLS (10_state.md R27, R36). -/
  polls : Nat
  /-- SUB (10_state.md R27). -/
  sub : Nat
  /-- RES (10_state.md R32). -/
  res : List Word
  /-- TRACE, the ghost variable of the observation (10_state.md R33), oldest event first. -/
  trace : List Event
  /-- The code that goes with `S_DONE` in the tables of 41_transport_transfers.md R144 and R145 (log 4). -/
  doneCode : ErrKind
  /-- The info that goes with `S_DONE` (log 4). -/
  doneInfo : Nat
  /-- The responses given to the host, oldest first (log 24). -/
  responses : List Response
  /-- The descriptor items the host has still to hand over, in order (log 8). A finite list, fixed before the run: that the offers of
  70_reset_and_hazards.md R245 are held so is the model's choice (log 33). -/
  host : List HostItem
  /-- The environment (log 5). -/
  env : Env
deriving DecidableEq, Repr

/-- States in which no row of the transition tables applies: no run reaches them (log 13). All are safe: the
model stops where the spec describes no step. -/
inductive Fault where
  /-- BUSY = 1 with no operation in OP. Raised by the fetch. Safe. -/
  | noOperation
  /-- The tables of 41_transport_transfers.md R144 and R145 have no row for this (OP, PH). Raised by the row of an
  operation or of a preamble. Safe. -/
  | noRow
  /-- A phase that uses a line whose role has no pin. Raised by the row of an operation. Safe. -/
  | roleUnassigned
  /-- `words[IDX]` does not exist. Raised by the row S_WR_H or S_WR_L. Safe. -/
  | noOperand
  /-- SUB counts past the last session. Raised by the rows of a Command Layer operation. Safe. -/
  | noSession
deriving DecidableEq, Repr

/-- Requests the spec gives no meaning (60_exceptions.md R213), and a complete run. All are safe: a refused run
proves nothing. -/
inductive Refusal where
  /-- An instruction that has no meaning yet. Raised by exec's arms only. Safe. -/
  | notModelled (mnemonic : String)
  /-- The host's next items spell no operation (30_encoding.md R83). Raised by the fetch. Safe. -/
  | invalidDescriptor (reason : DecodeError)
  /-- The host offers nothing and BUSY = 0: the run is complete (70_reset_and_hazards.md R245; log 15). Raised by the
  fetch. Safe. -/
  | nothingOffered
  /-- An operation offered while another is in flight (10_state.md R30). Raised by every operation. Safe. -/
  | offeredWhileBusy
  /-- OPEN with two roles on one pin (30_encoding.md R73). Raised by OPEN. Safe. -/
  | rolesSharePin
  /-- OPEN when STATUS is not UNOPENED (40_lifecycle_and_lines.md R100). Raised by OPEN. Safe. -/
  | notUnopened
  /-- An operation other than OPEN and CLOSE when STATUS is not OPEN (40_lifecycle_and_lines.md R100). Raised by
  those ten operations. Safe. -/
  | notOpened
  /-- A preamble Word that is not the preamble of a session whose preamble exchange is next (log 10). Raised by the three
  preamble rows. Safe. -/
  | notTheCurrentPreamble
deriving DecidableEq, Repr

/-- What a step of the block answers. -/
abbrev Out := Host.Outcome State Fault Refusal

/-- The state after the block's own reset (10_state.md R38). Values the spec leaves unspecified: log 1, log 2,
log 3; the model's own fields: log 4, log 5, log 8, log 24; the parameters: log 6, log 7. -/
def State.reset : State :=
  { cfg := Config.reference
    status := .unopened
    la := ⟨none, none, none⟩
    csOut := none
    rstOut := none
    pincfg := []
    spicfg := ⟨.msbFirst, false, false, 0⟩
    busy := false
    op := none
    ph := .idle
    err := .ok
    pre := 0#16
    n := 0
    idx := 0
    rxh := 0#8
    polls := 0
    sub := 0
    res := []
    trace := []
    doneCode := .ok
    doneInfo := 0
    responses := []
    host := []
    env := ⟨[], [], [], 0⟩ }

end Sys2Proof.Machine
end

