-- ==== Sys2Proof/Machine/Operands.lean ====
section
/-!
DEFINITION. The operand transformations of the block (30_encoding.md R82): the word functions of 00_scope.md R10, the
electrical level of chip-select, the keyed collection of pin configurations, and the expansion of an operation into
transfer sessions (30_encoding.md R87).
-/

namespace Sys2Proof.Machine

/-! ### The word functions (00_scope.md R10) -/

/-- hi(w) = w[15:8], the most-significant byte. -/
def hi (w : Word) : Byte := w.extractLsb' 8 8

/-- lo(w) = w[7:0], the least-significant byte. -/
def lo (w : Word) : Byte := w.extractLsb' 0 8

/-- word(b0, b1) = (zext_16(b0) << 8) | zext_16(b1); `b0` was received first. -/
def word (b0 b1 : Byte) : Word := (b0.setWidth 16 <<< 8) ||| b1.setWidth 16

/-- pack(ws): the Words as bytes, most-significant byte first. -/
def pack : List Word → List Byte
  | [] => []
  | w :: ws => hi w :: lo w :: pack ws

/-! ### Chip-select levels (10_state.md R24) -/

/-- The electrical level of a logical state of chip-select. -/
def csLevel (c : Config) : CsState → Level
  | .asserted => c.csAssertLevel
  | .deasserted => c.csAssertLevel.flip

/-! ### PINCFG (10_state.md R34; log 23) -/

/-- PINCFG[p]. -/
def pinGet : List (Pin × PinConf) → Pin → Option PinConf
  | [], _ => none
  | (q, c) :: rest, p => if q = p then some c else pinGet rest p

/-- PINCFG[p] <- c, keeping the pins strictly rising. -/
def pinSet : List (Pin × PinConf) → Pin → PinConf → List (Pin × PinConf)
  | [], p, c => [(p, c)]
  | (q, d) :: rest, p, c =>
    if p < q then (p, c) :: (q, d) :: rest
    else if p = q then (p, c) :: rest
    else (q, d) :: pinSet rest p c

/-- The canonical form of PINCFG: pins strictly rising. -/
abbrev PinMapWf (m : List (Pin × PinConf)) : Prop := m.Pairwise fun a b => a.1 < b.1

/-- The entry of an output pin after OPEN: (OUT, none). -/
def outputPin : PinConf := ⟨.output, none⟩

/-- The entry of the ready pin after OPEN: (IN, some DOWN). -/
def readyPin : PinConf := ⟨.input, some .down⟩

/-! ### Roles (30_encoding.md R75, 60_exceptions.md R200) -/

/-- The `info` value of a ConfigurationError for the ready role. -/
def roleReady : Nat := 0

/-- The `info` value of a ConfigurationError for the chip-select role. -/
def roleChipSelect : Nat := 1

/-- The `info` value of a ConfigurationError for the reset role. -/
def roleReset : Nat := 2

/-! ### Sessions (30_encoding.md R78 to R80, R87) -/

/-- The preamble of a session; WRITE_BULK's is 0x0000 (41_transport_transfers.md R139). -/
def sessionPreamble : Session → Word
  | .read p _ => p
  | .write p _ => p
  | .bulk _ => preDataWrite

/-- Does the operation read Words into RES: READ, and the two operations that expand into it (30_encoding.md R87)? -/
def readsWords : Instr → Bool
  | .openOp _ => false
  | .closeOp => false
  | .resetDevice => false
  | .waitReady => false
  | .read _ _ => true
  | .write _ _ => false
  | .writeBulk _ => false
  | .writeCommand _ _ => false
  | .writeData _ => false
  | .readData _ => true
  | .readSingleWord => true
  | .writePixels _ => false
  | .preambleWriteData => false
  | .preambleReadData => false
  | .preambleWriteCommand => false

/-- What N is loaded with: payload Words for READ and WRITE, payload bytes for WRITE_BULK (10_state.md R27). -/
def sessionLength : Session → Nat
  | .read _ count => count
  | .write _ ws => ws.length
  | .bulk bs => bs.length

/-- words[IDX] of a WRITE session; no other session has a Word operand. -/
def sessionWord : Session → Nat → Option Word
  | .read _ _, _ => none
  | .write _ ws, k => ws[k]?
  | .bulk _, _ => none

/-- The expansion of WRITE_COMMAND: the code in a session of its own, then each argument in one of its own. -/
def commandSessions (code : Word) (args : List Word) : List Session :=
  .write preCommand [code] :: args.map fun a => .write preDataWrite [a]

/-- The sessions an operation runs, in order (30_encoding.md R87); none for an operation that moves no data. -/
def sessionsOf : Instr → List Session
  | .openOp _ => []
  | .closeOp => []
  | .resetDevice => []
  | .waitReady => []
  | .read p count => [.read p count]
  | .write p ws => [.write p ws]
  | .writeBulk bs => [.bulk bs]
  | .writeCommand code args => commandSessions code args
  | .writeData ws => [.write preDataWrite ws]
  | .readData count => [.read preDataRead count]
  | .readSingleWord => [.read preDataRead 1]
  | .writePixels ws => [.bulk (pack ws)]
  | .preambleWriteData => []
  | .preambleReadData => []
  | .preambleWriteCommand => []

end Sys2Proof.Machine
end

