-- ==== Sys2Proof/Machine/Flags.lean ====
section
/-!
DEFINITION. The two flags of the block, BUSY (10_state.md R30) and ERR (10_state.md R31): what accepting an operation and
responding to the host do to them (40_lifecycle_and_lines.md R100). There are no condition codes.
-/

namespace Sys2Proof.Machine

/-- The last lines of `accept` (40_lifecycle_and_lines.md R100): BUSY <- 1, OP <- op, and the sequencer at S_CHK. A
Command Layer operation counts its sessions from 0 (41_transport_transfers.md R145; log 12). RES is empty at the start of a
read (10_state.md R32; log 30). The other datapath registers keep what the last operation left in them (log 32). The arguments
of S_DONE are those of OK until the tables set them (log 4). -/
def State.begin (i : Instr) (s : State) : State :=
  { s with
    busy := true
    op := some i
    ph := .chk
    sub := if i.isCommandLayer then 0 else s.sub
    res := if readsWords i then [] else s.res
    doneCode := .ok
    doneInfo := 0 }

/-- `respond(code, info, result)` (40_lifecycle_and_lines.md R100): ERR <- code, BUSY <- 0, OP <- none, PH <- S_IDLE, and
the response goes to the host. The arguments of S_DONE are used up (log 4). PRE, N, IDX, RXH, POLLS, SUB and RES keep the values
of the operation that ends, where 93_implementation_defined.md U19 allows any (log 32, the model's choice). -/
def State.respond (k : ErrKind) (info : Nat) (result : List Word) (s : State) : State :=
  { s with
    err := k
    busy := false
    op := none
    ph := .idle
    doneCode := .ok
    doneInfo := 0
    responses := s.responses ++ [⟨k.code, info, result⟩] }

end Sys2Proof.Machine
end

