-- ==== Sys2Proof/Machine/Ops.lean ====
section
/-!
DEFINITION. The operations every meaning is built from: the events of 00_scope.md R8, the line procedures of
40_lifecycle_and_lines.md, error entry (60_exceptions.md R208, 41_transport_transfers.md R147), acceptance
(40_lifecycle_and_lines.md R100), the wait row, and the rows of a transfer session (41_transport_transfers.md R144).
-/

namespace Sys2Proof.Machine

/-! ### Events -/

/-- Append one event to TRACE (10_state.md R33). -/
def State.emit (e : Event) (s : State) : State := { s with trace := s.trace ++ [e] }

/-- The environment's next answer to `Init()` (log 5). -/
def Env.takeInit (v : Env) : Bool × Env :=
  match v.initAnswers with
  | a :: rest => (a, { v with initAnswers := rest })
  | [] => (Config.freeInit v.draws, { v with draws := v.draws + 1 })

/-- The environment's next level of the ready line (log 5). -/
def Env.takeLevel (v : Env) : Level × Env :=
  match v.readyLevels with
  | a :: rest => (a, { v with readyLevels := rest })
  | [] => (Config.freeLevel v.draws, { v with draws := v.draws + 1 })

/-- The environment's next inbound byte (log 5). -/
def Env.takeByte (v : Env) : Byte × Env :=
  match v.rxBytes with
  | a :: rest => (a, { v with rxBytes := rest })
  | [] => (Config.freeByte v.draws, { v with draws := v.draws + 1 })

/-- `Init()`, with its answer. -/
def State.evInit (s : State) : Bool × State :=
  (s.env.takeInit.1, State.emit (.init s.env.takeInit.1) { s with env := s.env.takeInit.2 })

/-- `ReadPin(p)`, with its answer. -/
def State.evReadPin (p : Pin) (s : State) : Level × State :=
  (s.env.takeLevel.1, State.emit (.readPin p s.env.takeLevel.1) { s with env := s.env.takeLevel.2 })

/-- `Xfer(tx)`, with the received byte (41_transport_transfers.md R130). -/
def State.evXfer (tx : Byte) (s : State) : Byte × State :=
  (s.env.takeByte.1, State.emit (.xfer tx s.env.takeByte.1) { s with env := s.env.takeByte.2 })

/-! ### The sequencer -/

/-- `PH <- p`. -/
def State.goto (p : Phase) (s : State) : State := { s with ph := p }

/-- To `S_DONE` with `(code, info)`. -/
def State.finish (k : ErrKind) (info : Nat) (s : State) : State :=
  { s with ph := .done, doneCode := k, doneInfo := info }

/-- `POLLS <- 0`, as a wait begins (10_state.md R36). -/
def State.startWait (s : State) : State := { s with polls := 0 }

/-- `POLLS <- POLLS + 1`, after a LOW sample (10_state.md R36). -/
def State.countPoll (s : State) : State := { s with polls := s.polls + 1 }

/-- `PRE` and `N` loaded from the operands of a session (41_transport_transfers.md R144). -/
def State.load (ses : Session) (s : State) : State := { s with pre := sessionPreamble ses, n := sessionLength ses }

/-- `IDX <- IDX + 1`. -/
def State.nextIdx (s : State) : State := { s with idx := s.idx + 1 }

/-- `IDX <- 0`. -/
def State.clearIdx (s : State) : State := { s with idx := 0 }

/-- `RES <- []`. -/
def State.clearRes (s : State) : State := { s with res := [] }

/-- `RXH <- b`. -/
def State.latch (b : Byte) (s : State) : State := { s with rxh := b }

/-- `RES <- RES ++ [w]`. -/
def State.pushRes (w : Word) (s : State) : State := { s with res := s.res ++ [w] }

/-- `PINCFG[p] <- c` (10_state.md R34). -/
def State.setPin (p : Pin) (c : PinConf) (s : State) : State := { s with pincfg := pinSet s.pincfg p c }

/-- `SPICFG <- m` (10_state.md R35). -/
def State.setMode (m : SpiMode) (s : State) : State := { s with spicfg := m }

/-- `LA <- la ; STATUS <- OPEN` (40_lifecycle_and_lines.md R103). -/
def State.setOpened (la : LineAssign) (s : State) : State := { s with la := la, status := .opened }

/-- `STATUS <- CLOSED`; PINCFG, CS_OUT and RST_OUT become none (40_lifecycle_and_lines.md R106). -/
def State.setClosed (s : State) : State := { s with status := .closed, pincfg := [], csOut := none, rstOut := none }

/-! ### Error entry (60_exceptions.md R208) -/

/-- `raise K(info)` with chip-select not asserted: no further event; the operation ends with `K` at S_DONE, where ERR,
BUSY, OP and PH are written and the response given. Nothing is saved and no mode changes. There is no return from an error
(60_exceptions.md R209). -/
def State.raise (k : ErrKind) (info : Nat) (s : State) : State := s.finish k info

/-- `raise DeviceNotRespondingError` with chip-select asserted: `cs_deassert` comes first, at S_ABORT
(41_transport_transfers.md R147). -/
def State.raiseInSession (s : State) : State := s.goto .abort

/-! ### Acceptance (40_lifecycle_and_lines.md R100) -/

/-- The STATUS that `accept` requires. -/
def admits (i : Instr) (status : Status) : Option Refusal :=
  match i with
  | .openOp _ => if status = .unopened then none else some .notUnopened
  | .closeOp => none
  | .resetDevice => if status = .opened then none else some .notOpened
  | .waitReady => if status = .opened then none else some .notOpened
  | .read _ _ => if status = .opened then none else some .notOpened
  | .write _ _ => if status = .opened then none else some .notOpened
  | .writeBulk _ => if status = .opened then none else some .notOpened
  | .writeCommand _ _ => if status = .opened then none else some .notOpened
  | .writeData _ => if status = .opened then none else some .notOpened
  | .readData _ => if status = .opened then none else some .notOpened
  | .readSingleWord => if status = .opened then none else some .notOpened
  | .writePixels _ => if status = .opened then none else some .notOpened
  | .preambleWriteData => some .notTheCurrentPreamble
  | .preambleReadData => some .notTheCurrentPreamble
  | .preambleWriteCommand => some .notTheCurrentPreamble

/-- Is the operation itself valid: no two roles on one pin (30_encoding.md R83)? -/
def offerValid : Instr → Bool
  | .openOp la => la.rolesDistinct
  | .closeOp => true
  | .resetDevice => true
  | .waitReady => true
  | .read _ _ => true
  | .write _ _ => true
  | .writeBulk _ => true
  | .writeCommand _ _ => true
  | .writeData _ => true
  | .readData _ => true
  | .readSingleWord => true
  | .writePixels _ => true
  | .preambleWriteData => true
  | .preambleReadData => true
  | .preambleWriteCommand => true

/-- `accept(op)` with BUSY = 0: one step, no event. -/
def accept (i : Instr) (s : State) : Out :=
  if offerValid i then
    match admits i s.status with
    | none => .next (s.begin i)
    | some r => .refused r
  else .refused .rolesSharePin

/-- One step of the operation `i`: acceptance when the block is idle, the row of the current phase when `i` is the
operation in flight; another operation is not accepted while BUSY = 1 (10_state.md R30; log 11). -/
def operate (i : Instr) (row : State → Out) (s : State) : Out :=
  if s.busy then
    if s.op = some i then row s else .refused .offeredWhileBusy
  else accept i s

/-! ### Lines (40_lifecycle_and_lines.md R101, R102, R109, R110) -/

/-- `cs_assert()` on pin `c`. -/
def State.csAssert (c : Pin) (s : State) : State :=
  { s.emit (.writePin c (csLevel s.cfg .asserted)) with csOut := some .asserted }

/-- `cs_deassert()` on pin `c`. -/
def State.csDeassert (c : Pin) (s : State) : State :=
  { s.emit (.writePin c (csLevel s.cfg .deasserted)) with csOut := some .deasserted }

/-- `WritePin(r, l)` on the reset pin `r` (40_lifecycle_and_lines.md R107). -/
def State.driveReset (r : Pin) (l : Level) (s : State) : State :=
  { s.emit (.writePin r l) with rstOut := some l }

/-- A step that needs a pin the role does not have has no row (log 13). -/
def withPin (p : Option Pin) (k : Pin → State) : Out :=
  match p with
  | some q => .next (k q)
  | none => .fault .roleUnassigned

/-- "limit hit": READY_POLL_LIMIT = some N and POLLS >= N (41_transport_transfers.md R144). -/
def limitHit (s : State) : Bool :=
  match s.cfg.readyPollLimit with
  | none => false
  | some limit => decide (limit ≤ s.polls)

/-- One sample of a wait on pin `y` (40_lifecycle_and_lines.md R109): the state after it, with `onReady` applied after a
HIGH sample and `onLimit` after the LOW sample that hits the limit. -/
def waitSample (onReady onLimit : State → State) (s : State) (y : Pin) : State :=
  let sampled := s.evReadPin y
  if sampled.1 = readyLevel then onReady sampled.2
  else if limitHit sampled.2.countPoll then onLimit sampled.2.countPoll
  else sampled.2.countPoll

/-- A wait phase: one `ReadPin` of the ready pin. -/
def waitRow (onReady onLimit : State → State) (s : State) : Out :=
  withPin s.la.ready (waitSample onReady onLimit s)

/-! ### The rows of a transfer session (41_transport_transfers.md R134, R144) -/

/-- `S_CHK` of a session: chip-select first, then ready, before any event; then PRE and N are loaded and the first
wait begins. -/
def checkTransfer (ses : Session) (s : State) : State :=
  match s.la.chipSelect, s.la.ready with
  | none, _ => s.raise .configurationError roleChipSelect
  | some _, none => s.raise .configurationError roleReady
  | some _, some _ => (s.load ses).startWait.goto .rdy1

/-- `S_PRE_H`: the high byte of PRE; the answer is dropped. -/
def preambleHigh (s : State) : State := (s.evXfer (hi s.pre)).2.goto .preL

/-- `S_PRE_L`: the low byte of PRE; the answer is dropped; the second wait begins. -/
def preambleLow (s : State) : State := (s.evXfer (lo s.pre)).2.startWait.goto .rdy2

/-- Where the second wait of a session ends. -/
def afterSecondWait (ses : Session) (s : State) : State :=
  match ses with
  | .read _ _ => s.goto .dmy0
  | .write _ _ => s.clearIdx.goto (if 0 < s.n then .wrH else .csD)
  | .bulk _ => s.goto .blk

/-- Where the third wait of a read session ends. -/
def afterThirdWait (s : State) : State := s.clearIdx.clearRes.goto (if 0 < s.n then .rdH else .csD)

/-- `S_RD_H`: the first-received byte of a Word. -/
def readHigh (s : State) : State := ((s.evXfer 0x00#8).2.latch (s.evXfer 0x00#8).1).goto .rdL

/-- `S_RD_L`: the second-received byte; the Word is appended to RES. -/
def readLow (s : State) : State :=
  ((s.evXfer 0x00#8).2.pushRes (word s.rxh (s.evXfer 0x00#8).1)).nextIdx.goto
    (if s.idx + 1 < s.n then .rdH else .csD)

/-- `S_WR_H`: the high byte of `words[IDX]`; the answer is dropped. -/
def writeHigh (w : Word) (s : State) : State := (s.evXfer (hi w)).2.goto .wrL

/-- `S_WR_L`: the low byte of `words[IDX]`; the answer is dropped. -/
def writeLow (w : Word) (s : State) : State :=
  (s.evXfer (lo w)).2.nextIdx.goto (if s.idx + 1 < s.n then .wrH else .csD)

/-- A phase that sends a byte of `words[IDX]`. -/
def withOperand (w : Option Word) (k : Word → State) : Out :=
  match w with
  | some v => .next (k v)
  | none => .fault .noOperand

/-- `S_BLK`: the whole buffer in one event (41_transport_transfers.md R133). -/
def bulkRow (ses : Session) (s : State) : Out :=
  match ses with
  | .bulk bs => .next ((s.emit (.xferBulk bs)).goto .csD)
  | .read _ _ => .fault .noRow
  | .write _ _ => .fault .noRow

/-- The rows of a session from `S_CHK` to `S_CS_D` or `S_ABORT` (41_transport_transfers.md R144). -/
def sessionRow (ses : Session) (s : State) : Out :=
  match s.ph with
  | .chk => .next (checkTransfer ses s)
  | .rdy1 => waitRow (State.goto .csA) (State.raise .deviceNotRespondingError 0) s
  | .csA => withPin s.la.chipSelect fun c => (s.csAssert c).goto .preH
  | .preH => .next (preambleHigh s)
  | .preL => .next (preambleLow s)
  | .rdy2 => waitRow (afterSecondWait ses) State.raiseInSession s
  | .dmy0 => .next ((s.evXfer 0x00#8).2.goto .dmy1)
  | .dmy1 => .next ((s.evXfer 0x00#8).2.startWait.goto .rdy3)
  | .rdy3 => waitRow afterThirdWait State.raiseInSession s
  | .rdH => .next (readHigh s)
  | .rdL => .next (readLow s)
  | .wrH => withOperand (sessionWord ses s.idx) fun w => writeHigh w s
  | .wrL => withOperand (sessionWord ses s.idx) fun w => writeLow w s
  | .blk => bulkRow ses s
  | .csD => withPin s.la.chipSelect fun c => (s.csDeassert c).finish .ok 0
  | .abort => withPin s.la.chipSelect fun c => (s.csDeassert c).finish .deviceNotRespondingError 0
  | .idle | .init | .cfgCs | .cfgRst | .cfgRdy | .pullRdy | .csInit | .close | .rstA | .rstHold | .rstD | .wait
  | .done => .fault .noRow

/-! ### The response at `S_DONE` (30_encoding.md R75, 60_exceptions.md R208) -/

/-- The response of an operation that returns no Words. -/
def respondPlain (s : State) : State := s.respond s.doneCode s.doneInfo []

/-- The response of a read: RES when the code is OK, no Words with any other code (10_state.md R32). -/
def respondWords (s : State) : State :=
  s.respond s.doneCode s.doneInfo (if s.doneCode = .ok then s.res else [])

/-- The response of READ_SINGLE_WORD with its length check (42_command_layer.md R174). -/
def respondSingle (s : State) : State :=
  if s.doneCode = .ok then
    match s.res with
    | [] => s.respond .emptyResponseError 0 []
    | w :: _ => s.respond .ok s.doneInfo [w]
  else s.respond s.doneCode s.doneInfo []

/-- `SUB <- SUB + 1` and back to `S_CHK`, without responding and without clearing BUSY (41_transport_transfers.md R145). -/
def State.nextSession (s : State) : State := { s with sub := s.sub + 1, ph := .chk }

/-- The rows of a Transport transfer: the session, then the response. -/
def transportRow (ses : Session) (finish : State → State) (s : State) : Out :=
  if s.ph = .done then .next (finish s) else sessionRow ses s

/-- The rows of a Command Layer operation (41_transport_transfers.md R145): the session of index SUB; at `S_DONE` with
code OK the next session begins if one remains, otherwise the response is given. -/
def commandRow (sessions : List Session) (finish : State → State) (s : State) : Out :=
  match sessions[s.sub]? with
  | none => .fault .noSession
  | some ses =>
    if s.ph = .done then
      if s.doneCode = .ok ∧ s.sub + 1 < sessions.length then .next s.nextSession
      else .next (finish s)
    else sessionRow ses s

end Sys2Proof.Machine
end

