-- ==== Sys2Proof/Machine/Command.lean ====
section
/-!
DEFINITION. The Command Layer operations (42_command_layer.md R170 to R177): each is accepted once, runs the sessions of its
expansion (30_encoding.md R87) back to back, and responds once.
-/

namespace Sys2Proof.Machine

/-- WRITE_COMMAND(code, args) (42_command_layer.md R172): one session for the code and one for each argument. -/
def execWriteCommand (code : Word) (args : List Word) (s : State) : Out :=
  operate (.writeCommand code args) (commandRow (commandSessions code args) respondPlain) s

/-- WRITE_DATA(words) (42_command_layer.md R170): WRITE(0x0000, words). -/
def execWriteData (words : List Word) (s : State) : Out :=
  operate (.writeData words) (commandRow [.write preDataWrite words] respondPlain) s

/-- READ_DATA(n) (42_command_layer.md R171): READ(0x1000, n). -/
def execReadData (count : Nat) (s : State) : Out :=
  operate (.readData count) (commandRow [.read preDataRead count] respondWords) s

/-- READ_SINGLE_WORD (42_command_layer.md R174): READ(0x1000, 1), then element 0, with the length check. -/
def execReadSingleWord (s : State) : Out :=
  operate .readSingleWord (commandRow [.read preDataRead 1] respondSingle) s

/-- WRITE_PIXELS(pixel_words) (42_command_layer.md R176): WRITE_BULK(pack(pixel_words)). -/
def execWritePixels (words : List Word) (s : State) : Out :=
  operate (.writePixels words) (commandRow [.bulk (pack words)] respondPlain) s

end Sys2Proof.Machine
end

