-- ==== Sys2Proof/Machine/Lifecycle.lean ====
section
/-!
DEFINITION. The lifecycle operations OPEN and CLOSE (40_lifecycle_and_lines.md R103 to R106), row by row as
41_transport_transfers.md R145 gives them.
-/

namespace Sys2Proof.Machine

/-! ### OPEN -/

/-- The end of OPEN: LA <- la, STATUS <- OPEN, to S_DONE with (OK, 0). -/
def openEnd (la : LineAssign) (s : State) : State :=
  (s.setOpened la).finish .ok 0

/-- From S_PULL_RDY, or past it: S_CS_INIT, skipped if chip-select has no pin (log 29). -/
def openToCsInit (la : LineAssign) (s : State) : State :=
  if la.chipSelect.isSome then s.goto .csInit else openEnd la s

/-- From S_CFG_RST, or past it: S_CFG_RDY, skipped together with S_PULL_RDY if ready has no pin. -/
def openToCfgRdy (la : LineAssign) (s : State) : State :=
  if la.ready.isSome then s.goto .cfgRdy else openToCsInit la s

/-- From S_CFG_CS, or past it: S_CFG_RST, skipped if reset has no pin. -/
def openToCfgRst (la : LineAssign) (s : State) : State :=
  if la.reset.isSome then s.goto .cfgRst else openToCfgRdy la s

/-- From S_INIT: S_CFG_CS, skipped if chip-select has no pin. -/
def openToCfgCs (la : LineAssign) (s : State) : State :=
  if la.chipSelect.isSome then s.goto .cfgCs else openToCfgRst la s

/-- S_INIT: `Init()`; true sets SPICFG (10_state.md R35), false raises InitializationError
(40_lifecycle_and_lines.md R104). -/
def openInit (la : LineAssign) (s : State) : State :=
  let answered := s.evInit
  if answered.1 then
    openToCfgCs la (answered.2.setMode ⟨.msbFirst, s.cfg.spiCpol, s.cfg.spiCpha, s.cfg.spiClkdiv⟩)
  else answered.2.raise .initializationError 0

/-- `ConfigurePin(p, OUT)`; PINCFG[p] <- (OUT, none). -/
def configureOutput (p : Pin) (s : State) : State :=
  (s.emit (.configurePin p .output)).setPin p outputPin

/-- `SetPull(p, DOWN)`; PINCFG[p] <- (IN, some DOWN). -/
def pullDown (p : Pin) (s : State) : State :=
  (s.emit (.setPull p .down)).setPin p readyPin

/-- The rows of OPEN (41_transport_transfers.md R145). -/
def openRow (la : LineAssign) (s : State) : Out :=
  match s.ph with
  | .chk => .next (s.goto .init)
  | .init => .next (openInit la s)
  | .cfgCs => withPin la.chipSelect fun c => openToCfgRst la (configureOutput c s)
  | .cfgRst => withPin la.reset fun r => openToCfgRdy la (configureOutput r s)
  | .cfgRdy => withPin la.ready fun y => (s.emit (.configurePin y .input)).goto .pullRdy
  | .pullRdy => withPin la.ready fun y => openToCsInit la (pullDown y s)
  | .csInit => withPin la.chipSelect fun c => openEnd la (s.csDeassert c)
  | .done => .next (respondPlain s)
  | .idle | .rdy1 | .csA | .preH | .preL | .rdy2 | .dmy0 | .dmy1 | .rdy3 | .rdH | .rdL | .wrH | .wrL | .blk | .csD
  | .abort | .close | .rstA | .rstHold | .rstD | .wait => .fault .noRow

/-- OPEN(la) (40_lifecycle_and_lines.md R103). -/
def execOpen (la : LineAssign) (s : State) : Out := operate (.openOp la) (openRow la) s

/-! ### CLOSE -/

/-- S_CLOSE: `Close()`; STATUS <- CLOSED, and PINCFG, CS_OUT and RST_OUT become none (40_lifecycle_and_lines.md R106). -/
def closeRelease (s : State) : State :=
  (s.emit .close).setClosed.finish .ok 0

/-- The rows of CLOSE (41_transport_transfers.md R145): with STATUS other than OPEN no event and no change. -/
def closeRow (s : State) : Out :=
  match s.ph with
  | .chk => .next (if s.status = .opened then s.goto .close else s.finish .ok 0)
  | .close => .next (closeRelease s)
  | .done => .next (respondPlain s)
  | .idle | .rdy1 | .csA | .preH | .preL | .rdy2 | .dmy0 | .dmy1 | .rdy3 | .rdH | .rdL | .wrH | .wrL | .blk | .csD
  | .abort | .init | .cfgCs | .cfgRst | .cfgRdy | .pullRdy | .csInit | .rstA | .rstHold | .rstD | .wait =>
    .fault .noRow

/-- CLOSE (40_lifecycle_and_lines.md R106). -/
def execClose (s : State) : Out := operate .closeOp closeRow s

end Sys2Proof.Machine
end

