-- ==== Sys2Proof/Machine/Lines.lean ====
section
/-!
DEFINITION. The line operations RESET_DEVICE (40_lifecycle_and_lines.md R107) and WAIT_READY (R108), row by row as
41_transport_transfers.md R145 gives them.
-/

namespace Sys2Proof.Machine

/-- The rows of RESET_DEVICE: LOW, a hold of 100 ms, HIGH on the reset pin, and no other pin (90_conflicts.md C1). -/
def resetRow (s : State) : Out :=
  match s.ph with
  | .chk =>
    .next (if s.la.reset.isSome then s.goto .rstA else s.raise .configurationError roleReset)
  | .rstA => withPin s.la.reset fun r => (s.driveReset r resetAssertLevel).goto .rstHold
  | .rstHold => .next ((s.emit (.hold tResetHold)).goto .rstD)
  | .rstD => withPin s.la.reset fun r => (s.driveReset r resetAssertLevel.flip).finish .ok 0
  | .done => .next (respondPlain s)
  | .idle | .rdy1 | .csA | .preH | .preL | .rdy2 | .dmy0 | .dmy1 | .rdy3 | .rdH | .rdL | .wrH | .wrL | .blk | .csD
  | .abort | .init | .cfgCs | .cfgRst | .cfgRdy | .pullRdy | .csInit | .close | .wait => .fault .noRow

/-- RESET_DEVICE (40_lifecycle_and_lines.md R107). -/
def execResetDevice (s : State) : Out := operate .resetDevice resetRow s

/-- The rows of WAIT_READY: POLLS <- 0, then samples of the ready pin until one is HIGH or the limit is hit. -/
def waitReadyRow (s : State) : Out :=
  match s.ph with
  | .chk =>
    .next (if s.la.ready.isSome then s.startWait.goto .wait else s.raise .configurationError roleReady)
  | .wait => waitRow (State.finish .ok 0) (State.raise .deviceNotRespondingError 0) s
  | .done => .next (respondPlain s)
  | .idle | .rdy1 | .csA | .preH | .preL | .rdy2 | .dmy0 | .dmy1 | .rdy3 | .rdH | .rdL | .wrH | .wrL | .blk | .csD
  | .abort | .init | .cfgCs | .cfgRst | .cfgRdy | .pullRdy | .csInit | .close | .rstA | .rstHold | .rstD =>
    .fault .noRow

/-- WAIT_READY (40_lifecycle_and_lines.md R108). -/
def execWaitReady (s : State) : Out := operate .waitReady waitReadyRow s

end Sys2Proof.Machine
end

