-- ==== Sys2Proof/Machine/Preamble.lean ====
section
/-!
DEFINITION. The three preamble Words of the wire (30_encoding.md R77) as rows of the opcode table: the preamble exchange
`send_word(PRE)` (41_transport_transfers.md R131), the rows S_PRE_H and S_PRE_L of R144. A preamble is not an operation a
host can offer (00_scope.md R11, 40_lifecycle_and_lines.md R113): elsewhere it is refused (log 10).
-/

namespace Sys2Proof.Machine

/-- Does the operation in flight run transfer sessions? -/
def transferInFlight (s : State) : Bool :=
  match s.op with
  | none => false
  | some i => !(sessionsOf i).isEmpty

/-- The exchange of the preamble `v`: it runs when `v` is the preamble PRE of a session in flight and the sequencer is at
S_PRE_H or S_PRE_L. -/
def preambleExchange (v : Word) (s : State) : Out :=
  if s.busy && transferInFlight s && decide (s.pre = v) then
    if s.ph = .preH then .next (preambleHigh s)
    else if s.ph = .preL then .next (preambleLow s)
    else .refused .notTheCurrentPreamble
  else .refused .notTheCurrentPreamble

/-- The preamble 0x0000 of a plain data write. -/
def execPreambleWriteData (s : State) : Out := preambleExchange preDataWrite s

/-- The preamble 0x1000 of a data read. -/
def execPreambleReadData (s : State) : Out := preambleExchange preDataRead s

/-- The preamble 0x6000 of a command write. -/
def execPreambleWriteCommand (s : State) : Out := preambleExchange preCommand s

end Sys2Proof.Machine
end

