-- ==== Sys2Proof/Machine/Transfer.lean ====
section
/-!
DEFINITION. The Transport transfers READ, WRITE and WRITE_BULK (41_transport_transfers.md R135, R137, R139): one
session each, by the rows of R144.
-/

namespace Sys2Proof.Machine

/-- READ(preamble, count) (41_transport_transfers.md R135). -/
def execRead (preamble : Word) (count : Nat) (s : State) : Out :=
  operate (.read preamble count) (transportRow (.read preamble count) respondWords) s

/-- WRITE(preamble, words) (41_transport_transfers.md R137). -/
def execWrite (preamble : Word) (words : List Word) (s : State) : Out :=
  operate (.write preamble words) (transportRow (.write preamble words) respondPlain) s

/-- WRITE_BULK(bytes) (41_transport_transfers.md R139). -/
def execWriteBulk (bytes : List Byte) (s : State) : Out :=
  operate (.writeBulk bytes) (transportRow (.bulk bytes) respondPlain) s

end Sys2Proof.Machine
end

