-- ==== Sys2Proof/Machine/Dispatch.lean ====
section
/-!
DEFINITION. One arm per constructor of Instr: one step of that operation.
-/

namespace Sys2Proof.Machine

-- One step of an operation: a row of 41_transport_transfers.md R144 or R145.
def exec (i : Instr) (s : State) : Host.Outcome State Fault Refusal :=
  match i with
  -- Lifecycle and lines (40_lifecycle_and_lines.md)
  | .openOp la => Sys2Proof.Machine.execOpen la s
  | .closeOp => Sys2Proof.Machine.execClose s
  | .resetDevice => Sys2Proof.Machine.execResetDevice s
  | .waitReady => Sys2Proof.Machine.execWaitReady s
  -- Transport transfers (41_transport_transfers.md)
  | .read preamble count => Sys2Proof.Machine.execRead preamble count s
  | .write preamble words => Sys2Proof.Machine.execWrite preamble words s
  | .writeBulk bytes => Sys2Proof.Machine.execWriteBulk bytes s
  -- The Command Layer (42_command_layer.md)
  | .writeCommand code args => Sys2Proof.Machine.execWriteCommand code args s
  | .writeData words => Sys2Proof.Machine.execWriteData words s
  | .readData count => Sys2Proof.Machine.execReadData count s
  | .readSingleWord => Sys2Proof.Machine.execReadSingleWord s
  | .writePixels words => Sys2Proof.Machine.execWritePixels words s
  -- The preamble Words of the wire (30_encoding.md R77)
  | .preambleWriteData => Sys2Proof.Machine.execPreambleWriteData s
  | .preambleReadData => Sys2Proof.Machine.execPreambleReadData s
  | .preambleWriteCommand => Sys2Proof.Machine.execPreambleWriteCommand s

end Sys2Proof.Machine
end

