-- ==== Sys2Proof/Machine/Fetch.lean ====
section
/-!
DEFINITION. What the next step runs. While BUSY = 0 it is the operation whose descriptor stands first in the host's stream
(20_memory.md R66, log 8); while BUSY = 1 it is the operation in flight, or, at S_PRE_H and S_PRE_L, the preamble Word in PRE
where that has a name (log 10). And how the host's question places an instruction there.
-/

namespace Sys2Proof.Machine

/-- The instruction of a step with BUSY = 1 and the operation `i` in flight. -/
def currentInstr (i : Instr) (s : State) : Instr :=
  if transferInFlight s && (decide (s.ph = .preH) || decide (s.ph = .preL)) then
    (decodePreamble s.pre).getD i
  else i

/-- The instruction of the next step, and the state it runs in: a descriptor taken from the host is used up. -/
def fetch (s : State) : Host.Outcome (Instr × State) Fault Refusal :=
  if s.busy then
    match s.op with
    | some i => .next (currentInstr i s, s)
    | none => .fault .noOperation
  else
    match decodeDescriptor s.host with
    | .ok (i, rest) => .next (i, { s with host := rest })
    | .error .nothingOffered => .refused .nothingOffered
    | .error e => .refused (.invalidDescriptor e)

/-- An operation whose session has the preamble `w`, with no payload. -/
def emptySessionOp (w : Word) : Instr := if w = preDataRead then .read w 0 else .write w []

/-- The state `s` with the instruction whose bits are `w` placed where the next step fetches it: a preamble Word in PRE at
S_PRE_H of a session, an operation's descriptor at the head of the host's stream with the block idle. -/
def placeWord (s : State) (nbits w : Nat) : State :=
  if nbits ≤ 16 then
    let v : Word := BitVec.ofNat 16 (w % 2 ^ nbits)
    { s with busy := true, op := some (emptySessionOp v), ph := .preH, pre := v }
  else { s with busy := false, op := none, ph := .idle, host := tableItems nbits w ++ s.host }

end Sys2Proof.Machine
end

