-- ==== Sys2Proof/Machine/Step.lean ====
section
/-!
DEFINITION. One step of the block: the instruction that `fetch` gives, run by `exec` in the state `fetch` leaves.
-/

namespace Sys2Proof.Machine

/-- One step (00_scope.md R12): at most one event. -/
def step (s : State) : Host.Outcome State Fault Refusal :=
  match fetch s with
  | .next (i, s') => exec i s'
  | .fault r => .fault r
  | .refused r => .refused r

/-- `s` with the instruction whose bits are `w` placed where `step` fetches its next instruction. -/
def State.withFetchWord (s : State) (nbits w : Nat) : State := placeWord s nbits w

end Sys2Proof.Machine
end

