-- ==== Sys2Proof/Machine/BigStep.lean ====
section
/-!
DEFINITION. The second form of every operation: the big-step pseudocode of its rule (00_scope.md R12), a procedure that
performs its events in order and responds. `step` does not use it: it is the other half of the agreement of
41_transport_transfers.md R148. A wait may never end, so a procedure takes `fuel`, the most samples one wait may take
here; `outOfFuel` holds the state in the middle of such a wait, with the events up to there. An endless wait runs out at every fuel.
-/

namespace Sys2Proof.Machine

/-- How a procedure of the pseudocode ends. -/
inductive Ran where
  /-- It ends normally. -/
  | went (s : State)
  /-- It raises K(info); the events before the `raise` have happened. -/
  | raised (k : ErrKind) (info : Nat) (s : State)
  /-- A wait has taken as many samples as the fuel and has not ended; the state then. -/
  | outOfFuel (s : State)
deriving DecidableEq, Repr

/-- `p ; q`: an error of `p` ends the sequence. -/
def Ran.andThen (p : Ran) (q : State → Ran) : Ran :=
  match p with
  | .went s => q s
  | .raised k info s => .raised k info s
  | .outOfFuel s => .outOfFuel s

/-- An error inside a session: chip-select `c` is deasserted first (41_transport_transfers.md R147). -/
def Ran.closing (p : Ran) (c : Pin) : Ran :=
  match p with
  | .went s => .went s
  | .raised k info s => .raised k info (s.csDeassert c)
  | .outOfFuel s => .outOfFuel s

/-- The loop of `wait_ready` on pin `y` (40_lifecycle_and_lines.md R109). -/
def waitLoop : Nat → Pin → State → Ran
  | 0, _, s => .outOfFuel s
  | fuel + 1, y, s =>
    let l := s.evReadPin y
    if l.1 = readyLevel then .went l.2
    else if limitHit l.2.countPoll then .raised .deviceNotRespondingError 0 l.2.countPoll
    else waitLoop fuel y l.2.countPoll

/-- `wait_ready()` (40_lifecycle_and_lines.md R109). -/
def waitReadyProc (fuel : Nat) (y : Pin) (s : State) : Ran := waitLoop fuel y s.startWait

/-- `send_word(w)` (41_transport_transfers.md R131). -/
def sendWord (w : Word) (s : State) : State := ((s.evXfer (hi w)).2.evXfer (lo w)).2

/-- `recv_word()`, appended to RES, and the loop index (41_transport_transfers.md R132, R135). -/
def recvWord (s : State) : State :=
  let b0 := s.evXfer 0x00#8
  let b1 := (b0.2.latch b0.1).evXfer 0x00#8
  (b1.2.pushRes (word b0.1 b1.1)).nextIdx

/-- The word loop of READ, `k` Words. -/
def recvWords : Nat → State → State
  | 0, s => s
  | k + 1, s => recvWords k (recvWord s)

/-- The word loop of WRITE. -/
def sendWords : List Word → State → State
  | [], s => s
  | w :: ws, s => sendWords ws (sendWord w s).nextIdx

/-- The payload part of a session, after its last wait, up to `cs_deassert`. -/
def payloadProc (fuel : Nat) (ses : Session) (c y : Pin) (s : State) : Ran :=
  match ses with
  | .read _ _ =>
    ((waitReadyProc fuel y (sendWord 0x0000#16 s)).closing c).andThen fun s' =>
      .went ((recvWords s'.n s'.clearIdx.clearRes).csDeassert c)
  | .write _ ws => .went ((sendWords ws s.clearIdx).csDeassert c)
  | .bulk bs => .went ((s.emit (.xferBulk bs)).csDeassert c)

/-- The body of READ, WRITE or WRITE_BULK from `check_transfer()` to the last event (41_transport_transfers.md R135, R137,
R139). -/
def sessionProc (fuel : Nat) (ses : Session) (s : State) : Ran :=
  match s.la.chipSelect, s.la.ready with
  | none, _ => .raised .configurationError roleChipSelect s
  | some _, none => .raised .configurationError roleReady s
  | some c, some y =>
    (waitReadyProc fuel y (s.load ses)).andThen fun s1 =>
      let s2 := sendWord s1.pre (s1.csAssert c)
      ((waitReadyProc fuel y s2).closing c).andThen fun s3 => payloadProc fuel ses c y s3

/-- The sessions of a Command Layer operation after its first, SUB counting them (42_command_layer.md R172). -/
def laterSessionsProc (fuel : Nat) : List Session → State → Ran
  | [], s => .went s
  | ses :: rest, s =>
    (sessionProc fuel ses s.nextSession).andThen (laterSessionsProc fuel rest)

/-- The sessions of an operation, one after the other. -/
def sessionsProc (fuel : Nat) : List Session → State → Ran
  | [], s => .went s
  | ses :: rest, s => (sessionProc fuel ses s).andThen (laterSessionsProc fuel rest)

/-- Perform `k` on the pin of a role that has one; nothing for a role that has none. -/
def ifAssigned (p : Option Pin) (k : Pin → State → State) (s : State) : State :=
  match p with
  | some q => k q s
  | none => s

/-- The body of OPEN (40_lifecycle_and_lines.md R103). -/
def openProc (la : LineAssign) (s : State) : Ran :=
  let answered := s.evInit
  if answered.1 then
    let s1 := answered.2.setMode ⟨.msbFirst, s.cfg.spiCpol, s.cfg.spiCpha, s.cfg.spiClkdiv⟩
    let s2 := ifAssigned la.chipSelect configureOutput s1
    let s3 := ifAssigned la.reset configureOutput s2
    let s4 := ifAssigned la.ready (fun y t => pullDown y (t.emit (.configurePin y .input))) s3
    let s5 := ifAssigned la.chipSelect State.csDeassert s4
    .went (s5.setOpened la)
  else .raised .initializationError 0 answered.2

/-- The body of CLOSE (40_lifecycle_and_lines.md R106). -/
def closeProc (s : State) : Ran :=
  if s.status = .opened then
    .went (s.emit .close).setClosed
  else .went s

/-- The body of RESET_DEVICE (40_lifecycle_and_lines.md R107). -/
def resetProc (s : State) : Ran :=
  match s.la.reset with
  | none => .raised .configurationError roleReset s
  | some r => .went (((s.driveReset r resetAssertLevel).emit (.hold tResetHold)).driveReset r resetAssertLevel.flip)

/-- The body of WAIT_READY (40_lifecycle_and_lines.md R108). -/
def waitReadyOp (fuel : Nat) (s : State) : Ran :=
  match s.la.ready with
  | none => .raised .configurationError roleReady s
  | some y => waitReadyProc fuel y s

/-- The body of an operation, between its `accept` and its `respond`. -/
def bodyProc (fuel : Nat) (i : Instr) (s : State) : Ran :=
  match i with
  | .openOp la => openProc la s
  | .closeOp => closeProc s
  | .resetDevice => resetProc s
  | .waitReady => waitReadyOp fuel s
  | .read p count => sessionsProc fuel (sessionsOf (.read p count)) s
  | .write p ws => sessionsProc fuel (sessionsOf (.write p ws)) s
  | .writeBulk bs => sessionsProc fuel (sessionsOf (.writeBulk bs)) s
  | .writeCommand code args => sessionsProc fuel (sessionsOf (.writeCommand code args)) s
  | .writeData ws => sessionsProc fuel (sessionsOf (.writeData ws)) s
  | .readData count => sessionsProc fuel (sessionsOf (.readData count)) s
  | .readSingleWord => sessionsProc fuel (sessionsOf .readSingleWord) s
  | .writePixels ws => sessionsProc fuel (sessionsOf (.writePixels ws)) s
  | .preambleWriteData => .outOfFuel s
  | .preambleReadData => .outOfFuel s
  | .preambleWriteCommand => .outOfFuel s

/-- Does the operation hand Words to the host: all of RES (`.all`), its first (`.first`), or none? -/
inductive Hands where
  | nothing
  | all
  | first
deriving DecidableEq, Repr

/-- What an operation that ends with OK hands to the host (30_encoding.md R75). -/
def hands : Instr → Hands
  | .openOp _ => .nothing
  | .closeOp => .nothing
  | .resetDevice => .nothing
  | .waitReady => .nothing
  | .read _ _ => .all
  | .write _ _ => .nothing
  | .writeBulk _ => .nothing
  | .writeCommand _ _ => .nothing
  | .writeData _ => .nothing
  | .readData _ => .all
  | .readSingleWord => .first
  | .writePixels _ => .nothing
  | .preambleWriteData => .nothing
  | .preambleReadData => .nothing
  | .preambleWriteCommand => .nothing

/-- The last line of an operation whose body went through: `respond(OK, 0, …)`, for READ_SINGLE_WORD with its length check
(42_command_layer.md R174). -/
def respondOk (i : Instr) (s : State) : State :=
  match hands i with
  | .nothing => s.respond .ok 0 []
  | .all => s.respond .ok 0 s.res
  | .first =>
    match s.res with
    | [] => s.respond .emptyResponseError 0 []
    | w :: _ => s.respond .ok 0 [w]

/-- How an operation ends in its big-step form. -/
inductive Ended where
  /-- It responded; the state afterwards. -/
  | responded (s : State)
  /-- `accept` refused it (60_exceptions.md R213). -/
  | refused (r : Refusal)
  /-- It has not ended: a wait has taken as many samples as the fuel; the state then. -/
  | outOfFuel (s : State)
deriving DecidableEq, Repr

/-- The big-step form of an operation offered while BUSY = 0. -/
def bigStep (fuel : Nat) (i : Instr) (s : State) : Ended :=
  match accept i s with
  | .next s1 =>
    match bodyProc fuel i s1 with
    | .went s2 => .responded (respondOk i s2)
    | .raised k info s2 => .responded (s2.respond k info [])
    | .outOfFuel s2 => .outOfFuel s2
  | .refused r => .refused r
  | .fault _ => .outOfFuel s

/-- The small-step form of an operation after `k` steps of `exec i`, if it is still in flight; none where it has ended or
stopped. -/
def runSteps : Nat → Instr → State → Option State
  | 0, _, s => some s
  | k + 1, i, s =>
    match exec i s with
    | .next t => if t.busy then runSteps k i t else none
    | .fault _ => none
    | .refused _ => none

/-- The small-step form of an operation, run to its end: at most `k` steps of `exec i`, up to the first state in which
BUSY = 0 again; none where it stops or has not ended. -/
def runOperation : Nat → Instr → State → Option State
  | 0, _, _ => none
  | k + 1, i, s =>
    match exec i s with
    | .next t => if t.busy then runOperation k i t else some t
    | .fault _ => none
    | .refused _ => none

end Sys2Proof.Machine
end

