-- ==== Sys2Proof/Safety.lean ====
section
/-!
DEFINITION. What claims are stated in: the invariant of the block (10_state.md R28, R34, R37 and what keeps it), the frames of the
wire (30_encoding.md R78 to R81) as event sequences, and the observations of a trace.
-/

namespace Sys2Proof.Machine

/-! ### The invariant -/

/-- The phases between `cs_assert` and `cs_deassert` of a session (10_state.md R37). -/
def csSpan : Phase → Bool
  | .preH | .preL | .rdy2 | .dmy0 | .dmy1 | .rdy3 | .rdH | .rdL | .wrH | .wrL | .blk | .csD | .abort => true
  | .idle | .chk | .rdy1 | .csA | .init | .cfgCs | .cfgRst | .cfgRdy | .pullRdy | .csInit | .close | .rstA | .rstHold
  | .rstD | .wait | .done => false

/-- CS_OUT outside a session: DEASSERTED when the block is open and the role has a pin, else not driven (10_state.md
R24, R37). -/
def csAtRest (s : State) : Option CsState :=
  if s.status = .opened ∧ s.la.chipSelect.isSome then some .deasserted else none

/-- PINCFG once OPEN has configured chip-select. -/
def pinsWithCs (la : LineAssign) : List (Pin × PinConf) :=
  match la.chipSelect with
  | some c => [(c, outputPin)]
  | none => []

/-- PINCFG once OPEN has configured chip-select and reset. -/
def pinsWithReset (la : LineAssign) : List (Pin × PinConf) :=
  match la.reset with
  | some r => pinSet (pinsWithCs la) r outputPin
  | none => pinsWithCs la

/-- PINCFG after a successful OPEN (10_state.md R34). -/
def pinsOpen (la : LineAssign) : List (Pin × PinConf) :=
  match la.ready with
  | some y => pinSet (pinsWithReset la) y readyPin
  | none => pinsWithReset la

/-- PINCFG between operations (10_state.md R34). -/
def pinsAtRest (s : State) : List (Pin × PinConf) := if s.status = .opened then pinsOpen s.la else []

/-- PINCFG in every state: during OPEN(la), what it has configured so far. -/
def pinsExpected (s : State) : List (Pin × PinConf) :=
  match s.op with
  | some (.openOp la) =>
    match s.ph with
    | .cfgRst => pinsWithCs la
    | .cfgRdy | .pullRdy => pinsWithReset la
    | .csInit => pinsOpen la
    | _ => pinsAtRest s
  | _ => pinsAtRest s

/-- SPICFG after a successful `Init()` (10_state.md R35). -/
def serialMode (c : Config) : SpiMode := ⟨.msbFirst, c.spiCpol, c.spiCpha, c.spiClkdiv⟩

/-- The session in flight: the one of a Transport transfer, the one of index SUB of a Command Layer operation. -/
def sessionInFlight (i : Instr) (s : State) : Option Session :=
  if i.isCommandLayer then (sessionsOf i)[s.sub]? else (sessionsOf i)[0]?

/-- Is it the session of a read? -/
def readSession : Session → Bool
  | .read _ _ => true
  | .write _ _ => false
  | .bulk _ => false

/-- Is it the session of a word write? -/
def writeSession : Session → Bool
  | .read _ _ => false
  | .write _ _ => true
  | .bulk _ => false

/-- Is it the session of a bulk write? -/
def bulkSession : Session → Bool
  | .read _ _ => false
  | .write _ _ => false
  | .bulk _ => true

/-- Both roles of a transfer have pins, and PRE and N hold the session's preamble and length. -/
def Loaded (ses : Session) (s : State) : Prop :=
  s.la.chipSelect.isSome ∧ s.la.ready.isSome ∧ s.pre = sessionPreamble ses ∧ s.n = sessionLength ses

/-- What holds in each phase of a session (41_transport_transfers.md R144, R146). -/
def SessionPhase (ses : Session) (s : State) : Prop :=
  match s.ph with
  | .chk => True
  | .rdy1 | .csA | .preH | .preL | .rdy2 | .abort => Loaded ses s
  | .dmy0 | .dmy1 | .rdy3 => Loaded ses s ∧ readSession ses
  | .rdH | .rdL => Loaded ses s ∧ readSession ses ∧ s.idx < s.n ∧ s.res.length = s.idx
  | .wrH | .wrL => Loaded ses s ∧ writeSession ses ∧ s.idx < s.n
  | .blk => Loaded ses s ∧ bulkSession ses
  | .csD => Loaded ses s ∧ (readSession ses → s.res.length = s.n)
  | .done => s.doneCode ≠ .emptyResponseError ∧ (s.doneCode = .ok → readSession ses → s.res.length = sessionLength ses)
  | .idle | .init | .cfgCs | .cfgRst | .cfgRdy | .pullRdy | .csInit | .close | .rstA | .rstHold | .rstD | .wait => False

/-- What holds in each phase of OPEN(la) (41_transport_transfers.md R145). -/
def OpenPhase (la : LineAssign) (s : State) : Prop :=
  match s.ph with
  | .chk | .init => s.status = .unopened
  | .cfgCs => s.status = .unopened ∧ s.spicfg = serialMode s.cfg ∧ la.chipSelect.isSome
  | .cfgRst => s.status = .unopened ∧ s.spicfg = serialMode s.cfg ∧ la.reset.isSome
  | .cfgRdy | .pullRdy => s.status = .unopened ∧ s.spicfg = serialMode s.cfg ∧ la.ready.isSome
  | .csInit => s.status = .unopened ∧ s.spicfg = serialMode s.cfg ∧ la.chipSelect.isSome
  | .done => (s.doneCode = .ok ∧ s.status = .opened) ∨ (s.doneCode = .initializationError ∧ s.status = .unopened)
  | .idle | .rdy1 | .csA | .preH | .preL | .rdy2 | .dmy0 | .dmy1 | .rdy3 | .rdH | .rdL | .wrH | .wrL | .blk | .csD
  | .abort | .close | .rstA | .rstHold | .rstD | .wait => False

/-- What holds in each phase of CLOSE. -/
def ClosePhase (s : State) : Prop :=
  s.ph = .chk ∨ (s.ph = .close ∧ s.status = .opened) ∨ (s.ph = .done ∧ s.doneCode = .ok)

/-- What holds in each phase of RESET_DEVICE. -/
def ResetPhase (s : State) : Prop :=
  s.status = .opened ∧
    (s.ph = .chk ∨ ((s.ph = .rstA ∨ s.ph = .rstHold ∨ s.ph = .rstD) ∧ s.la.reset.isSome) ∨
      (s.ph = .done ∧ s.doneCode ≠ .emptyResponseError))

/-- What holds in each phase of WAIT_READY. -/
def WaitPhase (s : State) : Prop :=
  s.status = .opened ∧
    (s.ph = .chk ∨ (s.ph = .wait ∧ s.la.ready.isSome) ∨ (s.ph = .done ∧ s.doneCode ≠ .emptyResponseError))

/-- What holds while a transfer runs: the block is open and the session in flight exists. -/
def TransferPhase (i : Instr) (s : State) : Prop :=
  s.status = .opened ∧ ∃ ses, sessionInFlight i s = some ses ∧ SessionPhase ses s

/-- What holds while the operation `i` is in flight: its phase is one of its own, and what the row of that phase needs is
there. -/
def FlightOk (i : Instr) (s : State) : Prop :=
  match i with
  | .openOp la => la.rolesDistinct = true ∧ OpenPhase la s
  | .closeOp => ClosePhase s
  | .resetDevice => ResetPhase s
  | .waitReady => WaitPhase s
  | .read p count => TransferPhase (.read p count) s
  | .write p ws => TransferPhase (.write p ws) s
  | .writeBulk bs => TransferPhase (.writeBulk bs) s
  | .writeCommand code args => TransferPhase (.writeCommand code args) s
  | .writeData ws => TransferPhase (.writeData ws) s
  | .readData count => TransferPhase (.readData count) s
  | .readSingleWord => TransferPhase .readSingleWord s
  | .writePixels ws => TransferPhase (.writePixels ws) s
  | .preambleWriteData => False
  | .preambleReadData => False
  | .preambleWriteCommand => False

/-- The invariant of the block: it holds at reset and every step keeps it. -/
structure Inv (s : State) : Prop where
  /-- PH = S_IDLE exactly when BUSY = 0 (10_state.md R28). -/
  idle_iff : s.busy = false ↔ s.ph = .idle
  /-- OP is none exactly when BUSY = 0. -/
  op_iff : s.busy = false ↔ s.op = none
  /-- No two roles of LA name one pin (30_encoding.md R73). -/
  roles : s.la.rolesDistinct = true
  /-- Chip-select is asserted exactly inside the span of a session (10_state.md R24, R37). -/
  cs : s.csOut = if csSpan s.ph then some .asserted else csAtRest s
  /-- The reset line is not driven unless the block is open and the role has a pin (10_state.md R25). -/
  rst : s.status ≠ .opened ∨ s.la.reset = none → s.rstOut = none
  /-- PINCFG is what OPEN has configured (10_state.md R34). -/
  pins : s.pincfg = pinsExpected s
  /-- SPICFG is what `Init()` set (10_state.md R35). -/
  mode : s.status = .opened → s.spicfg = serialMode s.cfg
  /-- The phase is one of the operation in flight. -/
  flight : ∀ i, s.op = some i → FlightOk i s

/-- The phases of a read before its first Word. -/
def beforeWords : Phase → Bool
  | .chk | .rdy1 | .csA | .preH | .preL | .rdy2 | .dmy0 | .dmy1 | .rdy3 => true
  | .idle | .rdH | .rdL | .wrH | .wrL | .blk | .csD | .abort | .init | .cfgCs | .cfgRst | .cfgRdy | .pullRdy | .csInit | .close
  | .rstA | .rstHold | .rstD | .wait | .done => false

/-- RES is empty from the start of a read until its first Word (10_state.md R32). -/
def NoWordsYet (s : State) : Prop := ∀ i, s.op = some i → readsWords i = true → beforeWords s.ph = true → s.res = []

/-- While operation `i` is in flight, in a state that meets the invariant, no received byte goes into a register: its rows write neither
RXH nor RES, the two that can hold one (10_state.md R27, R32; the rows of 41_transport_transfers.md R144). -/
def DropsReceivedBytes (i : Instr) : Prop :=
  ∀ s t : State, Inv s → s.busy = true → t.busy = true → exec i s = .next t → t.rxh = s.rxh ∧ t.res = s.res

/-! ### Event sequences of the wire -/

/-- The answers of one wait that takes `lows` LOW samples and then one HIGH. -/
def waitAnswers (lows : Nat) : List Level := List.replicate lows .low ++ [.high]

/-- The events of one such wait on pin `y` (40_lifecycle_and_lines.md R109). -/
def waitEvents (y : Pin) (lows : Nat) : List Event := (waitAnswers lows).map (.readPin y)

/-- A wait with `lows` LOW samples does not hit the poll limit. -/
def withinLimit (c : Config) (lows : Nat) : Prop := ∀ limit, c.readyPollLimit = some limit → lows < limit

/-- Byte exchanges: `tx` against `rx`, in order. -/
def xferEvents (tx rx : List Byte) : List Event := List.zipWith .xfer tx rx

/-- The assertion of chip-select `c`. -/
def assertEvent (cfg : Config) (c : Pin) : Event := .writePin c (csLevel cfg .asserted)

/-- The deassertion of chip-select `c`. -/
def deassertEvent (cfg : Config) (c : Pin) : Event := .writePin c (csLevel cfg .deasserted)

/-- The head of every frame (30_encoding.md R81): R [ P R, with the two waits taking `a` and `b` LOW samples. -/
def frameHead (cfg : Config) (c y : Pin) (p : Word) (a b : Nat) (rx : List Byte) : List Event :=
  waitEvents y a ++ [assertEvent cfg c] ++ xferEvents [hi p, lo p] rx ++ waitEvents y b

/-- The read frame, R [ P R D R W* ] (30_encoding.md R79, R81); `rx` are the 4 + 2n received bytes. -/
def readFrame (cfg : Config) (c y : Pin) (p : Word) (count a b d : Nat) (rx : List Byte) : List Event :=
  frameHead cfg c y p a b rx ++ xferEvents [0x00#8, 0x00#8] (rx.drop 2) ++ waitEvents y d
    ++ xferEvents (List.replicate (2 * count) 0x00#8) (rx.drop 4) ++ [deassertEvent cfg c]

/-- The write frame, R [ P R W* ] (30_encoding.md R78, R81); `rx` are the 2 + 2n received bytes. -/
def writeFrame (cfg : Config) (c y : Pin) (p : Word) (ws : List Word) (a b : Nat) (rx : List Byte) : List Event :=
  frameHead cfg c y p a b rx ++ xferEvents (pack ws) (rx.drop 2) ++ [deassertEvent cfg c]

/-- The bulk frame, R [ P R B ] (30_encoding.md R80, R81); `rx` are the two bytes received with the preamble. -/
def bulkFrame (cfg : Config) (c y : Pin) (buf : List Byte) (a b : Nat) (rx : List Byte) : List Event :=
  frameHead cfg c y preDataWrite a b rx ++ [.xferBulk buf] ++ [deassertEvent cfg c]

/-- The events of a successful OPEN(la) (40_lifecycle_and_lines.md R103). -/
def openEvents (cfg : Config) (la : LineAssign) : List Event :=
  [.init true]
    ++ (la.chipSelect.toList.map fun c => .configurePin c .output)
    ++ (la.reset.toList.map fun r => .configurePin r .output)
    ++ (la.ready.toList.flatMap fun y => [.configurePin y .input, .setPull y .down])
    ++ (la.chipSelect.toList.map fun c => deassertEvent cfg c)

/-- Received bytes as Words, two bytes a Word, the first received the high one (20_memory.md R54). -/
def unpack : List Byte → List Word
  | b0 :: b1 :: rest => word b0 b1 :: unpack rest
  | [_] => []
  | [] => []

/-! ### Observations of a trace -/

/-- The bytes an event sends on the wire (20_memory.md R52). -/
def Event.sent : Event → List Byte
  | .xfer tx _ => [tx]
  | .xferBulk buf => buf
  | .init _ => []
  | .close => []
  | .configurePin _ _ => []
  | .setPull _ _ => []
  | .writePin _ _ => []
  | .readPin _ _ => []
  | .hold _ => []

/-- The outbound byte stream of a sequence of events. -/
def wireBytes (es : List Event) : List Byte := es.flatMap Event.sent

/-- An event without the byte it received. -/
def Event.forgetRx : Event → Event
  | .xfer tx _ => .xfer tx 0x00#8
  | .init ok => .init ok
  | .close => .close
  | .configurePin p d => .configurePin p d
  | .setPull p m => .setPull p m
  | .writePin p l => .writePin p l
  | .readPin p l => .readPin p l
  | .xferBulk buf => .xferBulk buf
  | .hold t => .hold t

/-- Which role an operation needs and the line assignment lacks, in the order of 60_exceptions.md R207: for a transfer
chip-select first, then ready (60_exceptions.md R202). -/
def missingRole (i : Instr) (la : LineAssign) : Option Nat :=
  match i with
  | .openOp _ => none
  | .closeOp => none
  | .resetDevice => if la.reset.isNone then some roleReset else none
  | .waitReady => if la.ready.isNone then some roleReady else none
  | .read _ _ => if la.chipSelect.isNone then some roleChipSelect else if la.ready.isNone then some roleReady else none
  | .write _ _ => if la.chipSelect.isNone then some roleChipSelect else if la.ready.isNone then some roleReady else none
  | .writeBulk _ => if la.chipSelect.isNone then some roleChipSelect else if la.ready.isNone then some roleReady else none
  | .writeCommand _ _ =>
    if la.chipSelect.isNone then some roleChipSelect else if la.ready.isNone then some roleReady else none
  | .writeData _ => if la.chipSelect.isNone then some roleChipSelect else if la.ready.isNone then some roleReady else none
  | .readData _ => if la.chipSelect.isNone then some roleChipSelect else if la.ready.isNone then some roleReady else none
  | .readSingleWord =>
    if la.chipSelect.isNone then some roleChipSelect else if la.ready.isNone then some roleReady else none
  | .writePixels _ => if la.chipSelect.isNone then some roleChipSelect else if la.ready.isNone then some roleReady else none
  | .preambleWriteData => none
  | .preambleReadData => none
  | .preambleWriteCommand => none

/-- Operations offered one after the other, each after the one before has ended, each within `k` steps; after the first that
ends with an error none is offered. -/
def runUntilError (k : Nat) : List Instr → State → Option State
  | [], s => some s
  | i :: rest, s =>
    match runOperation k i s with
    | some t => if t.err = .ok then runUntilError k rest t else some t
    | none => none

/-! ### What the statements compare with -/

/-- The block once it has accepted `i` (40_lifecycle_and_lines.md R100): BUSY = 1, OP = i, the sequencer at S_CHK, and
nothing else changed but RES, empty at the start of a read (10_state.md R32; log 30), the count of sessions of a Command Layer
operation (log 12) and the arguments of S_DONE (log 4). -/
def State.accepted (i : Instr) (s : State) : State :=
  { s with
    busy := true
    op := some i
    ph := .chk
    sub := if i.isCommandLayer then 0 else s.sub
    res := if readsWords i then [] else s.res
    doneCode := .ok
    doneInfo := 0 }

/-- The block idle again with the response `(code, info, result)` given (40_lifecycle_and_lines.md R100, 30_encoding.md
R75), and nothing else changed but the arguments of S_DONE (log 4). -/
def State.answered (e : ErrKind) (code : Byte) (info : Nat) (result : List Word) (s : State) : State :=
  { s with
    err := e
    busy := false
    op := none
    ph := .idle
    doneCode := .ok
    doneInfo := 0
    responses := s.responses ++ [⟨code, info, result⟩] }

/-- The block is idle and open, and chip-select and ready have the pins `c` and `y`. -/
def CanTransfer (s : State) (c y : Pin) : Prop :=
  s.busy = false ∧ s.status = .opened ∧ s.la.chipSelect = some c ∧ s.la.ready = some y

/-- What the environment answers in one write session of one Word: the LOW samples of its two waits and the four bytes it
receives. -/
structure Round where
  firstWait : Nat
  secondWait : Nat
  received : List Byte
deriving DecidableEq, Repr

/-- The levels of the ready line in a round. -/
def Round.levels (r : Round) : List Level := waitAnswers r.firstWait ++ waitAnswers r.secondWait

/-- The preamble and the Word of each session of WRITE_COMMAND (42_command_layer.md R172). -/
def commandWords (code : Word) (args : List Word) : List (Word × Word) :=
  (preCommand, code) :: args.map fun a => (preDataWrite, a)

/-- The events of WRITE_COMMAND: one write frame for each session. -/
def commandEvents (cfg : Config) (c y : Pin) (code : Word) (args : List Word) (rounds : List Round) : List Event :=
  (List.zipWith (fun pw r => writeFrame cfg c y pw.1 [pw.2] r.firstWait r.secondWait r.received)
    (commandWords code args) rounds).flatten

/-- The Transport operations WRITE_COMMAND expands into (30_encoding.md R87). -/
def commandWrites (code : Word) (args : List Word) : List Instr :=
  (commandWords code args).map fun pw => .write pw.1 [pw.2]

/-- The operations that move data. -/
def isTransfer (i : Instr) : Bool := !(sessionsOf i).isEmpty

/-- The three Transport transfers. -/
def isTransportTransfer (i : Instr) : Bool := isTransfer i && !i.isCommandLayer

/-- The preamble row `j` of value `v` in state `s` at S_PRE_H, with `r0` and `r1` the next received bytes: two steps, the bytes
`b0` and `b1`. -/
def PreambleRuns (j : Instr) (v : Word) (b0 b1 : Byte) : Prop :=
  ∀ (s : State) (i : Instr) (r0 r1 : Byte) (rest : List Byte),
    s.busy = true → s.op = some i → isTransfer i = true → s.ph = .preH → s.pre = v → s.env.rxBytes = r0 :: r1 :: rest →
    exec j s = .next
      { s with ph := .preL, trace := s.trace ++ [.xfer b0 r0], env := { s.env with rxBytes := r1 :: rest } } ∧
    exec j { s with ph := .preL, trace := s.trace ++ [.xfer b0 r0], env := { s.env with rxBytes := r1 :: rest } } = .next
      { s with
        ph := .rdy2
        polls := 0
        trace := s.trace ++ [.xfer b0 r0, .xfer b1 r1]
        env := { s.env with rxBytes := rest } }

/-- Does the event use the serial bus? -/
def Event.isSerial : Event → Bool
  | .xfer _ _ => true
  | .xferBulk _ => true
  | .init _ => false
  | .close => false
  | .configurePin _ _ => false
  | .setPull _ _ => false
  | .writePin _ _ => false
  | .readPin _ _ => false
  | .hold _ => false

/-- Is it a write of pin `p`? -/
def Event.writes (p : Pin) : Event → Bool
  | .writePin q _ => q == p
  | .xfer _ _ => false
  | .xferBulk _ => false
  | .init _ => false
  | .close => false
  | .configurePin _ _ => false
  | .setPull _ _ => false
  | .readPin _ _ => false
  | .hold _ => false

/-- The pins an operation in flight works on: its operand's for OPEN, LA's otherwise (41_transport_transfers.md R145). -/
def linesOf (i : Instr) (s : State) : LineAssign :=
  match i with
  | .openOp la => la
  | _ => s.la

/-- The event of a step of operation `i`, by phase: the second columns of the tables of 41_transport_transfers.md R144 and R145.
No event in S_IDLE, S_CHK and S_DONE. -/
def PhaseEvent (i : Instr) (s : State) (e : Event) : Prop :=
  match s.ph with
  | .idle | .chk | .done => False
  | .rdy1 | .rdy2 | .rdy3 | .wait => ∃ y l, s.la.ready = some y ∧ e = .readPin y l
  | .csA => ∃ c, s.la.chipSelect = some c ∧ e = .writePin c s.cfg.csAssertLevel
  | .csD | .abort => ∃ c, s.la.chipSelect = some c ∧ e = .writePin c s.cfg.csAssertLevel.flip
  | .csInit => ∃ c, (linesOf i s).chipSelect = some c ∧ e = .writePin c s.cfg.csAssertLevel.flip
  | .preH => ∃ b, e = .xfer (hi s.pre) b
  | .preL => ∃ b, e = .xfer (lo s.pre) b
  | .dmy0 | .dmy1 | .rdH | .rdL => ∃ b, e = .xfer 0x00#8 b
  | .wrH => ∃ p ws w b, sessionInFlight i s = some (.write p ws) ∧ ws[s.idx]? = some w ∧ e = .xfer (hi w) b
  | .wrL => ∃ p ws w b, sessionInFlight i s = some (.write p ws) ∧ ws[s.idx]? = some w ∧ e = .xfer (lo w) b
  | .blk => ∃ bs, sessionInFlight i s = some (.bulk bs) ∧ e = .xferBulk bs
  | .init => ∃ ok, e = .init ok
  | .cfgCs => ∃ c, (linesOf i s).chipSelect = some c ∧ e = .configurePin c .output
  | .cfgRst => ∃ r, (linesOf i s).reset = some r ∧ e = .configurePin r .output
  | .cfgRdy => ∃ y, (linesOf i s).ready = some y ∧ e = .configurePin y .input
  | .pullRdy => ∃ y, (linesOf i s).ready = some y ∧ e = .setPull y .down
  | .close => e = .close
  | .rstA => ∃ r, s.la.reset = some r ∧ e = .writePin r .low
  | .rstHold => e = .hold 100
  | .rstD => ∃ r, s.la.reset = some r ∧ e = .writePin r .high

end Sys2Proof.Machine
end

