-- ==== Sys2Proof/Certificates/Slice0/Obligations.lean ====
section
/-!
DEFINITION. The statements. Each docstring names the rules of spec/ it comes from, and where it rests on a choice of the
spec or of the model, the decision (92_eei_decisions.md) or the log entry.
In the statements of a transfer the environment's answers are given as lists (log 5): `waitAnswers a` is a wait of `a` LOW samples
and one HIGH, `rx` the received bytes. The statements about how an operation ended assume no such form.
-/

open Sys2Proof Sys2Proof.Machine

/-! ### Encoding -/

/-- The fourteen descriptors, the nine invalid words and the four accepted neighbours of 95_test_vectors.md §2.2, and the three preamble
Words of 30_encoding.md R77, decode to what they stand for: each OPSEL of R72 is tied to its operation here (D10; the names of the
reasons are the model's, log 16; that a preamble Word is an instruction of its own is log 10). -/
def Obligations.WrittenOutWordsDecode : Prop :=
  decode [.word32 0x00000000#32, .word32 0x70110818#32] = .ok (.openOp ⟨some 24, some 8, some 17⟩, []) ∧
  decode [.word32 0x00000000#32, .word32 0x30000818#32] = .ok (.openOp ⟨some 24, some 8, none⟩, []) ∧
  decode [.word32 0x00000000#32, .word32 0x00000000#32] = .ok (.openOp ⟨none, none, none⟩, []) ∧
  decode [.word32 0x00000000#32, .word32 0x10000018#32] = .ok (.openOp ⟨some 24, none, none⟩, []) ∧
  decode [.word32 0x10000000#32] = .ok (.closeOp, []) ∧
  decode [.word32 0x20000000#32] = .ok (.resetDevice, []) ∧
  decode [.word32 0x30000000#32] = .ok (.waitReady, []) ∧
  decode [.word32 0x40001000#32, .word32 2#32] = .ok (.read 0x1000#16 2, []) ∧
  decode [.word32 0x50006000#32, .word32 1#32, .word16 0x0302#16] = .ok (.write 0x6000#16 [0x0302#16], []) ∧
  decode [.word32 0x60000000#32, .word32 3#32, .byte 1#8, .byte 2#8, .byte 3#8]
    = .ok (.writeBulk [1#8, 2#8, 3#8], []) ∧
  decode [.word32 0x80000010#32, .word32 2#32, .word16 0x1234#16, .word16 0xABCD#16]
    = .ok (.writeCommand 0x0010#16 [0x1234#16, 0xABCD#16], []) ∧
  decode [.word32 0x90000000#32, .word32 2#32, .word16 0x1234#16, .word16 0xABCD#16]
    = .ok (.writeData [0x1234#16, 0xABCD#16], []) ∧
  decode [.word32 0xA0000000#32, .word32 2#32] = .ok (.readData 2, []) ∧
  decode [.word32 0xB0000000#32] = .ok (.readSingleWord, []) ∧
  decode [.word32 0xC0000000#32, .word32 3#32, .word16 0x0102#16, .word16 0x0304#16, .word16 0xFFFE#16]
    = .ok (.writePixels [0x0102#16, 0x0304#16, 0xFFFE#16], []) ∧
  decode [.word16 0x0000#16] = .ok (.preambleWriteData, []) ∧
  decode [.word16 0x1000#16] = .ok (.preambleReadData, []) ∧
  decode [.word16 0x6000#16] = .ok (.preambleWriteCommand, []) ∧
  decode [.word32 0x70000000#32] = .error .reservedOpsel ∧
  decode [.word32 0xD0000000#32] = .error .reservedOpsel ∧
  decode [.word32 0xF0000000#32] = .error .reservedOpsel ∧
  decode [.word32 0x10010000#32] = .error .reservedField ∧
  decode [.word32 0x10000001#32] = .error .argNotZero ∧
  decode [.word32 0xB0001000#32] = .error .argNotZero ∧
  decode [.word32 0x00000000#32, .word32 0x80000000#32] = .error .lineAssignReserved ∧
  decode [.word32 0x00000000#32, .word32 0x00000018#32] = .error .pinWithoutValid ∧
  decode [.word32 0x00000000#32, .word32 0x30000808#32] = .error .rolesSharePin

/-- Decoding the encoding of a well-formed instruction gives it back, with every operand at every value, and leaves what
follows it (30_encoding.md R70 to R74, R77; D10). -/
def Obligations.DecodeInvertsEncode : Prop :=
  ∀ (i : Instr) (rest : List HostItem), i.WellFormed → decode (encode i ++ rest) = .ok (i, rest)

/-- What decodes is the encoding of a well-formed instruction: no two descriptors spell one instruction, and a truncated or
ill-kinded one spells none (30_encoding.md R70 to R74, R83; D10, log 9). -/
def Obligations.EncodeInvertsDecode : Prop :=
  ∀ (items rest : List HostItem) (i : Instr), decode items = .ok (i, rest) → i.WellFormed ∧ items = encode i ++ rest

/-- The headers and line assignments of 30_encoding.md R83 spell no operation: the step is refused, with the reason
(D10; the order of the checks is log 16). -/
def Obligations.InvalidDescriptorsAreRefused : Prop :=
  ∀ (s : State) (h : BitVec 32) (rest : List HostItem), s.busy = false → s.host = .word32 h :: rest →
    let opsel := h.extractLsb' 28 4
    let rsv := h.extractLsb' 16 12
    let arg := h.extractLsb' 0 16
    let reserved := opsel = 0x7#4 ∨ opsel = 0xD#4 ∨ opsel = 0xE#4 ∨ opsel = 0xF#4
    (reserved → step s = .refused (.invalidDescriptor .reservedOpsel)) ∧
    (¬ reserved → rsv ≠ 0#12 → step s = .refused (.invalidDescriptor .reservedField)) ∧
    (¬ reserved → rsv = 0#12 → opsel ≠ 0x4#4 → opsel ≠ 0x5#4 → opsel ≠ 0x8#4 → arg ≠ 0#16 →
      step s = .refused (.invalidDescriptor .argNotZero)) ∧
    (∀ (w : BitVec 32) (rest' : List HostItem), opsel = 0x0#4 → rsv = 0#12 → arg = 0#16 → rest = .word32 w :: rest' →
      let badBits := w.getLsbD 31 = true ∨ w.extractLsb' 24 4 ≠ 0#4
      let rdy := w.extractLsb' 0 8
      let cs := w.extractLsb' 8 8
      let rst := w.extractLsb' 16 8
      let badPin := (w.getLsbD 28 = false ∧ rdy ≠ 0#8) ∨ (w.getLsbD 29 = false ∧ cs ≠ 0#8) ∨
        (w.getLsbD 30 = false ∧ rst ≠ 0#8)
      (badBits → step s = .refused (.invalidDescriptor .lineAssignReserved)) ∧
      (¬ badBits → badPin → step s = .refused (.invalidDescriptor .pinWithoutValid)) ∧
      (¬ badBits → ¬ badPin →
        (w.getLsbD 28 = true ∧ w.getLsbD 29 = true ∧ rdy = cs) ∨ (w.getLsbD 28 = true ∧ w.getLsbD 30 = true ∧ rdy = rst) ∨
          (w.getLsbD 29 = true ∧ w.getLsbD 30 = true ∧ cs = rst) →
        step s = .refused (.invalidDescriptor .rolesSharePin)))

/-- The word functions of 00_scope.md R10, by arithmetic (41_transport_transfers.md R146), and `unpack`, which the read
statements use, as the inverse of `pack`. -/
def Obligations.WordFunctionsByArithmetic : Prop :=
  (∀ w : Word, (hi w).toNat = w.toNat / 256 ∧ (lo w).toNat = w.toNat % 256 ∧ word (hi w) (lo w) = w) ∧
  (∀ b0 b1 : Byte, (word b0 b1).toNat = 256 * b0.toNat + b1.toNat ∧ hi (word b0 b1) = b0 ∧ lo (word b0 b1) = b1) ∧
  (∀ ws : List Word, (pack ws).length = 2 * ws.length ∧ unpack (pack ws) = ws ∧
    ∀ (k : Nat) (w : Word), ws[k]? = some w → (pack ws)[2 * k]? = some (hi w) ∧ (pack ws)[2 * k + 1]? = some (lo w)) ∧
  (∀ (bs : List Byte) (k : Nat) (b0 b1 : Byte), bs[2 * k]? = some b0 → bs[2 * k + 1]? = some b1 →
    (unpack bs)[k]? = some (word b0 b1))

/-! ### The step -/

/-- A step runs what is decoded: with BUSY = 0 the operation whose descriptor stands first in the host's stream, the descriptor
used up (log 8); with BUSY = 1 the operation in flight, or the preamble Word where one is next (log 10). -/
def Obligations.StepRunsWhatIsDecoded : Prop :=
  (∀ (s : State) (i : Instr) (rest : List HostItem), s.busy = false → decodeDescriptor s.host = .ok (i, rest) →
    step s = exec i { s with host := rest }) ∧
  (∀ (s : State) (i : Instr), s.busy = true → s.op = some i →
    (isTransfer i = false ∨ (s.ph ≠ .preH ∧ s.ph ≠ .preL) ∨ decodePreamble s.pre = none) → step s = exec i s) ∧
  (∀ (s : State) (i j : Instr), s.busy = true → s.op = some i → isTransfer i = true → (s.ph = .preH ∨ s.ph = .preL) →
    decodePreamble s.pre = some j → step s = exec j s)

/-- While an operation is in flight a step is a step of that operation, its preamble exchange included
(10_state.md R28, 41_transport_transfers.md R144; log 10, log 11). -/
def Obligations.StepContinuesTheOperation : Prop :=
  ∀ (s : State) (i : Instr), Inv s → s.op = some i → step s = exec i s

/-- A run of the machine from a state in which the host offers `i` goes through the run of `i`: what is stated of
`runOperation` holds of the machine (70_reset_and_hazards.md R245; log 8). -/
def Obligations.MachineRunsTheOperation : Prop :=
  ∀ (s u : State) (i : Instr) (rest : List HostItem) (k : Nat), Inv s → s.busy = false →
    decodeDescriptor s.host = .ok (i, rest) → runOperation k i { s with host := rest } = some u →
    ∃ m, 0 < m ∧ m ≤ k ∧ Host.Core.run Sys2Proof.core m s = .next u

/-- Acceptance, case by case: which STATUS each operation needs, which offers are refused and why, and what acceptance
changes (40_lifecycle_and_lines.md R100, 60_exceptions.md R213; 10_state.md R32; D4, log 4, log 12, log 30). -/
def Obligations.AcceptanceIsExact : Prop :=
  ∀ (i : Instr) (s : State), i.isOperation = true → s.busy = false →
    match i with
    | .openOp la =>
      ((∃ p, (la.ready = some p ∧ la.chipSelect = some p) ∨ (la.ready = some p ∧ la.reset = some p) ∨
          (la.chipSelect = some p ∧ la.reset = some p)) → exec i s = .refused .rolesSharePin) ∧
      (la.rolesDistinct = true → s.status = .unopened → exec i s = .next (s.accepted i)) ∧
      (la.rolesDistinct = true → s.status ≠ .unopened → exec i s = .refused .notUnopened)
    | .closeOp => exec i s = .next (s.accepted i)
    | _ => (s.status = .opened → exec i s = .next (s.accepted i)) ∧
      (s.status ≠ .opened → exec i s = .refused .notOpened)

/-- While BUSY = 1 no other operation is accepted, and what the host holds ready changes no step (10_state.md R30, D4;
log 8, log 11). -/
def Obligations.BusyBlockAcceptsNothing : Prop :=
  (∀ (i j : Instr) (s : State), s.busy = true → s.op = some i → j.isOperation = true → j ≠ i →
    exec j s = .refused .offeredWhileBusy) ∧
  (∀ (s t : State) (items : List HostItem), s.busy = true → step s = .next t →
    t.host = s.host ∧ step { s with host := items } = .next { t with host := items })

/-! ### The preamble Words -/

/-- The three preambles are sent as two byte exchanges, the high byte first, and nothing else changes but the wait counter
(30_encoding.md R77, 41_transport_transfers.md R131; log 10). -/
def Obligations.PreambleExchange : Prop :=
  PreambleRuns .preambleWriteData 0x0000#16 0x00#8 0x00#8 ∧
  PreambleRuns .preambleReadData 0x1000#16 0x10#8 0x00#8 ∧
  PreambleRuns .preambleWriteCommand 0x6000#16 0x60#8 0x00#8

/-- A preamble Word has no meaning away from its exchange (00_scope.md R2; log 10, the model's choice). -/
def Obligations.PreambleElsewhereIsRefused : Prop :=
  ∀ (s : State) (j : Instr) (v : Word),
    (j, v) ∈ [(.preambleWriteData, 0x0000#16), (.preambleReadData, 0x1000#16), (.preambleWriteCommand, (0x6000#16 : Word))] →
    s.busy = false ∨ (∀ i, s.op = some i → isTransfer i = false) ∨ (s.ph ≠ .preH ∧ s.ph ≠ .preL) ∨ s.pre ≠ v →
    exec j s = .refused .notTheCurrentPreamble

/-! ### Lifecycle and lines -/

/-- OPEN with `Init()` true: the configuration events, chip-select deasserted, LA and STATUS written, nothing else
(40_lifecycle_and_lines.md R103, R105; D5; log 5; the registers of a session: log 32). -/
def Obligations.OpenAcquiresAndConfigures : Prop :=
  ∀ (la : LineAssign) (s : State) (answers : List Bool), Inv s → s.busy = false → s.status = .unopened →
    la.rolesDistinct = true → s.env.initAnswers = true :: answers →
    exec (.openOp la) s = .next (s.accepted (.openOp la)) ∧
    ∃ k, runOperation k (.openOp la) s = some
      (State.answered .ok 0x00#8 0 []
        { s with
          status := .opened
          la := la
          csOut := if la.chipSelect.isSome then some .deasserted else none
          pincfg := pinsOpen la
          spicfg := ⟨.msbFirst, s.cfg.spiCpol, s.cfg.spiCpha, s.cfg.spiClkdiv⟩
          trace := s.trace ++ openEvents s.cfg la
          env := { s.env with initAnswers := answers } })

/-- PINCFG after a successful OPEN, pin by pin, and RST_OUT not driven (10_state.md R34, R25; D6). -/
def Obligations.OpenConfiguresExactlyItsPins : Prop :=
  ∀ (la : LineAssign) (s u : State) (k : Nat), Inv s → s.busy = false → runOperation k (.openOp la) s = some u →
    u.err = .ok →
    (∀ p, la.chipSelect = some p → pinGet u.pincfg p = some ⟨.output, none⟩) ∧
    (∀ p, la.reset = some p → pinGet u.pincfg p = some ⟨.output, none⟩) ∧
    (∀ p, la.ready = some p → pinGet u.pincfg p = some ⟨.input, some .down⟩) ∧
    (∀ p, la.chipSelect ≠ some p → la.reset ≠ some p → la.ready ≠ some p → pinGet u.pincfg p = none) ∧
    u.rstOut = none

/-- OPEN fails with InitializationError exactly when `Init()` answers false; then its one event is `Init()` and no pin,
no line and no other register changes (40_lifecycle_and_lines.md R104; D27; LA and the registers of a session: log 32). -/
def Obligations.OpenFailsExactlyWhenInitFails : Prop :=
  (∀ (la : LineAssign) (s : State) (answers : List Bool), s.busy = false → s.status = .unopened →
    la.rolesDistinct = true → s.env.initAnswers = false :: answers →
    exec (.openOp la) s = .next (s.accepted (.openOp la)) ∧
    ∃ k, runOperation k (.openOp la) s = some
      (State.answered .initializationError 0x01#8 0 []
        { s with trace := s.trace ++ [.init false], env := { s.env with initAnswers := answers } })) ∧
  (∀ (i : Instr) (s u : State) (k : Nat), i.isOperation = true → s.busy = false → runOperation k i s = some u →
    (u.err = .initializationError ↔ (∃ la, i = .openOp la) ∧ u.trace = s.trace ++ [.init false]))

/-- CLOSE performs `Close()` and releases everything when the block is open, and nothing when it is not; it always responds with
OK (40_lifecycle_and_lines.md R106; D4, D18). That SPICFG stays as it is is the model's choice (log 31), and so is what the
registers of a session hold (log 32). -/
def Obligations.CloseReleasesOnce : Prop :=
  ∀ s : State, s.busy = false →
    exec .closeOp s = .next (s.accepted .closeOp) ∧
    (s.status = .opened → ∃ k, runOperation k .closeOp s = some
      (State.answered .ok 0x00#8 0 []
        { s with status := .closed, pincfg := [], csOut := none, rstOut := none, trace := s.trace ++ [.close] })) ∧
    (s.status ≠ .opened → ∃ k, runOperation k .closeOp s = some (State.answered .ok 0x00#8 0 [] s))

/-- The number of `Close()` events is one after a CLOSE of an open block and zero before, whatever the host does
(40_lifecycle_and_lines.md R106, 70_reset_and_hazards.md R232). -/
def Obligations.CloseEventAtMostOnce : Prop :=
  State.reset.trace.count .close = 0 ∧
  ∀ s t : State, Inv s → (s.trace.count .close = if s.status = .closed then 1 else 0) → step s = .next t →
    t.trace.count .close = if t.status = .closed then 1 else 0

/-- RESET_DEVICE: LOW, a hold of 100 ms, HIGH on the reset pin, and nothing else (40_lifecycle_and_lines.md R107;
90_conflicts.md C1; the registers of a session: log 32). -/
def Obligations.ResetDevicePulsesTheResetLine : Prop :=
  ∀ (s : State) (r : Pin), s.busy = false → s.status = .opened → s.la.reset = some r →
    exec .resetDevice s = .next (s.accepted .resetDevice) ∧
    ∃ k, runOperation k .resetDevice s = some
      (State.answered .ok 0x00#8 0 []
        { s with rstOut := some .high, trace := s.trace ++ [.writePin r .low, .hold 100, .writePin r .high] })

/-- WAIT_READY samples until the first HIGH and responds with OK (40_lifecycle_and_lines.md R108, R109; D20; log 5,
log 32). -/
def Obligations.WaitReadyEndsAtTheFirstHigh : Prop :=
  ∀ (s : State) (y : Pin) (a : Nat) (levels : List Level), s.busy = false → s.status = .opened → s.la.ready = some y →
    withinLimit s.cfg a → s.env.readyLevels = waitAnswers a ++ levels →
    exec .waitReady s = .next (s.accepted .waitReady) ∧
    ∃ k, runOperation k .waitReady s = some
      (State.answered .ok 0x00#8 0 []
        { s with polls := a, trace := s.trace ++ waitEvents y a, env := { s.env with readyLevels := levels } })

/-- WAIT_READY gives up after exactly N LOW samples (40_lifecycle_and_lines.md R110, 60_exceptions.md R204; D7, log 14, log 32). -/
def Obligations.WaitReadyGivesUpAtTheLimit : Prop :=
  ∀ (s : State) (y : Pin) (limit : Nat) (levels : List Level), s.busy = false → s.status = .opened →
    s.la.ready = some y → s.cfg.readyPollLimit = some limit → 1 ≤ limit →
    s.env.readyLevels = List.replicate limit .low ++ levels →
    ∃ k, runOperation k .waitReady s = some
      (State.answered .deviceNotRespondingError 0x04#8 0 []
        { s with
          polls := limit
          trace := s.trace ++ List.replicate limit (.readPin y .low)
          env := { s.env with readyLevels := levels } })

/-- The endless wait: without a limit, LOW samples keep the block in its wait phase for as many steps as there are samples; one
`ReadPin` a step, nothing else changes (60_exceptions.md R205; D7). -/
def Obligations.WaitWithoutLimitNeverGivesUp : Prop :=
  ∀ (s : State) (y : Pin) (k : Nat) (levels : List Level), Inv s → s.cfg.readyPollLimit = none → s.la.ready = some y →
    (s.ph = .rdy1 ∨ s.ph = .rdy2 ∨ s.ph = .rdy3 ∨ s.ph = .wait) →
    s.env.readyLevels = List.replicate k .low ++ levels →
    Host.Core.run Sys2Proof.core k s = .next
      { s with
        polls := s.polls + k
        trace := s.trace ++ List.replicate k (.readPin y .low)
        env := { s.env with readyLevels := levels } }

/-- With a limit every accepted operation ends, whatever the environment answers (70_reset_and_hazards.md R236,
40_lifecycle_and_lines.md R110; D7). -/
def Obligations.LimitedOperationsEnd : Prop :=
  ∀ (i : Instr) (s : State) (limit : Nat), i.isOperation = true → s.busy = false →
    s.cfg.readyPollLimit = some limit → exec i s = .next (s.accepted i) → ∃ k u, runOperation k i s = some u

/-- An operation that needs a role without a pin responds with ConfigurationError and the role, performs no event and
changes no line; RES is empty after a read that fails so (60_exceptions.md R202, R207; 30_encoding.md R75; 10_state.md R32; D3,
D9, D26; log 12, log 30, log 32). -/
def Obligations.MissingRoleFailsFast : Prop :=
  ∀ (i : Instr) (s : State) (role : Nat), i.isOperation = true → s.busy = false → s.status = .opened →
    missingRole i s.la = some role →
    exec i s = .next (s.accepted i) ∧
    ∃ k, runOperation k i s = some
      (State.answered .configurationError 0x02#8 role []
        { s with
          sub := if i.isCommandLayer then 0 else s.sub
          res := if readsWords i then [] else s.res })

/-- ConfigurationError is raised only for a role without a pin (60_exceptions.md R200, R202). -/
def Obligations.ConfigurationErrorOnlyForAMissingRole : Prop :=
  ∀ (i : Instr) (s u : State) (k : Nat), i.isOperation = true → s.busy = false → runOperation k i s = some u →
    (u.err = .configurationError ↔ missingRole i s.la ≠ none)

/-! ### Transfers whose answers are given -/

/-- READ(p, n): the read frame, the n Words in order, and nothing else but the datapath registers
(41_transport_transfers.md R135; log 5, log 30; what the registers hold afterwards: log 32). -/
def Obligations.ReadRunsTheReadFrame : Prop :=
  ∀ (p : Word) (n : Nat) (s : State) (c y : Pin) (a b d : Nat) (rx bytes : List Byte) (levels : List Level),
    CanTransfer s c y → withinLimit s.cfg a → withinLimit s.cfg b → withinLimit s.cfg d →
    s.env.readyLevels = waitAnswers a ++ waitAnswers b ++ waitAnswers d ++ levels →
    s.env.rxBytes = rx ++ bytes → rx.length = 4 + 2 * n →
    exec (.read p n) s = .next (s.accepted (.read p n)) ∧
    ∃ k, runOperation k (.read p n) s = some
      (State.answered .ok 0x00#8 0 (unpack (rx.drop 4))
        { s with
          csOut := some .deasserted
          pre := p
          n := n
          idx := n
          polls := d
          rxh := if n = 0 then s.rxh else (rx[2 * n + 2]?).getD 0
          res := unpack (rx.drop 4)
          trace := s.trace ++ readFrame s.cfg c y p n a b d rx
          env := { s.env with readyLevels := levels, rxBytes := bytes } })

/-- WRITE(p, ws): the write frame, and nothing else but the datapath registers (41_transport_transfers.md R137; log 5,
log 32). -/
def Obligations.WriteRunsTheWriteFrame : Prop :=
  ∀ (p : Word) (ws : List Word) (s : State) (c y : Pin) (a b : Nat) (rx bytes : List Byte) (levels : List Level),
    CanTransfer s c y → withinLimit s.cfg a → withinLimit s.cfg b →
    s.env.readyLevels = waitAnswers a ++ waitAnswers b ++ levels →
    s.env.rxBytes = rx ++ bytes → rx.length = 2 + 2 * ws.length →
    exec (.write p ws) s = .next (s.accepted (.write p ws)) ∧
    ∃ k, runOperation k (.write p ws) s = some
      (State.answered .ok 0x00#8 0 []
        { s with
          csOut := some .deasserted
          pre := p
          n := ws.length
          idx := ws.length
          polls := b
          trace := s.trace ++ writeFrame s.cfg c y p ws a b rx
          env := { s.env with readyLevels := levels, rxBytes := bytes } })

/-- WRITE_BULK(bs): the bulk frame, one `XferBulk` of the whole buffer at any length, and nothing else but the datapath
registers (41_transport_transfers.md R139; D17, D19; log 5, log 32). -/
def Obligations.WriteBulkRunsTheBulkFrame : Prop :=
  ∀ (bs : List Byte) (s : State) (c y : Pin) (a b : Nat) (rx bytes : List Byte) (levels : List Level),
    CanTransfer s c y → withinLimit s.cfg a → withinLimit s.cfg b →
    s.env.readyLevels = waitAnswers a ++ waitAnswers b ++ levels →
    s.env.rxBytes = rx ++ bytes → rx.length = 2 →
    exec (.writeBulk bs) s = .next (s.accepted (.writeBulk bs)) ∧
    ∃ k, runOperation k (.writeBulk bs) s = some
      (State.answered .ok 0x00#8 0 []
        { s with
          csOut := some .deasserted
          pre := 0x0000#16
          n := bs.length
          polls := b
          trace := s.trace ++ bulkFrame s.cfg c y bs a b rx
          env := { s.env with readyLevels := levels, rxBytes := bytes } })

/-- WRITE_COMMAND(code, args): one write frame for the code under 0x6000 and one for each argument under 0x0000, one response
(42_command_layer.md R172, R177; log 5, log 12, log 32). -/
def Obligations.WriteCommandRunsItsSessions : Prop :=
  ∀ (code : Word) (args : List Word) (s : State) (c y : Pin) (rounds : List Round) (bytes : List Byte)
    (levels : List Level),
    CanTransfer s c y → rounds.length = 1 + args.length →
    (∀ r ∈ rounds, withinLimit s.cfg r.firstWait ∧ withinLimit s.cfg r.secondWait ∧ r.received.length = 4) →
    s.env.readyLevels = rounds.flatMap Round.levels ++ levels →
    s.env.rxBytes = rounds.flatMap Round.received ++ bytes →
    exec (.writeCommand code args) s = .next (s.accepted (.writeCommand code args)) ∧
    ∃ k, runOperation k (.writeCommand code args) s = some
      (State.answered .ok 0x00#8 0 []
        { s with
          csOut := some .deasserted
          pre := if args = [] then 0x6000#16 else 0x0000#16
          n := 1
          idx := 1
          polls := (rounds.getLast?.map Round.secondWait).getD s.polls
          sub := args.length
          trace := s.trace ++ commandEvents s.cfg c y code args rounds
          env := { s.env with readyLevels := levels, rxBytes := bytes } })

/-- WRITE_DATA(ws): one write frame under 0x0000 (42_command_layer.md R170; log 5, log 12, log 32). -/
def Obligations.WriteDataRunsTheWriteFrame : Prop :=
  ∀ (ws : List Word) (s : State) (c y : Pin) (a b : Nat) (rx bytes : List Byte) (levels : List Level),
    CanTransfer s c y → withinLimit s.cfg a → withinLimit s.cfg b →
    s.env.readyLevels = waitAnswers a ++ waitAnswers b ++ levels →
    s.env.rxBytes = rx ++ bytes → rx.length = 2 + 2 * ws.length →
    exec (.writeData ws) s = .next (s.accepted (.writeData ws)) ∧
    ∃ k, runOperation k (.writeData ws) s = some
      (State.answered .ok 0x00#8 0 []
        { s with
          csOut := some .deasserted
          pre := 0x0000#16
          n := ws.length
          idx := ws.length
          polls := b
          sub := 0
          trace := s.trace ++ writeFrame s.cfg c y 0x0000#16 ws a b rx
          env := { s.env with readyLevels := levels, rxBytes := bytes } })

/-- READ_DATA(n): one read frame under 0x1000 (42_command_layer.md R171; log 5, log 12, log 30, log 32). -/
def Obligations.ReadDataRunsTheReadFrame : Prop :=
  ∀ (n : Nat) (s : State) (c y : Pin) (a b d : Nat) (rx bytes : List Byte) (levels : List Level),
    CanTransfer s c y → withinLimit s.cfg a → withinLimit s.cfg b → withinLimit s.cfg d →
    s.env.readyLevels = waitAnswers a ++ waitAnswers b ++ waitAnswers d ++ levels →
    s.env.rxBytes = rx ++ bytes → rx.length = 4 + 2 * n →
    exec (.readData n) s = .next (s.accepted (.readData n)) ∧
    ∃ k, runOperation k (.readData n) s = some
      (State.answered .ok 0x00#8 0 (unpack (rx.drop 4))
        { s with
          csOut := some .deasserted
          pre := 0x1000#16
          n := n
          idx := n
          polls := d
          sub := 0
          rxh := if n = 0 then s.rxh else (rx[2 * n + 2]?).getD 0
          res := unpack (rx.drop 4)
          trace := s.trace ++ readFrame s.cfg c y 0x1000#16 n a b d rx
          env := { s.env with readyLevels := levels, rxBytes := bytes } })

/-- READ_SINGLE_WORD: the read frame of one Word under 0x1000, and that Word (42_command_layer.md R174; log 5, log 12,
log 30, log 32). -/
def Obligations.ReadSingleWordReturnsTheWord : Prop :=
  ∀ (s : State) (c y : Pin) (a b d : Nat) (x0 x1 x2 x3 b0 b1 : Byte) (bytes : List Byte) (levels : List Level),
    CanTransfer s c y → withinLimit s.cfg a → withinLimit s.cfg b → withinLimit s.cfg d →
    s.env.readyLevels = waitAnswers a ++ waitAnswers b ++ waitAnswers d ++ levels →
    s.env.rxBytes = [x0, x1, x2, x3, b0, b1] ++ bytes →
    exec .readSingleWord s = .next (s.accepted .readSingleWord) ∧
    ∃ k, runOperation k .readSingleWord s = some
      (State.answered .ok 0x00#8 0 [word b0 b1]
        { s with
          csOut := some .deasserted
          pre := 0x1000#16
          n := 1
          idx := 1
          polls := d
          sub := 0
          rxh := b0
          res := [word b0 b1]
          trace := s.trace ++ readFrame s.cfg c y 0x1000#16 1 a b d [x0, x1, x2, x3, b0, b1]
          env := { s.env with readyLevels := levels, rxBytes := bytes } })

/-- WRITE_PIXELS(ws): one bulk frame of the packed Words (42_command_layer.md R176; log 5, log 12, log 32). -/
def Obligations.WritePixelsSendsThePackedWords : Prop :=
  ∀ (ws : List Word) (s : State) (c y : Pin) (a b : Nat) (rx bytes : List Byte) (levels : List Level),
    CanTransfer s c y → withinLimit s.cfg a → withinLimit s.cfg b →
    s.env.readyLevels = waitAnswers a ++ waitAnswers b ++ levels →
    s.env.rxBytes = rx ++ bytes → rx.length = 2 →
    exec (.writePixels ws) s = .next (s.accepted (.writePixels ws)) ∧
    ∃ k, runOperation k (.writePixels ws) s = some
      (State.answered .ok 0x00#8 0 []
        { s with
          csOut := some .deasserted
          pre := 0x0000#16
          n := 2 * ws.length
          polls := b
          sub := 0
          trace := s.trace ++ bulkFrame s.cfg c y (pack ws) a b rx
          env := { s.env with readyLevels := levels, rxBytes := bytes } })

/-! ### Transfers, whatever the environment answers -/

/-- The read frame: what a READ that ends with OK has put on the wire, and which received bytes make its result
(30_encoding.md R79; the places of the waits R81). -/
def Obligations.ReadFrameOnTheWire : Prop :=
  ∀ (p : Word) (n : Nat) (s u : State) (k : Nat), s.busy = false → runOperation k (.read p n) s = some u →
    u.err = .ok → ∃ (c y : Pin) (a b d : Nat) (rx : List Byte) (result : List Word),
      s.la.chipSelect = some c ∧ s.la.ready = some y ∧ rx.length = 4 + 2 * n ∧
      u.trace = s.trace ++ readFrame s.cfg c y p n a b d rx ∧
      wireBytes (readFrame s.cfg c y p n a b d rx)
        = [hi p, lo p] ++ [0x00#8, 0x00#8] ++ List.replicate (2 * n) 0x00#8 ∧
      u.responses = s.responses ++ [⟨0x00#8, 0, result⟩] ∧ result.length = n ∧
      ∀ j < n, ∃ b0 b1, rx[4 + 2 * j]? = some b0 ∧ rx[5 + 2 * j]? = some b1 ∧ result[j]? = some (word b0 b1)

/-- The write frame: what a WRITE that ends with OK has put on the wire; every received byte is dropped
(30_encoding.md R78; the places of the waits R81). -/
def Obligations.WriteFrameOnTheWire : Prop :=
  ∀ (p : Word) (ws : List Word) (s u : State) (k : Nat), s.busy = false → runOperation k (.write p ws) s = some u →
    u.err = .ok → ∃ (c y : Pin) (a b : Nat) (rx : List Byte),
      s.la.chipSelect = some c ∧ s.la.ready = some y ∧ rx.length = 2 + 2 * ws.length ∧
      u.trace = s.trace ++ writeFrame s.cfg c y p ws a b rx ∧
      wireBytes (writeFrame s.cfg c y p ws a b rx) = [hi p, lo p] ++ ws.flatMap (fun w => [hi w, lo w]) ∧
      (wireBytes (writeFrame s.cfg c y p ws a b rx)).length = 2 + 2 * ws.length ∧
      u.responses = s.responses ++ [⟨0x00#8, 0, []⟩] ∧ DropsReceivedBytes (.write p ws)

/-- The bulk frame: what a WRITE_BULK that ends with OK has put on the wire; every received byte is dropped
(30_encoding.md R80; the places of the waits R81). -/
def Obligations.BulkFrameOnTheWire : Prop :=
  ∀ (bs : List Byte) (s u : State) (k : Nat), s.busy = false → runOperation k (.writeBulk bs) s = some u →
    u.err = .ok → ∃ (c y : Pin) (a b : Nat) (rx : List Byte),
      s.la.chipSelect = some c ∧ s.la.ready = some y ∧ rx.length = 2 ∧
      u.trace = s.trace ++ bulkFrame s.cfg c y bs a b rx ∧
      wireBytes (bulkFrame s.cfg c y bs a b rx) = [0x00#8, 0x00#8] ++ bs ∧
      (wireBytes (bulkFrame s.cfg c y bs a b rx)).length = 2 + bs.length ∧
      u.responses = s.responses ++ [⟨0x00#8, 0, []⟩] ∧ DropsReceivedBytes (.writeBulk bs)

/-- The counted properties of the three Transport transfers that end with OK (41_transport_transfers.md R136, R138, R140). -/
def Obligations.CountedPropertiesOfTransfers : Prop :=
  ∀ (i : Instr) (ses : Session) (s u : State) (k : Nat), isTransportTransfer i = true → sessionsOf i = [ses] →
    s.busy = false → runOperation k i s = some u → u.err = .ok →
    ∃ es : List Event, u.trace = s.trace ++ es ∧
      es.countP (fun e => match e with | .writePin _ _ => true | _ => false) = 2 ∧
      es.countP (fun e => match e with | .xfer _ _ => true | _ => false)
        = (match ses with | .read _ n => 4 + 2 * n | .write _ ws => 2 + 2 * ws.length | .bulk _ => 2) ∧
      es.countP (fun e => match e with | .xferBulk _ => true | _ => false)
        = (match ses with | .read _ _ => 0 | .write _ _ => 0 | .bulk _ => 1) ∧
      (match ses with | .read _ _ => 3 | .write _ _ => 2 | .bulk _ => 2)
        ≤ es.countP (fun e => match e with | .readPin _ .high => true | _ => false) ∧
      ∃ c, s.la.chipSelect = some c ∧ es.getLast? = some (.writePin c s.cfg.csAssertLevel.flip)

/-- One session per Transport transfer: either no line is written and no byte moves, or there is one assertion and then
one deassertion of chip-select, the last event, and every serial event lies between them (41_transport_transfers.md R142,
R147; 10_state.md R37). -/
def Obligations.OneSessionPerTransfer : Prop :=
  ∀ (i : Instr) (s u : State) (k : Nat), isTransportTransfer i = true → s.busy = false → runOperation k i s = some u →
    ∃ es : List Event, u.trace = s.trace ++ es ∧
      ((u.err ≠ .ok ∧ ∀ e ∈ es, ∃ y, s.la.ready = some y ∧ e = .readPin y .low) ∨
       ∃ (c y : Pin) (before between : List Event), s.la.chipSelect = some c ∧ s.la.ready = some y ∧
        es = before ++ [.writePin c s.cfg.csAssertLevel] ++ between ++ [.writePin c s.cfg.csAssertLevel.flip] ∧
        (∀ e ∈ before, ∃ l, e = .readPin y l) ∧ before.getLast? = some (.readPin y .high) ∧
        ∀ e ∈ between, (∃ l, e = .readPin y l) ∨ e.isSerial = true)

/-- A wait that gives up inside a transfer: in the first wait the operation ends with no further event, in a later one
chip-select is deasserted first; no Words are handed over (41_transport_transfers.md R147, 60_exceptions.md R208; D8). -/
def Obligations.FailedWaitClosesTheSession : Prop :=
  ∀ (i : Instr) (ses : Session) (s u : State) (k : Nat), sessionsOf i = [ses] → s.busy = false → s.cfg.InRange →
    runOperation k i s = some u → u.err = .deviceNotRespondingError →
    ∃ (c y : Pin) (limit : Nat), s.la.chipSelect = some c ∧ s.la.ready = some y ∧ s.cfg.readyPollLimit = some limit ∧
      u.responses = s.responses ++ [⟨0x04#8, 0, []⟩] ∧
      ((u.trace = s.trace ++ List.replicate limit (.readPin y .low) ∧ u.csOut = s.csOut) ∨
       ((∃ a rx, rx.length = 2 ∧ u.trace = s.trace ++ (waitEvents y a ++ [assertEvent s.cfg c]
            ++ xferEvents [hi (sessionPreamble ses), lo (sessionPreamble ses)] rx ++ List.replicate limit (.readPin y .low)
            ++ [deassertEvent s.cfg c])) ∧ u.csOut = some .deasserted) ∨
       (readSession ses = true ∧ (∃ a b rx, rx.length = 4 ∧ u.trace = s.trace ++ (frameHead s.cfg c y (sessionPreamble ses) a b rx
            ++ xferEvents [0x00#8, 0x00#8] (rx.drop 2) ++ List.replicate limit (.readPin y .low)
            ++ [deassertEvent s.cfg c])) ∧ u.csOut = some .deasserted))

/-- On the wire WRITE_BULK(pack(ws)), WRITE_PIXELS(ws) and WRITE(0x0000, ws) send the same bytes, with the second wait and
chip-select at the same place (41_transport_transfers.md R140, 20_memory.md R56). -/
def Obligations.BulkAndWordPathsSendTheSameBytes : Prop :=
  ∀ (ws : List Word) (s s' u u' : State) (k k' : Nat), s.busy = false → s'.busy = false →
    (runOperation k (.writeBulk (pack ws)) s = some u ∨ runOperation k (.writePixels ws) s = some u) → u.err = .ok →
    runOperation k' (.write 0x0000#16 ws) s' = some u' → u'.err = .ok →
    ∃ es es', u.trace = s.trace ++ es ∧ u'.trace = s'.trace ++ es' ∧ wireBytes es = wireBytes es' ∧
      (∃ (c y : Pin) (a b : Nat) (rx : List Byte), es = frameHead s.cfg c y 0x0000#16 a b rx ++ [.xferBulk (pack ws)]
        ++ [deassertEvent s.cfg c]) ∧
      ∃ (c y : Pin) (a b : Nat) (rx : List Byte), rx.length = 2 + 2 * ws.length ∧
        es' = frameHead s'.cfg c y 0x0000#16 a b rx ++ xferEvents (pack ws) (rx.drop 2) ++ [deassertEvent s'.cfg c]

/-- No event, no response and no register depends on a received byte that the operation drops: for a read the first four, for a
write all (41_transport_transfers.md R141). The two runs differ in the bytes given as received, and only there. -/
def Obligations.DroppedBytesDoNotMatter : Prop :=
  ∀ (i : Instr) (s u : State) (k : Nat) (x x' tail : List Byte), isTransfer i = true → s.busy = false →
    (∀ ses ∈ sessionsOf i, readSession ses = true → x.length ≤ 4) → x.length = x'.length →
    s.env.rxBytes = x ++ tail → runOperation k i s = some u →
    ∃ u', (∃ k', runOperation k' i { s with env := { s.env with rxBytes := x' ++ tail } } = some u') ∧
      u' = { u with trace := u'.trace, env := { u.env with rxBytes := u'.env.rxBytes } } ∧
      u'.trace.map Event.forgetRx = u.trace.map Event.forgetRx ∧ u'.env.rxBytes.length = u.env.rxBytes.length

/-! ### The two forms and the Command Layer -/

/-- The pseudocode of an operation's rule and the transition tables give the same events, the same response and the same
state (41_transport_transfers.md R148, 00_scope.md R12). -/
def Obligations.TwoFormsAgree : Prop :=
  ∀ (i : Instr) (s : State), i.isOperation = true → s.busy = false →
    (∀ u, (∃ fuel, bigStep fuel i s = .responded u) ↔ ∃ k, runOperation k i s = some u) ∧
    (∀ fuel r, bigStep fuel i s = .refused r ↔ exec i s = .refused r) ∧
    ((∀ fuel, ∃ v, bigStep fuel i s = .outOfFuel v) ↔ exec i s = .next (s.accepted i) ∧ ∀ k, runOperation k i s = none)

/-- Each Command Layer operation of one session is the Transport operation it expands to, but for the count of sessions
(30_encoding.md R87, 42_command_layer.md R170, R171, R174, R176; log 12, log 32). -/
def Obligations.CommandLayerExpands : Prop :=
  ∀ s u : State, s.busy = false →
    (∀ ws, (∃ k, runOperation k (.writeData ws) s = some u) ↔
      ∃ k, runOperation k (.write 0x0000#16 ws) { s with sub := 0 } = some u) ∧
    (∀ n, (∃ k, runOperation k (.readData n) s = some u) ↔
      ∃ k, runOperation k (.read 0x1000#16 n) { s with sub := 0 } = some u) ∧
    ((∃ k, runOperation k .readSingleWord s = some u) ↔
      ∃ k, runOperation k (.read 0x1000#16 1) { s with sub := 0 } = some u) ∧
    (∀ ws, (∃ k, runOperation k (.writePixels ws) s = some u) ↔
      ∃ k, runOperation k (.writeBulk (pack ws)) { s with sub := 0 } = some u)

/-- WRITE_COMMAND(code, args) is observably the WRITE operations of its expansion, offered one after the other until one fails:
the same events, the same lines, the same error; it responds once (42_command_layer.md R172, R173, R177;
95_test_vectors.md S5; D21, log 12, log 32). -/
def Obligations.WriteCommandIsItsWrites : Prop :=
  ∀ (code : Word) (args : List Word) (s : State), s.busy = false → s.status = .opened →
    (∀ u, (∃ k, runOperation k (.writeCommand code args) s = some u) →
      ∃ k v, runUntilError k (commandWrites code args) s = some v ∧
        u = { v with sub := u.sub, responses := s.responses ++ v.responses.getLast?.toList }) ∧
    (∀ k v, runUntilError k (commandWrites code args) s = some v →
      ∃ m u, runOperation m (.writeCommand code args) s = some u ∧
        u = { v with sub := u.sub, responses := s.responses ++ v.responses.getLast?.toList })

/-! ### Invariants and frames -/

/-- The reset state, as far as the spec gives it (10_state.md R38; D14). -/
def Obligations.ResetStateIsTheSpecs : Prop :=
  State.reset.status = .unopened ∧ State.reset.csOut = none ∧ State.reset.rstOut = none ∧
  (∀ p, pinGet State.reset.pincfg p = none) ∧ State.reset.busy = false ∧ State.reset.op = none ∧
  State.reset.ph = .idle ∧ State.reset.err = .ok ∧ State.reset.res = [] ∧ State.reset.trace = []

/-- The reset state meets the invariant (10_state.md R28, R34, R37, R38). Its clause on the roles of LA rests on the value the model
gives LA at reset, where R38 gives none (log 1, the model's choice). -/
def Obligations.ResetMeetsTheInvariant : Prop := Inv State.reset

/-- Every step keeps the invariant: chip-select asserted exactly inside a session, PINCFG as OPEN configured it, the phase one of
the operation in flight (10_state.md R28, R34, R35, R37). -/
def Obligations.StepKeepsTheInvariant : Prop :=
  (∀ s t : State, Inv s → step s = .next t → Inv t) ∧
  (∀ (i : Instr) (s t : State), Inv s → exec i s = .next t → Inv t)

/-- The block is never stuck while BUSY = 1 (70_reset_and_hazards.md R245). -/
def Obligations.NeverStuckWhileBusy : Prop :=
  ∀ s : State, Inv s → s.busy = true → ∃ t, step s = .next t

/-- The event of each step, phase by phase: none in S_IDLE, S_CHK and S_DONE, exactly one in every other phase
(41_transport_transfers.md R143, R144, R145; 10_state.md R28). -/
def Obligations.EventOfEachPhase : Prop :=
  ∀ (i : Instr) (s t : State), Inv s → s.op = some i → step s = .next t →
    if s.ph = .idle ∨ s.ph = .chk ∨ s.ph = .done then t.trace = s.trace
    else ∃ e, t.trace = s.trace ++ [e] ∧ PhaseEvent i s e

/-- No byte moves on the serial bus while chip-select is not asserted (10_state.md R37). -/
def Obligations.SerialOnlyWhileSelected : Prop :=
  ∀ (s t : State) (e : Event), Inv s → step s = .next t → t.trace = s.trace ++ [e] → e.isSerial = true →
    s.csOut = some .asserted ∧ t.csOut = some .asserted

/-- STATUS moves only by OPEN and CLOSE, LA only by a successful OPEN and to its operand, SPICFG and PINCFG only by them
(10_state.md R21, R22, R34, R35). That CLOSE leaves SPICFG as it is is the model's choice (log 31). -/
def Obligations.LifecycleRegistersHaveTheirWriters : Prop :=
  ∀ (i : Instr) (s t : State), Inv s → exec i s = .next t →
    (t.status ≠ s.status →
      (∃ la, i = .openOp la ∧ s.status = .unopened ∧ t.status = .opened ∧ t.la = la) ∨
      (i = .closeOp ∧ s.status = .opened ∧ t.status = .closed)) ∧
    (t.la ≠ s.la → ∃ la, i = .openOp la ∧ t.la = la ∧ t.status = .opened) ∧
    (t.spicfg ≠ s.spicfg → ∃ la, i = .openOp la) ∧
    (t.pincfg ≠ s.pincfg → (∃ la, i = .openOp la) ∨ i = .closeOp) ∧
    t.cfg = s.cfg

/-- The frame of the transfers and of the preamble Words: no step of one changes the lifecycle registers, the reset line, the
pins, the host's stream or the answers to `Init()`; a write or bulk transfer that was accepted changes no result register
(41_transport_transfers.md R135, R137, R139; 40_lifecycle_and_lines.md R112; log 32). -/
def Obligations.TransfersLeaveTheRestAlone : Prop :=
  (∀ (i : Instr) (s t : State), (isTransfer i = true ∨ i.isOperation = false) → exec i s = .next t →
    t.cfg = s.cfg ∧ t.status = s.status ∧ t.la = s.la ∧ t.rstOut = s.rstOut ∧ t.pincfg = s.pincfg ∧
    t.spicfg = s.spicfg ∧ t.host = s.host ∧ t.env.initAnswers = s.env.initAnswers) ∧
  (∀ (i : Instr) (s u : State) (k : Nat), isTransfer i = true → (∀ ses ∈ sessionsOf i, readSession ses = false) →
    s.busy = false → runOperation k i s = some u → u.res = s.res ∧ u.rxh = s.rxh)

/-- The frame of RESET_DEVICE and WAIT_READY: no step of either changes chip-select, the lifecycle registers, the pins, the
session registers or the result; WAIT_READY does not touch the reset line (40_lifecycle_and_lines.md R107, R108, R112;
90_conflicts.md C1; log 32). -/
def Obligations.LineOperationsLeaveTheRestAlone : Prop :=
  ∀ (i : Instr) (s t : State), (i = .resetDevice ∨ i = .waitReady) → exec i s = .next t →
    t.cfg = s.cfg ∧ t.status = s.status ∧ t.la = s.la ∧ t.csOut = s.csOut ∧ t.pincfg = s.pincfg ∧
    t.spicfg = s.spicfg ∧ t.pre = s.pre ∧ t.n = s.n ∧ t.idx = s.idx ∧ t.rxh = s.rxh ∧ t.sub = s.sub ∧ t.res = s.res ∧
    t.host = s.host ∧ t.env.initAnswers = s.env.initAnswers ∧ t.env.rxBytes = s.env.rxBytes ∧
    (i = .waitReady → t.rstOut = s.rstOut) ∧ (i = .resetDevice → t.polls = s.polls ∧ t.env = s.env) ∧
    ∀ e, t.trace = s.trace ++ [e] → e.isSerial = false ∧
      ∀ c, s.la.chipSelect = some c → s.la.rolesDistinct = true → e.writes c = false

/-- The frame of OPEN and CLOSE: no step of either changes the session registers, the result, the host's stream or the other
answers; no serial event, no sample, no write of the reset pin (40_lifecycle_and_lines.md R103, R106, R112; log 32). -/
def Obligations.LifecycleLeavesTheRestAlone : Prop :=
  ∀ (i : Instr) (s t : State), ((∃ la, i = .openOp la) ∨ i = .closeOp) → exec i s = .next t →
    t.cfg = s.cfg ∧ t.pre = s.pre ∧ t.n = s.n ∧ t.idx = s.idx ∧ t.rxh = s.rxh ∧ t.polls = s.polls ∧ t.sub = s.sub ∧
    t.res = s.res ∧ t.host = s.host ∧ t.env.readyLevels = s.env.readyLevels ∧ t.env.rxBytes = s.env.rxBytes ∧
    (t.rstOut = s.rstOut ∨ (i = .closeOp ∧ t.rstOut = none)) ∧
    ∀ e, t.trace = s.trace ++ [e] → e.isSerial = false ∧ (∀ p l, e ≠ .readPin p l) ∧
      ∀ la r, i = .openOp la → la.rolesDistinct = true → la.reset = some r → e.writes r = false

/-- ERR and the response are written together, when an operation ends, and by nothing else; the code is ERR's
(10_state.md R31, 30_encoding.md R75, 60_exceptions.md R200, R208; D9). -/
def Obligations.ErrAndResponseAreWrittenAtTheEnd : Prop :=
  ∀ (i : Instr) (s t : State), exec i s = .next t →
    (t.busy = true ∧ t.err = s.err ∧ t.responses = s.responses) ∨
    (t.busy = false ∧ t.op = none ∧ t.ph = .idle ∧ t.trace = s.trace ∧
      ∃ info result, t.responses = s.responses ++ [⟨t.err.code, info, result⟩])

/-- What the block owes the host when an operation has ended: one response, BUSY = 0, chip-select deasserted if it is assigned and
the block is open, and the invariant (70_reset_and_hazards.md R244, R245; 10_state.md R37). -/
def Obligations.EndedOperationLeavesTheBlockAtRest : Prop :=
  ∀ (i : Instr) (s u : State) (k : Nat), i.isOperation = true → Inv s → s.busy = false → runOperation k i s = some u →
    u.busy = false ∧ u.op = none ∧ u.ph = .idle ∧ Inv u ∧
    (∃ info result, u.responses = s.responses ++ [⟨u.err.code, info, result⟩]) ∧
    (∃ es, u.trace = s.trace ++ es) ∧
    (u.status = .opened → u.la.chipSelect ≠ none → u.csOut = some .deasserted)

/-- EmptyResponseError is unreachable, and READ_SINGLE_WORD and READ_DATA that end with OK hand over the Words asked for
(42_command_layer.md R175, 60_exceptions.md R203). -/
def Obligations.EmptyResponseIsUnreachable : Prop :=
  ∀ (i : Instr) (s u : State) (k : Nat), i.isOperation = true → s.busy = false → runOperation k i s = some u →
    u.err ≠ .emptyResponseError ∧
    (u.err = .ok → ∃ result, u.responses = s.responses ++ [⟨0x00#8, 0, result⟩] ∧
      result.length = (match i with | .read _ n => n | .readData n => n | .readSingleWord => 1 | _ => 0))

/-- DeviceNotRespondingError is raised only under a limit, by an operation that waits (60_exceptions.md R200, R204; D7). -/
def Obligations.NotRespondingOnlyUnderALimit : Prop :=
  ∀ (i : Instr) (s u : State) (k : Nat), i.isOperation = true → s.busy = false → runOperation k i s = some u →
    u.err = .deviceNotRespondingError →
    (i = .waitReady ∨ isTransfer i = true) ∧ (∃ limit, s.cfg.readyPollLimit = some limit) ∧
    u.responses = s.responses ++ [⟨0x04#8, 0, []⟩]

/-- PINCFG keeps its canonical form, pins strictly rising, and a write of a pin is read back and changes no other
(10_state.md R34; log 23, the model's form). -/
def Obligations.PinMapStaysCanonical : Prop :=
  (∀ s : State, Inv s → PinMapWf s.pincfg) ∧
  (∀ (m : List (Pin × PinConf)) (p : Pin) (c : PinConf), PinMapWf m → PinMapWf (pinSet m p c)) ∧
  (∀ (m : List (Pin × PinConf)) (p q : Pin) (c : PinConf), PinMapWf m →
    pinGet (pinSet m p c) q = if q = p then some c else pinGet m q) ∧
  (∀ m m' : List (Pin × PinConf), PinMapWf m → PinMapWf m' → (∀ p, pinGet m p = pinGet m' p) → m = m')

/-! ### What the two forms do in a wait that does not end, and RES -/

/-- A wait that does not end, in both forms: where the pseudocode has taken as many samples as its fuel, its last events are that
many LOW samples of the ready pin, it has given no response, and the steps of the tables come to the same state in a phase of
their own; where it runs out at every fuel, both forms go on with LOW samples for ever, after the same events
(41_transport_transfers.md R148, 60_exceptions.md R205; D7). -/
def Obligations.EndlessWaitIsTheSameInBothForms : Prop :=
  ∀ (i : Instr) (s : State), i.isOperation = true → s.busy = false →
    (∀ fuel v, bigStep fuel i s = .outOfFuel v →
      v.busy = true ∧ v.responses = s.responses ∧
      (∃ (y : Pin) (es : List Event), s.la.ready = some y ∧
        v.trace = s.trace ++ es ++ List.replicate fuel (.readPin y .low)) ∧
      ∃ k p, fuel ≤ k ∧ runSteps k i s = some { v with ph := p }) ∧
    ((∀ fuel, ∃ v, bigStep fuel i s = .outOfFuel v) →
      ∃ (y : Pin) (es : List Event) (first : Nat), s.la.ready = some y ∧
        ∀ m, ∃ v k p, bigStep (first + m) i s = .outOfFuel v ∧ runSteps k i s = some { v with ph := p } ∧
          v.trace = s.trace ++ es ++ List.replicate m (.readPin y .low) ∧ v.responses = s.responses)

/-- RES: empty from the start of a read until its first Word, one Word longer at each S_RD_L and changed by no other row, handed over
when the operation ends with OK and not when it ends with an error (10_state.md R32, 60_exceptions.md R208; D25; that it is emptied at
acceptance and again after the third wait is log 30, that it keeps its Words after the response log 32). -/
def Obligations.ResultCollectsTheWordsRead : Prop :=
  NoWordsYet State.reset ∧
  (∀ s t : State, NoWordsYet s → step s = .next t → NoWordsYet t) ∧
  (∀ (i : Instr) (s t : State), readsWords i = true → s.busy = false → exec i s = .next t → t.res = []) ∧
  (∀ (i : Instr) (s t : State), readsWords i = true → s.busy = true → NoWordsYet s → exec i s = .next t →
    if s.ph = .rdL then ∃ b, t.trace = s.trace ++ [.xfer 0x00#8 b] ∧ t.res = s.res ++ [word s.rxh b] else t.res = s.res) ∧
  (∀ (i : Instr) (s u : State) (k : Nat), readsWords i = true → s.busy = false → runOperation k i s = some u →
    ∃ info, u.responses = s.responses ++ [⟨u.err.code, info, if u.err = .ok then u.res else []⟩])
end

