-- ==== Sys2Proof/Laws/Run.lean ====
section
/-!
SUPPORT. Runs of one operation: `GoesIn i k s t` says that `k` steps of `exec i` lead from `s` to `t` with the operation in flight all
along.
-/

namespace Sys2Proof.Machine

/-- `k` steps of `exec i` lead from `s` to `t` with the operation in flight all along. -/
def GoesIn (i : Instr) (k : Nat) (s t : State) : Prop :=
  runSteps k i s = some t

theorem GoesIn.refl (i : Instr) (s : State) : GoesIn i 0 s s := rfl

theorem GoesIn.step {i : Instr} {s t : State} (h : exec i s = .next t) (hb : t.busy = true) : GoesIn i 1 s t := by
  simp [GoesIn, runSteps, h, hb]

theorem GoesIn.cons {i : Instr} {k : Nat} {s t u : State} (h : exec i s = .next t) (hb : t.busy = true)
    (h2 : GoesIn i k t u) : GoesIn i (k + 1) s u := by
  simpa [GoesIn, runSteps, h, hb] using h2

/-- The first of the steps of a run that goes on. -/
theorem GoesIn.first {i : Instr} {k : Nat} {s u : State} (h : GoesIn i (k + 1) s u) :
    ∃ t, exec i s = .next t ∧ t.busy = true ∧ GoesIn i k t u := by
  rw [GoesIn, runSteps] at h
  cases he : exec i s with
  | next t =>
    rw [he] at h
    by_cases hb : t.busy = true
    · simp only [hb, if_true] at h
      exact ⟨t, rfl, hb, h⟩
    · simp [hb] at h
  | fault r => rw [he] at h; cases h
  | refused r => rw [he] at h; cases h

theorem GoesIn.trans {i : Instr} {j k : Nat} {s t u : State} (h1 : GoesIn i j s t) (h2 : GoesIn i k t u) :
    GoesIn i (j + k) s u := by
  induction j generalizing s with
  | zero =>
    obtain rfl : s = t := Option.some.inj h1
    rwa [Nat.zero_add]
  | succ j ih =>
    obtain ⟨v, hv, hb, h1⟩ := h1.first
    rw [Nat.add_right_comm]
    exact GoesIn.cons hv hb (ih h1)

/-- What is left of an operation after `k` steps. -/
theorem GoesIn.rest {i : Instr} {k : Nat} {s t : State} (h : GoesIn i k s t) (m : Nat) :
    runOperation (k + m) i s = runOperation m i t := by
  induction k generalizing s with
  | zero =>
    obtain rfl : s = t := Option.some.inj h
    rw [Nat.zero_add]
  | succ k ih =>
    obtain ⟨v, hv, hb, h⟩ := h.first
    rw [Nat.add_right_comm, runOperation, hv]
    simpa [hb] using ih h

theorem runOperation_end {i : Instr} {s u : State} (h : exec i s = .next u) (hb : u.busy = false) (m : Nat) :
    runOperation (m + 1) i s = some u := by rw [runOperation, h]; simp [hb]

/-- Once an operation has ended, more fuel changes nothing. -/
theorem runOperation_mono {i : Instr} : ∀ {k : Nat} {s u : State} (m : Nat),
    runOperation k i s = some u → runOperation (k + m) i s = some u := by
  intro k
  induction k with
  | zero => intro s u m h; simp [runOperation] at h
  | succ k ih =>
    intro s u m h
    rw [show k + 1 + m = (k + m) + 1 by omega]
    rw [runOperation] at h ⊢
    cases he : exec i s with
    | next t =>
      rw [he] at h
      by_cases hb : t.busy = true
      · simp only [hb, if_true] at h ⊢; exact ih m h
      · simp only [hb] at h ⊢; exact h
    | fault r => rw [he] at h; simp at h
    | refused r => rw [he] at h; simp at h

theorem runOperation_unique {i : Instr} {k m : Nat} {s u v : State} (h1 : runOperation k i s = some u)
    (h2 : runOperation m i s = some v) : u = v := by
  have a := runOperation_mono m h1
  have b := runOperation_mono k h2
  rw [Nat.add_comm, b] at a
  exact (Option.some.inj a).symm

/-- An operation that is still in flight after `k` steps has not ended within `k` steps. -/
theorem GoesIn.not_ended {i : Instr} : ∀ {k : Nat} {s t : State}, GoesIn i k s t → runOperation k i s = none := by
  intro k s t h
  simpa [runOperation] using h.rest 0

theorem GoesIn.ends {i : Instr} {k m : Nat} {s t u : State} (h : GoesIn i k s t) (g : runOperation m i t = some u) :
    runOperation (k + m) i s = some u := (h.rest m).trans g

/-- An operation is in flight after each of its steps that goes on. -/
theorem GoesIn.busy {i : Instr} {k : Nat} {t : State} : ∀ {s : State}, GoesIn i (1 + k) s t → t.busy = true := by
  induction k with
  | zero =>
    intro s h
    obtain ⟨u, -, hb, h⟩ := GoesIn.first h
    obtain rfl : u = t := Option.some.inj h
    exact hb
  | succ k ih =>
    intro s h
    obtain ⟨u, -, -, h⟩ := GoesIn.first (k := 1 + k) h
    exact ih h

end Sys2Proof.Machine
end

