-- ==== Sys2Proof/Laws/State.lean ====
section
/-!
SUPPORT. The small lemmas of the state record: one per field and update, true by rfl, so that no later proof unfolds a
record update.
-/

namespace Sys2Proof.Machine

/-! ### emit -/

@[simp] theorem State.emit_cfg (e : Event) (s : State) : (s.emit e).cfg = s.cfg := rfl
@[simp] theorem State.emit_status (e : Event) (s : State) : (s.emit e).status = s.status := rfl
@[simp] theorem State.emit_la (e : Event) (s : State) : (s.emit e).la = s.la := rfl
@[simp] theorem State.emit_csOut (e : Event) (s : State) : (s.emit e).csOut = s.csOut := rfl
@[simp] theorem State.emit_rstOut (e : Event) (s : State) : (s.emit e).rstOut = s.rstOut := rfl
@[simp] theorem State.emit_pincfg (e : Event) (s : State) : (s.emit e).pincfg = s.pincfg := rfl
@[simp] theorem State.emit_spicfg (e : Event) (s : State) : (s.emit e).spicfg = s.spicfg := rfl
@[simp] theorem State.emit_busy (e : Event) (s : State) : (s.emit e).busy = s.busy := rfl
@[simp] theorem State.emit_op (e : Event) (s : State) : (s.emit e).op = s.op := rfl
@[simp] theorem State.emit_ph (e : Event) (s : State) : (s.emit e).ph = s.ph := rfl
@[simp] theorem State.emit_err (e : Event) (s : State) : (s.emit e).err = s.err := rfl
@[simp] theorem State.emit_pre (e : Event) (s : State) : (s.emit e).pre = s.pre := rfl
@[simp] theorem State.emit_n (e : Event) (s : State) : (s.emit e).n = s.n := rfl
@[simp] theorem State.emit_idx (e : Event) (s : State) : (s.emit e).idx = s.idx := rfl
@[simp] theorem State.emit_rxh (e : Event) (s : State) : (s.emit e).rxh = s.rxh := rfl
@[simp] theorem State.emit_polls (e : Event) (s : State) : (s.emit e).polls = s.polls := rfl
@[simp] theorem State.emit_sub (e : Event) (s : State) : (s.emit e).sub = s.sub := rfl
@[simp] theorem State.emit_res (e : Event) (s : State) : (s.emit e).res = s.res := rfl
@[simp] theorem State.emit_trace (e : Event) (s : State) : (s.emit e).trace = s.trace ++ [e] := rfl
@[simp] theorem State.emit_doneCode (e : Event) (s : State) : (s.emit e).doneCode = s.doneCode := rfl
@[simp] theorem State.emit_doneInfo (e : Event) (s : State) : (s.emit e).doneInfo = s.doneInfo := rfl
@[simp] theorem State.emit_responses (e : Event) (s : State) : (s.emit e).responses = s.responses := rfl
@[simp] theorem State.emit_host (e : Event) (s : State) : (s.emit e).host = s.host := rfl
@[simp] theorem State.emit_env (e : Event) (s : State) : (s.emit e).env = s.env := rfl

/-! ### goto -/

@[simp] theorem State.goto_cfg (p : Phase) (s : State) : (s.goto p).cfg = s.cfg := rfl
@[simp] theorem State.goto_status (p : Phase) (s : State) : (s.goto p).status = s.status := rfl
@[simp] theorem State.goto_la (p : Phase) (s : State) : (s.goto p).la = s.la := rfl
@[simp] theorem State.goto_csOut (p : Phase) (s : State) : (s.goto p).csOut = s.csOut := rfl
@[simp] theorem State.goto_rstOut (p : Phase) (s : State) : (s.goto p).rstOut = s.rstOut := rfl
@[simp] theorem State.goto_pincfg (p : Phase) (s : State) : (s.goto p).pincfg = s.pincfg := rfl
@[simp] theorem State.goto_spicfg (p : Phase) (s : State) : (s.goto p).spicfg = s.spicfg := rfl
@[simp] theorem State.goto_busy (p : Phase) (s : State) : (s.goto p).busy = s.busy := rfl
@[simp] theorem State.goto_op (p : Phase) (s : State) : (s.goto p).op = s.op := rfl
@[simp] theorem State.goto_ph (p : Phase) (s : State) : (s.goto p).ph = p := rfl
@[simp] theorem State.goto_err (p : Phase) (s : State) : (s.goto p).err = s.err := rfl
@[simp] theorem State.goto_pre (p : Phase) (s : State) : (s.goto p).pre = s.pre := rfl
@[simp] theorem State.goto_n (p : Phase) (s : State) : (s.goto p).n = s.n := rfl
@[simp] theorem State.goto_idx (p : Phase) (s : State) : (s.goto p).idx = s.idx := rfl
@[simp] theorem State.goto_rxh (p : Phase) (s : State) : (s.goto p).rxh = s.rxh := rfl
@[simp] theorem State.goto_polls (p : Phase) (s : State) : (s.goto p).polls = s.polls := rfl
@[simp] theorem State.goto_sub (p : Phase) (s : State) : (s.goto p).sub = s.sub := rfl
@[simp] theorem State.goto_res (p : Phase) (s : State) : (s.goto p).res = s.res := rfl
@[simp] theorem State.goto_trace (p : Phase) (s : State) : (s.goto p).trace = s.trace := rfl
@[simp] theorem State.goto_doneCode (p : Phase) (s : State) : (s.goto p).doneCode = s.doneCode := rfl
@[simp] theorem State.goto_doneInfo (p : Phase) (s : State) : (s.goto p).doneInfo = s.doneInfo := rfl
@[simp] theorem State.goto_responses (p : Phase) (s : State) : (s.goto p).responses = s.responses := rfl
@[simp] theorem State.goto_host (p : Phase) (s : State) : (s.goto p).host = s.host := rfl
@[simp] theorem State.goto_env (p : Phase) (s : State) : (s.goto p).env = s.env := rfl

/-! ### finish -/

@[simp] theorem State.finish_cfg (k : ErrKind) (info : Nat) (s : State) : (s.finish k info).cfg = s.cfg := rfl
@[simp] theorem State.finish_status (k : ErrKind) (info : Nat) (s : State) : (s.finish k info).status = s.status := rfl
@[simp] theorem State.finish_la (k : ErrKind) (info : Nat) (s : State) : (s.finish k info).la = s.la := rfl
@[simp] theorem State.finish_csOut (k : ErrKind) (info : Nat) (s : State) : (s.finish k info).csOut = s.csOut := rfl
@[simp] theorem State.finish_rstOut (k : ErrKind) (info : Nat) (s : State) : (s.finish k info).rstOut = s.rstOut := rfl
@[simp] theorem State.finish_pincfg (k : ErrKind) (info : Nat) (s : State) : (s.finish k info).pincfg = s.pincfg := rfl
@[simp] theorem State.finish_spicfg (k : ErrKind) (info : Nat) (s : State) : (s.finish k info).spicfg = s.spicfg := rfl
@[simp] theorem State.finish_busy (k : ErrKind) (info : Nat) (s : State) : (s.finish k info).busy = s.busy := rfl
@[simp] theorem State.finish_op (k : ErrKind) (info : Nat) (s : State) : (s.finish k info).op = s.op := rfl
@[simp] theorem State.finish_ph (k : ErrKind) (info : Nat) (s : State) : (s.finish k info).ph = .done := rfl
@[simp] theorem State.finish_err (k : ErrKind) (info : Nat) (s : State) : (s.finish k info).err = s.err := rfl
@[simp] theorem State.finish_pre (k : ErrKind) (info : Nat) (s : State) : (s.finish k info).pre = s.pre := rfl
@[simp] theorem State.finish_n (k : ErrKind) (info : Nat) (s : State) : (s.finish k info).n = s.n := rfl
@[simp] theorem State.finish_idx (k : ErrKind) (info : Nat) (s : State) : (s.finish k info).idx = s.idx := rfl
@[simp] theorem State.finish_rxh (k : ErrKind) (info : Nat) (s : State) : (s.finish k info).rxh = s.rxh := rfl
@[simp] theorem State.finish_polls (k : ErrKind) (info : Nat) (s : State) : (s.finish k info).polls = s.polls := rfl
@[simp] theorem State.finish_sub (k : ErrKind) (info : Nat) (s : State) : (s.finish k info).sub = s.sub := rfl
@[simp] theorem State.finish_res (k : ErrKind) (info : Nat) (s : State) : (s.finish k info).res = s.res := rfl
@[simp] theorem State.finish_trace (k : ErrKind) (info : Nat) (s : State) : (s.finish k info).trace = s.trace := rfl
@[simp] theorem State.finish_doneCode (k : ErrKind) (info : Nat) (s : State) : (s.finish k info).doneCode = k := rfl
@[simp] theorem State.finish_doneInfo (k : ErrKind) (info : Nat) (s : State) : (s.finish k info).doneInfo = info := rfl
@[simp] theorem State.finish_responses (k : ErrKind) (info : Nat) (s : State) : (s.finish k info).responses = s.responses := rfl
@[simp] theorem State.finish_host (k : ErrKind) (info : Nat) (s : State) : (s.finish k info).host = s.host := rfl
@[simp] theorem State.finish_env (k : ErrKind) (info : Nat) (s : State) : (s.finish k info).env = s.env := rfl

/-! ### begin -/

@[simp] theorem readsWords_openOp (la : LineAssign) : readsWords (.openOp la) = false := rfl
@[simp] theorem readsWords_closeOp : readsWords (.closeOp) = false := rfl
@[simp] theorem readsWords_resetDevice : readsWords (.resetDevice) = false := rfl
@[simp] theorem readsWords_waitReady : readsWords (.waitReady) = false := rfl
@[simp] theorem readsWords_read (p : Word) (n : Nat) : readsWords (.read p n) = true := rfl
@[simp] theorem readsWords_write (p : Word) (ws : List Word) : readsWords (.write p ws) = false := rfl
@[simp] theorem readsWords_writeBulk (bs : List Byte) : readsWords (.writeBulk bs) = false := rfl
@[simp] theorem readsWords_writeCommand (c : Word) (ws : List Word) : readsWords (.writeCommand c ws) = false := rfl
@[simp] theorem readsWords_writeData (ws : List Word) : readsWords (.writeData ws) = false := rfl
@[simp] theorem readsWords_readData (n : Nat) : readsWords (.readData n) = true := rfl
@[simp] theorem readsWords_readSingleWord : readsWords (.readSingleWord) = true := rfl
@[simp] theorem readsWords_writePixels (ws : List Word) : readsWords (.writePixels ws) = false := rfl
@[simp] theorem State.begin_cfg (i : Instr) (s : State) : (s.begin i).cfg = s.cfg := rfl
@[simp] theorem State.begin_status (i : Instr) (s : State) : (s.begin i).status = s.status := rfl
@[simp] theorem State.begin_la (i : Instr) (s : State) : (s.begin i).la = s.la := rfl
@[simp] theorem State.begin_csOut (i : Instr) (s : State) : (s.begin i).csOut = s.csOut := rfl
@[simp] theorem State.begin_rstOut (i : Instr) (s : State) : (s.begin i).rstOut = s.rstOut := rfl
@[simp] theorem State.begin_pincfg (i : Instr) (s : State) : (s.begin i).pincfg = s.pincfg := rfl
@[simp] theorem State.begin_spicfg (i : Instr) (s : State) : (s.begin i).spicfg = s.spicfg := rfl
@[simp] theorem State.begin_busy (i : Instr) (s : State) : (s.begin i).busy = true := rfl
@[simp] theorem State.begin_op (i : Instr) (s : State) : (s.begin i).op = some i := rfl
@[simp] theorem State.begin_ph (i : Instr) (s : State) : (s.begin i).ph = .chk := rfl
@[simp] theorem State.begin_err (i : Instr) (s : State) : (s.begin i).err = s.err := rfl
@[simp] theorem State.begin_pre (i : Instr) (s : State) : (s.begin i).pre = s.pre := rfl
@[simp] theorem State.begin_n (i : Instr) (s : State) : (s.begin i).n = s.n := rfl
@[simp] theorem State.begin_idx (i : Instr) (s : State) : (s.begin i).idx = s.idx := rfl
@[simp] theorem State.begin_rxh (i : Instr) (s : State) : (s.begin i).rxh = s.rxh := rfl
@[simp] theorem State.begin_polls (i : Instr) (s : State) : (s.begin i).polls = s.polls := rfl
@[simp] theorem State.begin_sub (i : Instr) (s : State) : (s.begin i).sub = if i.isCommandLayer then 0 else s.sub := rfl
@[simp] theorem State.begin_res (i : Instr) (s : State) : (s.begin i).res = if readsWords i then [] else s.res := rfl
@[simp] theorem State.begin_trace (i : Instr) (s : State) : (s.begin i).trace = s.trace := rfl
@[simp] theorem State.begin_doneCode (i : Instr) (s : State) : (s.begin i).doneCode = .ok := rfl
@[simp] theorem State.begin_doneInfo (i : Instr) (s : State) : (s.begin i).doneInfo = 0 := rfl
@[simp] theorem State.begin_responses (i : Instr) (s : State) : (s.begin i).responses = s.responses := rfl
@[simp] theorem State.begin_host (i : Instr) (s : State) : (s.begin i).host = s.host := rfl
@[simp] theorem State.begin_env (i : Instr) (s : State) : (s.begin i).env = s.env := rfl

/-! ### respond -/

@[simp] theorem State.respond_cfg (k : ErrKind) (info : Nat) (r : List Word) (s : State) : (s.respond k info r).cfg = s.cfg := rfl
@[simp] theorem State.respond_status (k : ErrKind) (info : Nat) (r : List Word) (s : State) : (s.respond k info r).status = s.status := rfl
@[simp] theorem State.respond_la (k : ErrKind) (info : Nat) (r : List Word) (s : State) : (s.respond k info r).la = s.la := rfl
@[simp] theorem State.respond_csOut (k : ErrKind) (info : Nat) (r : List Word) (s : State) : (s.respond k info r).csOut = s.csOut := rfl
@[simp] theorem State.respond_rstOut (k : ErrKind) (info : Nat) (r : List Word) (s : State) : (s.respond k info r).rstOut = s.rstOut := rfl
@[simp] theorem State.respond_pincfg (k : ErrKind) (info : Nat) (r : List Word) (s : State) : (s.respond k info r).pincfg = s.pincfg := rfl
@[simp] theorem State.respond_spicfg (k : ErrKind) (info : Nat) (r : List Word) (s : State) : (s.respond k info r).spicfg = s.spicfg := rfl
@[simp] theorem State.respond_busy (k : ErrKind) (info : Nat) (r : List Word) (s : State) : (s.respond k info r).busy = false := rfl
@[simp] theorem State.respond_op (k : ErrKind) (info : Nat) (r : List Word) (s : State) : (s.respond k info r).op = none := rfl
@[simp] theorem State.respond_ph (k : ErrKind) (info : Nat) (r : List Word) (s : State) : (s.respond k info r).ph = .idle := rfl
@[simp] theorem State.respond_err (k : ErrKind) (info : Nat) (r : List Word) (s : State) : (s.respond k info r).err = k := rfl
@[simp] theorem State.respond_pre (k : ErrKind) (info : Nat) (r : List Word) (s : State) : (s.respond k info r).pre = s.pre := rfl
@[simp] theorem State.respond_n (k : ErrKind) (info : Nat) (r : List Word) (s : State) : (s.respond k info r).n = s.n := rfl
@[simp] theorem State.respond_idx (k : ErrKind) (info : Nat) (r : List Word) (s : State) : (s.respond k info r).idx = s.idx := rfl
@[simp] theorem State.respond_rxh (k : ErrKind) (info : Nat) (r : List Word) (s : State) : (s.respond k info r).rxh = s.rxh := rfl
@[simp] theorem State.respond_polls (k : ErrKind) (info : Nat) (r : List Word) (s : State) : (s.respond k info r).polls = s.polls := rfl
@[simp] theorem State.respond_sub (k : ErrKind) (info : Nat) (r : List Word) (s : State) : (s.respond k info r).sub = s.sub := rfl
@[simp] theorem State.respond_res (k : ErrKind) (info : Nat) (r : List Word) (s : State) : (s.respond k info r).res = s.res := rfl
@[simp] theorem State.respond_trace (k : ErrKind) (info : Nat) (r : List Word) (s : State) : (s.respond k info r).trace = s.trace := rfl
@[simp] theorem State.respond_doneCode (k : ErrKind) (info : Nat) (r : List Word) (s : State) : (s.respond k info r).doneCode = .ok := rfl
@[simp] theorem State.respond_doneInfo (k : ErrKind) (info : Nat) (r : List Word) (s : State) : (s.respond k info r).doneInfo = 0 := rfl
@[simp] theorem State.respond_responses (k : ErrKind) (info : Nat) (r : List Word) (s : State) : (s.respond k info r).responses = s.responses ++ [⟨k.code, info, r⟩] := rfl
@[simp] theorem State.respond_host (k : ErrKind) (info : Nat) (r : List Word) (s : State) : (s.respond k info r).host = s.host := rfl
@[simp] theorem State.respond_env (k : ErrKind) (info : Nat) (r : List Word) (s : State) : (s.respond k info r).env = s.env := rfl

/-! ### startWait -/

@[simp] theorem State.startWait_cfg (s : State) : (s.startWait).cfg = s.cfg := rfl
@[simp] theorem State.startWait_status (s : State) : (s.startWait).status = s.status := rfl
@[simp] theorem State.startWait_la (s : State) : (s.startWait).la = s.la := rfl
@[simp] theorem State.startWait_csOut (s : State) : (s.startWait).csOut = s.csOut := rfl
@[simp] theorem State.startWait_rstOut (s : State) : (s.startWait).rstOut = s.rstOut := rfl
@[simp] theorem State.startWait_pincfg (s : State) : (s.startWait).pincfg = s.pincfg := rfl
@[simp] theorem State.startWait_spicfg (s : State) : (s.startWait).spicfg = s.spicfg := rfl
@[simp] theorem State.startWait_busy (s : State) : (s.startWait).busy = s.busy := rfl
@[simp] theorem State.startWait_op (s : State) : (s.startWait).op = s.op := rfl
@[simp] theorem State.startWait_ph (s : State) : (s.startWait).ph = s.ph := rfl
@[simp] theorem State.startWait_err (s : State) : (s.startWait).err = s.err := rfl
@[simp] theorem State.startWait_pre (s : State) : (s.startWait).pre = s.pre := rfl
@[simp] theorem State.startWait_n (s : State) : (s.startWait).n = s.n := rfl
@[simp] theorem State.startWait_idx (s : State) : (s.startWait).idx = s.idx := rfl
@[simp] theorem State.startWait_rxh (s : State) : (s.startWait).rxh = s.rxh := rfl
@[simp] theorem State.startWait_polls (s : State) : (s.startWait).polls = 0 := rfl
@[simp] theorem State.startWait_sub (s : State) : (s.startWait).sub = s.sub := rfl
@[simp] theorem State.startWait_res (s : State) : (s.startWait).res = s.res := rfl
@[simp] theorem State.startWait_trace (s : State) : (s.startWait).trace = s.trace := rfl
@[simp] theorem State.startWait_doneCode (s : State) : (s.startWait).doneCode = s.doneCode := rfl
@[simp] theorem State.startWait_doneInfo (s : State) : (s.startWait).doneInfo = s.doneInfo := rfl
@[simp] theorem State.startWait_responses (s : State) : (s.startWait).responses = s.responses := rfl
@[simp] theorem State.startWait_host (s : State) : (s.startWait).host = s.host := rfl
@[simp] theorem State.startWait_env (s : State) : (s.startWait).env = s.env := rfl

/-! ### countPoll -/

@[simp] theorem State.countPoll_cfg (s : State) : (s.countPoll).cfg = s.cfg := rfl
@[simp] theorem State.countPoll_status (s : State) : (s.countPoll).status = s.status := rfl
@[simp] theorem State.countPoll_la (s : State) : (s.countPoll).la = s.la := rfl
@[simp] theorem State.countPoll_csOut (s : State) : (s.countPoll).csOut = s.csOut := rfl
@[simp] theorem State.countPoll_rstOut (s : State) : (s.countPoll).rstOut = s.rstOut := rfl
@[simp] theorem State.countPoll_pincfg (s : State) : (s.countPoll).pincfg = s.pincfg := rfl
@[simp] theorem State.countPoll_spicfg (s : State) : (s.countPoll).spicfg = s.spicfg := rfl
@[simp] theorem State.countPoll_busy (s : State) : (s.countPoll).busy = s.busy := rfl
@[simp] theorem State.countPoll_op (s : State) : (s.countPoll).op = s.op := rfl
@[simp] theorem State.countPoll_ph (s : State) : (s.countPoll).ph = s.ph := rfl
@[simp] theorem State.countPoll_err (s : State) : (s.countPoll).err = s.err := rfl
@[simp] theorem State.countPoll_pre (s : State) : (s.countPoll).pre = s.pre := rfl
@[simp] theorem State.countPoll_n (s : State) : (s.countPoll).n = s.n := rfl
@[simp] theorem State.countPoll_idx (s : State) : (s.countPoll).idx = s.idx := rfl
@[simp] theorem State.countPoll_rxh (s : State) : (s.countPoll).rxh = s.rxh := rfl
@[simp] theorem State.countPoll_polls (s : State) : (s.countPoll).polls = s.polls + 1 := rfl
@[simp] theorem State.countPoll_sub (s : State) : (s.countPoll).sub = s.sub := rfl
@[simp] theorem State.countPoll_res (s : State) : (s.countPoll).res = s.res := rfl
@[simp] theorem State.countPoll_trace (s : State) : (s.countPoll).trace = s.trace := rfl
@[simp] theorem State.countPoll_doneCode (s : State) : (s.countPoll).doneCode = s.doneCode := rfl
@[simp] theorem State.countPoll_doneInfo (s : State) : (s.countPoll).doneInfo = s.doneInfo := rfl
@[simp] theorem State.countPoll_responses (s : State) : (s.countPoll).responses = s.responses := rfl
@[simp] theorem State.countPoll_host (s : State) : (s.countPoll).host = s.host := rfl
@[simp] theorem State.countPoll_env (s : State) : (s.countPoll).env = s.env := rfl

/-! ### load -/

@[simp] theorem State.load_cfg (ses : Session) (s : State) : (s.load ses).cfg = s.cfg := rfl
@[simp] theorem State.load_status (ses : Session) (s : State) : (s.load ses).status = s.status := rfl
@[simp] theorem State.load_la (ses : Session) (s : State) : (s.load ses).la = s.la := rfl
@[simp] theorem State.load_csOut (ses : Session) (s : State) : (s.load ses).csOut = s.csOut := rfl
@[simp] theorem State.load_rstOut (ses : Session) (s : State) : (s.load ses).rstOut = s.rstOut := rfl
@[simp] theorem State.load_pincfg (ses : Session) (s : State) : (s.load ses).pincfg = s.pincfg := rfl
@[simp] theorem State.load_spicfg (ses : Session) (s : State) : (s.load ses).spicfg = s.spicfg := rfl
@[simp] theorem State.load_busy (ses : Session) (s : State) : (s.load ses).busy = s.busy := rfl
@[simp] theorem State.load_op (ses : Session) (s : State) : (s.load ses).op = s.op := rfl
@[simp] theorem State.load_ph (ses : Session) (s : State) : (s.load ses).ph = s.ph := rfl
@[simp] theorem State.load_err (ses : Session) (s : State) : (s.load ses).err = s.err := rfl
@[simp] theorem State.load_pre (ses : Session) (s : State) : (s.load ses).pre = sessionPreamble ses := rfl
@[simp] theorem State.load_n (ses : Session) (s : State) : (s.load ses).n = sessionLength ses := rfl
@[simp] theorem State.load_idx (ses : Session) (s : State) : (s.load ses).idx = s.idx := rfl
@[simp] theorem State.load_rxh (ses : Session) (s : State) : (s.load ses).rxh = s.rxh := rfl
@[simp] theorem State.load_polls (ses : Session) (s : State) : (s.load ses).polls = s.polls := rfl
@[simp] theorem State.load_sub (ses : Session) (s : State) : (s.load ses).sub = s.sub := rfl
@[simp] theorem State.load_res (ses : Session) (s : State) : (s.load ses).res = s.res := rfl
@[simp] theorem State.load_trace (ses : Session) (s : State) : (s.load ses).trace = s.trace := rfl
@[simp] theorem State.load_doneCode (ses : Session) (s : State) : (s.load ses).doneCode = s.doneCode := rfl
@[simp] theorem State.load_doneInfo (ses : Session) (s : State) : (s.load ses).doneInfo = s.doneInfo := rfl
@[simp] theorem State.load_responses (ses : Session) (s : State) : (s.load ses).responses = s.responses := rfl
@[simp] theorem State.load_host (ses : Session) (s : State) : (s.load ses).host = s.host := rfl
@[simp] theorem State.load_env (ses : Session) (s : State) : (s.load ses).env = s.env := rfl

/-! ### nextIdx -/

@[simp] theorem State.nextIdx_cfg (s : State) : (s.nextIdx).cfg = s.cfg := rfl
@[simp] theorem State.nextIdx_status (s : State) : (s.nextIdx).status = s.status := rfl
@[simp] theorem State.nextIdx_la (s : State) : (s.nextIdx).la = s.la := rfl
@[simp] theorem State.nextIdx_csOut (s : State) : (s.nextIdx).csOut = s.csOut := rfl
@[simp] theorem State.nextIdx_rstOut (s : State) : (s.nextIdx).rstOut = s.rstOut := rfl
@[simp] theorem State.nextIdx_pincfg (s : State) : (s.nextIdx).pincfg = s.pincfg := rfl
@[simp] theorem State.nextIdx_spicfg (s : State) : (s.nextIdx).spicfg = s.spicfg := rfl
@[simp] theorem State.nextIdx_busy (s : State) : (s.nextIdx).busy = s.busy := rfl
@[simp] theorem State.nextIdx_op (s : State) : (s.nextIdx).op = s.op := rfl
@[simp] theorem State.nextIdx_ph (s : State) : (s.nextIdx).ph = s.ph := rfl
@[simp] theorem State.nextIdx_err (s : State) : (s.nextIdx).err = s.err := rfl
@[simp] theorem State.nextIdx_pre (s : State) : (s.nextIdx).pre = s.pre := rfl
@[simp] theorem State.nextIdx_n (s : State) : (s.nextIdx).n = s.n := rfl
@[simp] theorem State.nextIdx_idx (s : State) : (s.nextIdx).idx = s.idx + 1 := rfl
@[simp] theorem State.nextIdx_rxh (s : State) : (s.nextIdx).rxh = s.rxh := rfl
@[simp] theorem State.nextIdx_polls (s : State) : (s.nextIdx).polls = s.polls := rfl
@[simp] theorem State.nextIdx_sub (s : State) : (s.nextIdx).sub = s.sub := rfl
@[simp] theorem State.nextIdx_res (s : State) : (s.nextIdx).res = s.res := rfl
@[simp] theorem State.nextIdx_trace (s : State) : (s.nextIdx).trace = s.trace := rfl
@[simp] theorem State.nextIdx_doneCode (s : State) : (s.nextIdx).doneCode = s.doneCode := rfl
@[simp] theorem State.nextIdx_doneInfo (s : State) : (s.nextIdx).doneInfo = s.doneInfo := rfl
@[simp] theorem State.nextIdx_responses (s : State) : (s.nextIdx).responses = s.responses := rfl
@[simp] theorem State.nextIdx_host (s : State) : (s.nextIdx).host = s.host := rfl
@[simp] theorem State.nextIdx_env (s : State) : (s.nextIdx).env = s.env := rfl

/-! ### clearIdx -/

@[simp] theorem State.clearIdx_cfg (s : State) : (s.clearIdx).cfg = s.cfg := rfl
@[simp] theorem State.clearIdx_status (s : State) : (s.clearIdx).status = s.status := rfl
@[simp] theorem State.clearIdx_la (s : State) : (s.clearIdx).la = s.la := rfl
@[simp] theorem State.clearIdx_csOut (s : State) : (s.clearIdx).csOut = s.csOut := rfl
@[simp] theorem State.clearIdx_rstOut (s : State) : (s.clearIdx).rstOut = s.rstOut := rfl
@[simp] theorem State.clearIdx_pincfg (s : State) : (s.clearIdx).pincfg = s.pincfg := rfl
@[simp] theorem State.clearIdx_spicfg (s : State) : (s.clearIdx).spicfg = s.spicfg := rfl
@[simp] theorem State.clearIdx_busy (s : State) : (s.clearIdx).busy = s.busy := rfl
@[simp] theorem State.clearIdx_op (s : State) : (s.clearIdx).op = s.op := rfl
@[simp] theorem State.clearIdx_ph (s : State) : (s.clearIdx).ph = s.ph := rfl
@[simp] theorem State.clearIdx_err (s : State) : (s.clearIdx).err = s.err := rfl
@[simp] theorem State.clearIdx_pre (s : State) : (s.clearIdx).pre = s.pre := rfl
@[simp] theorem State.clearIdx_n (s : State) : (s.clearIdx).n = s.n := rfl
@[simp] theorem State.clearIdx_idx (s : State) : (s.clearIdx).idx = 0 := rfl
@[simp] theorem State.clearIdx_rxh (s : State) : (s.clearIdx).rxh = s.rxh := rfl
@[simp] theorem State.clearIdx_polls (s : State) : (s.clearIdx).polls = s.polls := rfl
@[simp] theorem State.clearIdx_sub (s : State) : (s.clearIdx).sub = s.sub := rfl
@[simp] theorem State.clearIdx_res (s : State) : (s.clearIdx).res = s.res := rfl
@[simp] theorem State.clearIdx_trace (s : State) : (s.clearIdx).trace = s.trace := rfl
@[simp] theorem State.clearIdx_doneCode (s : State) : (s.clearIdx).doneCode = s.doneCode := rfl
@[simp] theorem State.clearIdx_doneInfo (s : State) : (s.clearIdx).doneInfo = s.doneInfo := rfl
@[simp] theorem State.clearIdx_responses (s : State) : (s.clearIdx).responses = s.responses := rfl
@[simp] theorem State.clearIdx_host (s : State) : (s.clearIdx).host = s.host := rfl
@[simp] theorem State.clearIdx_env (s : State) : (s.clearIdx).env = s.env := rfl

/-! ### clearRes -/

@[simp] theorem State.clearRes_cfg (s : State) : (s.clearRes).cfg = s.cfg := rfl
@[simp] theorem State.clearRes_status (s : State) : (s.clearRes).status = s.status := rfl
@[simp] theorem State.clearRes_la (s : State) : (s.clearRes).la = s.la := rfl
@[simp] theorem State.clearRes_csOut (s : State) : (s.clearRes).csOut = s.csOut := rfl
@[simp] theorem State.clearRes_rstOut (s : State) : (s.clearRes).rstOut = s.rstOut := rfl
@[simp] theorem State.clearRes_pincfg (s : State) : (s.clearRes).pincfg = s.pincfg := rfl
@[simp] theorem State.clearRes_spicfg (s : State) : (s.clearRes).spicfg = s.spicfg := rfl
@[simp] theorem State.clearRes_busy (s : State) : (s.clearRes).busy = s.busy := rfl
@[simp] theorem State.clearRes_op (s : State) : (s.clearRes).op = s.op := rfl
@[simp] theorem State.clearRes_ph (s : State) : (s.clearRes).ph = s.ph := rfl
@[simp] theorem State.clearRes_err (s : State) : (s.clearRes).err = s.err := rfl
@[simp] theorem State.clearRes_pre (s : State) : (s.clearRes).pre = s.pre := rfl
@[simp] theorem State.clearRes_n (s : State) : (s.clearRes).n = s.n := rfl
@[simp] theorem State.clearRes_idx (s : State) : (s.clearRes).idx = s.idx := rfl
@[simp] theorem State.clearRes_rxh (s : State) : (s.clearRes).rxh = s.rxh := rfl
@[simp] theorem State.clearRes_polls (s : State) : (s.clearRes).polls = s.polls := rfl
@[simp] theorem State.clearRes_sub (s : State) : (s.clearRes).sub = s.sub := rfl
@[simp] theorem State.clearRes_res (s : State) : (s.clearRes).res = [] := rfl
@[simp] theorem State.clearRes_trace (s : State) : (s.clearRes).trace = s.trace := rfl
@[simp] theorem State.clearRes_doneCode (s : State) : (s.clearRes).doneCode = s.doneCode := rfl
@[simp] theorem State.clearRes_doneInfo (s : State) : (s.clearRes).doneInfo = s.doneInfo := rfl
@[simp] theorem State.clearRes_responses (s : State) : (s.clearRes).responses = s.responses := rfl
@[simp] theorem State.clearRes_host (s : State) : (s.clearRes).host = s.host := rfl
@[simp] theorem State.clearRes_env (s : State) : (s.clearRes).env = s.env := rfl

/-! ### latch -/

@[simp] theorem State.latch_cfg (b : Byte) (s : State) : (s.latch b).cfg = s.cfg := rfl
@[simp] theorem State.latch_status (b : Byte) (s : State) : (s.latch b).status = s.status := rfl
@[simp] theorem State.latch_la (b : Byte) (s : State) : (s.latch b).la = s.la := rfl
@[simp] theorem State.latch_csOut (b : Byte) (s : State) : (s.latch b).csOut = s.csOut := rfl
@[simp] theorem State.latch_rstOut (b : Byte) (s : State) : (s.latch b).rstOut = s.rstOut := rfl
@[simp] theorem State.latch_pincfg (b : Byte) (s : State) : (s.latch b).pincfg = s.pincfg := rfl
@[simp] theorem State.latch_spicfg (b : Byte) (s : State) : (s.latch b).spicfg = s.spicfg := rfl
@[simp] theorem State.latch_busy (b : Byte) (s : State) : (s.latch b).busy = s.busy := rfl
@[simp] theorem State.latch_op (b : Byte) (s : State) : (s.latch b).op = s.op := rfl
@[simp] theorem State.latch_ph (b : Byte) (s : State) : (s.latch b).ph = s.ph := rfl
@[simp] theorem State.latch_err (b : Byte) (s : State) : (s.latch b).err = s.err := rfl
@[simp] theorem State.latch_pre (b : Byte) (s : State) : (s.latch b).pre = s.pre := rfl
@[simp] theorem State.latch_n (b : Byte) (s : State) : (s.latch b).n = s.n := rfl
@[simp] theorem State.latch_idx (b : Byte) (s : State) : (s.latch b).idx = s.idx := rfl
@[simp] theorem State.latch_rxh (b : Byte) (s : State) : (s.latch b).rxh = b := rfl
@[simp] theorem State.latch_polls (b : Byte) (s : State) : (s.latch b).polls = s.polls := rfl
@[simp] theorem State.latch_sub (b : Byte) (s : State) : (s.latch b).sub = s.sub := rfl
@[simp] theorem State.latch_res (b : Byte) (s : State) : (s.latch b).res = s.res := rfl
@[simp] theorem State.latch_trace (b : Byte) (s : State) : (s.latch b).trace = s.trace := rfl
@[simp] theorem State.latch_doneCode (b : Byte) (s : State) : (s.latch b).doneCode = s.doneCode := rfl
@[simp] theorem State.latch_doneInfo (b : Byte) (s : State) : (s.latch b).doneInfo = s.doneInfo := rfl
@[simp] theorem State.latch_responses (b : Byte) (s : State) : (s.latch b).responses = s.responses := rfl
@[simp] theorem State.latch_host (b : Byte) (s : State) : (s.latch b).host = s.host := rfl
@[simp] theorem State.latch_env (b : Byte) (s : State) : (s.latch b).env = s.env := rfl

/-! ### pushRes -/

@[simp] theorem State.pushRes_cfg (w : Word) (s : State) : (s.pushRes w).cfg = s.cfg := rfl
@[simp] theorem State.pushRes_status (w : Word) (s : State) : (s.pushRes w).status = s.status := rfl
@[simp] theorem State.pushRes_la (w : Word) (s : State) : (s.pushRes w).la = s.la := rfl
@[simp] theorem State.pushRes_csOut (w : Word) (s : State) : (s.pushRes w).csOut = s.csOut := rfl
@[simp] theorem State.pushRes_rstOut (w : Word) (s : State) : (s.pushRes w).rstOut = s.rstOut := rfl
@[simp] theorem State.pushRes_pincfg (w : Word) (s : State) : (s.pushRes w).pincfg = s.pincfg := rfl
@[simp] theorem State.pushRes_spicfg (w : Word) (s : State) : (s.pushRes w).spicfg = s.spicfg := rfl
@[simp] theorem State.pushRes_busy (w : Word) (s : State) : (s.pushRes w).busy = s.busy := rfl
@[simp] theorem State.pushRes_op (w : Word) (s : State) : (s.pushRes w).op = s.op := rfl
@[simp] theorem State.pushRes_ph (w : Word) (s : State) : (s.pushRes w).ph = s.ph := rfl
@[simp] theorem State.pushRes_err (w : Word) (s : State) : (s.pushRes w).err = s.err := rfl
@[simp] theorem State.pushRes_pre (w : Word) (s : State) : (s.pushRes w).pre = s.pre := rfl
@[simp] theorem State.pushRes_n (w : Word) (s : State) : (s.pushRes w).n = s.n := rfl
@[simp] theorem State.pushRes_idx (w : Word) (s : State) : (s.pushRes w).idx = s.idx := rfl
@[simp] theorem State.pushRes_rxh (w : Word) (s : State) : (s.pushRes w).rxh = s.rxh := rfl
@[simp] theorem State.pushRes_polls (w : Word) (s : State) : (s.pushRes w).polls = s.polls := rfl
@[simp] theorem State.pushRes_sub (w : Word) (s : State) : (s.pushRes w).sub = s.sub := rfl
@[simp] theorem State.pushRes_res (w : Word) (s : State) : (s.pushRes w).res = s.res ++ [w] := rfl
@[simp] theorem State.pushRes_trace (w : Word) (s : State) : (s.pushRes w).trace = s.trace := rfl
@[simp] theorem State.pushRes_doneCode (w : Word) (s : State) : (s.pushRes w).doneCode = s.doneCode := rfl
@[simp] theorem State.pushRes_doneInfo (w : Word) (s : State) : (s.pushRes w).doneInfo = s.doneInfo := rfl
@[simp] theorem State.pushRes_responses (w : Word) (s : State) : (s.pushRes w).responses = s.responses := rfl
@[simp] theorem State.pushRes_host (w : Word) (s : State) : (s.pushRes w).host = s.host := rfl
@[simp] theorem State.pushRes_env (w : Word) (s : State) : (s.pushRes w).env = s.env := rfl

/-! ### setPin -/

@[simp] theorem State.setPin_cfg (p : Pin) (c : PinConf) (s : State) : (s.setPin p c).cfg = s.cfg := rfl
@[simp] theorem State.setPin_status (p : Pin) (c : PinConf) (s : State) : (s.setPin p c).status = s.status := rfl
@[simp] theorem State.setPin_la (p : Pin) (c : PinConf) (s : State) : (s.setPin p c).la = s.la := rfl
@[simp] theorem State.setPin_csOut (p : Pin) (c : PinConf) (s : State) : (s.setPin p c).csOut = s.csOut := rfl
@[simp] theorem State.setPin_rstOut (p : Pin) (c : PinConf) (s : State) : (s.setPin p c).rstOut = s.rstOut := rfl
@[simp] theorem State.setPin_pincfg (p : Pin) (c : PinConf) (s : State) : (s.setPin p c).pincfg = pinSet s.pincfg p c := rfl
@[simp] theorem State.setPin_spicfg (p : Pin) (c : PinConf) (s : State) : (s.setPin p c).spicfg = s.spicfg := rfl
@[simp] theorem State.setPin_busy (p : Pin) (c : PinConf) (s : State) : (s.setPin p c).busy = s.busy := rfl
@[simp] theorem State.setPin_op (p : Pin) (c : PinConf) (s : State) : (s.setPin p c).op = s.op := rfl
@[simp] theorem State.setPin_ph (p : Pin) (c : PinConf) (s : State) : (s.setPin p c).ph = s.ph := rfl
@[simp] theorem State.setPin_err (p : Pin) (c : PinConf) (s : State) : (s.setPin p c).err = s.err := rfl
@[simp] theorem State.setPin_pre (p : Pin) (c : PinConf) (s : State) : (s.setPin p c).pre = s.pre := rfl
@[simp] theorem State.setPin_n (p : Pin) (c : PinConf) (s : State) : (s.setPin p c).n = s.n := rfl
@[simp] theorem State.setPin_idx (p : Pin) (c : PinConf) (s : State) : (s.setPin p c).idx = s.idx := rfl
@[simp] theorem State.setPin_rxh (p : Pin) (c : PinConf) (s : State) : (s.setPin p c).rxh = s.rxh := rfl
@[simp] theorem State.setPin_polls (p : Pin) (c : PinConf) (s : State) : (s.setPin p c).polls = s.polls := rfl
@[simp] theorem State.setPin_sub (p : Pin) (c : PinConf) (s : State) : (s.setPin p c).sub = s.sub := rfl
@[simp] theorem State.setPin_res (p : Pin) (c : PinConf) (s : State) : (s.setPin p c).res = s.res := rfl
@[simp] theorem State.setPin_trace (p : Pin) (c : PinConf) (s : State) : (s.setPin p c).trace = s.trace := rfl
@[simp] theorem State.setPin_doneCode (p : Pin) (c : PinConf) (s : State) : (s.setPin p c).doneCode = s.doneCode := rfl
@[simp] theorem State.setPin_doneInfo (p : Pin) (c : PinConf) (s : State) : (s.setPin p c).doneInfo = s.doneInfo := rfl
@[simp] theorem State.setPin_responses (p : Pin) (c : PinConf) (s : State) : (s.setPin p c).responses = s.responses := rfl
@[simp] theorem State.setPin_host (p : Pin) (c : PinConf) (s : State) : (s.setPin p c).host = s.host := rfl
@[simp] theorem State.setPin_env (p : Pin) (c : PinConf) (s : State) : (s.setPin p c).env = s.env := rfl

/-! ### setMode -/

@[simp] theorem State.setMode_cfg (m : SpiMode) (s : State) : (s.setMode m).cfg = s.cfg := rfl
@[simp] theorem State.setMode_status (m : SpiMode) (s : State) : (s.setMode m).status = s.status := rfl
@[simp] theorem State.setMode_la (m : SpiMode) (s : State) : (s.setMode m).la = s.la := rfl
@[simp] theorem State.setMode_csOut (m : SpiMode) (s : State) : (s.setMode m).csOut = s.csOut := rfl
@[simp] theorem State.setMode_rstOut (m : SpiMode) (s : State) : (s.setMode m).rstOut = s.rstOut := rfl
@[simp] theorem State.setMode_pincfg (m : SpiMode) (s : State) : (s.setMode m).pincfg = s.pincfg := rfl
@[simp] theorem State.setMode_spicfg (m : SpiMode) (s : State) : (s.setMode m).spicfg = m := rfl
@[simp] theorem State.setMode_busy (m : SpiMode) (s : State) : (s.setMode m).busy = s.busy := rfl
@[simp] theorem State.setMode_op (m : SpiMode) (s : State) : (s.setMode m).op = s.op := rfl
@[simp] theorem State.setMode_ph (m : SpiMode) (s : State) : (s.setMode m).ph = s.ph := rfl
@[simp] theorem State.setMode_err (m : SpiMode) (s : State) : (s.setMode m).err = s.err := rfl
@[simp] theorem State.setMode_pre (m : SpiMode) (s : State) : (s.setMode m).pre = s.pre := rfl
@[simp] theorem State.setMode_n (m : SpiMode) (s : State) : (s.setMode m).n = s.n := rfl
@[simp] theorem State.setMode_idx (m : SpiMode) (s : State) : (s.setMode m).idx = s.idx := rfl
@[simp] theorem State.setMode_rxh (m : SpiMode) (s : State) : (s.setMode m).rxh = s.rxh := rfl
@[simp] theorem State.setMode_polls (m : SpiMode) (s : State) : (s.setMode m).polls = s.polls := rfl
@[simp] theorem State.setMode_sub (m : SpiMode) (s : State) : (s.setMode m).sub = s.sub := rfl
@[simp] theorem State.setMode_res (m : SpiMode) (s : State) : (s.setMode m).res = s.res := rfl
@[simp] theorem State.setMode_trace (m : SpiMode) (s : State) : (s.setMode m).trace = s.trace := rfl
@[simp] theorem State.setMode_doneCode (m : SpiMode) (s : State) : (s.setMode m).doneCode = s.doneCode := rfl
@[simp] theorem State.setMode_doneInfo (m : SpiMode) (s : State) : (s.setMode m).doneInfo = s.doneInfo := rfl
@[simp] theorem State.setMode_responses (m : SpiMode) (s : State) : (s.setMode m).responses = s.responses := rfl
@[simp] theorem State.setMode_host (m : SpiMode) (s : State) : (s.setMode m).host = s.host := rfl
@[simp] theorem State.setMode_env (m : SpiMode) (s : State) : (s.setMode m).env = s.env := rfl

/-! ### setOpened -/

@[simp] theorem State.setOpened_cfg (a : LineAssign) (s : State) : (s.setOpened a).cfg = s.cfg := rfl
@[simp] theorem State.setOpened_status (a : LineAssign) (s : State) : (s.setOpened a).status = .opened := rfl
@[simp] theorem State.setOpened_la (a : LineAssign) (s : State) : (s.setOpened a).la = a := rfl
@[simp] theorem State.setOpened_csOut (a : LineAssign) (s : State) : (s.setOpened a).csOut = s.csOut := rfl
@[simp] theorem State.setOpened_rstOut (a : LineAssign) (s : State) : (s.setOpened a).rstOut = s.rstOut := rfl
@[simp] theorem State.setOpened_pincfg (a : LineAssign) (s : State) : (s.setOpened a).pincfg = s.pincfg := rfl
@[simp] theorem State.setOpened_spicfg (a : LineAssign) (s : State) : (s.setOpened a).spicfg = s.spicfg := rfl
@[simp] theorem State.setOpened_busy (a : LineAssign) (s : State) : (s.setOpened a).busy = s.busy := rfl
@[simp] theorem State.setOpened_op (a : LineAssign) (s : State) : (s.setOpened a).op = s.op := rfl
@[simp] theorem State.setOpened_ph (a : LineAssign) (s : State) : (s.setOpened a).ph = s.ph := rfl
@[simp] theorem State.setOpened_err (a : LineAssign) (s : State) : (s.setOpened a).err = s.err := rfl
@[simp] theorem State.setOpened_pre (a : LineAssign) (s : State) : (s.setOpened a).pre = s.pre := rfl
@[simp] theorem State.setOpened_n (a : LineAssign) (s : State) : (s.setOpened a).n = s.n := rfl
@[simp] theorem State.setOpened_idx (a : LineAssign) (s : State) : (s.setOpened a).idx = s.idx := rfl
@[simp] theorem State.setOpened_rxh (a : LineAssign) (s : State) : (s.setOpened a).rxh = s.rxh := rfl
@[simp] theorem State.setOpened_polls (a : LineAssign) (s : State) : (s.setOpened a).polls = s.polls := rfl
@[simp] theorem State.setOpened_sub (a : LineAssign) (s : State) : (s.setOpened a).sub = s.sub := rfl
@[simp] theorem State.setOpened_res (a : LineAssign) (s : State) : (s.setOpened a).res = s.res := rfl
@[simp] theorem State.setOpened_trace (a : LineAssign) (s : State) : (s.setOpened a).trace = s.trace := rfl
@[simp] theorem State.setOpened_doneCode (a : LineAssign) (s : State) : (s.setOpened a).doneCode = s.doneCode := rfl
@[simp] theorem State.setOpened_doneInfo (a : LineAssign) (s : State) : (s.setOpened a).doneInfo = s.doneInfo := rfl
@[simp] theorem State.setOpened_responses (a : LineAssign) (s : State) : (s.setOpened a).responses = s.responses := rfl
@[simp] theorem State.setOpened_host (a : LineAssign) (s : State) : (s.setOpened a).host = s.host := rfl
@[simp] theorem State.setOpened_env (a : LineAssign) (s : State) : (s.setOpened a).env = s.env := rfl

/-! ### setClosed -/

@[simp] theorem State.setClosed_cfg (s : State) : (s.setClosed).cfg = s.cfg := rfl
@[simp] theorem State.setClosed_status (s : State) : (s.setClosed).status = .closed := rfl
@[simp] theorem State.setClosed_la (s : State) : (s.setClosed).la = s.la := rfl
@[simp] theorem State.setClosed_csOut (s : State) : (s.setClosed).csOut = none := rfl
@[simp] theorem State.setClosed_rstOut (s : State) : (s.setClosed).rstOut = none := rfl
@[simp] theorem State.setClosed_pincfg (s : State) : (s.setClosed).pincfg = [] := rfl
@[simp] theorem State.setClosed_spicfg (s : State) : (s.setClosed).spicfg = s.spicfg := rfl
@[simp] theorem State.setClosed_busy (s : State) : (s.setClosed).busy = s.busy := rfl
@[simp] theorem State.setClosed_op (s : State) : (s.setClosed).op = s.op := rfl
@[simp] theorem State.setClosed_ph (s : State) : (s.setClosed).ph = s.ph := rfl
@[simp] theorem State.setClosed_err (s : State) : (s.setClosed).err = s.err := rfl
@[simp] theorem State.setClosed_pre (s : State) : (s.setClosed).pre = s.pre := rfl
@[simp] theorem State.setClosed_n (s : State) : (s.setClosed).n = s.n := rfl
@[simp] theorem State.setClosed_idx (s : State) : (s.setClosed).idx = s.idx := rfl
@[simp] theorem State.setClosed_rxh (s : State) : (s.setClosed).rxh = s.rxh := rfl
@[simp] theorem State.setClosed_polls (s : State) : (s.setClosed).polls = s.polls := rfl
@[simp] theorem State.setClosed_sub (s : State) : (s.setClosed).sub = s.sub := rfl
@[simp] theorem State.setClosed_res (s : State) : (s.setClosed).res = s.res := rfl
@[simp] theorem State.setClosed_trace (s : State) : (s.setClosed).trace = s.trace := rfl
@[simp] theorem State.setClosed_doneCode (s : State) : (s.setClosed).doneCode = s.doneCode := rfl
@[simp] theorem State.setClosed_doneInfo (s : State) : (s.setClosed).doneInfo = s.doneInfo := rfl
@[simp] theorem State.setClosed_responses (s : State) : (s.setClosed).responses = s.responses := rfl
@[simp] theorem State.setClosed_host (s : State) : (s.setClosed).host = s.host := rfl
@[simp] theorem State.setClosed_env (s : State) : (s.setClosed).env = s.env := rfl

/-! ### nextSession -/

@[simp] theorem State.nextSession_cfg (s : State) : (s.nextSession).cfg = s.cfg := rfl
@[simp] theorem State.nextSession_status (s : State) : (s.nextSession).status = s.status := rfl
@[simp] theorem State.nextSession_la (s : State) : (s.nextSession).la = s.la := rfl
@[simp] theorem State.nextSession_csOut (s : State) : (s.nextSession).csOut = s.csOut := rfl
@[simp] theorem State.nextSession_rstOut (s : State) : (s.nextSession).rstOut = s.rstOut := rfl
@[simp] theorem State.nextSession_pincfg (s : State) : (s.nextSession).pincfg = s.pincfg := rfl
@[simp] theorem State.nextSession_spicfg (s : State) : (s.nextSession).spicfg = s.spicfg := rfl
@[simp] theorem State.nextSession_busy (s : State) : (s.nextSession).busy = s.busy := rfl
@[simp] theorem State.nextSession_op (s : State) : (s.nextSession).op = s.op := rfl
@[simp] theorem State.nextSession_ph (s : State) : (s.nextSession).ph = .chk := rfl
@[simp] theorem State.nextSession_err (s : State) : (s.nextSession).err = s.err := rfl
@[simp] theorem State.nextSession_pre (s : State) : (s.nextSession).pre = s.pre := rfl
@[simp] theorem State.nextSession_n (s : State) : (s.nextSession).n = s.n := rfl
@[simp] theorem State.nextSession_idx (s : State) : (s.nextSession).idx = s.idx := rfl
@[simp] theorem State.nextSession_rxh (s : State) : (s.nextSession).rxh = s.rxh := rfl
@[simp] theorem State.nextSession_polls (s : State) : (s.nextSession).polls = s.polls := rfl
@[simp] theorem State.nextSession_sub (s : State) : (s.nextSession).sub = s.sub + 1 := rfl
@[simp] theorem State.nextSession_res (s : State) : (s.nextSession).res = s.res := rfl
@[simp] theorem State.nextSession_trace (s : State) : (s.nextSession).trace = s.trace := rfl
@[simp] theorem State.nextSession_doneCode (s : State) : (s.nextSession).doneCode = s.doneCode := rfl
@[simp] theorem State.nextSession_doneInfo (s : State) : (s.nextSession).doneInfo = s.doneInfo := rfl
@[simp] theorem State.nextSession_responses (s : State) : (s.nextSession).responses = s.responses := rfl
@[simp] theorem State.nextSession_host (s : State) : (s.nextSession).host = s.host := rfl
@[simp] theorem State.nextSession_env (s : State) : (s.nextSession).env = s.env := rfl

/-! ### csAssert -/

@[simp] theorem State.csAssert_cfg (c : Pin) (s : State) : (s.csAssert c).cfg = s.cfg := rfl
@[simp] theorem State.csAssert_status (c : Pin) (s : State) : (s.csAssert c).status = s.status := rfl
@[simp] theorem State.csAssert_la (c : Pin) (s : State) : (s.csAssert c).la = s.la := rfl
@[simp] theorem State.csAssert_csOut (c : Pin) (s : State) : (s.csAssert c).csOut = some .asserted := rfl
@[simp] theorem State.csAssert_rstOut (c : Pin) (s : State) : (s.csAssert c).rstOut = s.rstOut := rfl
@[simp] theorem State.csAssert_pincfg (c : Pin) (s : State) : (s.csAssert c).pincfg = s.pincfg := rfl
@[simp] theorem State.csAssert_spicfg (c : Pin) (s : State) : (s.csAssert c).spicfg = s.spicfg := rfl
@[simp] theorem State.csAssert_busy (c : Pin) (s : State) : (s.csAssert c).busy = s.busy := rfl
@[simp] theorem State.csAssert_op (c : Pin) (s : State) : (s.csAssert c).op = s.op := rfl
@[simp] theorem State.csAssert_ph (c : Pin) (s : State) : (s.csAssert c).ph = s.ph := rfl
@[simp] theorem State.csAssert_err (c : Pin) (s : State) : (s.csAssert c).err = s.err := rfl
@[simp] theorem State.csAssert_pre (c : Pin) (s : State) : (s.csAssert c).pre = s.pre := rfl
@[simp] theorem State.csAssert_n (c : Pin) (s : State) : (s.csAssert c).n = s.n := rfl
@[simp] theorem State.csAssert_idx (c : Pin) (s : State) : (s.csAssert c).idx = s.idx := rfl
@[simp] theorem State.csAssert_rxh (c : Pin) (s : State) : (s.csAssert c).rxh = s.rxh := rfl
@[simp] theorem State.csAssert_polls (c : Pin) (s : State) : (s.csAssert c).polls = s.polls := rfl
@[simp] theorem State.csAssert_sub (c : Pin) (s : State) : (s.csAssert c).sub = s.sub := rfl
@[simp] theorem State.csAssert_res (c : Pin) (s : State) : (s.csAssert c).res = s.res := rfl
@[simp] theorem State.csAssert_trace (c : Pin) (s : State) : (s.csAssert c).trace = s.trace ++ [.writePin c (csLevel s.cfg .asserted)] := rfl
@[simp] theorem State.csAssert_doneCode (c : Pin) (s : State) : (s.csAssert c).doneCode = s.doneCode := rfl
@[simp] theorem State.csAssert_doneInfo (c : Pin) (s : State) : (s.csAssert c).doneInfo = s.doneInfo := rfl
@[simp] theorem State.csAssert_responses (c : Pin) (s : State) : (s.csAssert c).responses = s.responses := rfl
@[simp] theorem State.csAssert_host (c : Pin) (s : State) : (s.csAssert c).host = s.host := rfl
@[simp] theorem State.csAssert_env (c : Pin) (s : State) : (s.csAssert c).env = s.env := rfl

/-! ### csDeassert -/

@[simp] theorem State.csDeassert_cfg (c : Pin) (s : State) : (s.csDeassert c).cfg = s.cfg := rfl
@[simp] theorem State.csDeassert_status (c : Pin) (s : State) : (s.csDeassert c).status = s.status := rfl
@[simp] theorem State.csDeassert_la (c : Pin) (s : State) : (s.csDeassert c).la = s.la := rfl
@[simp] theorem State.csDeassert_csOut (c : Pin) (s : State) : (s.csDeassert c).csOut = some .deasserted := rfl
@[simp] theorem State.csDeassert_rstOut (c : Pin) (s : State) : (s.csDeassert c).rstOut = s.rstOut := rfl
@[simp] theorem State.csDeassert_pincfg (c : Pin) (s : State) : (s.csDeassert c).pincfg = s.pincfg := rfl
@[simp] theorem State.csDeassert_spicfg (c : Pin) (s : State) : (s.csDeassert c).spicfg = s.spicfg := rfl
@[simp] theorem State.csDeassert_busy (c : Pin) (s : State) : (s.csDeassert c).busy = s.busy := rfl
@[simp] theorem State.csDeassert_op (c : Pin) (s : State) : (s.csDeassert c).op = s.op := rfl
@[simp] theorem State.csDeassert_ph (c : Pin) (s : State) : (s.csDeassert c).ph = s.ph := rfl
@[simp] theorem State.csDeassert_err (c : Pin) (s : State) : (s.csDeassert c).err = s.err := rfl
@[simp] theorem State.csDeassert_pre (c : Pin) (s : State) : (s.csDeassert c).pre = s.pre := rfl
@[simp] theorem State.csDeassert_n (c : Pin) (s : State) : (s.csDeassert c).n = s.n := rfl
@[simp] theorem State.csDeassert_idx (c : Pin) (s : State) : (s.csDeassert c).idx = s.idx := rfl
@[simp] theorem State.csDeassert_rxh (c : Pin) (s : State) : (s.csDeassert c).rxh = s.rxh := rfl
@[simp] theorem State.csDeassert_polls (c : Pin) (s : State) : (s.csDeassert c).polls = s.polls := rfl
@[simp] theorem State.csDeassert_sub (c : Pin) (s : State) : (s.csDeassert c).sub = s.sub := rfl
@[simp] theorem State.csDeassert_res (c : Pin) (s : State) : (s.csDeassert c).res = s.res := rfl
@[simp] theorem State.csDeassert_trace (c : Pin) (s : State) : (s.csDeassert c).trace = s.trace ++ [.writePin c (csLevel s.cfg .deasserted)] := rfl
@[simp] theorem State.csDeassert_doneCode (c : Pin) (s : State) : (s.csDeassert c).doneCode = s.doneCode := rfl
@[simp] theorem State.csDeassert_doneInfo (c : Pin) (s : State) : (s.csDeassert c).doneInfo = s.doneInfo := rfl
@[simp] theorem State.csDeassert_responses (c : Pin) (s : State) : (s.csDeassert c).responses = s.responses := rfl
@[simp] theorem State.csDeassert_host (c : Pin) (s : State) : (s.csDeassert c).host = s.host := rfl
@[simp] theorem State.csDeassert_env (c : Pin) (s : State) : (s.csDeassert c).env = s.env := rfl

/-! ### driveReset -/

@[simp] theorem State.driveReset_cfg (r : Pin) (l : Level) (s : State) : (s.driveReset r l).cfg = s.cfg := rfl
@[simp] theorem State.driveReset_status (r : Pin) (l : Level) (s : State) : (s.driveReset r l).status = s.status := rfl
@[simp] theorem State.driveReset_la (r : Pin) (l : Level) (s : State) : (s.driveReset r l).la = s.la := rfl
@[simp] theorem State.driveReset_csOut (r : Pin) (l : Level) (s : State) : (s.driveReset r l).csOut = s.csOut := rfl
@[simp] theorem State.driveReset_rstOut (r : Pin) (l : Level) (s : State) : (s.driveReset r l).rstOut = some l := rfl
@[simp] theorem State.driveReset_pincfg (r : Pin) (l : Level) (s : State) : (s.driveReset r l).pincfg = s.pincfg := rfl
@[simp] theorem State.driveReset_spicfg (r : Pin) (l : Level) (s : State) : (s.driveReset r l).spicfg = s.spicfg := rfl
@[simp] theorem State.driveReset_busy (r : Pin) (l : Level) (s : State) : (s.driveReset r l).busy = s.busy := rfl
@[simp] theorem State.driveReset_op (r : Pin) (l : Level) (s : State) : (s.driveReset r l).op = s.op := rfl
@[simp] theorem State.driveReset_ph (r : Pin) (l : Level) (s : State) : (s.driveReset r l).ph = s.ph := rfl
@[simp] theorem State.driveReset_err (r : Pin) (l : Level) (s : State) : (s.driveReset r l).err = s.err := rfl
@[simp] theorem State.driveReset_pre (r : Pin) (l : Level) (s : State) : (s.driveReset r l).pre = s.pre := rfl
@[simp] theorem State.driveReset_n (r : Pin) (l : Level) (s : State) : (s.driveReset r l).n = s.n := rfl
@[simp] theorem State.driveReset_idx (r : Pin) (l : Level) (s : State) : (s.driveReset r l).idx = s.idx := rfl
@[simp] theorem State.driveReset_rxh (r : Pin) (l : Level) (s : State) : (s.driveReset r l).rxh = s.rxh := rfl
@[simp] theorem State.driveReset_polls (r : Pin) (l : Level) (s : State) : (s.driveReset r l).polls = s.polls := rfl
@[simp] theorem State.driveReset_sub (r : Pin) (l : Level) (s : State) : (s.driveReset r l).sub = s.sub := rfl
@[simp] theorem State.driveReset_res (r : Pin) (l : Level) (s : State) : (s.driveReset r l).res = s.res := rfl
@[simp] theorem State.driveReset_trace (r : Pin) (l : Level) (s : State) : (s.driveReset r l).trace = s.trace ++ [.writePin r l] := rfl
@[simp] theorem State.driveReset_doneCode (r : Pin) (l : Level) (s : State) : (s.driveReset r l).doneCode = s.doneCode := rfl
@[simp] theorem State.driveReset_doneInfo (r : Pin) (l : Level) (s : State) : (s.driveReset r l).doneInfo = s.doneInfo := rfl
@[simp] theorem State.driveReset_responses (r : Pin) (l : Level) (s : State) : (s.driveReset r l).responses = s.responses := rfl
@[simp] theorem State.driveReset_host (r : Pin) (l : Level) (s : State) : (s.driveReset r l).host = s.host := rfl
@[simp] theorem State.driveReset_env (r : Pin) (l : Level) (s : State) : (s.driveReset r l).env = s.env := rfl

/-! ### evInit -/

@[simp] theorem State.evInit_cfg (s : State) : (s.evInit.2).cfg = s.cfg := rfl
@[simp] theorem State.evInit_status (s : State) : (s.evInit.2).status = s.status := rfl
@[simp] theorem State.evInit_la (s : State) : (s.evInit.2).la = s.la := rfl
@[simp] theorem State.evInit_csOut (s : State) : (s.evInit.2).csOut = s.csOut := rfl
@[simp] theorem State.evInit_rstOut (s : State) : (s.evInit.2).rstOut = s.rstOut := rfl
@[simp] theorem State.evInit_pincfg (s : State) : (s.evInit.2).pincfg = s.pincfg := rfl
@[simp] theorem State.evInit_spicfg (s : State) : (s.evInit.2).spicfg = s.spicfg := rfl
@[simp] theorem State.evInit_busy (s : State) : (s.evInit.2).busy = s.busy := rfl
@[simp] theorem State.evInit_op (s : State) : (s.evInit.2).op = s.op := rfl
@[simp] theorem State.evInit_ph (s : State) : (s.evInit.2).ph = s.ph := rfl
@[simp] theorem State.evInit_err (s : State) : (s.evInit.2).err = s.err := rfl
@[simp] theorem State.evInit_pre (s : State) : (s.evInit.2).pre = s.pre := rfl
@[simp] theorem State.evInit_n (s : State) : (s.evInit.2).n = s.n := rfl
@[simp] theorem State.evInit_idx (s : State) : (s.evInit.2).idx = s.idx := rfl
@[simp] theorem State.evInit_rxh (s : State) : (s.evInit.2).rxh = s.rxh := rfl
@[simp] theorem State.evInit_polls (s : State) : (s.evInit.2).polls = s.polls := rfl
@[simp] theorem State.evInit_sub (s : State) : (s.evInit.2).sub = s.sub := rfl
@[simp] theorem State.evInit_res (s : State) : (s.evInit.2).res = s.res := rfl
@[simp] theorem State.evInit_trace (s : State) : (s.evInit.2).trace = s.trace ++ [.init s.env.takeInit.1] := rfl
@[simp] theorem State.evInit_doneCode (s : State) : (s.evInit.2).doneCode = s.doneCode := rfl
@[simp] theorem State.evInit_doneInfo (s : State) : (s.evInit.2).doneInfo = s.doneInfo := rfl
@[simp] theorem State.evInit_responses (s : State) : (s.evInit.2).responses = s.responses := rfl
@[simp] theorem State.evInit_host (s : State) : (s.evInit.2).host = s.host := rfl
@[simp] theorem State.evInit_env (s : State) : (s.evInit.2).env = s.env.takeInit.2 := rfl

/-! ### evReadPin -/

@[simp] theorem State.evReadPin_cfg (p : Pin) (s : State) : ((s.evReadPin p).2).cfg = s.cfg := rfl
@[simp] theorem State.evReadPin_status (p : Pin) (s : State) : ((s.evReadPin p).2).status = s.status := rfl
@[simp] theorem State.evReadPin_la (p : Pin) (s : State) : ((s.evReadPin p).2).la = s.la := rfl
@[simp] theorem State.evReadPin_csOut (p : Pin) (s : State) : ((s.evReadPin p).2).csOut = s.csOut := rfl
@[simp] theorem State.evReadPin_rstOut (p : Pin) (s : State) : ((s.evReadPin p).2).rstOut = s.rstOut := rfl
@[simp] theorem State.evReadPin_pincfg (p : Pin) (s : State) : ((s.evReadPin p).2).pincfg = s.pincfg := rfl
@[simp] theorem State.evReadPin_spicfg (p : Pin) (s : State) : ((s.evReadPin p).2).spicfg = s.spicfg := rfl
@[simp] theorem State.evReadPin_busy (p : Pin) (s : State) : ((s.evReadPin p).2).busy = s.busy := rfl
@[simp] theorem State.evReadPin_op (p : Pin) (s : State) : ((s.evReadPin p).2).op = s.op := rfl
@[simp] theorem State.evReadPin_ph (p : Pin) (s : State) : ((s.evReadPin p).2).ph = s.ph := rfl
@[simp] theorem State.evReadPin_err (p : Pin) (s : State) : ((s.evReadPin p).2).err = s.err := rfl
@[simp] theorem State.evReadPin_pre (p : Pin) (s : State) : ((s.evReadPin p).2).pre = s.pre := rfl
@[simp] theorem State.evReadPin_n (p : Pin) (s : State) : ((s.evReadPin p).2).n = s.n := rfl
@[simp] theorem State.evReadPin_idx (p : Pin) (s : State) : ((s.evReadPin p).2).idx = s.idx := rfl
@[simp] theorem State.evReadPin_rxh (p : Pin) (s : State) : ((s.evReadPin p).2).rxh = s.rxh := rfl
@[simp] theorem State.evReadPin_polls (p : Pin) (s : State) : ((s.evReadPin p).2).polls = s.polls := rfl
@[simp] theorem State.evReadPin_sub (p : Pin) (s : State) : ((s.evReadPin p).2).sub = s.sub := rfl
@[simp] theorem State.evReadPin_res (p : Pin) (s : State) : ((s.evReadPin p).2).res = s.res := rfl
@[simp] theorem State.evReadPin_trace (p : Pin) (s : State) : ((s.evReadPin p).2).trace = s.trace ++ [.readPin p s.env.takeLevel.1] := rfl
@[simp] theorem State.evReadPin_doneCode (p : Pin) (s : State) : ((s.evReadPin p).2).doneCode = s.doneCode := rfl
@[simp] theorem State.evReadPin_doneInfo (p : Pin) (s : State) : ((s.evReadPin p).2).doneInfo = s.doneInfo := rfl
@[simp] theorem State.evReadPin_responses (p : Pin) (s : State) : ((s.evReadPin p).2).responses = s.responses := rfl
@[simp] theorem State.evReadPin_host (p : Pin) (s : State) : ((s.evReadPin p).2).host = s.host := rfl
@[simp] theorem State.evReadPin_env (p : Pin) (s : State) : ((s.evReadPin p).2).env = s.env.takeLevel.2 := rfl

/-! ### evXfer -/

@[simp] theorem State.evXfer_cfg (tx : Byte) (s : State) : ((s.evXfer tx).2).cfg = s.cfg := rfl
@[simp] theorem State.evXfer_status (tx : Byte) (s : State) : ((s.evXfer tx).2).status = s.status := rfl
@[simp] theorem State.evXfer_la (tx : Byte) (s : State) : ((s.evXfer tx).2).la = s.la := rfl
@[simp] theorem State.evXfer_csOut (tx : Byte) (s : State) : ((s.evXfer tx).2).csOut = s.csOut := rfl
@[simp] theorem State.evXfer_rstOut (tx : Byte) (s : State) : ((s.evXfer tx).2).rstOut = s.rstOut := rfl
@[simp] theorem State.evXfer_pincfg (tx : Byte) (s : State) : ((s.evXfer tx).2).pincfg = s.pincfg := rfl
@[simp] theorem State.evXfer_spicfg (tx : Byte) (s : State) : ((s.evXfer tx).2).spicfg = s.spicfg := rfl
@[simp] theorem State.evXfer_busy (tx : Byte) (s : State) : ((s.evXfer tx).2).busy = s.busy := rfl
@[simp] theorem State.evXfer_op (tx : Byte) (s : State) : ((s.evXfer tx).2).op = s.op := rfl
@[simp] theorem State.evXfer_ph (tx : Byte) (s : State) : ((s.evXfer tx).2).ph = s.ph := rfl
@[simp] theorem State.evXfer_err (tx : Byte) (s : State) : ((s.evXfer tx).2).err = s.err := rfl
@[simp] theorem State.evXfer_pre (tx : Byte) (s : State) : ((s.evXfer tx).2).pre = s.pre := rfl
@[simp] theorem State.evXfer_n (tx : Byte) (s : State) : ((s.evXfer tx).2).n = s.n := rfl
@[simp] theorem State.evXfer_idx (tx : Byte) (s : State) : ((s.evXfer tx).2).idx = s.idx := rfl
@[simp] theorem State.evXfer_rxh (tx : Byte) (s : State) : ((s.evXfer tx).2).rxh = s.rxh := rfl
@[simp] theorem State.evXfer_polls (tx : Byte) (s : State) : ((s.evXfer tx).2).polls = s.polls := rfl
@[simp] theorem State.evXfer_sub (tx : Byte) (s : State) : ((s.evXfer tx).2).sub = s.sub := rfl
@[simp] theorem State.evXfer_res (tx : Byte) (s : State) : ((s.evXfer tx).2).res = s.res := rfl
@[simp] theorem State.evXfer_trace (tx : Byte) (s : State) : ((s.evXfer tx).2).trace = s.trace ++ [.xfer tx s.env.takeByte.1] := rfl
@[simp] theorem State.evXfer_doneCode (tx : Byte) (s : State) : ((s.evXfer tx).2).doneCode = s.doneCode := rfl
@[simp] theorem State.evXfer_doneInfo (tx : Byte) (s : State) : ((s.evXfer tx).2).doneInfo = s.doneInfo := rfl
@[simp] theorem State.evXfer_responses (tx : Byte) (s : State) : ((s.evXfer tx).2).responses = s.responses := rfl
@[simp] theorem State.evXfer_host (tx : Byte) (s : State) : ((s.evXfer tx).2).host = s.host := rfl
@[simp] theorem State.evXfer_env (tx : Byte) (s : State) : ((s.evXfer tx).2).env = s.env.takeByte.2 := rfl

/-! ### PH is written last: `goto` moves outwards, and a later `goto`, `finish`, `begin` or `respond` overwrites it -/

@[simp] theorem State.goto_goto (p q : Phase) (s : State) : (s.goto p).goto q = s.goto q := rfl
@[simp] theorem State.finish_goto (k : ErrKind) (info : Nat) (p : Phase) (s : State) :
    (s.goto p).finish k info = s.finish k info := rfl
@[simp] theorem State.respond_goto (k : ErrKind) (info : Nat) (r : List Word) (p : Phase) (s : State) :
    (s.goto p).respond k info r = s.respond k info r := rfl
@[simp] theorem State.respond_finish (k k' : ErrKind) (info info' : Nat) (r : List Word) (s : State) :
    (s.finish k' info').respond k info r = s.respond k info r := rfl
@[simp] theorem State.nextSession_goto (p : Phase) (s : State) : (s.goto p).nextSession = s.nextSession := rfl
@[simp] theorem State.goto_self (s : State) : s.goto s.ph = s := rfl
@[simp] theorem State.emit_goto (e : Event) (p : Phase) (s : State) : (s.goto p).emit e = (s.emit e).goto p := rfl
@[simp] theorem State.startWait_goto (p : Phase) (s : State) : (s.goto p).startWait = (s.startWait).goto p := rfl
@[simp] theorem State.countPoll_goto (p : Phase) (s : State) : (s.goto p).countPoll = (s.countPoll).goto p := rfl
@[simp] theorem State.load_goto (ses : Session) (p : Phase) (s : State) : (s.goto p).load ses = (s.load ses).goto p := rfl
@[simp] theorem State.nextIdx_goto (p : Phase) (s : State) : (s.goto p).nextIdx = (s.nextIdx).goto p := rfl
@[simp] theorem State.clearIdx_goto (p : Phase) (s : State) : (s.goto p).clearIdx = (s.clearIdx).goto p := rfl
@[simp] theorem State.clearRes_goto (p : Phase) (s : State) : (s.goto p).clearRes = (s.clearRes).goto p := rfl
@[simp] theorem State.latch_goto (b : Byte) (p : Phase) (s : State) : (s.goto p).latch b = (s.latch b).goto p := rfl
@[simp] theorem State.pushRes_goto (w : Word) (p : Phase) (s : State) : (s.goto p).pushRes w = (s.pushRes w).goto p := rfl
@[simp] theorem State.setPin_goto (q : Pin) (c : PinConf) (p : Phase) (s : State) : (s.goto p).setPin q c = (s.setPin q c).goto p := rfl
@[simp] theorem State.setMode_goto (m : SpiMode) (p : Phase) (s : State) : (s.goto p).setMode m = (s.setMode m).goto p := rfl
@[simp] theorem State.setOpened_goto (a : LineAssign) (p : Phase) (s : State) : (s.goto p).setOpened a = (s.setOpened a).goto p := rfl
@[simp] theorem State.setClosed_goto (p : Phase) (s : State) : (s.goto p).setClosed = (s.setClosed).goto p := rfl
@[simp] theorem State.csAssert_goto (c : Pin) (p : Phase) (s : State) : (s.goto p).csAssert c = (s.csAssert c).goto p := rfl
@[simp] theorem State.csDeassert_goto (c : Pin) (p : Phase) (s : State) : (s.goto p).csDeassert c = (s.csDeassert c).goto p := rfl
@[simp] theorem State.driveReset_goto (r : Pin) (l : Level) (p : Phase) (s : State) : (s.goto p).driveReset r l = (s.driveReset r l).goto p := rfl
@[simp] theorem State.evInit_goto (p : Phase) (s : State) : ((s.goto p).evInit).2 = (s.evInit).2.goto p := rfl
@[simp] theorem State.evReadPin_goto (q : Pin) (p : Phase) (s : State) : ((s.goto p).evReadPin q).2 = (s.evReadPin q).2.goto p := rfl
@[simp] theorem State.evXfer_goto (tx : Byte) (p : Phase) (s : State) : ((s.goto p).evXfer tx).2 = (s.evXfer tx).2.goto p := rfl

/-! ### The answers of the events -/

@[simp] theorem State.evInit_answer (s : State) : s.evInit.1 = s.env.takeInit.1 := rfl
@[simp] theorem State.evReadPin_answer (p : Pin) (s : State) : (s.evReadPin p).1 = s.env.takeLevel.1 := rfl
@[simp] theorem State.evXfer_answer (tx : Byte) (s : State) : (s.evXfer tx).1 = s.env.takeByte.1 := rfl

/-! ### Error entry is a way to S_DONE or to S_ABORT -/

@[simp] theorem State.raise_eq (k : ErrKind) (info : Nat) (s : State) : s.raise k info = s.finish k info := rfl
@[simp] theorem State.raiseInSession_eq (s : State) : s.raiseInSession = s.goto .abort := rfl

end Sys2Proof.Machine
end

