-- ==== Sys2Proof/Laws/Rows.lean ====
section
/-!
SUPPORT. One equation for `exec`: acceptance when the block is idle, the row of (OP, PH) when it is not; what the last row of an
operation answers.
-/

namespace Sys2Proof.Machine

/-- How an operation that moves data responds. -/
def finishOf (i : Instr) : State → State :=
  match hands i with
  | .nothing => respondPlain
  | .all => respondWords
  | .first => respondSingle

/-- The rows of an operation (41_transport_transfers.md R144, R145). -/
def rowOf (i : Instr) (s : State) : Out :=
  match i with
  | .openOp la => openRow la s
  | .closeOp => closeRow s
  | .resetDevice => resetRow s
  | .waitReady => waitReadyRow s
  | .read p count => transportRow (.read p count) respondWords s
  | .write p ws => transportRow (.write p ws) respondPlain s
  | .writeBulk bs => transportRow (.bulk bs) respondPlain s
  | .writeCommand code args => commandRow (commandSessions code args) respondPlain s
  | .writeData ws => commandRow [.write preDataWrite ws] respondPlain s
  | .readData count => commandRow [.read preDataRead count] respondWords s
  | .readSingleWord => commandRow [.read preDataRead 1] respondSingle s
  | .writePixels ws => commandRow [.bulk (pack ws)] respondPlain s
  | .preambleWriteData => .refused .notTheCurrentPreamble
  | .preambleReadData => .refused .notTheCurrentPreamble
  | .preambleWriteCommand => .refused .notTheCurrentPreamble

theorem exec_eq_operate {i : Instr} (hi : i.isOperation = true) (s : State) : exec i s = operate i (rowOf i) s := by
  cases i <;> first | rfl | simp [Instr.isOperation] at hi

theorem exec_busy {i : Instr} {s : State} (hi : i.isOperation = true) (hb : s.busy = true) (ho : s.op = some i) :
    exec i s = rowOf i s := by simp [exec_eq_operate hi, operate, hb, ho]

theorem exec_idle {i : Instr} {s : State} (hi : i.isOperation = true) (hb : s.busy = false) :
    exec i s = accept i s := by simp [exec_eq_operate hi, operate, hb]

/-- Away from S_DONE the rows of an operation that moves data are those of its session in flight. -/
theorem rowOf_session {i : Instr} {s : State} {ses : Session} (h : sessionInFlight i s = some ses)
    (hd : s.ph ≠ .done) : rowOf i s = sessionRow ses s := by
  cases i <;> simp_all [sessionInFlight, sessionsOf, Instr.isCommandLayer, rowOf, transportRow, commandRow]

/-- Is a session left after the one in flight? -/
def moreSessions (i : Instr) (s : State) : Bool := i.isCommandLayer && decide (s.sub + 1 < (sessionsOf i).length)

theorem rowOf_done {i : Instr} {s : State} {ses : Session} (h : sessionInFlight i s = some ses)
    (hd : s.ph = .done) :
    rowOf i s = if s.doneCode = .ok ∧ moreSessions i s = true then .next s.nextSession
      else .next (finishOf i s) := by
  cases i <;> simp_all [sessionInFlight, sessionsOf, Instr.isCommandLayer, rowOf, transportRow, commandRow, moreSessions,
    finishOf, hands]
  rename_i code args
  by_cases hlt : s.sub + 1 < (commandSessions code args).length <;> simp [hlt]

theorem finishOf_ok (i : Instr) (s : State) : finishOf i (s.finish .ok 0) = respondOk i s := by
  cases hh : hands i <;> simp [finishOf, respondOk, hh, respondPlain, respondWords, respondSingle]
  all_goals (cases s.res <;> rfl)

theorem finishOf_error (i : Instr) (s : State) {e : ErrKind} (he : e ≠ .ok) (info : Nat) :
    finishOf i (s.finish e info) = s.respond e info [] := by
  cases hh : hands i <;> simp [finishOf, hh, respondPlain, respondWords, respondSingle, he]

@[simp] theorem respondOk_busy (i : Instr) (s : State) : (respondOk i s).busy = false := by
  cases hh : hands i <;> simp [respondOk, hh]
  cases s.res <;> simp

/-- One row of an operation in flight. -/
theorem rowOf_goes {i : Instr} {s t : State} (hi : i.isOperation = true) (hb : s.busy = true) (ho : s.op = some i)
    (hr : rowOf i s = .next t) (ht : t.busy = true) : GoesIn i 1 s t :=
  GoesIn.step ((exec_busy hi hb ho).trans hr) ht

theorem plain_done {i : Instr} {s : State} (hi : i.isOperation = true) (hb : s.busy = true) (ho : s.op = some i)
    (hr : ∀ t : State, t.ph = .done → rowOf i t = .next (respondPlain t)) (e : ErrKind) (info : Nat) :
    runOperation 1 i (s.finish e info) = some (s.respond e info []) := by
  refine runOperation_end (m := 0) ((exec_busy hi (by simpa using hb) (by simpa using ho)).trans (hr _ rfl)) ?_
  simp [respondPlain]

/-- Acceptance is the first small step. -/
theorem accept_goes {i : Instr} (hi : i.isOperation = true) {s t : State} (hb : s.busy = false)
    (h : accept i s = .next t) : t = s.begin i ∧ GoesIn i 1 s (s.begin i) := by
  have ht : t = s.begin i := by
    rw [accept] at h
    split at h
    · split at h <;> simp_all
    · cases h
  subst ht
  exact ⟨rfl, GoesIn.step ((exec_idle hi hb).trans h) (by simp)⟩

/-- An operation that is not accepted does not run. -/
theorem not_accepted {i : Instr} (hi : i.isOperation = true) {s : State} (hb : s.busy = false)
    (h : ∀ t, accept i s ≠ .next t) (k : Nat) : runOperation k i s = none := by
  cases k with
  | zero => rfl
  | succ k =>
    rw [runOperation, exec_idle hi hb]
    cases ha : accept i s with
    | next t => exact absurd ha (h t)
    | fault r => rfl
    | refused r => rfl

end Sys2Proof.Machine
end

