-- ==== Sys2Proof/Laws/Wait.lean ====
section
/-!
SUPPORT. A wait: the loop of the pseudocode against the steps of a wait phase.
-/

namespace Sys2Proof.Machine

/-- `f` on the state a procedure ends in, or has come to. -/
def Ran.map (f : State → State) : Ran → Ran
  | .went s => .went (f s)
  | .raised k info s => .raised k info (f s)
  | .outOfFuel s => .outOfFuel (f s)

theorem waitLoop_goto (p : Phase) (y : Pin) : ∀ (fuel : Nat) (s : State),
    waitLoop fuel y (s.goto p) = (waitLoop fuel y s).map (State.goto p) := by
  intro fuel
  induction fuel with
  | zero => intro s; rfl
  | succ k ih =>
    intro s
    show (if (s.evReadPin y).1 = readyLevel then Ran.went ((s.evReadPin y).2.goto p)
      else if limitHit (s.evReadPin y).2.countPoll then
        Ran.raised .deviceNotRespondingError 0 ((s.evReadPin y).2.countPoll.goto p)
      else waitLoop k y ((s.evReadPin y).2.countPoll.goto p)) = _
    rw [ih, waitLoop]
    simp only [apply_ite (Ran.map (State.goto p))]
    rfl

/-- What every procedure of a session leaves alone. -/
structure SameControl (s t : State) : Prop where
  cfg : t.cfg = s.cfg
  status : t.status = s.status
  la : t.la = s.la
  busy : t.busy = s.busy
  op : t.op = s.op
  sub : t.sub = s.sub
  ph : t.ph = s.ph
  doneCode : t.doneCode = s.doneCode
  doneInfo : t.doneInfo = s.doneInfo

theorem SameControl.refl (s : State) : SameControl s s := ⟨rfl, rfl, rfl, rfl, rfl, rfl, rfl, rfl, rfl⟩
theorem SameControl.trans {s t u : State} (h : SameControl s t) (g : SameControl t u) : SameControl s u :=
  ⟨g.cfg.trans h.cfg, g.status.trans h.status, g.la.trans h.la, g.busy.trans h.busy, g.op.trans h.op, g.sub.trans h.sub, g.ph.trans h.ph,
    g.doneCode.trans h.doneCode, g.doneInfo.trans h.doneInfo⟩

/-- A property of the state a procedure ends in, or has come to. -/
def Ran.Post (P : State → Prop) : Ran → Prop
  | .went s => P s
  | .raised _ _ s => P s
  | .outOfFuel s => P s

/-- What a sample and a count keep, a wait keeps. -/
theorem waitLoop_post {P : State → Prop} {y : Pin} (hr : ∀ t, P t → P (t.evReadPin y).2)
    (hc : ∀ t, P t → P t.countPoll) : ∀ (fuel : Nat) (s : State), P s → (waitLoop fuel y s).Post P := by
  intro fuel
  induction fuel with
  | zero => intro s h; exact h
  | succ k ih =>
    intro s h
    rw [waitLoop]
    split
    · exact hr s h
    · split
      · exact hc _ (hr s h)
      · exact ih _ (hc _ (hr s h))

theorem SameControl.readPin (s : State) (y : Pin) : SameControl s (s.evReadPin y).2 := ⟨rfl, rfl, rfl, rfl, rfl, rfl, rfl, rfl, rfl⟩
theorem SameControl.countPoll (s : State) : SameControl s s.countPoll := ⟨rfl, rfl, rfl, rfl, rfl, rfl, rfl, rfl, rfl⟩

/-- A wait phase of operation `i` samples the pin until the wait's loop ends. -/
theorem wait_goes {i : Instr} {y : Pin} {onReady onLimit : State → State}
    (readyBusy : ∀ t : State, (onReady t).busy = t.busy) (limitBusy : ∀ t : State, (onLimit t).busy = t.busy) :
    ∀ (fuel : Nat) (s : State), (∀ t, SameControl s t → exec i t = waitRow onReady onLimit t) →
      s.busy = true → s.la.ready = some y →
      match waitLoop fuel y s with
      | .went t => ∃ k, GoesIn i k s (onReady t)
      | .raised k' info t => k' = .deviceNotRespondingError ∧ info = 0 ∧ ∃ k, GoesIn i k s (onLimit t)
      | .outOfFuel t => ∃ k, fuel ≤ k ∧ GoesIn i k s t := by
  intro fuel
  induction fuel with
  | zero => intro s _ _ _; exact ⟨0, Nat.le_refl _, GoesIn.refl i s⟩
  | succ k ih =>
    intro s row hb hy
    have hrow := row s (SameControl.refl s)
    rw [waitRow, hy] at hrow
    simp only [withPin, waitSample] at hrow
    rw [waitLoop]
    by_cases hl : (s.evReadPin y).1 = readyLevel
    · simp only [hl, if_true] at hrow ⊢
      exact ⟨1, GoesIn.step hrow (by rw [readyBusy]; exact hb)⟩
    · simp only [if_neg hl] at hrow ⊢
      by_cases hh : limitHit (s.evReadPin y).2.countPoll = true
      · simp only [if_pos hh] at hrow ⊢
        exact ⟨trivial, trivial, 1, GoesIn.step hrow (by rw [limitBusy]; exact hb)⟩
      · simp only [if_neg hh] at hrow ⊢
        have hc : SameControl s (s.evReadPin y).2.countPoll :=
          (SameControl.readPin s y).trans (SameControl.countPoll _)
        have h1 : GoesIn i 1 s (s.evReadPin y).2.countPoll := GoesIn.step hrow hb
        have := ih (s.evReadPin y).2.countPoll (fun t ht => row t (hc.trans ht)) hb hy
        revert this
        cases waitLoop k y (s.evReadPin y).2.countPoll with
        | went t => exact fun ⟨m, h⟩ => ⟨1 + m, h1.trans h⟩
        | raised e info t => exact fun ⟨a, b, m, h⟩ => ⟨a, b, 1 + m, h1.trans h⟩
        | outOfFuel t => exact fun ⟨m, hm, h⟩ => ⟨1 + m, by omega, h1.trans h⟩

theorem waitReadyProc_post {P : State → Prop} {y : Pin} {s : State} (hr : ∀ t, P t → P (t.evReadPin y).2)
    (hc : ∀ t, P t → P t.countPoll) (fuel : Nat) (hs : P s.startWait) : (waitReadyProc fuel y s).Post P :=
  waitLoop_post hr hc fuel _ hs

theorem waitReadyProc_control (fuel : Nat) (y : Pin) (s : State) : (waitReadyProc fuel y s).Post (SameControl s) :=
  waitReadyProc_post (fun t h => h.trans (SameControl.readPin t y)) (fun t h => h.trans (SameControl.countPoll t)) fuel
    ⟨rfl, rfl, rfl, rfl, rfl, rfl, rfl, rfl, rfl⟩

theorem waitReadyProc_n (fuel : Nat) (y : Pin) (s : State) : (waitReadyProc fuel y s).Post fun t => t.n = s.n :=
  waitReadyProc_post (fun _ h => h) (fun _ h => h) fuel rfl

theorem Ran.Post.andThen {P : State → Prop} {r : Ran} {q : State → Ran} (h : r.Post P)
    (hq : ∀ s, P s → (q s).Post P) : (r.andThen q).Post P := by
  cases r with
  | went s => exact hq s h
  | raised e info s => exact h
  | outOfFuel s => exact h

theorem Ran.Post.closing {P : State → Prop} {r : Ran} (c : Pin) (h : r.Post P) (hc : ∀ s, P s → P (s.csDeassert c)) :
    (r.closing c).Post P := by
  cases r with
  | went s => exact h
  | raised e info s => exact hc s h
  | outOfFuel s => exact h

/-- No procedure of a session raises OK. -/
def Ran.RaisesError : Ran → Prop
  | .went _ => True
  | .raised e _ _ => e ≠ .ok
  | .outOfFuel _ => True

theorem Ran.RaisesError.andThen {r : Ran} {q : State → Ran} (h : r.RaisesError) (hq : ∀ s, (q s).RaisesError) :
    (r.andThen q).RaisesError := by
  cases r with
  | went s => exact hq s
  | raised e info s => exact h
  | outOfFuel s => trivial

theorem Ran.RaisesError.closing {r : Ran} (c : Pin) (h : r.RaisesError) : (r.closing c).RaisesError := by
  cases r <;> exact h

theorem waitLoop_raisesError (y : Pin) : ∀ (fuel : Nat) (s : State), (waitLoop fuel y s).RaisesError := by
  intro fuel
  induction fuel with
  | zero => intro s; trivial
  | succ k ih =>
    intro s
    rw [waitLoop]
    split
    · trivial
    · split
      · exact (by simp : ErrKind.deviceNotRespondingError ≠ .ok)
      · exact ih _

end Sys2Proof.Machine
end

