-- ==== Sys2Proof/Laws/Words.lean ====
section
/-!
SUPPORT. What sending and receiving one Word leaves alone, field by field.
-/

namespace Sys2Proof.Machine

@[simp] theorem recvWord_cfg (s : State) : (recvWord s).cfg = s.cfg := by simp [recvWord]
@[simp] theorem recvWord_status (s : State) : (recvWord s).status = s.status := by simp [recvWord]
@[simp] theorem recvWord_la (s : State) : (recvWord s).la = s.la := by simp [recvWord]
@[simp] theorem recvWord_csOut (s : State) : (recvWord s).csOut = s.csOut := by simp [recvWord]
@[simp] theorem recvWord_rstOut (s : State) : (recvWord s).rstOut = s.rstOut := by simp [recvWord]
@[simp] theorem recvWord_pincfg (s : State) : (recvWord s).pincfg = s.pincfg := by simp [recvWord]
@[simp] theorem recvWord_spicfg (s : State) : (recvWord s).spicfg = s.spicfg := by simp [recvWord]
@[simp] theorem recvWord_busy (s : State) : (recvWord s).busy = s.busy := by simp [recvWord]
@[simp] theorem recvWord_op (s : State) : (recvWord s).op = s.op := by simp [recvWord]
@[simp] theorem recvWord_ph (s : State) : (recvWord s).ph = s.ph := by simp [recvWord]
@[simp] theorem recvWord_err (s : State) : (recvWord s).err = s.err := by simp [recvWord]
@[simp] theorem recvWord_pre (s : State) : (recvWord s).pre = s.pre := by simp [recvWord]
@[simp] theorem recvWord_n (s : State) : (recvWord s).n = s.n := by simp [recvWord]
@[simp] theorem recvWord_polls (s : State) : (recvWord s).polls = s.polls := by simp [recvWord]
@[simp] theorem recvWord_sub (s : State) : (recvWord s).sub = s.sub := by simp [recvWord]
@[simp] theorem recvWord_doneCode (s : State) : (recvWord s).doneCode = s.doneCode := by simp [recvWord]
@[simp] theorem recvWord_doneInfo (s : State) : (recvWord s).doneInfo = s.doneInfo := by simp [recvWord]
@[simp] theorem recvWord_responses (s : State) : (recvWord s).responses = s.responses := by simp [recvWord]
@[simp] theorem recvWord_host (s : State) : (recvWord s).host = s.host := by simp [recvWord]
@[simp] theorem sendWord_cfg (w : Word) (s : State) : (sendWord w s).cfg = s.cfg := by simp [sendWord]
@[simp] theorem sendWord_status (w : Word) (s : State) : (sendWord w s).status = s.status := by simp [sendWord]
@[simp] theorem sendWord_la (w : Word) (s : State) : (sendWord w s).la = s.la := by simp [sendWord]
@[simp] theorem sendWord_csOut (w : Word) (s : State) : (sendWord w s).csOut = s.csOut := by simp [sendWord]
@[simp] theorem sendWord_rstOut (w : Word) (s : State) : (sendWord w s).rstOut = s.rstOut := by simp [sendWord]
@[simp] theorem sendWord_pincfg (w : Word) (s : State) : (sendWord w s).pincfg = s.pincfg := by simp [sendWord]
@[simp] theorem sendWord_spicfg (w : Word) (s : State) : (sendWord w s).spicfg = s.spicfg := by simp [sendWord]
@[simp] theorem sendWord_busy (w : Word) (s : State) : (sendWord w s).busy = s.busy := by simp [sendWord]
@[simp] theorem sendWord_op (w : Word) (s : State) : (sendWord w s).op = s.op := by simp [sendWord]
@[simp] theorem sendWord_ph (w : Word) (s : State) : (sendWord w s).ph = s.ph := by simp [sendWord]
@[simp] theorem sendWord_err (w : Word) (s : State) : (sendWord w s).err = s.err := by simp [sendWord]
@[simp] theorem sendWord_pre (w : Word) (s : State) : (sendWord w s).pre = s.pre := by simp [sendWord]
@[simp] theorem sendWord_n (w : Word) (s : State) : (sendWord w s).n = s.n := by simp [sendWord]
@[simp] theorem sendWord_idx (w : Word) (s : State) : (sendWord w s).idx = s.idx := by simp [sendWord]
@[simp] theorem sendWord_rxh (w : Word) (s : State) : (sendWord w s).rxh = s.rxh := by simp [sendWord]
@[simp] theorem sendWord_polls (w : Word) (s : State) : (sendWord w s).polls = s.polls := by simp [sendWord]
@[simp] theorem sendWord_sub (w : Word) (s : State) : (sendWord w s).sub = s.sub := by simp [sendWord]
@[simp] theorem sendWord_res (w : Word) (s : State) : (sendWord w s).res = s.res := by simp [sendWord]
@[simp] theorem sendWord_doneCode (w : Word) (s : State) : (sendWord w s).doneCode = s.doneCode := by simp [sendWord]
@[simp] theorem sendWord_doneInfo (w : Word) (s : State) : (sendWord w s).doneInfo = s.doneInfo := by simp [sendWord]
@[simp] theorem sendWord_responses (w : Word) (s : State) : (sendWord w s).responses = s.responses := by simp [sendWord]
@[simp] theorem sendWord_host (w : Word) (s : State) : (sendWord w s).host = s.host := by simp [sendWord]
@[simp] theorem recvWord_idx (s : State) : (recvWord s).idx = s.idx + 1 := by simp [recvWord]

end Sys2Proof.Machine
end

