-- ==== Sys2Proof/Laws/Events.lean ====
section
/-!
SUPPORT. What a wait, a Word and a payload do to the state: for any answers of the environment, and with the answers given.
-/

namespace Sys2Proof.Machine

/-! ### What a wait, a Word and a payload do to the state, for any answers -/

@[simp] theorem hi_zero : hi 0#16 = 0#8 := rfl

@[simp] theorem lo_zero : lo 0#16 = 0#8 := rfl

@[simp] theorem waitAnswers_length (a : Nat) : (waitAnswers a).length = a + 1 := by simp [waitAnswers]

theorem waitAnswers_succ (a : Nat) : waitAnswers (a + 1) = .low :: waitAnswers a := rfl

theorem waitEvents_succ (y : Pin) (a : Nat) : waitEvents y (a + 1) = .readPin y .low :: waitEvents y a := rfl

theorem waitEvents_zero (y : Pin) : waitEvents y 0 = [.readPin y .high] := rfl

theorem limitHit_iff (s : State) : limitHit s = true ↔ ∃ limit, s.cfg.readyPollLimit = some limit ∧ limit ≤ s.polls := by
  rw [limitHit]
  cases s.cfg.readyPollLimit <;> simp

theorem Level.eq_low {l : Level} (h : l ≠ readyLevel) : l = .low := by cases l <;> simp_all [readyLevel]

/-- A wait that ends: `a` LOW samples and one HIGH, none of the LOW ones hitting the limit. -/
theorem waitLoop_went {y : Pin} : ∀ (fuel : Nat) {s t : State}, waitLoop fuel y s = .went t →
    ∃ a, t = { s with polls := s.polls + a, trace := s.trace ++ waitEvents y a, env := t.env } ∧
      (∀ limit, s.cfg.readyPollLimit = some limit → a = 0 ∨ s.polls + a < limit) := by
  intro fuel
  induction fuel with
  | zero => intro s t h; cases h
  | succ k ih =>
    intro s t h
    rw [waitLoop] at h
    by_cases hl : (s.evReadPin y).1 = readyLevel
    · simp only [hl, if_true, Ran.went.injEq] at h
      subst h
      refine ⟨0, ?_, fun _ _ => .inl rfl⟩
      have he : s.env.takeLevel.1 = .high := hl
      ext1 <;> simp [State.evReadPin, State.emit, waitEvents_zero, he]
    · simp only [if_neg hl] at h
      by_cases hh : limitHit (s.evReadPin y).2.countPoll = true
      · rw [if_pos hh] at h; cases h
      · rw [if_neg hh] at h
        obtain ⟨a, ha, hlim⟩ := ih h
        have he : s.env.takeLevel.1 = .low := Level.eq_low hl
        refine ⟨a + 1, ?_, fun limit hlimit => .inr ?_⟩
        · rw [ha]
          ext1 <;> simp [State.evReadPin, State.emit, State.countPoll, waitEvents_succ, he]
          omega
        · have hn : ¬ limit ≤ s.polls + 1 := by
            intro hle
            exact hh (by simp [limitHit, State.evReadPin, State.emit, State.countPoll, hlimit, hle])
          have := hlim limit (by simpa using hlimit)
          have hp : (s.evReadPin y).2.countPoll.polls = s.polls + 1 := by simp
          rw [hp] at this
          omega

/-- A wait that gives up: only LOW samples, the last of them the first to hit the limit. -/
theorem waitLoop_raised {y : Pin} : ∀ (fuel : Nat) {s t : State} {e : ErrKind} {info : Nat},
    waitLoop fuel y s = .raised e info t → e = .deviceNotRespondingError ∧ info = 0 ∧
      ∃ limit m, s.cfg.readyPollLimit = some limit ∧ limit ≤ s.polls + (m + 1) ∧
        (m = 0 ∨ s.polls + m < limit) ∧
        t = { s with polls := s.polls + (m + 1), trace := s.trace ++ List.replicate (m + 1) (.readPin y .low), env := t.env } := by
  intro fuel
  induction fuel with
  | zero => intro s t e info h; cases h
  | succ k ih =>
    intro s t e info h
    rw [waitLoop] at h
    by_cases hl : (s.evReadPin y).1 = readyLevel
    · simp only [hl, if_true] at h; cases h
    · simp only [if_neg hl] at h
      have he : s.env.takeLevel.1 = .low := Level.eq_low hl
      have hp : (s.evReadPin y).2.countPoll.polls = s.polls + 1 := by simp
      by_cases hh : limitHit (s.evReadPin y).2.countPoll = true
      · rw [if_pos hh] at h
        injection h with h1 h2 h3
        refine ⟨h1.symm, h2.symm, ?_⟩
        cases hlimit : s.cfg.readyPollLimit with
        | none => simp [limitHit, hlimit] at hh
        | some limit =>
          have : limit ≤ s.polls + 1 := by
            obtain ⟨m, hm, hle⟩ := (limitHit_iff _).1 hh
            have hm' : s.cfg.readyPollLimit = some m := hm
            rw [hlimit] at hm'; cases hm'; exact hle
          refine ⟨limit, 0, rfl, this, .inl rfl, ?_⟩
          rw [← h3]
          ext1 <;> simp [State.evReadPin, State.emit, State.countPoll, he]
      · rw [if_neg hh] at h
        obtain ⟨h1, h2, limit, m, hlimit, hle, hlt, ht⟩ := ih h
        rw [hp] at hle hlt
        have hlimit' : s.cfg.readyPollLimit = some limit := by simpa using hlimit
        have hn : ¬ limit ≤ s.polls + 1 := fun hle => hh (by simp [limitHit, hlimit', hle])
        refine ⟨h1, h2, limit, m + 1, hlimit', by omega, .inr (by omega), ?_⟩
        rw [ht]
        ext1 <;> simp [State.evReadPin, State.emit, State.countPoll, List.replicate_succ, he]
        omega

/-- A wait whose answers are given. -/
theorem waitLoop_answers {y : Pin} {rest : List Level} : ∀ (a fuel : Nat) (s : State), a < fuel →
    s.env.readyLevels = waitAnswers a ++ rest →
    (∀ limit, s.cfg.readyPollLimit = some limit → s.polls + a < limit) →
    waitLoop fuel y s = .went { s with polls := s.polls + a, trace := s.trace ++ waitEvents y a, env := { s.env with readyLevels := rest } } := by
  intro a
  induction a with
  | zero =>
    intro fuel s hf he hlim
    obtain ⟨fuel, rfl⟩ : ∃ m, fuel = m + 1 := ⟨fuel - 1, by omega⟩
    have ht : s.env.takeLevel = (.high, { s.env with readyLevels := rest }) := by simp [Env.takeLevel, he, waitAnswers]
    rw [waitLoop]
    rw [if_pos (by simp [State.evReadPin, ht])]
    congr 1
    ext1 <;> simp [State.evReadPin, State.emit, waitEvents_zero, ht]
  | succ a ih =>
    intro fuel s hf he hlim
    obtain ⟨fuel, rfl⟩ : ∃ m, fuel = m + 1 := ⟨fuel - 1, by omega⟩
    have ht : s.env.takeLevel = (.low, { s.env with readyLevels := waitAnswers a ++ rest }) := by
      simp [Env.takeLevel, he, waitAnswers_succ]
    have hp : (s.evReadPin y).2.countPoll.polls = s.polls + 1 := by simp
    rw [waitLoop]
    rw [if_neg (by simp [State.evReadPin, ht]), if_neg ?_, ih fuel _ (by omega) ?_ ?_]
    · congr 1
      ext1 <;> simp [State.evReadPin, State.emit, State.countPoll, waitEvents_succ, ht]
      omega
    · simp [State.evReadPin, State.emit, State.countPoll, ht]
    · intro limit hlimit
      have := hlim limit (by simpa using hlimit)
      rw [hp]; omega
    · intro hh
      cases hlimit : s.cfg.readyPollLimit with
      | none => simp [limitHit, hlimit] at hh
      | some limit =>
        have h1 := hlim limit hlimit
        have : limit ≤ s.polls + 1 := by
            obtain ⟨m, hm, hle⟩ := (limitHit_iff _).1 hh
            have hm' : s.cfg.readyPollLimit = some m := hm
            rw [hlimit] at hm'; cases hm'; exact hle
        omega

/-- A wait whose answers are LOW up to the limit. -/
theorem waitLoop_gives_up {y : Pin} {rest : List Level} {limit : Nat} : ∀ (m fuel : Nat) (s : State), m + 1 ≤ fuel →
    s.env.readyLevels = List.replicate (m + 1) .low ++ rest → s.cfg.readyPollLimit = some limit →
    s.polls + (m + 1) = limit →
    waitLoop fuel y s = .raised .deviceNotRespondingError 0 { s with polls := limit, trace := s.trace ++ List.replicate (m + 1) (.readPin y .low), env := { s.env with readyLevels := rest } } := by
  intro m
  induction m with
  | zero =>
    intro fuel s hf he hl hn
    obtain ⟨fuel, rfl⟩ : ∃ m, fuel = m + 1 := ⟨fuel - 1, by omega⟩
    have ht : s.env.takeLevel = (.low, { s.env with readyLevels := rest }) := by simp [Env.takeLevel, he]
    rw [waitLoop]
    rw [if_neg (by simp [State.evReadPin, ht]), if_pos (by simp [limitHit, hl, ← hn])]
    congr 1
    ext1 <;> simp [State.evReadPin, State.emit, State.countPoll, ht, ← hn]
  | succ m ih =>
    intro fuel s hf he hl hn
    obtain ⟨fuel, rfl⟩ : ∃ m, fuel = m + 1 := ⟨fuel - 1, by omega⟩
    have ht : s.env.takeLevel = (.low, { s.env with readyLevels := List.replicate (m + 1) .low ++ rest }) := by
      simp [Env.takeLevel, he, List.replicate_succ]
    rw [waitLoop]
    rw [if_neg (by simp [State.evReadPin, ht]), if_neg (by simp [limitHit, hl, ← hn]), ih fuel _ (by omega) ?_ ?_ ?_]
    · congr 1
      ext1 <;> simp [State.evReadPin, State.emit, State.countPoll, List.replicate_succ, ht]
    · simp [State.evReadPin, State.emit, State.countPoll, ht]
    · simpa using hl
    · simp; omega

/-! ### Words -/

/-- One Word sent: two byte exchanges. -/
theorem sendWord_eq (w : Word) (s : State) : ∃ b0 b1, sendWord w s =
    { s with trace := s.trace ++ xferEvents [hi w, lo w] [b0, b1], env := (sendWord w s).env } := by
  refine ⟨s.env.takeByte.1, s.env.takeByte.2.takeByte.1, ?_⟩
  ext1 <;> simp [sendWord, State.evXfer, State.emit, xferEvents]

theorem xferEvents_append (tx rx tx' rx' : List Byte) (h : tx.length = rx.length) :
    xferEvents (tx ++ tx') (rx ++ rx') = xferEvents tx rx ++ xferEvents tx' rx' := by
  simp [xferEvents, List.zipWith_append h]

/-- The Words of a write payload. -/
theorem sendWords_eq : ∀ (ws : List Word) (s : State), ∃ rx, rx.length = 2 * ws.length ∧ sendWords ws s =
    { s with idx := s.idx + ws.length, trace := s.trace ++ xferEvents (pack ws) rx, env := (sendWords ws s).env } := by
  intro ws
  induction ws with
  | nil => intro s; exact ⟨[], rfl, by ext1 <;> simp [sendWords, pack, xferEvents]⟩
  | cons w ws ih =>
    intro s
    obtain ⟨rx, hlen, h⟩ := ih (sendWord w s).nextIdx
    obtain ⟨b0, b1, hw⟩ := sendWord_eq w s
    refine ⟨b0 :: b1 :: rx, by simp [hlen]; omega, ?_⟩
    have htr : (sendWord w s).trace = s.trace ++ xferEvents [hi w, lo w] [b0, b1] := by rw [hw]
    rw [sendWords, h]
    ext1 <;> simp [htr, pack, xferEvents]
    omega

/-- One Word received: two byte exchanges of zeros. -/
theorem recvWord_eq (s : State) : ∃ b0 b1, recvWord s =
    { s with rxh := b0, idx := s.idx + 1, res := s.res ++ [word b0 b1], trace := s.trace ++ xferEvents [0x00#8, 0x00#8] [b0, b1], env := (recvWord s).env } := by
  refine ⟨s.env.takeByte.1, s.env.takeByte.2.takeByte.1, ?_⟩
  ext1 <;> simp [recvWord, State.evXfer, State.emit, State.latch, xferEvents]

/-- The Words of a read payload. -/
theorem recvWords_eq : ∀ (k : Nat) (s : State), ∃ rx, rx.length = 2 * k ∧ recvWords k s =
    { s with rxh := (recvWords k s).rxh, idx := s.idx + k, res := s.res ++ unpack rx, trace := s.trace ++ xferEvents (List.replicate (2 * k) 0x00#8) rx, env := (recvWords k s).env } := by
  intro k
  induction k with
  | zero => intro s; exact ⟨[], rfl, by ext1 <;> simp [recvWords, unpack, xferEvents]⟩
  | succ k ih =>
    intro s
    obtain ⟨rx, hlen, h⟩ := ih (recvWord s)
    obtain ⟨b0, b1, hw⟩ := recvWord_eq s
    refine ⟨b0 :: b1 :: rx, by simp [hlen]; omega, ?_⟩
    have htr : (recvWord s).trace = s.trace ++ xferEvents [0x00#8, 0x00#8] [b0, b1] := by rw [hw]
    have hres : (recvWord s).res = s.res ++ [word b0 b1] := by rw [hw]
    rw [recvWords, h]
    ext1 <;> simp [htr, hres, unpack, xferEvents, show 2 * (k + 1) = 2 * k + 1 + 1 by omega, List.replicate_succ]
    omega

/-! ### The same with the received bytes given -/

theorem sendWord_rx {w : Word} {s : State} {b0 b1 : Byte} {rest : List Byte} (h : s.env.rxBytes = b0 :: b1 :: rest) :
    sendWord w s = { s with trace := s.trace ++ xferEvents [hi w, lo w] [b0, b1], env := { s.env with rxBytes := rest } } := by
  ext1 <;> simp [sendWord, State.evXfer, State.emit, xferEvents, Env.takeByte, h]

theorem sendWords_rx {rest : List Byte} : ∀ (ws : List Word) (rx : List Byte) (s : State), rx.length = 2 * ws.length →
    s.env.rxBytes = rx ++ rest → sendWords ws s =
    { s with idx := s.idx + ws.length, trace := s.trace ++ xferEvents (pack ws) rx, env := { s.env with rxBytes := rest } } := by
  intro ws
  induction ws with
  | nil =>
    intro rx s hl h
    obtain rfl : rx = [] := by simpa using hl
    have h' : s.env.rxBytes = rest := h
    subst h'
    ext1 <;> simp [sendWords, pack, xferEvents]
  | cons w ws ih =>
    intro rx s hl h
    match rx, hl, h with
    | b0 :: b1 :: rx, hl, h =>
      have hl' : rx.length = 2 * ws.length := by simp at hl; omega
      have hs := sendWord_rx (w := w) (s := s) (b0 := b0) (b1 := b1) (rest := rx ++ rest) h
      rw [sendWords, ih rx _ hl' (by rw [hs]; rfl), hs]
      ext1 <;> simp [pack, xferEvents]
      omega
    | [_], hl, h => simp at hl; omega
    | [], hl, h => simp at hl

theorem recvWord_rx {s : State} {b0 b1 : Byte} {rest : List Byte} (h : s.env.rxBytes = b0 :: b1 :: rest) :
    recvWord s = { s with rxh := b0, idx := s.idx + 1, res := s.res ++ [word b0 b1], trace := s.trace ++ xferEvents [0x00#8, 0x00#8] [b0, b1], env := { s.env with rxBytes := rest } } := by
  ext1 <;> simp [recvWord, State.evXfer, State.emit, State.latch, xferEvents, Env.takeByte, h]

theorem recvWords_rx {rest : List Byte} : ∀ (k : Nat) (rx : List Byte) (s : State), rx.length = 2 * k →
    s.env.rxBytes = rx ++ rest → recvWords k s =
    { s with rxh := if k = 0 then s.rxh else (rx[2 * k - 2]?).getD 0, idx := s.idx + k, res := s.res ++ unpack rx, trace := s.trace ++ xferEvents (List.replicate (2 * k) 0x00#8) rx, env := { s.env with rxBytes := rest } } := by
  intro k
  induction k with
  | zero =>
    intro rx s hl h
    obtain rfl : rx = [] := by simpa using hl
    have h' : s.env.rxBytes = rest := h
    subst h'
    ext1 <;> simp [recvWords, unpack, xferEvents]
  | succ k ih =>
    intro rx s hl h
    match rx, hl, h with
    | b0 :: b1 :: rx, hl, h =>
      have hl' : rx.length = 2 * k := by simp at hl; omega
      have hs := recvWord_rx (s := s) (b0 := b0) (b1 := b1) (rest := rx ++ rest) h
      rw [recvWords, ih rx _ hl' (by rw [hs]), hs]
      have hx : (if k = 0 then b0 else (rx[2 * k - 2]?).getD 0#8) = ((b0 :: b1 :: rx)[2 * k]?).getD 0#8 := by
        cases k with
        | zero => rfl
        | succ j => rfl
      ext1 <;> simp [unpack, xferEvents, show 2 * (k + 1) = 2 * k + 1 + 1 by omega, List.replicate_succ, hx]
      omega
    | [_], hl, h => simp at hl; omega
    | [], hl, h => simp at hl

end Sys2Proof.Machine
end

