-- ==== Sys2Proof/Laws/Session.lean ====
section
/-!
SUPPORT. A transfer session: the pseudocode against the rows of 41_transport_transfers.md R144.
-/

namespace Sys2Proof.Machine

/-- The state in which the sessions of `i` run: busy, `i` in flight, its session `ses` in flight. -/
structure Running (i : Instr) (ses : Session) (s : State) : Prop where
  isOp : i.isOperation = true
  busy : s.busy = true
  op : s.op = some i
  session : sessionInFlight i s = some ses

theorem Running.exec_eq {i : Instr} {ses : Session} {s : State} (h : Running i ses s) (hd : s.ph ≠ .done) :
    exec i s = sessionRow ses s := by rw [exec_busy h.isOp h.busy h.op, rowOf_session h.session hd]

theorem sessionInFlight_congr {i : Instr} {s t : State} (h : t.sub = s.sub) :
    sessionInFlight i t = sessionInFlight i s := by simp [sessionInFlight, h]

theorem Running.of {i : Instr} {ses : Session} {s t : State} (h : Running i ses s) (hb : t.busy = s.busy)
    (ho : t.op = s.op) (hs : t.sub = s.sub) : Running i ses t :=
  ⟨h.isOp, hb.trans h.busy, ho.trans h.op, (sessionInFlight_congr hs).trans h.session⟩

theorem Running.control {i : Instr} {ses : Session} {s t : State} (h : Running i ses s) (c : SameControl s t) :
    Running i ses t := h.of c.busy c.op c.sub

theorem Running.goto {i : Instr} {ses : Session} {s : State} (h : Running i ses s) (p : Phase) :
    Running i ses (s.goto p) := h.of rfl rfl rfl

/-- One row of a running session. -/
theorem Running.row {i : Instr} {ses : Session} {s t : State} (h : Running i ses s) (hd : s.ph ≠ .done)
    (hr : sessionRow ses s = .next t) (hb : t.busy = true) : GoesIn i 1 s t :=
  GoesIn.step ((h.exec_eq hd).trans hr) hb

@[simp] theorem afterSecondWait_busy (ses : Session) (s : State) : (afterSecondWait ses s).busy = s.busy := by
  cases ses <;> rfl

theorem afterSecondWait_goto (ses : Session) (p : Phase) (s : State) :
    afterSecondWait ses (s.goto p) = afterSecondWait ses s := by
  cases ses <;> rfl

/-- The wait of phase `p` in a running session. -/
theorem Running.wait {i : Instr} {ses : Session} {s : State} {y : Pin} {onReady onLimit : State → State}
    (h : Running i ses s) (hy : s.la.ready = some y) (p : Phase) (hp : p ≠ .done)
    (hr : ∀ t : State, t.ph = p → sessionRow ses t = waitRow onReady onLimit t)
    (readyBusy : ∀ t : State, (onReady t).busy = t.busy) (limitBusy : ∀ t : State, (onLimit t).busy = t.busy)
    (readyPh : ∀ t : State, onReady (t.goto p) = onReady t) (limitPh : ∀ t : State, onLimit (t.goto p) = onLimit t)
    (fuel : Nat) :
    match waitReadyProc fuel y s with
    | .went t => ∃ k, GoesIn i k (s.startWait.goto p) (onReady t)
    | .raised k' info t => k' = .deviceNotRespondingError ∧ info = 0 ∧ ∃ k, GoesIn i k (s.startWait.goto p) (onLimit t)
    | .outOfFuel t => ∃ k, fuel ≤ k ∧ GoesIn i k (s.startWait.goto p) (t.goto p) := by
  have hw : Running i ses (s.startWait.goto p) := h.of rfl rfl rfl
  have := wait_goes (i := i) (y := y) readyBusy limitBusy fuel (s.startWait.goto p)
    (fun t c => by
      have hp' : t.ph = p := c.ph
      rw [(hw.control c).exec_eq (by rw [hp']; exact hp), hr t hp']) hw.busy hy
  rw [waitLoop_goto] at this
  rw [waitReadyProc]
  revert this
  cases waitLoop fuel y s.startWait with
  | went t => simp only [Ran.map, readyPh]; exact id
  | raised e info t => simp only [Ran.map, limitPh]; exact id
  | outOfFuel t => simp only [Ran.map]; exact id

/-- sendWord of the preamble: S_PRE_H, S_PRE_L. -/
theorem Running.preamble {i : Instr} {ses : Session} {s : State} (h : Running i ses s) :
    GoesIn i (1 + 1) (s.goto .preH) ((sendWord s.pre s).startWait.goto .rdy2) := by
  exact ((h.goto .preH).row (t := (s.evXfer (hi s.pre)).2.goto .preL) (by simp) rfl h.busy).trans
    (Running.row (ses := ses) (h.of (by simp) (by simp) (by simp)) (by simp) rfl h.busy)

/-- The two dummy bytes: S_DMY_0, S_DMY_1. -/
theorem Running.dummies {i : Instr} {ses : Session} {s : State} (h : Running i ses s) :
    GoesIn i (1 + 1) (s.goto .dmy0) ((sendWord 0x0000#16 s).startWait.goto .rdy3) := by
  exact ((h.goto .dmy0).row (t := (s.evXfer 0x00#8).2.goto .dmy1) (by simp) rfl h.busy).trans
    (Running.row (ses := ses) (h.of (by simp) (by simp) (by simp)) (by simp) rfl h.busy)

/-- The deassertion at the end of a session. -/
theorem Running.deassert {i : Instr} {ses : Session} {s : State} {c : Pin} (h : Running i ses s)
    (hc : s.la.chipSelect = some c) : GoesIn i 1 (s.goto .csD) ((s.csDeassert c).finish .ok 0) := by
  refine (h.goto .csD).row (by simp) ?_ h.busy
  show withPin (s.la.chipSelect) _ = _
  rw [hc]; rfl

theorem Running.abort {i : Instr} {ses : Session} {s : State} {c : Pin} (h : Running i ses s)
    (hc : s.la.chipSelect = some c) :
    GoesIn i 1 (s.goto .abort) ((s.csDeassert c).finish .deviceNotRespondingError 0) := by
  refine (h.goto .abort).row (by simp) ?_ h.busy
  show withPin (s.la.chipSelect) _ = _
  rw [hc]; rfl


theorem recvWords_control : ∀ (k : Nat) (s : State), SameControl s (recvWords k s) := by
  intro k
  induction k with
  | zero => intro s; exact SameControl.refl s
  | succ k ih =>
    intro s
    have h : SameControl s (recvWord s) := by constructor <;> simp
    exact h.trans (ih (recvWord s))

theorem sendWords_control : ∀ (ws : List Word) (s : State), SameControl s (sendWords ws s) := by
  intro ws
  induction ws with
  | nil => intro s; exact SameControl.refl s
  | cons w ws ih =>
    intro s
    have h : SameControl s (sendWord w s).nextIdx := by constructor <;> simp
    exact h.trans (ih (sendWord w s).nextIdx)

theorem readLow_readHigh (s : State) : readLow (readHigh (s.goto .rdH))
    = (recvWord s).goto (if s.idx + 1 < s.n then .rdH else .csD) := by
  simp [readLow, readHigh, recvWord]; rfl

theorem writeLow_writeHigh (w : Word) (s : State) : writeLow w (writeHigh w (s.goto .wrH))
    = (sendWord w s).nextIdx.goto (if s.idx + 1 < s.n then .wrH else .csD) := by
  simp [writeLow, writeHigh, sendWord]; rfl

@[simp] theorem readHigh_busy (s : State) : (readHigh s).busy = s.busy := rfl
@[simp] theorem readHigh_op (s : State) : (readHigh s).op = s.op := rfl
@[simp] theorem readHigh_sub (s : State) : (readHigh s).sub = s.sub := rfl
@[simp] theorem readHigh_ph (s : State) : (readHigh s).ph = .rdL := rfl
@[simp] theorem writeHigh_busy (w : Word) (s : State) : (writeHigh w s).busy = s.busy := rfl
@[simp] theorem writeHigh_op (w : Word) (s : State) : (writeHigh w s).op = s.op := rfl
@[simp] theorem writeHigh_sub (w : Word) (s : State) : (writeHigh w s).sub = s.sub := rfl
@[simp] theorem writeHigh_ph (w : Word) (s : State) : (writeHigh w s).ph = .wrL := rfl
@[simp] theorem writeHigh_idx (w : Word) (s : State) : (writeHigh w s).idx = s.idx := rfl

/-- The word loop of a read. -/
theorem Running.reads {i : Instr} {ses : Session} : ∀ (k : Nat) (s : State), Running i ses s → s.idx + k = s.n →
    GoesIn i (2 * k) (s.goto (if 0 < k then .rdH else .csD)) ((recvWords k s).goto .csD) := by
  intro k
  induction k with
  | zero => intro s _ _; exact GoesIn.refl i _
  | succ k ih =>
    intro s h hk
    have h1 : GoesIn i 1 (s.goto .rdH) (readHigh (s.goto .rdH)) := (h.goto .rdH).row (by simp) rfl h.busy
    have hlt : (s.idx + 1 < s.n) = (0 < k) := by apply propext; omega
    have h2 : GoesIn i 1 (readHigh (s.goto .rdH)) ((recvWord s).goto (if 0 < k then .rdH else .csD)) := by
      refine Running.row (ses := ses) (h.of (by simp) (by simp) (by simp)) (by simp) ?_ (by simpa using h.busy)
      simp only [sessionRow, readHigh_ph, readLow_readHigh, hlt]
    have := (h1.trans h2).trans (ih (recvWord s) (h.of (by simp) (by simp) (by simp)) (by rw [recvWord_idx, recvWord_n]; omega))
    rw [show 1 + 1 + 2 * k = 2 * (k + 1) by omega] at this
    simpa [recvWords] using this

/-- The word loop of a write: what is left to send are the words from IDX on. -/
theorem Running.writes {i : Instr} {p : Word} {ws : List Word} : ∀ (rest : List Word) (s : State),
    Running i (.write p ws) s → s.n = ws.length → ws.drop s.idx = rest →
    GoesIn i (2 * rest.length) (s.goto (if 0 < rest.length then .wrH else .csD)) ((sendWords rest s).goto .csD) := by
  intro rest
  induction rest with
  | nil => intro s _ _ _; exact GoesIn.refl i _
  | cons w rest ih =>
    intro s h hn hd
    have hlt : s.idx < ws.length := by
      by_contra hc
      rw [List.drop_eq_nil_of_le (by omega)] at hd
      cases hd
    have hw : ws[s.idx]? = some w := by
      have := congrArg List.head? hd
      simpa [List.head?_drop] using this
    have hd' : ws.drop (s.idx + 1) = rest := by
      have := congrArg List.tail hd
      simpa [List.tail_drop] using this
    have hlen : ws.length = s.idx + 1 + rest.length := by
      have := congrArg List.length hd'
      simp at this; omega
    have h1 : GoesIn i 1 (s.goto .wrH) (writeHigh w (s.goto .wrH)) := by
      refine (h.goto .wrH).row (by simp) ?_ h.busy
      show withOperand (ws[s.idx]?) _ = _
      rw [hw]; rfl
    have hlt' : (s.idx + 1 < s.n) = (0 < rest.length) := by apply propext; omega
    have h2 : GoesIn i 1 (writeHigh w (s.goto .wrH))
        (State.goto (if 0 < rest.length then .wrH else .csD) (sendWord w s).nextIdx) := by
      refine Running.row (ses := .write p ws) (h.of (by simp) (by simp) (by simp)) (by simp) ?_ (by simpa using h.busy)
      simp [sessionRow, sessionWord, hw, withOperand, writeLow_writeHigh, hlt']
    have := (h1.trans h2).trans (ih (sendWord w s).nextIdx (h.of (by simp) (by simp) (by simp)) (by simpa using hn) (by simpa using hd'))
    rw [show 1 + 1 + 2 * rest.length = 2 * (rest.length + 1) by omega] at this
    simpa [sendWords] using this


/-- How the small-step form of a session ends, against its big-step form `r`; where that has not ended, the small-step form comes
to the same state in a wait phase. -/
def SessionEnds (i : Instr) (fuel : Nat) (s : State) : Ran → Prop
  | .went t => ∃ k, GoesIn i k s (t.finish .ok 0)
  | .raised e info t => ∃ k, GoesIn i k s (t.finish e info)
  | .outOfFuel t => ∃ k p, fuel ≤ k ∧ GoesIn i k s (t.goto p)

theorem SessionEnds.before {i : Instr} {fuel k : Nat} {s t : State} {r : Ran} (h : GoesIn i k s t)
    (g : SessionEnds i fuel t r) : SessionEnds i fuel s r := by
  cases r with
  | went u => exact let ⟨m, hm⟩ := g; ⟨k + m, h.trans hm⟩
  | raised e info u => exact let ⟨m, hm⟩ := g; ⟨k + m, h.trans hm⟩
  | outOfFuel u => exact let ⟨m, p, hu, hm⟩ := g; ⟨k + m, p, by omega, h.trans hm⟩

theorem payload_ends {i : Instr} {ses : Session} {s : State} {c y : Pin} (fuel : Nat) (h : Running i ses s)
    (hc : s.la.chipSelect = some c) (hy : s.la.ready = some y) (hn : s.n = sessionLength ses) :
    SessionEnds i fuel (afterSecondWait ses s) (payloadProc fuel ses c y s) := by
  cases ses with
  | bulk bs =>
    have h1 : GoesIn i 1 (s.goto .blk) ((s.emit (.xferBulk bs)).goto .csD) := by
      refine (h.goto .blk).row (by simp) ?_ (by simpa using h.busy)
      simp [sessionRow, bulkRow]
    have h2 := Running.deassert (s := s.emit (.xferBulk bs)) (h.of (by simp) (by simp) (by simp)) (by simpa using hc)
    exact ⟨_, h1.trans h2⟩
  | write p ws =>
    have hw : Running i (.write p ws) s.clearIdx := h.of (by simp) (by simp) (by simp)
    have h1 := Running.writes ws s.clearIdx hw (by simpa [sessionLength] using hn) (by simp)
    have hc' := sendWords_control ws s.clearIdx
    have h2 := Running.deassert (hw.control hc') (c := c) (by rw [hc'.la]; simpa using hc)
    have hlen : s.n = ws.length := hn
    have := h1.trans h2
    simp only [afterSecondWait, hlen]
    exact ⟨_, this⟩
  | read p count =>
    have hs : Running i (.read p count) (sendWord 0x0000#16 s) := h.of (by simp) (by simp) (by simp)
    have hwait := hs.wait (y := y) (by simpa using hy) .rdy3 (by simp) (onReady := afterThirdWait)
      (onLimit := State.raiseInSession) (fun t ht => by simp [sessionRow, ht]) (fun t => by simp [afterThirdWait])
      (fun t => by simp) (fun t => by simp [afterThirdWait]; rfl) (fun t => by simp) fuel
    have hctl := waitReadyProc_control fuel y (sendWord 0x0000#16 s)
    refine SessionEnds.before h.dummies ?_
    simp only [payloadProc]
    cases hr : waitReadyProc fuel y (sendWord 0x0000#16 s) with
    | outOfFuel t => rw [hr] at hwait; exact let ⟨k, hk⟩ := hwait; ⟨k, _, hk⟩
    | raised e info t =>
      rw [hr] at hwait hctl
      obtain ⟨rfl, rfl, k, hk⟩ := hwait
      have ht := Running.abort (hs.control hctl) (c := c) (by rw [hctl.la]; simpa using hc)
      exact ⟨_, hk.trans ht⟩
    | went t =>
      rw [hr] at hwait hctl
      obtain ⟨k, hk⟩ := hwait
      have ht : Running i (.read p count) t.clearIdx.clearRes :=
        (hs.control hctl).of (by simp) (by simp) (by simp)
      have h1 := Running.reads t.n t.clearIdx.clearRes ht (by simp)
      have hc' := recvWords_control t.n t.clearIdx.clearRes
      have h2 := Running.deassert (ht.control hc') (c := c) (by rw [hc'.la]; simp [hctl.la, hc])
      exact ⟨_, hk.trans (h1.trans h2)⟩

/-- A session, small-step against big-step (41_transport_transfers.md R148). -/
theorem session_ends {i : Instr} {ses : Session} {s : State} (fuel : Nat) (h : Running i ses s)
    (hp : s.ph = .chk) : SessionEnds i fuel s (sessionProc fuel ses s) := by
  have hrow : ∀ t, checkTransfer ses s = t → t.busy = true → GoesIn i 1 s t := fun t ht hb =>
    h.row (by simp [hp]) (by simp [sessionRow, hp, ht]) hb
  rw [sessionProc]
  cases hc : s.la.chipSelect with
  | none => exact ⟨1, hrow _ (by simp [checkTransfer, hc]) (by simpa using h.busy)⟩
  | some c =>
    cases hy : s.la.ready with
    | none => exact ⟨1, hrow _ (by simp [checkTransfer, hc, hy]) (by simpa using h.busy)⟩
    | some y =>
      have hl : Running i ses (s.load ses) := h.of (by simp) (by simp) (by simp)
      refine SessionEnds.before (hrow ((s.load ses).startWait.goto .rdy1) (by simp [checkTransfer, hc, hy])
        (by simpa using h.busy)) ?_
      have hwait := hl.wait (y := y) (by simpa using hy) .rdy1 (by simp) (onReady := State.goto .csA)
        (onLimit := State.raise .deviceNotRespondingError 0) (fun t ht => by simp [sessionRow, ht]) (fun t => by simp)
        (fun t => by simp) (fun t => by simp) (fun t => by simp) fuel
      have hctl := waitReadyProc_control fuel y (s.load ses)
      dsimp only
      cases hr : waitReadyProc fuel y (s.load ses) with
      | outOfFuel t => rw [hr] at hwait; exact let ⟨k, hk⟩ := hwait; ⟨k, _, hk⟩
      | raised e info t =>
        rw [hr] at hwait
        obtain ⟨rfl, rfl, k, hk⟩ := hwait
        exact ⟨k, hk⟩
      | went t =>
        have hn1 := waitReadyProc_n fuel y (s.load ses)
        rw [hr] at hwait hctl hn1
        obtain ⟨k, hk⟩ := hwait
        have ht : Running i ses t := hl.control hctl
        have htc : t.la.chipSelect = some c := by rw [hctl.la]; simpa using hc
        have hty : t.la.ready = some y := by rw [hctl.la]; simpa using hy
        have h1 : GoesIn i 1 (t.goto .csA) ((t.csAssert c).goto .preH) :=
          (ht.goto .csA).row (by simp) (by simp [sessionRow, htc, withPin]) (by simpa using ht.busy)
        have hta : Running i ses (t.csAssert c) := ht.of (by simp) (by simp) (by simp)
        have h2 := hta.preamble
        refine SessionEnds.before (hk.trans (h1.trans h2)) ?_
        simp only [Ran.andThen, State.csAssert_pre]
        have hs : Running i ses (sendWord t.pre (t.csAssert c)) := hta.of (by simp) (by simp) (by simp)
        have hwait := hs.wait (y := y) (by simpa using hty) .rdy2 (by simp) (onReady := afterSecondWait ses)
          (onLimit := State.raiseInSession) (fun t ht => by simp [sessionRow, ht]) (fun t => by simp)
          (fun t => by simp) (fun t => afterSecondWait_goto ses .rdy2 t) (fun t => by simp) fuel
        have hctl2 := waitReadyProc_control fuel y (sendWord t.pre (t.csAssert c))
        cases hr2 : waitReadyProc fuel y (sendWord t.pre (t.csAssert c)) with
        | outOfFuel t => rw [hr2] at hwait; exact let ⟨k, hk⟩ := hwait; ⟨k, _, hk⟩
        | raised e info u =>
          rw [hr2] at hwait hctl2
          obtain ⟨rfl, rfl, k, hk⟩ := hwait
          have hu := Running.abort (hs.control hctl2) (c := c) (by rw [hctl2.la]; simpa using htc)
          exact ⟨_, hk.trans hu⟩
        | went u =>
          have hn2 := waitReadyProc_n fuel y (sendWord t.pre (t.csAssert c))
          rw [hr2] at hwait hctl2 hn2
          obtain ⟨k, hk⟩ := hwait
          refine SessionEnds.before hk ?_
          change u.n = _ at hn2
          change t.n = _ at hn1
          exact payload_ends fuel (hs.control hctl2) (by rw [hctl2.la]; simpa using htc)
            (by rw [hctl2.la]; simpa using hty) (by rw [hn2]; simpa using hn1)

theorem sessionProc_control (fuel : Nat) (ses : Session) (s : State) :
    (sessionProc fuel ses s).Post (SameControl s) := by
  have step : ∀ {t u : State}, SameControl s t → u.cfg = t.cfg → u.status = t.status → u.la = t.la → u.busy = t.busy →
      u.op = t.op → u.sub = t.sub → u.ph = t.ph → u.doneCode = t.doneCode → u.doneInfo = t.doneInfo → SameControl s u :=
    fun h a b c d e f g x y => h.trans ⟨a, b, c, d, e, f, g, x, y⟩
  have wait : ∀ {t : State} (y : Pin), SameControl s t → (waitReadyProc fuel y t).Post (SameControl s) := fun y h =>
    waitReadyProc_post (fun t h => h.trans (SameControl.readPin t y)) (fun t h => h.trans (SameControl.countPoll t)) fuel
      (step h rfl rfl rfl rfl rfl rfl rfl rfl rfl)
  rw [sessionProc]
  cases s.la.chipSelect with
  | none => exact SameControl.refl s
  | some c =>
    cases s.la.ready with
    | none => exact SameControl.refl s
    | some y =>
      have hd : ∀ t, SameControl s t → SameControl s (t.csDeassert c) := fun t h =>
        step h rfl rfl rfl rfl rfl rfl rfl rfl rfl
      refine Ran.Post.andThen (wait y ⟨rfl, rfl, rfl, rfl, rfl, rfl, rfl, rfl, rfl⟩) fun t ht => ?_
      refine Ran.Post.andThen (Ran.Post.closing c (wait y (step ht ?_ ?_ ?_ ?_ ?_ ?_ ?_ ?_ ?_)) hd) fun u hu => ?_
      iterate 9 simp
      cases ses with
      | bulk bs => exact hd _ (step hu rfl rfl rfl rfl rfl rfl rfl rfl rfl)
      | write p ws => 
        have h1 : SameControl s u.clearIdx := step hu rfl rfl rfl rfl rfl rfl rfl rfl rfl
        exact hd _ (h1.trans (sendWords_control ws u.clearIdx))
      | read p count =>
        refine Ran.Post.andThen (Ran.Post.closing c (wait y (step hu ?_ ?_ ?_ ?_ ?_ ?_ ?_ ?_ ?_)) hd) fun v hv => ?_
        iterate 9 simp
        have h1 : SameControl s v.clearIdx.clearRes := step hv rfl rfl rfl rfl rfl rfl rfl rfl rfl
        exact hd _ (h1.trans (recvWords_control v.n v.clearIdx.clearRes))

theorem sessionProc_raisesError (fuel : Nat) (ses : Session) (s : State) : (sessionProc fuel ses s).RaisesError := by
  have wait : ∀ (y : Pin) (t : State), (waitReadyProc fuel y t).RaisesError := fun y t => waitLoop_raisesError y fuel _
  rw [sessionProc]
  split
  · exact (by simp : ErrKind.configurationError ≠ .ok)
  · exact (by simp : ErrKind.configurationError ≠ .ok)
  · refine Ran.RaisesError.andThen (wait _ _) fun t => Ran.RaisesError.andThen (Ran.RaisesError.closing _ (wait _ _)) fun u => ?_
    cases ses with
    | bulk bs => trivial
    | write p ws => trivial
    | read p count => exact Ran.RaisesError.andThen (Ran.RaisesError.closing _ (wait _ _)) fun v => trivial

end Sys2Proof.Machine
end

