-- ==== Sys2Proof/Laws/Frames.lean ====
section
/-!
SUPPORT. What a whole session does to the state: the frames of 30_encoding.md R78 to R81, for any answers of the environment and
with the answers given; and how a session fails (41_transport_transfers.md R147).
-/

namespace Sys2Proof.Machine

/-! ### Sessions -/

theorem waitReadyProc_went {y : Pin} {fuel : Nat} {s t : State} (h : waitReadyProc fuel y s = .went t) :
    ∃ a, t = { s with polls := a, trace := s.trace ++ waitEvents y a, env := t.env } ∧
      (s.cfg.InRange → withinLimit s.cfg a) := by
  obtain ⟨a, ha, hl⟩ := waitLoop_went fuel h
  have hp : s.startWait.polls = 0 := rfl
  rw [hp, Nat.zero_add] at ha
  refine ⟨a, by rw [ha]; ext1 <;> simp, fun hr limit hlimit => ?_⟩
  have := hl limit hlimit
  have h0 : limit ≠ 0 := fun h0 => hr (by rw [hlimit, h0])
  rw [hp] at this; omega

theorem waitReadyProc_raised {y : Pin} {fuel : Nat} {s t : State} {e : ErrKind} {info : Nat}
    (h : waitReadyProc fuel y s = .raised e info t) : e = .deviceNotRespondingError ∧ info = 0 ∧
      ∃ limit m, s.cfg.readyPollLimit = some limit ∧ (s.cfg.InRange → m = limit) ∧
        t = { s with polls := m, trace := s.trace ++ List.replicate m (.readPin y .low), env := t.env } := by
  obtain ⟨h1, h2, limit, m, hl, hle, hlt, ht⟩ := waitLoop_raised fuel h
  have hp : s.startWait.polls = 0 := rfl
  rw [hp, Nat.zero_add] at ht hle hlt
  refine ⟨h1, h2, limit, m + 1, hl, fun hr => ?_, by rw [ht]; ext1 <;> simp⟩
  have hl' : s.cfg.readyPollLimit = some limit := hl
  have h0 : limit ≠ 0 := fun h0 => hr (by rw [hl', h0])
  omega

theorem waitReadyProc_answers {y : Pin} {fuel a : Nat} {s : State} {rest : List Level} (hf : a < fuel)
    (he : s.env.readyLevels = waitAnswers a ++ rest) (hl : withinLimit s.cfg a) :
    waitReadyProc fuel y s = .went { s with polls := a, trace := s.trace ++ waitEvents y a, env := { s.env with readyLevels := rest } } := by
  rw [waitReadyProc, waitLoop_answers a fuel s.startWait hf (rest := rest) he (fun limit h => by
    have := hl limit h
    have hp : s.startWait.polls = 0 := rfl
    rw [hp]; omega)]
  congr 1
  ext1 <;> simp

theorem waitReadyProc_gives_up {y : Pin} {fuel m : Nat} {s : State} {rest : List Level} (hf : m + 1 ≤ fuel)
    (he : s.env.readyLevels = List.replicate (m + 1) .low ++ rest) (hl : s.cfg.readyPollLimit = some (m + 1)) :
    waitReadyProc fuel y s = .raised .deviceNotRespondingError 0 { s with polls := m + 1, trace := s.trace ++ List.replicate (m + 1) (.readPin y .low), env := { s.env with readyLevels := rest } } := by
  have hp : s.startWait.polls = 0 := rfl
  rw [waitReadyProc, waitLoop_gives_up m fuel s.startWait hf (rest := rest) he hl (by rw [hp]; omega)]
  congr 1

/-- The head of a session: the first wait, the assertion, the preamble, the second wait. -/
theorem Ran.andThen_went {r : Ran} {q : State → Ran} {t : State} (h : r.andThen q = .went t) :
    ∃ s, r = .went s ∧ q s = .went t := by
  cases r with
  | went s => exact ⟨s, rfl, h⟩
  | raised e info s => cases h
  | outOfFuel s => cases h

theorem Ran.closing_went {r : Ran} {c : Pin} {t : State} (h : r.closing c = .went t) : r = .went t := by
  cases r <;> first | exact h | cases h

/-- The state of a session between its second wait and its payload. -/
def headState (ses : Session) (c y : Pin) (a b : Nat) (rx : List Byte) (e : Env) (s : State) : State :=
  { s with
    csOut := some .asserted
    pre := sessionPreamble ses
    n := sessionLength ses
    polls := b
    trace := s.trace ++ frameHead s.cfg c y (sessionPreamble ses) a b rx
    env := e }

/-- A session that ends normally. -/
theorem session_went {fuel : Nat} {ses : Session} {s t : State} (h : sessionProc fuel ses s = .went t) :
    ∃ c y a b rx u, s.la.chipSelect = some c ∧ s.la.ready = some y ∧ rx.length = 2 ∧
      (s.cfg.InRange → withinLimit s.cfg a) ∧ (s.cfg.InRange → withinLimit s.cfg b) ∧
      u = headState ses c y a b rx u.env s ∧ payloadProc fuel ses c y u = .went t := by
  rw [sessionProc] at h
  cases hc : s.la.chipSelect with
  | none => simp [hc] at h
  | some c =>
    cases hy : s.la.ready with
    | none => simp [hc, hy] at h
    | some y =>
      simp only [hc, hy] at h
      obtain ⟨v, hv, h⟩ := Ran.andThen_went h
      obtain ⟨u, hu, h⟩ := Ran.andThen_went h
      obtain ⟨a, ha, hla⟩ := waitReadyProc_went hv
      obtain ⟨b, hb, hlb⟩ := waitReadyProc_went (Ran.closing_went hu)
      obtain ⟨b0, b1, hw⟩ := sendWord_eq v.pre (v.csAssert c)
      refine ⟨c, y, a, b, [b0, b1], u, rfl, rfl, rfl, hla, ?_, ?_, h⟩
      · rw [ha] at hlb; simpa using hlb
      · have hpre : v.pre = sessionPreamble ses := by rw [ha]; rfl
        have htr : (sendWord v.pre (v.csAssert c)).trace = v.trace ++ [assertEvent s.cfg c] ++ xferEvents [hi (sessionPreamble ses), lo (sessionPreamble ses)] [b0, b1] := by
          rw [hw, hpre]; simp [State.csAssert, State.emit, assertEvent]
          rw [ha]; simp
        rw [hb]
        ext1 <;> simp [headState, htr]
        all_goals rw [ha]
        all_goals simp [frameHead]

/-- A write session. -/
theorem write_session_went {fuel : Nat} {p : Word} {ws : List Word} {s t : State}
    (h : sessionProc fuel (.write p ws) s = .went t) :
    ∃ c y a b rx, s.la.chipSelect = some c ∧ s.la.ready = some y ∧ rx.length = 2 + 2 * ws.length ∧
      (s.cfg.InRange → withinLimit s.cfg a) ∧ (s.cfg.InRange → withinLimit s.cfg b) ∧
      t = { s with csOut := some .deasserted, pre := p, n := ws.length, idx := ws.length, polls := b, trace := s.trace ++ writeFrame s.cfg c y p ws a b rx, env := t.env } := by
  obtain ⟨c, y, a, b, rx, u, hc, hy, hrx, ha, hb, hu, h⟩ := session_went h
  obtain ⟨rx', hlen, hs⟩ := sendWords_eq ws u.clearIdx
  refine ⟨c, y, a, b, rx ++ rx', hc, hy, by simp [hrx, hlen], ha, hb, ?_⟩
  match rx, hrx with
  | [b0, b1], _ =>
    injection h with h
    rw [← h]
    have htr : (sendWords ws u.clearIdx).trace = s.trace ++ frameHead s.cfg c y p a b [b0, b1] ++ xferEvents (pack ws) rx' := by
      rw [hs]; rw [hu]; rfl
    ext1 <;> simp [State.csDeassert, State.emit, htr, writeFrame, deassertEvent]
    all_goals (try rw [hs]; simp)
    all_goals (try rw [hu]; simp [headState, sessionPreamble, sessionLength])
    simp [frameHead, xferEvents]

/-- A bulk session. -/
theorem bulk_session_went {fuel : Nat} {bs : List Byte} {s t : State}
    (h : sessionProc fuel (.bulk bs) s = .went t) :
    ∃ c y a b rx, s.la.chipSelect = some c ∧ s.la.ready = some y ∧ rx.length = 2 ∧
      (s.cfg.InRange → withinLimit s.cfg a) ∧ (s.cfg.InRange → withinLimit s.cfg b) ∧
      t = { s with csOut := some .deasserted, pre := preDataWrite, n := bs.length, polls := b, trace := s.trace ++ bulkFrame s.cfg c y bs a b rx, env := t.env } := by
  obtain ⟨c, y, a, b, rx, u, hc, hy, hrx, ha, hb, hu, h⟩ := session_went h
  refine ⟨c, y, a, b, rx, hc, hy, hrx, ha, hb, ?_⟩
  injection h with h
  rw [← h]
  have htr : u.trace = s.trace ++ frameHead s.cfg c y preDataWrite a b rx := by rw [hu]; rfl
  ext1 <;> simp [State.csDeassert, State.emit, htr, bulkFrame, deassertEvent]
  all_goals (try rw [hu]; simp [headState, sessionPreamble, sessionLength])

/-- A read session. -/
theorem read_session_went {fuel : Nat} {p : Word} {count : Nat} {s t : State}
    (h : sessionProc fuel (.read p count) s = .went t) :
    ∃ c y a b d rx, s.la.chipSelect = some c ∧ s.la.ready = some y ∧ rx.length = 4 + 2 * count ∧
      (s.cfg.InRange → withinLimit s.cfg a) ∧ (s.cfg.InRange → withinLimit s.cfg b) ∧ (s.cfg.InRange → withinLimit s.cfg d) ∧
      t = { s with csOut := some .deasserted, pre := p, n := count, idx := count, polls := d, rxh := t.rxh, res := unpack (rx.drop 4), trace := s.trace ++ readFrame s.cfg c y p count a b d rx, env := t.env } := by
  obtain ⟨c, y, a, b, rx, u, hc, hy, hrx, ha, hb, hu, h⟩ := session_went h
  simp only [payloadProc] at h
  obtain ⟨v, hv, h⟩ := Ran.andThen_went h
  obtain ⟨d, hd, hld⟩ := waitReadyProc_went (Ran.closing_went hv)
  obtain ⟨d0, d1, hw⟩ := sendWord_eq 0x0000#16 u
  obtain ⟨rx', hlen, hs⟩ := recvWords_eq v.n v.clearIdx.clearRes
  have hvn : v.n = count := by rw [hd]; simp; rw [hu]; rfl
  match rx, hrx with
  | [b0, b1], _ =>
    refine ⟨c, y, a, b, d, [b0, b1, d0, d1] ++ rx', hc, hy, by simp [hlen, hvn]; omega, ha, hb, ?_, ?_⟩
    · rw [hu] at hld; simpa [headState] using hld
    · injection h with h
      have htr : (recvWords v.n v.clearIdx.clearRes).trace = s.trace ++ frameHead s.cfg c y p a b [b0, b1] ++ xferEvents [0x00#8, 0x00#8] [d0, d1] ++ waitEvents y d ++ xferEvents (List.replicate (2 * count) 0x00#8) rx' := by
        rw [hs, hvn]; simp only [State.clearRes_trace, State.clearIdx_trace]
        rw [hd]; simp only []
        rw [hw]; simp only []
        rw [hu]; rfl
      rw [hvn] at htr h hs
      have keep : ∀ {α : Type} (f : State → α), (∀ x : State, f (x.csDeassert c) = f x) →
          (f (recvWords count v.clearIdx.clearRes) = f v) → (f v = f u) → (f u = f s) → f t = f s := by
        intro α f h1 h2 h3 h4
        rw [← h, h1, h2, h3, h4]
      have hcfg : (recvWords count v.clearIdx.clearRes).cfg = s.cfg := by
        rw [hs]; simp; rw [hd]; simp; rw [hu]; rfl
      rw [← h]
      ext1 <;> simp [State.csDeassert, State.emit, htr, readFrame, deassertEvent, hcfg]
      all_goals (try (rw [hs]; simp))
      all_goals first | (rw [hd]; done) | (rw [hd]; simp) | skip
      all_goals (try (rw [hu]; simp [headState, sessionPreamble, sessionLength]))
      simp [frameHead, xferEvents]

/-- A session whose answers are given, up to its payload. -/
theorem session_answers {fuel a b : Nat} {ses : Session} {s : State} {c y : Pin} {b0 b1 : Byte} {levels : List Level}
    {bytes : List Byte} (hc : s.la.chipSelect = some c) (hy : s.la.ready = some y) (ha : withinLimit s.cfg a)
    (hb : withinLimit s.cfg b) (hfa : a < fuel) (hfb : b < fuel)
    (hl : s.env.readyLevels = waitAnswers a ++ (waitAnswers b ++ levels)) (hx : s.env.rxBytes = b0 :: b1 :: bytes) :
    sessionProc fuel ses s = payloadProc fuel ses c y
      (headState ses c y a b [b0, b1] { s.env with readyLevels := levels, rxBytes := bytes } s) := by
  rw [sessionProc]
  simp only [hc, hy]
  rw [waitReadyProc_answers (s := s.load ses) (rest := waitAnswers b ++ levels) hfa hl ha, Ran.andThen]
  simp only []
  rw [sendWord_rx (b0 := b0) (b1 := b1) (rest := bytes) (by simpa using hx),
    waitReadyProc_answers (rest := levels) hfb (by simp) (by simpa using hb), Ran.closing, Ran.andThen]
  congr 1
  ext1 <;> simp [headState, State.csAssert, State.emit, frameHead, assertEvent]

theorem write_session_answers {fuel a b : Nat} {p : Word} {ws : List Word} {s : State} {c y : Pin} {levels : List Level}
    {rx bytes : List Byte} (hc : s.la.chipSelect = some c) (hy : s.la.ready = some y) (ha : withinLimit s.cfg a)
    (hb : withinLimit s.cfg b) (hfa : a < fuel) (hfb : b < fuel) (hrx : rx.length = 2 + 2 * ws.length)
    (hl : s.env.readyLevels = waitAnswers a ++ (waitAnswers b ++ levels)) (hx : s.env.rxBytes = rx ++ bytes) :
    sessionProc fuel (.write p ws) s = .went { s with csOut := some .deasserted, pre := p, n := ws.length, idx := ws.length, polls := b, trace := s.trace ++ writeFrame s.cfg c y p ws a b rx, env := { s.env with readyLevels := levels, rxBytes := bytes } } := by
  match rx, hrx with
  | b0 :: b1 :: rx, hrx =>
    have hrx' : rx.length = 2 * ws.length := by simp at hrx; omega
    rw [session_answers hc hy ha hb hfa hfb hl (b0 := b0) (b1 := b1) (bytes := rx ++ bytes) hx, payloadProc,
      sendWords_rx ws rx _ hrx' (rest := bytes) rfl]
    congr 1
    ext1 <;> simp [State.csDeassert, State.emit, writeFrame, deassertEvent, headState, sessionPreamble, sessionLength, frameHead, xferEvents]
  | [_], hrx => simp at hrx; omega
  | [], hrx => simp at hrx; omega

theorem bulk_session_answers {fuel a b : Nat} {bs : List Byte} {s : State} {c y : Pin} {levels : List Level}
    {rx bytes : List Byte} (hc : s.la.chipSelect = some c) (hy : s.la.ready = some y) (ha : withinLimit s.cfg a)
    (hb : withinLimit s.cfg b) (hfa : a < fuel) (hfb : b < fuel) (hrx : rx.length = 2)
    (hl : s.env.readyLevels = waitAnswers a ++ (waitAnswers b ++ levels)) (hx : s.env.rxBytes = rx ++ bytes) :
    sessionProc fuel (.bulk bs) s = .went { s with csOut := some .deasserted, pre := preDataWrite, n := bs.length, polls := b, trace := s.trace ++ bulkFrame s.cfg c y bs a b rx, env := { s.env with readyLevels := levels, rxBytes := bytes } } := by
  match rx, hrx with
  | [b0, b1], _ =>
    rw [session_answers hc hy ha hb hfa hfb hl (b0 := b0) (b1 := b1) (bytes := bytes) hx, payloadProc]
    congr 1
    ext1 <;> simp [State.csDeassert, State.emit, bulkFrame, deassertEvent, headState, sessionPreamble, sessionLength]

theorem read_session_answers {fuel a b d : Nat} {p : Word} {count : Nat} {s : State} {c y : Pin} {levels : List Level}
    {rx bytes : List Byte} (hc : s.la.chipSelect = some c) (hy : s.la.ready = some y) (ha : withinLimit s.cfg a)
    (hb : withinLimit s.cfg b) (hd : withinLimit s.cfg d) (hfa : a < fuel) (hfb : b < fuel) (hfd : d < fuel)
    (hrx : rx.length = 4 + 2 * count)
    (hl : s.env.readyLevels = waitAnswers a ++ (waitAnswers b ++ (waitAnswers d ++ levels)))
    (hx : s.env.rxBytes = rx ++ bytes) :
    sessionProc fuel (.read p count) s = .went { s with csOut := some .deasserted, pre := p, n := count, idx := count, polls := d, rxh := if count = 0 then s.rxh else (rx[2 * count + 2]?).getD 0, res := unpack (rx.drop 4), trace := s.trace ++ readFrame s.cfg c y p count a b d rx, env := { s.env with readyLevels := levels, rxBytes := bytes } } := by
  match rx, hrx with
  | b0 :: b1 :: d0 :: d1 :: rx, hrx =>
    have hrx' : rx.length = 2 * count := by simp at hrx; omega
    rw [session_answers hc hy ha hb hfa hfb hl (b0 := b0) (b1 := b1) (bytes := d0 :: d1 :: (rx ++ bytes)) hx, payloadProc,
      sendWord_rx (b0 := d0) (b1 := d1) (rest := rx ++ bytes) rfl,
      waitReadyProc_answers (rest := levels) hfd rfl (by simpa [headState] using hd), Ran.closing, Ran.andThen]
    simp only []
    show Ran.went ((recvWords count _).csDeassert c) = _
    rw [recvWords_rx count rx _ hrx' (rest := bytes) (by rfl)]
    congr 1
    have hidx : (if count = 0 then s.rxh else (rx[2 * count - 2]?).getD 0#8) = if count = 0 then s.rxh else ((b0 :: b1 :: d0 :: d1 :: rx)[2 * count + 2]?).getD 0#8 := by
      cases count with
      | zero => rfl
      | succ k => rfl
    ext1 <;> simp [State.csDeassert, State.emit, readFrame, deassertEvent, headState, sessionPreamble, sessionLength, frameHead, xferEvents, hidx]
  | [_], hrx => simp at hrx; omega
  | [_, _], hrx => simp at hrx; omega
  | [_, _, _], hrx => simp at hrx; omega
  | [], hrx => simp at hrx; omega

/-! ### How a session fails -/

theorem Ran.andThen_raised {r : Ran} {q : State → Ran} {e : ErrKind} {info : Nat} {t : State}
    (h : r.andThen q = .raised e info t) : r = .raised e info t ∨ ∃ s, r = .went s ∧ q s = .raised e info t := by
  cases r with
  | went s => exact .inr ⟨s, rfl, h⟩
  | raised e info s => exact .inl h
  | outOfFuel s => cases h

theorem Ran.closing_raised {r : Ran} {c : Pin} {e : ErrKind} {info : Nat} {t : State}
    (h : r.closing c = .raised e info t) : ∃ s, r = .raised e info s ∧ t = s.csDeassert c := by
  cases r with
  | went s => cases h
  | raised e' info' s => injection h with h1 h2 h3; exact ⟨s, by rw [h1, h2], h3.symm⟩
  | outOfFuel s => cases h

/-- The events of a wait that gives up after `m` LOW samples. -/
def lowEvents (y : Pin) (m : Nat) : List Event := List.replicate m (.readPin y .low)

/-- A session that fails: a role is missing, or a wait gives up, in its first wait with no event after it, later with the
deassertion of chip-select. -/
theorem session_raised {fuel : Nat} {ses : Session} {s t : State} {e : ErrKind} {info : Nat}
    (h : sessionProc fuel ses s = .raised e info t) :
    (s.la.chipSelect = none ∧ e = .configurationError ∧ info = roleChipSelect ∧ t = s) ∨
    (s.la.chipSelect.isSome ∧ s.la.ready = none ∧ e = .configurationError ∧ info = roleReady ∧ t = s) ∨
    (∃ c y limit m, s.la.chipSelect = some c ∧ s.la.ready = some y ∧ e = .deviceNotRespondingError ∧ info = 0 ∧
      s.cfg.readyPollLimit = some limit ∧ (s.cfg.InRange → m = limit) ∧
      (t = { s with pre := sessionPreamble ses, n := sessionLength ses, polls := m, trace := s.trace ++ lowEvents y m, env := t.env } ∨
      (∃ a rx, rx.length = 2 ∧ t = { s with csOut := some .deasserted, pre := sessionPreamble ses, n := sessionLength ses, polls := m, trace := s.trace ++ (waitEvents y a ++ [assertEvent s.cfg c] ++ xferEvents [hi (sessionPreamble ses), lo (sessionPreamble ses)] rx ++ lowEvents y m ++ [deassertEvent s.cfg c]), env := t.env }) ∨
      (readSession ses = true ∧ ∃ a b rx, rx.length = 4 ∧ t = { s with csOut := some .deasserted, pre := sessionPreamble ses, n := sessionLength ses, polls := m, trace := s.trace ++ (frameHead s.cfg c y (sessionPreamble ses) a b rx ++ xferEvents [0x00#8, 0x00#8] (rx.drop 2) ++ lowEvents y m ++ [deassertEvent s.cfg c]), env := t.env }))) := by
  rw [sessionProc] at h
  cases hc : s.la.chipSelect with
  | none =>
    simp only [hc] at h
    injection h with h1 h2 h3
    exact .inl ⟨rfl, h1.symm, h2.symm, h3.symm⟩
  | some c =>
    cases hy : s.la.ready with
    | none =>
      simp only [hc, hy] at h
      injection h with h1 h2 h3
      exact .inr (.inl ⟨rfl, rfl, h1.symm, h2.symm, h3.symm⟩)
    | some y =>
      right; right
      simp only [hc, hy] at h
      rcases Ran.andThen_raised h with h | ⟨v, hv, h⟩
      · obtain ⟨h1, h2, limit, m, hl, hm, ht⟩ := waitReadyProc_raised h
        refine ⟨c, y, limit, m, rfl, rfl, h1, h2, hl, hm, .inl ?_⟩
        rw [ht]; ext1 <;> simp [lowEvents]
      · obtain ⟨a, ha, hla⟩ := waitReadyProc_went hv
        obtain ⟨b0, b1, hw⟩ := sendWord_eq v.pre (v.csAssert c)
        have hvc : v.cfg = s.cfg := by rw [ha]; rfl
        have hpre : v.pre = sessionPreamble ses := by rw [ha]; rfl
        have htr : (sendWord v.pre (v.csAssert c)).trace = s.trace ++ waitEvents y a ++ [assertEvent s.cfg c] ++ xferEvents [hi (sessionPreamble ses), lo (sessionPreamble ses)] [b0, b1] := by
          rw [hw, hpre]; simp [State.csAssert, State.emit, assertEvent]
          rw [ha]; simp
        rcases Ran.andThen_raised h with h | ⟨u, hu, h⟩
        · obtain ⟨x, hx, hxt⟩ := Ran.closing_raised h
          obtain ⟨h1, h2, limit, m, hl, hm, ht⟩ := waitReadyProc_raised hx
          refine ⟨c, y, limit, m, rfl, rfl, h1, h2, by rw [← hl]; simp [hvc], by simpa [hvc] using hm, .inr (.inl ⟨a, [b0, b1], rfl, ?_⟩)⟩
          have hxtr : x.trace = s.trace ++ waitEvents y a ++ [assertEvent s.cfg c] ++ xferEvents [hi (sessionPreamble ses), lo (sessionPreamble ses)] [b0, b1] ++ lowEvents y m := by
            rw [ht]; simp [htr, lowEvents]
          rw [hxt]
          ext1 <;> simp [State.csDeassert, State.emit, hxtr]
          all_goals first | (rw [ht]; done) | (rw [ht]; simp)
          all_goals first | (rw [ha]; done) | (rw [ha]; simp) 
          all_goals simp [deassertEvent]
        · obtain ⟨b, hb, hlb⟩ := waitReadyProc_went (Ran.closing_went hu)
          have hcu : (sendWord 0x0000#16 u).cfg = s.cfg := by simp; rw [hb]; simp [hvc]
          cases ses with
          | write p ws => cases h
          | bulk bs => cases h
          | read p count =>
            rcases Ran.andThen_raised h with h | ⟨w, hw, h⟩
            · obtain ⟨d0, d1, hd⟩ := sendWord_eq 0x0000#16 u
              obtain ⟨x, hx, hxt⟩ := Ran.closing_raised h
              obtain ⟨h1, h2, limit, m, hl, hm, ht⟩ := waitReadyProc_raised hx
              rw [hcu] at hl hm
              refine ⟨c, y, limit, m, rfl, rfl, h1, h2, hl, hm, .inr (.inr ⟨rfl, a, b, [b0, b1, d0, d1], rfl, ?_⟩)⟩
              have hxtr : x.trace = s.trace ++ frameHead s.cfg c y p a b [b0, b1] ++ xferEvents [0x00#8, 0x00#8] [d0, d1] ++ lowEvents y m := by
                rw [ht]; simp only [lowEvents]; rw [hd]; simp only []; rw [hb]; simp only [htr]
                simp [frameHead, sessionPreamble]
              have hxcfg : x.cfg = s.cfg := by rw [ht]; exact hcu
              rw [hxt]
              ext1 <;> simp [State.csDeassert, State.emit, hxtr, hxcfg]
              all_goals first | (rw [ht]; done) | (rw [ht]; simp) | skip
              all_goals first | (rw [hb]; done) | (rw [hb]; simp) | skip
              all_goals first | (rw [ha]; done) | (rw [ha]; simp) | skip
              simp [deassertEvent, frameHead, sessionPreamble, xferEvents]
            · cases h

end Sys2Proof.Machine
end

