-- ==== Sys2Proof/Laws/Step.lean ====
section
/-!
SUPPORT. What a step runs: the fetch of an idle and of a busy block, and the preamble rows at their exchange.
-/

namespace Sys2Proof.Machine

theorem transferInFlight_eq {s : State} {i : Instr} (ho : s.op = some i) : transferInFlight s = isTransfer i := by
  simp [transferInFlight, isTransfer, ho]

theorem fetch_busy {s : State} {i : Instr} (hb : s.busy = true) (ho : s.op = some i) :
    fetch s = .next (currentInstr i s, s) := by simp [fetch, hb, ho]

theorem step_busy {s : State} {i : Instr} (hb : s.busy = true) (ho : s.op = some i) :
    step s = exec (currentInstr i s) s := by simp [step, fetch_busy hb ho]

theorem step_idle {s : State} {i : Instr} {rest : List HostItem} (hb : s.busy = false)
    (hd : decodeDescriptor s.host = .ok (i, rest)) : step s = exec i { s with host := rest } := by
  simp [step, fetch, hb, hd]

theorem currentInstr_op {s : State} {i : Instr} (ho : s.op = some i)
    (h : isTransfer i = false ∨ (s.ph ≠ .preH ∧ s.ph ≠ .preL) ∨ decodePreamble s.pre = none) : currentInstr i s = i := by
  rw [currentInstr, transferInFlight_eq ho]
  rcases h with h | ⟨h1, h2⟩ | h
  · simp [h]
  · simp [h1, h2]
  · simp [h]

theorem currentInstr_preamble {s : State} {i j : Instr} (ho : s.op = some i) (ht : isTransfer i = true)
    (hp : s.ph = .preH ∨ s.ph = .preL) (hd : decodePreamble s.pre = some j) : currentInstr i s = j := by
  rw [currentInstr, transferInFlight_eq ho, ht, hd]
  rcases hp with h | h <;> simp [h]

theorem decodePreamble_cases {w : Word} {j : Instr} (h : decodePreamble w = some j) :
    (j = .preambleWriteData ∧ w = preDataWrite) ∨ (j = .preambleReadData ∧ w = preDataRead) ∨
      (j = .preambleWriteCommand ∧ w = preCommand) := by
  rw [decodePreamble] at h
  split at h
  · cases h; exact .inl ⟨rfl, ‹_›⟩
  split at h
  · cases h; exact .inr (.inl ⟨rfl, ‹_›⟩)
  split at h
  · cases h; exact .inr (.inr ⟨rfl, ‹_›⟩)
  · cases h

/-- A preamble row at its exchange. -/
theorem preambleExchange_runs {s : State} {i : Instr} (hb : s.busy = true) (ho : s.op = some i) (ht : isTransfer i = true) :
    (s.ph = .preH → preambleExchange s.pre s = .next (preambleHigh s)) ∧
    (s.ph = .preL → preambleExchange s.pre s = .next (preambleLow s)) := by
  constructor <;> intro h <;> simp [preambleExchange, hb, transferInFlight_eq ho, ht, h]

theorem exec_preamble {j : Instr} {w : Word} (h : decodePreamble w = some j) (s : State) : exec j s = preambleExchange w s := by
  rcases decodePreamble_cases h with ⟨rfl, rfl⟩ | ⟨rfl, rfl⟩ | ⟨rfl, rfl⟩ <;> rfl

/-- A session in flight exists for every operation that moves data, in a state that meets the invariant. -/
theorem Inv.session {s : State} {i : Instr} (h : Inv s) (ho : s.op = some i) (ht : isTransfer i = true) :
    s.status = .opened ∧ ∃ ses, sessionInFlight i s = some ses ∧ SessionPhase ses s := by
  have hf := h.flight i ho
  cases i <;> first | exact hf | simp [isTransfer, sessionsOf] at ht

theorem Inv.isOp {s : State} {i : Instr} (h : Inv s) (ho : s.op = some i) : i.isOperation = true := by
  have hf := h.flight i ho
  cases i <;> first | rfl | exact hf.elim

theorem Inv.busy_of_op {s : State} {i : Instr} (h : Inv s) (ho : s.op = some i) : s.busy = true := by
  cases hb : s.busy with
  | true => rfl
  | false => rw [h.op_iff.1 hb] at ho; cases ho

end Sys2Proof.Machine
end

