-- ==== Sys2Proof/Laws/Invariant.lean ====
section
/-!
SUPPORT. What one step does in a state that meets the invariant: it answers a next state that meets it again, and it performs the
event of its phase.
-/

namespace Sys2Proof.Machine

/-- What no step of a transfer changes. -/
structure SameLines (s t : State) : Prop where
  cfg : t.cfg = s.cfg
  status : t.status = s.status
  la : t.la = s.la
  rstOut : t.rstOut = s.rstOut
  pincfg : t.pincfg = s.pincfg
  spicfg : t.spicfg = s.spicfg

/-- What one row of a session does, in a state that meets the invariant. -/
structure SessionStep (i : Instr) (ses : Session) (s t : State) : Prop where
  lines : SameLines s t
  busy : t.busy = s.busy
  op : t.op = s.op
  sub : t.sub = s.sub
  ph : t.ph ≠ .idle
  cs : t.csOut = if csSpan t.ph then some .asserted else csAtRest t
  phase : SessionPhase ses t
  event : if s.ph = .chk then t.trace = s.trace else ∃ e, t.trace = s.trace ++ [e] ∧ PhaseEvent i s e

theorem loaded {ses : Session} {s t : State} (h : Loaded ses s) (h1 : t.la = s.la) (h2 : t.pre = s.pre) (h3 : t.n = s.n) :
    Loaded ses t := by simpa [Loaded, h1, h2, h3] using h

theorem csAtRest_congr {s t : State} (h1 : t.status = s.status) (h2 : t.la = s.la) : csAtRest t = csAtRest s := by
  simp [csAtRest, h1, h2]

theorem waitRow_next {onReady onLimit : State → State} {s : State} {y : Pin} (hy : s.la.ready = some y) :
    ∃ t, waitRow onReady onLimit s = .next t ∧
      (t = onReady (s.evReadPin y).2 ∨ t = onLimit (s.evReadPin y).2.countPoll ∨ t = (s.evReadPin y).2.countPoll) := by
  rw [waitRow, hy]
  simp only [withPin, waitSample]
  refine ⟨_, rfl, ?_⟩
  split
  · exact .inl rfl
  · split
    · exact .inr (.inl rfl)
    · exact .inr (.inr rfl)

theorem sessionRow_step {i : Instr} {ses : Session} {s : State} (hst : s.status = .opened)
    (hcs : s.csOut = if csSpan s.ph then some .asserted else csAtRest s)
    (hi : sessionInFlight i s = some ses) (hp : SessionPhase ses s) (hd : s.ph ≠ .done) :
    ∃ t, sessionRow ses s = .next t ∧ SessionStep i ses s t := by
  unfold SessionPhase at hp
  cases hph : s.ph <;> simp only [hph] at hp hd hcs <;> try exact hp.elim
  case done => exact absurd rfl hd
  case chk =>
    refine ⟨checkTransfer ses s, by simp [sessionRow, hph], ?_⟩
    have hr : s.csOut = csAtRest s := by simpa [csSpan] using hcs
    cases hc : s.la.chipSelect with
    | none =>
      constructor <;> try simp [checkTransfer, hc, csSpan, hph, hr, csAtRest, SessionPhase]
      all_goals first | rfl | exact SameLines.mk (by simp) (by simp) (by simp) (by simp) (by simp) (by simp)
    | some c =>
      cases hy : s.la.ready with
      | none =>
        constructor <;> try simp [checkTransfer, hc, hy, csSpan, hph, hr, csAtRest, SessionPhase]
        all_goals first | rfl | exact SameLines.mk (by simp) (by simp) (by simp) (by simp) (by simp) (by simp)
      | some y =>
        constructor <;> try simp [checkTransfer, hc, hy, csSpan, hph, hr, csAtRest, SessionPhase, Loaded]
        all_goals first | rfl | exact SameLines.mk (by simp) (by simp) (by simp) (by simp) (by simp) (by simp)
  case rdy1 =>
    obtain ⟨c, hc⟩ := Option.isSome_iff_exists.1 hp.1
    obtain ⟨y, hy⟩ := Option.isSome_iff_exists.1 hp.2.1
    have hr : s.csOut = csAtRest s := by simpa [csSpan] using hcs
    obtain ⟨t, ht, h⟩ := waitRow_next (onReady := State.goto .csA) (onLimit := State.raise .deviceNotRespondingError 0) hy
    refine ⟨t, by simpa [sessionRow, hph] using ht, ?_⟩
    rcases h with rfl | rfl | rfl
    all_goals (constructor <;> try simp [hph, csSpan, hr, csAtRest, SessionPhase, PhaseEvent, hy])
    all_goals first | rfl | exact SameLines.mk (by simp) (by simp) (by simp) (by simp) (by simp) (by simp) | exact loaded hp (by simp) (by simp) (by simp)
  case rdy2 =>
    obtain ⟨c, hc⟩ := Option.isSome_iff_exists.1 hp.1
    obtain ⟨y, hy⟩ := Option.isSome_iff_exists.1 hp.2.1
    have hr : s.csOut = some .asserted := by simpa [csSpan] using hcs
    obtain ⟨t, ht, h⟩ := waitRow_next (onReady := afterSecondWait ses) (onLimit := State.raiseInSession) hy
    refine ⟨t, by simpa [sessionRow, hph] using ht, ?_⟩
    rcases h with rfl | rfl | rfl
    · cases ses with
      | read p n =>
        constructor <;> try simp [hph, csSpan, hr, SessionPhase, PhaseEvent, hy, afterSecondWait, readSession]
        all_goals first | rfl | exact SameLines.mk (by simp) (by simp) (by simp) (by simp) (by simp) (by simp) | exact loaded hp (by simp) (by simp) (by simp)
      | bulk bs =>
        constructor <;> try simp [hph, csSpan, hr, SessionPhase, PhaseEvent, hy, afterSecondWait, bulkSession]
        all_goals first | rfl | exact SameLines.mk (by simp) (by simp) (by simp) (by simp) (by simp) (by simp) | exact loaded hp (by simp) (by simp) (by simp)
      | write p ws =>
        by_cases hn : 0 < s.n
        all_goals (constructor <;> try simp [hph, csSpan, hr, SessionPhase, PhaseEvent, hy, afterSecondWait, writeSession, readSession, hn])
        all_goals first | rfl | exact SameLines.mk (by simp) (by simp) (by simp) (by simp) (by simp) (by simp) | exact loaded hp (by simp) (by simp) (by simp)
    all_goals (constructor <;> try simp [hph, csSpan, hr, SessionPhase, PhaseEvent, hy])
    all_goals first | rfl | exact SameLines.mk (by simp) (by simp) (by simp) (by simp) (by simp) (by simp) | exact loaded hp (by simp) (by simp) (by simp)
  case rdy3 =>
    obtain ⟨hp, hrd⟩ := hp
    obtain ⟨c, hc⟩ := Option.isSome_iff_exists.1 hp.1
    obtain ⟨y, hy⟩ := Option.isSome_iff_exists.1 hp.2.1
    have hr : s.csOut = some .asserted := by simpa [csSpan] using hcs
    obtain ⟨t, ht, h⟩ := waitRow_next (onReady := afterThirdWait) (onLimit := State.raiseInSession) hy
    refine ⟨t, by simpa [sessionRow, hph] using ht, ?_⟩
    rcases h with rfl | rfl | rfl
    · by_cases hn : 0 < s.n
      all_goals (constructor <;> try simp [hph, csSpan, hr, SessionPhase, PhaseEvent, hy, afterThirdWait, hn])
      all_goals first | rfl | exact SameLines.mk (by simp) (by simp) (by simp) (by simp) (by simp) (by simp) | skip
      · exact ⟨loaded hp (by simp) (by simp) (by simp), hrd⟩
      · exact ⟨loaded hp (by simp) (by simp) (by simp), fun _ => by omega⟩
    all_goals (constructor <;> try simp [hph, csSpan, hr, SessionPhase, PhaseEvent, hy])
    all_goals first | rfl | exact SameLines.mk (by simp) (by simp) (by simp) (by simp) (by simp) (by simp) | exact loaded hp (by simp) (by simp) (by simp) | exact ⟨loaded hp (by simp) (by simp) (by simp), hrd⟩
  case csA =>
    obtain ⟨c, hc⟩ := Option.isSome_iff_exists.1 hp.1
    refine ⟨(s.csAssert c).goto .preH, by simp [sessionRow, hph, hc, withPin], ?_⟩
    constructor <;> try simp [hph, csSpan, SessionPhase, PhaseEvent, hc, csLevel]
    all_goals first | rfl | exact SameLines.mk (by simp) (by simp) (by simp) (by simp) (by simp) (by simp) | exact loaded hp (by simp) (by simp) (by simp)
  case preH =>
    have hr : s.csOut = some .asserted := by simpa [csSpan] using hcs
    refine ⟨preambleHigh s, by simp [sessionRow, hph], ?_⟩
    constructor <;> try simp [preambleHigh, hph, csSpan, hr, SessionPhase, PhaseEvent]
    all_goals first | rfl | exact SameLines.mk (by simp) (by simp) (by simp) (by simp) (by simp) (by simp) | exact loaded hp (by simp) (by simp) (by simp)
  case preL =>
    have hr : s.csOut = some .asserted := by simpa [csSpan] using hcs
    refine ⟨preambleLow s, by simp [sessionRow, hph], ?_⟩
    constructor <;> try simp [preambleLow, hph, csSpan, hr, SessionPhase, PhaseEvent]
    all_goals first | rfl | exact SameLines.mk (by simp) (by simp) (by simp) (by simp) (by simp) (by simp) | exact loaded hp (by simp) (by simp) (by simp)
  case dmy0 =>
    have hr : s.csOut = some .asserted := by simpa [csSpan] using hcs
    refine ⟨(s.evXfer 0x00#8).2.goto .dmy1, by simp [sessionRow, hph], ?_⟩
    constructor <;> try simp [hph, csSpan, hr, SessionPhase, PhaseEvent]
    all_goals first | rfl | exact SameLines.mk (by simp) (by simp) (by simp) (by simp) (by simp) (by simp) | exact ⟨loaded hp.1 (by simp) (by simp) (by simp), hp.2⟩
  case dmy1 =>
    have hr : s.csOut = some .asserted := by simpa [csSpan] using hcs
    refine ⟨(s.evXfer 0x00#8).2.startWait.goto .rdy3, by simp [sessionRow, hph], ?_⟩
    constructor <;> try simp [hph, csSpan, hr, SessionPhase, PhaseEvent]
    all_goals first | rfl | exact SameLines.mk (by simp) (by simp) (by simp) (by simp) (by simp) (by simp) | exact ⟨loaded hp.1 (by simp) (by simp) (by simp), hp.2⟩
  case rdH =>
    have hr : s.csOut = some .asserted := by simpa [csSpan] using hcs
    refine ⟨readHigh s, by simp [sessionRow, hph], ?_⟩
    constructor <;> try simp [readHigh, hph, csSpan, hr, SessionPhase, PhaseEvent]
    all_goals first | rfl | exact SameLines.mk (by simp) (by simp) (by simp) (by simp) (by simp) (by simp) | exact ⟨loaded hp.1 (by simp) (by simp) (by simp), hp.2⟩
  case rdL =>
    have hr : s.csOut = some .asserted := by simpa [csSpan] using hcs
    obtain ⟨hl, hrd, hlt, hlen⟩ := hp
    refine ⟨readLow s, by simp [sessionRow, hph], ?_⟩
    by_cases hn : s.idx + 1 < s.n
    all_goals (constructor <;> try simp [readLow, hph, csSpan, hr, SessionPhase, PhaseEvent, hn])
    all_goals first | rfl | exact SameLines.mk (by simp) (by simp) (by simp) (by simp) (by simp) (by simp) | skip
    · exact ⟨loaded hl (by simp) (by simp) (by simp), hrd, hlen⟩
    · exact ⟨loaded hl (by simp) (by simp) (by simp), fun _ => by omega⟩
  case wrH =>
    have hr : s.csOut = some .asserted := by simpa [csSpan] using hcs
    obtain ⟨hl, hws, hlt⟩ := hp
    cases ses with
    | read p n => simp [writeSession] at hws
    | bulk bs => simp [writeSession] at hws
    | write p ws =>
      have hn : s.n = ws.length := hl.2.2.2
      have hw : ws[s.idx]? = some ws[s.idx] := List.getElem?_eq_getElem (by omega)
      refine ⟨writeHigh ws[s.idx] s, by simp [sessionRow, hph, sessionWord, withOperand, hw], ?_⟩
      constructor <;> try simp [writeHigh, hph, csSpan, hr, SessionPhase, PhaseEvent, writeSession, hi, hw]
      all_goals first | rfl | exact SameLines.mk (by simp) (by simp) (by simp) (by simp) (by simp) (by simp) | skip
      exact ⟨loaded hl (by simp) (by simp) (by simp), hlt⟩
  case wrL =>
    have hr : s.csOut = some .asserted := by simpa [csSpan] using hcs
    obtain ⟨hl, hws, hlt⟩ := hp
    cases ses with
    | read p n => simp [writeSession] at hws
    | bulk bs => simp [writeSession] at hws
    | write p ws =>
      have hn : s.n = ws.length := hl.2.2.2
      have hw : ws[s.idx]? = some ws[s.idx] := List.getElem?_eq_getElem (by omega)
      refine ⟨writeLow ws[s.idx] s, by simp [sessionRow, hph, sessionWord, withOperand, hw], ?_⟩
      by_cases hx : s.idx + 1 < s.n
      all_goals (constructor <;> try simp [writeLow, hph, csSpan, hr, SessionPhase, PhaseEvent, writeSession, readSession, hi, hw, hx])
      all_goals first | rfl | exact SameLines.mk (by simp) (by simp) (by simp) (by simp) (by simp) (by simp) | skip
      · exact loaded hl (by simp) (by simp) (by simp)
      · exact loaded hl (by simp) (by simp) (by simp)
  case blk =>
    have hr : s.csOut = some .asserted := by simpa [csSpan] using hcs
    obtain ⟨hl, hws⟩ := hp
    cases ses with
    | read p n => simp [bulkSession] at hws
    | write p ws => simp [bulkSession] at hws
    | bulk bs =>
      refine ⟨(s.emit (.xferBulk bs)).goto .csD, by simp [sessionRow, hph, bulkRow], ?_⟩
      constructor <;> try simp [hph, csSpan, hr, SessionPhase, PhaseEvent, readSession, hi]
      all_goals first | rfl | exact SameLines.mk (by simp) (by simp) (by simp) (by simp) (by simp) (by simp) | skip
      exact loaded hl (by simp) (by simp) (by simp)
  case csD =>
    obtain ⟨hl, hlen⟩ := hp
    obtain ⟨c, hc⟩ := Option.isSome_iff_exists.1 hl.1
    refine ⟨(s.csDeassert c).finish .ok 0, by simp [sessionRow, hph, hc, withPin], ?_⟩
    constructor <;> try simp [hph, csSpan, csAtRest, SessionPhase, PhaseEvent, hc, csLevel, hst]
    all_goals first | rfl | exact SameLines.mk (by simp) (by simp) (by simp) (by simp) (by simp) (by simp) | skip
    intro h; rw [hlen h]; exact hl.2.2.2
  case abort =>
    obtain ⟨c, hc⟩ := Option.isSome_iff_exists.1 hp.1
    refine ⟨(s.csDeassert c).finish .deviceNotRespondingError 0, by simp [sessionRow, hph, hc, withPin], ?_⟩
    constructor <;> try simp [hph, csSpan, csAtRest, SessionPhase, PhaseEvent, hc, csLevel, hst]
    all_goals exact SameLines.mk (by simp) (by simp) (by simp) (by simp) (by simp) (by simp)


/-- Outside a session chip-select is at rest, and stays so where nothing touches it. -/
theorem Inv.cs_rest {s t : State} (h : Inv s) (hs : csSpan s.ph = false) (ht : csSpan t.ph = false) (hc : t.csOut = s.csOut)
    (h1 : t.status = s.status) (h2 : t.la = s.la) : t.csOut = if csSpan t.ph then some .asserted else csAtRest t := by
  have := h.cs
  rw [hs] at this
  rw [hc, this, ht, csAtRest_congr h1 h2]

/-- An operation other than OPEN stays in flight: what it must keep. -/
theorem Inv.stays {i : Instr} {s t : State} (h : Inv s) (ho : s.op = some i) (hno : ∀ la, i ≠ .openOp la)
    (hcfg : t.cfg = s.cfg) (hst : t.status = s.status) (hla : t.la = s.la) (hpin : t.pincfg = s.pincfg)
    (hspi : t.spicfg = s.spicfg) (hb : t.busy = s.busy) (hop : t.op = s.op) (hph : t.ph ≠ .idle)
    (hrst : t.status ≠ .opened ∨ t.la.reset = none → t.rstOut = none)
    (hcs : t.csOut = if csSpan t.ph then some .asserted else csAtRest t) (hf : FlightOk i t) : Inv t := by
  have hbt : t.busy = true := hb.trans (h.busy_of_op ho)
  have pe : ∀ u : State, u.op = some i → pinsExpected u = pinsAtRest u := by
    intro u hu
    unfold pinsExpected
    rw [hu]
    split
    · rename_i la h; cases h; exact absurd rfl (hno la)
    · rfl
  exact {
    idle_iff := by simp [hbt, hph]
    op_iff := by simp [hbt, hop, ho]
    roles := by rw [hla]; exact h.roles
    cs := hcs
    rst := hrst
    pins := by rw [hpin, h.pins, pe s ho, pe t (hop.trans ho), pinsAtRest, pinsAtRest, hst, hla]
    mode := by rw [hst, hspi, hcfg]; exact h.mode
    flight := by intro j hj; rw [hop, ho] at hj; cases hj; exact hf }

/-- At S_DONE the response leaves the block at rest. -/
theorem Inv.responds {i : Instr} {s : State} (h : Inv s) (_ho : s.op = some i) (hph : s.ph = .done) (e : ErrKind) (info : Nat)
    (r : List Word) : Inv (s.respond e info r) := by
  have hcs := h.cs
  have hp := h.pins
  rw [hph] at hcs
  have pe : pinsExpected s = pinsAtRest s := by
    unfold pinsExpected
    rw [hph]
    split <;> rfl
  have pe' : pinsExpected (s.respond e info r) = pinsAtRest (s.respond e info r) := by
    unfold pinsExpected
    simp
  exact {
    idle_iff := by simp
    op_iff := by simp
    roles := by simpa using h.roles
    cs := h.cs_rest (by simp [hph, csSpan]) (by simp [csSpan]) (by simp) (by simp) (by simp)
    rst := by simpa using h.rst
    pins := by rw [pe']; simp [hp, pe, pinsAtRest]; rfl
    mode := by simpa using h.mode
    flight := by intro j hj; simp at hj }

theorem isTransfer_not_open {i : Instr} (ht : isTransfer i = true) : ∀ la, i ≠ .openOp la := by
  rintro la rfl; simp [isTransfer, sessionsOf] at ht

theorem transferPhase_flight {i : Instr} {s : State} (ht : isTransfer i = true) (h : TransferPhase i s) : FlightOk i s := by
  cases i <;> first | exact h | simp [isTransfer, sessionsOf] at ht

theorem isTransfer_isOperation {i : Instr} (ht : isTransfer i = true) : i.isOperation = true := by
  cases i <;> first | rfl | simp [isTransfer, sessionsOf] at ht

/-- What one step of an operation does, in a state that meets the invariant. -/
def StepOk (i : Instr) (s t : State) : Prop :=
  Inv t ∧ if s.ph = .idle ∨ s.ph = .chk ∨ s.ph = .done then t.trace = s.trace
    else ∃ e, t.trace = s.trace ++ [e] ∧ PhaseEvent i s e

theorem finishOf_responds (i : Instr) (s : State) : ∃ e info r, finishOf i s = s.respond e info r := by
  cases hh : hands i with
  | nothing => exact ⟨_, _, _, by simp [finishOf, hh, respondPlain]; rfl⟩
  | all => exact ⟨_, _, _, by simp [finishOf, hh, respondWords]; rfl⟩
  | first =>
    simp only [finishOf, hh, respondSingle]
    split
    · split <;> exact ⟨_, _, _, rfl⟩
    · exact ⟨_, _, _, rfl⟩

theorem Inv.transfer_step {i : Instr} {s : State} (h : Inv s) (ho : s.op = some i) (ht : isTransfer i = true) :
    ∃ t, exec i s = .next t ∧ StepOk i s t := by
  have hb := h.busy_of_op ho
  obtain ⟨hst, ses, hses, hph⟩ := h.session ho ht
  have hidle : s.ph ≠ .idle := fun hx => by rw [h.idle_iff.2 hx] at hb; cases hb
  rw [exec_busy (h.isOp ho) hb ho]
  by_cases hd : s.ph = .done
  · rw [rowOf_done hses hd]
    have hcs := h.cs
    rw [hd] at hcs
    by_cases hm : s.doneCode = .ok ∧ moreSessions i s = true
    · rw [if_pos hm]
      refine ⟨_, rfl, ?_, by simp [hd]⟩
      have hc : i.isCommandLayer = true := by
        have := hm.2; simp only [moreSessions, Bool.and_eq_true] at this; exact this.1
      have hlt : s.sub + 1 < (sessionsOf i).length := by
        have := hm.2; simp only [moreSessions, Bool.and_eq_true, decide_eq_true_eq] at this; exact this.2
      refine h.stays ho (isTransfer_not_open ht) (by simp) (by simp) (by simp) (by simp) (by simp) (by simp) (by simp)
        (by simp) (by simpa using h.rst) (h.cs_rest (by simp [hd, csSpan]) (by simp [csSpan]) (by simp) (by simp) (by simp)) (transferPhase_flight ht ⟨by simpa using hst, ?_⟩)
      exact ⟨(sessionsOf i)[s.sub + 1], by simp [sessionInFlight, hc, hlt], by simp [SessionPhase]⟩
    · rw [if_neg hm]
      obtain ⟨e, info, r, hr⟩ := finishOf_responds i s
      exact ⟨_, rfl, by rw [hr]; exact h.responds ho hd e info r, by rw [hr]; simp [hd]⟩
  · rw [rowOf_session hses hd]
    obtain ⟨t, hrow, hs⟩ := sessionRow_step hst h.cs hses hph hd
    refine ⟨t, hrow, ?_, ?_⟩
    · refine h.stays ho (isTransfer_not_open ht) hs.lines.cfg hs.lines.status hs.lines.la hs.lines.pincfg hs.lines.spicfg
        hs.busy hs.op hs.ph ?_ hs.cs (transferPhase_flight ht ⟨hs.lines.status.trans hst, ses, ?_, hs.phase⟩)
      · rw [hs.lines.status, hs.lines.la, hs.lines.rstOut]; exact h.rst
      · rw [sessionInFlight_congr hs.sub]; exact hses
    · have := hs.event
      simpa [hidle, hd] using this

/-! ### CLOSE, RESET_DEVICE, WAIT_READY -/

theorem Inv.close_step {s : State} (h : Inv s) (ho : s.op = some .closeOp) :
    ∃ t, exec .closeOp s = .next t ∧ StepOk .closeOp s t := by
  have hb := h.busy_of_op ho
  have hf : ClosePhase s := h.flight _ ho
  have hcs := h.cs
  rw [exec_busy rfl hb ho]
  rcases hf with hp | ⟨hp, hst⟩ | ⟨hp, hk⟩
  · refine ⟨if s.status = .opened then s.goto .close else s.finish .ok 0, by simp [rowOf, closeRow, hp], ?_, ?_⟩
    · rw [hp] at hcs
      split
      · refine h.stays ho (by simp) (by simp) (by simp) (by simp) (by simp) (by simp) (by simp) (by simp)
          (by simp) (by simpa using h.rst) (h.cs_rest (by simp [hp, csSpan]) (by simp [csSpan]) (by simp) (by simp) (by simp)) (.inr (.inl ⟨by simp, by simpa⟩))
      · refine h.stays ho (by simp) (by simp) (by simp) (by simp) (by simp) (by simp) (by simp) (by simp)
          (by simp) (by simpa using h.rst) (h.cs_rest (by simp [hp, csSpan]) (by simp [csSpan]) (by simp) (by simp) (by simp)) (.inr (.inr ⟨by simp, by simp⟩))
    · rw [if_pos (by simp [hp])]; split <;> simp
  · refine ⟨closeRelease s, by simp [rowOf, closeRow, hp], ?_, by simp [closeRelease, hp, PhaseEvent]⟩
    exact {
      idle_iff := by simp [closeRelease, hb]
      op_iff := by simp [closeRelease, hb, ho]
      roles := by simpa [closeRelease] using h.roles
      cs := by simp [closeRelease, csSpan, csAtRest]
      rst := by simp [closeRelease]
      pins := by simp [closeRelease, pinsExpected, ho, pinsAtRest]
      mode := by simp [closeRelease]
      flight := by
        intro j hj
        have : j = .closeOp := by simpa [closeRelease, ho] using hj.symm
        subst this
        exact .inr (.inr ⟨by simp [closeRelease], by simp [closeRelease]⟩) }
  · exact ⟨respondPlain s, by simp [rowOf, closeRow, hp], h.responds ho hp _ _ _, by simp [respondPlain, hp]⟩

theorem Inv.reset_step {s : State} (h : Inv s) (ho : s.op = some .resetDevice) :
    ∃ t, exec .resetDevice s = .next t ∧ StepOk .resetDevice s t := by
  have hb := h.busy_of_op ho
  have hf : ResetPhase s := h.flight _ ho
  have hcs := h.cs
  rw [exec_busy rfl hb ho]
  obtain ⟨hst, hp | ⟨hp, hr⟩ | ⟨hp, hk⟩⟩ := hf
  · refine ⟨if s.la.reset.isSome then s.goto .rstA else s.raise .configurationError roleReset, by simp [rowOf, resetRow, hp], ?_, ?_⟩
    · rw [hp] at hcs
      split
      · refine h.stays ho (by simp) (by simp) (by simp) (by simp) (by simp) (by simp) (by simp) (by simp)
          (by simp) (by simpa using h.rst) (h.cs_rest (by simp [hp, csSpan]) (by simp [csSpan]) (by simp) (by simp) (by simp)) ⟨by simpa, .inr (.inl ⟨by simp, by simpa⟩)⟩
      · refine h.stays ho (by simp) (by simp) (by simp) (by simp) (by simp) (by simp) (by simp) (by simp)
          (by simp) (by simpa using h.rst) (h.cs_rest (by simp [hp, csSpan]) (by simp [csSpan]) (by simp) (by simp) (by simp)) ⟨by simpa, .inr (.inr ⟨by simp, by simp⟩)⟩
    · rw [if_pos (by simp [hp])]; split <;> simp
  · obtain ⟨r, hr'⟩ := Option.isSome_iff_exists.1 hr
    rcases hp with hp | hp | hp
    · rw [hp] at hcs
      refine ⟨(s.driveReset r resetAssertLevel).goto .rstHold, by simp [rowOf, resetRow, hp, hr', withPin], ?_, by simp [hp, PhaseEvent, hr']⟩
      refine h.stays ho (by simp) (by simp) (by simp) (by simp) (by simp) (by simp) (by simp) (by simp)
        (by simp) (by simp [hst, hr']) (h.cs_rest (by simp [hp, csSpan]) (by simp [csSpan]) (by simp) (by simp) (by simp)) ⟨by simpa, .inr (.inl ⟨by simp, by simpa⟩)⟩
    · rw [hp] at hcs
      refine ⟨(s.emit (.hold tResetHold)).goto .rstD, by simp [rowOf, resetRow, hp], ?_, by simp [hp, PhaseEvent]⟩
      refine h.stays ho (by simp) (by simp) (by simp) (by simp) (by simp) (by simp) (by simp) (by simp)
        (by simp) (by simp [hst, hr']) (h.cs_rest (by simp [hp, csSpan]) (by simp [csSpan]) (by simp) (by simp) (by simp)) ⟨by simpa, .inr (.inl ⟨by simp, by simpa⟩)⟩
    · rw [hp] at hcs
      refine ⟨(s.driveReset r resetAssertLevel.flip).finish .ok 0, by simp [rowOf, resetRow, hp, hr', withPin], ?_, by simp [hp, PhaseEvent, hr', Level.flip]⟩
      refine h.stays ho (by simp) (by simp) (by simp) (by simp) (by simp) (by simp) (by simp) (by simp)
        (by simp) (by simp [hst, hr']) (h.cs_rest (by simp [hp, csSpan]) (by simp [csSpan]) (by simp) (by simp) (by simp)) ⟨by simpa, .inr (.inr ⟨by simp, by simp⟩)⟩
  · exact ⟨respondPlain s, by simp [rowOf, resetRow, hp], h.responds ho hp _ _ _, by simp [respondPlain, hp]⟩

theorem Inv.wait_step {s : State} (h : Inv s) (ho : s.op = some .waitReady) :
    ∃ t, exec .waitReady s = .next t ∧ StepOk .waitReady s t := by
  have hb := h.busy_of_op ho
  have hf : WaitPhase s := h.flight _ ho
  have hcs := h.cs
  rw [exec_busy rfl hb ho]
  obtain ⟨hst, hp | ⟨hp, hr⟩ | ⟨hp, hk⟩⟩ := hf
  · refine ⟨if s.la.ready.isSome then s.startWait.goto .wait else s.raise .configurationError roleReady, by simp [rowOf, waitReadyRow, hp], ?_, ?_⟩
    · rw [hp] at hcs
      split
      · refine h.stays ho (by simp) (by simp) (by simp) (by simp) (by simp) (by simp) (by simp) (by simp)
          (by simp) (by simpa using h.rst) (h.cs_rest (by simp [hp, csSpan]) (by simp [csSpan]) (by simp) (by simp) (by simp)) ⟨by simpa, .inr (.inl ⟨by simp, by simpa⟩)⟩
      · refine h.stays ho (by simp) (by simp) (by simp) (by simp) (by simp) (by simp) (by simp) (by simp)
          (by simp) (by simpa using h.rst) (h.cs_rest (by simp [hp, csSpan]) (by simp [csSpan]) (by simp) (by simp) (by simp)) ⟨by simpa, .inr (.inr ⟨by simp, by simp⟩)⟩
    · rw [if_pos (by simp [hp])]; split <;> simp
  · obtain ⟨y, hy⟩ := Option.isSome_iff_exists.1 hr
    obtain ⟨t, ht, hor⟩ := waitRow_next (onReady := State.finish .ok 0) (onLimit := State.raise .deviceNotRespondingError 0) hy
    rw [hp] at hcs
    refine ⟨t, by simpa [rowOf, waitReadyRow, hp] using ht, ?_, ?_⟩
    · rcases hor with rfl | rfl | rfl
      · refine h.stays ho (by simp) (by simp) (by simp) (by simp) (by simp) (by simp) (by simp) (by simp)
          (by simp) (by simpa using h.rst) (h.cs_rest (by simp [hp, csSpan]) (by simp [csSpan]) (by simp) (by simp) (by simp)) ⟨by simpa, .inr (.inr ⟨by simp, by simp⟩)⟩
      · refine h.stays ho (by simp) (by simp) (by simp) (by simp) (by simp) (by simp) (by simp) (by simp)
          (by simp) (by simpa using h.rst) (h.cs_rest (by simp [hp, csSpan]) (by simp [csSpan]) (by simp) (by simp) (by simp)) ⟨by simpa, .inr (.inr ⟨by simp, by simp⟩)⟩
      · refine h.stays ho (by simp) (by simp) (by simp) (by simp) (by simp) (by simp) (by simp) (by simp)
          (by simp [hp]) (by simpa using h.rst) (h.cs_rest (by simp [hp, csSpan]) (by simp [hp, csSpan]) (by simp) (by simp) (by simp)) ⟨by simpa, .inr (.inl ⟨by simp [hp], by simpa⟩)⟩
    · rcases hor with rfl | rfl | rfl <;> simp [hp, PhaseEvent, hy]
  · exact ⟨respondPlain s, by simp [rowOf, waitReadyRow, hp], h.responds ho hp _ _ _, by simp [respondPlain, hp]⟩

/-! ### OPEN -/

/-- An OPEN(la) in flight after `Init()` has answered true and before its end. -/
structure MidOpen (la : LineAssign) (s : State) : Prop where
  busy : s.busy = true
  op : s.op = some (.openOp la)
  status : s.status = .unopened
  distinct : la.rolesDistinct = true
  roles : s.la.rolesDistinct = true
  csOut : s.csOut = none
  rstOut : s.rstOut = none
  mode : s.spicfg = serialMode s.cfg

theorem MidOpen.of {la : LineAssign} {s t : State} (h : MidOpen la s) (h1 : t.busy = s.busy) (h2 : t.op = s.op)
    (h3 : t.status = s.status) (h4 : t.la = s.la) (h5 : t.csOut = s.csOut) (h6 : t.rstOut = s.rstOut)
    (h7 : t.spicfg = s.spicfg) (h8 : t.cfg = s.cfg) : MidOpen la t :=
  ⟨h1.trans h.busy, h2.trans h.op, h3.trans h.status, h.distinct, by rw [h4]; exact h.roles, h5.trans h.csOut,
    h6.trans h.rstOut, by rw [h7, h8]; exact h.mode⟩

/-- A phase of OPEN between `Init()` and the end. -/
theorem MidOpen.inv {la : LineAssign} {s : State} (h : MidOpen la s) (hs : csSpan s.ph = false) (hi : s.ph ≠ .idle)
    (hp : s.pincfg = pinsExpected s) (hf : OpenPhase la s) : Inv s where
  idle_iff := by simp [h.busy, hi]
  op_iff := by simp [h.busy, h.op]
  roles := h.roles
  cs := by simp [hs, h.csOut, csAtRest, h.status]
  rst := fun _ => h.rstOut
  pins := hp
  mode := by simp [h.status]
  flight := by intro j hj; rw [h.op] at hj; cases hj; exact ⟨h.distinct, hf⟩

theorem pinsWithCs_none {la : LineAssign} (h : la.chipSelect = none) : pinsWithCs la = [] := by simp [pinsWithCs, h]
theorem pinsWithReset_none {la : LineAssign} (h : la.reset = none) : pinsWithReset la = pinsWithCs la := by
  simp [pinsWithReset, h]
theorem pinsOpen_none {la : LineAssign} (h : la.ready = none) : pinsOpen la = pinsWithReset la := by simp [pinsOpen, h]

/-- The end of OPEN. -/
theorem openEnd_inv {la : LineAssign} {s : State} (hb : s.busy = true) (ho : s.op = some (.openOp la))
    (hd : la.rolesDistinct = true) (hr : s.rstOut = none) (hm : s.spicfg = serialMode s.cfg)
    (hc : s.csOut = if la.chipSelect.isSome then some .deasserted else none) (hp : s.pincfg = pinsOpen la) :
    Inv (openEnd la s) where
  idle_iff := by simp [openEnd, hb]
  op_iff := by simp [openEnd, hb, ho]
  roles := by simpa [openEnd] using hd
  cs := by simp [openEnd, csSpan, csAtRest, hc]
  rst := fun _ => by simpa [openEnd] using hr
  pins := by simp [openEnd, pinsExpected, ho, pinsAtRest, hp]
  mode := fun _ => by simpa [openEnd] using hm
  flight := by
    intro j hj
    have : j = .openOp la := by simpa [openEnd, ho] using hj.symm
    subst this
    exact ⟨hd, by simp [OpenPhase, openEnd]⟩

theorem openToCsInit_inv {la : LineAssign} {s : State} (h : MidOpen la s) (hp : s.pincfg = pinsOpen la) :
    Inv (openToCsInit la s) := by
  rw [openToCsInit]
  split
  · rename_i hc
    refine MidOpen.inv (la := la) (h.of (by simp) (by simp) (by simp) (by simp) (by simp) (by simp) (by simp) (by simp))
      (by simp [csSpan]) (by simp) ?_ ?_
    · simp [pinsExpected, h.op, hp]
    · simp [OpenPhase, h.status, h.mode, hc]
  · rename_i hc
    exact openEnd_inv h.busy h.op h.distinct h.rstOut h.mode (by simp [hc, h.csOut]) hp

theorem openToCfgRdy_inv {la : LineAssign} {s : State} (h : MidOpen la s) (hp : s.pincfg = pinsWithReset la) :
    Inv (openToCfgRdy la s) := by
  rw [openToCfgRdy]
  split
  · rename_i hc
    refine MidOpen.inv (la := la) (h.of (by simp) (by simp) (by simp) (by simp) (by simp) (by simp) (by simp) (by simp))
      (by simp [csSpan]) (by simp) ?_ ?_
    · simp [pinsExpected, h.op, hp]
    · simp [OpenPhase, h.status, h.mode, hc]
  · rename_i hc
    exact openToCsInit_inv h (by rw [hp, pinsOpen_none (by simpa using hc)])

theorem openToCfgRst_inv {la : LineAssign} {s : State} (h : MidOpen la s) (hp : s.pincfg = pinsWithCs la) :
    Inv (openToCfgRst la s) := by
  rw [openToCfgRst]
  split
  · rename_i hc
    refine MidOpen.inv (la := la) (h.of (by simp) (by simp) (by simp) (by simp) (by simp) (by simp) (by simp) (by simp))
      (by simp [csSpan]) (by simp) ?_ ?_
    · simp [pinsExpected, h.op, hp]
    · simp [OpenPhase, h.status, h.mode, hc]
  · rename_i hc
    exact openToCfgRdy_inv h (by rw [hp, pinsWithReset_none (by simpa using hc)])

theorem openToCfgCs_inv {la : LineAssign} {s : State} (h : MidOpen la s) (hp : s.pincfg = []) :
    Inv (openToCfgCs la s) := by
  rw [openToCfgCs]
  split
  · rename_i hc
    refine MidOpen.inv (la := la) (h.of (by simp) (by simp) (by simp) (by simp) (by simp) (by simp) (by simp) (by simp))
      (by simp [csSpan]) (by simp) ?_ ?_
    · simp [pinsExpected, h.op, hp, pinsAtRest, h.status]
    · simp [OpenPhase, h.status, h.mode, hc]
  · rename_i hc
    exact openToCfgRst_inv h (by rw [hp, pinsWithCs_none (by simpa using hc)])

/-- None of the choices of the next phase of OPEN performs an event. -/
@[simp] theorem openEnd_trace (la : LineAssign) (s : State) : (openEnd la s).trace = s.trace := by simp [openEnd]
@[simp] theorem openToCsInit_trace (la : LineAssign) (s : State) : (openToCsInit la s).trace = s.trace := by
  rw [openToCsInit]; split <;> simp
@[simp] theorem openToCfgRdy_trace (la : LineAssign) (s : State) : (openToCfgRdy la s).trace = s.trace := by
  rw [openToCfgRdy]; split <;> simp
@[simp] theorem openToCfgRst_trace (la : LineAssign) (s : State) : (openToCfgRst la s).trace = s.trace := by
  rw [openToCfgRst]; split <;> simp
@[simp] theorem openToCfgCs_trace (la : LineAssign) (s : State) : (openToCfgCs la s).trace = s.trace := by
  rw [openToCfgCs]; split <;> simp

theorem Inv.open_rest {s : State} (h : Inv s) (hst : s.status = .unopened)
    (hp : csSpan s.ph = false) : s.csOut = none ∧ s.rstOut = none := by
  constructor
  · rw [h.cs, hp]; simp [csAtRest, hst]
  · exact h.rst (.inl (by simp [hst]))

theorem Inv.open_step {s : State} {la : LineAssign} (h : Inv s) (ho : s.op = some (.openOp la)) :
    ∃ t, exec (.openOp la) s = .next t ∧ StepOk (.openOp la) s t := by
  have hb := h.busy_of_op ho
  obtain ⟨hd, hf⟩ : la.rolesDistinct = true ∧ OpenPhase la s := h.flight _ ho
  have hpin := h.pins
  rw [exec_busy rfl hb ho]
  have mid : s.status = .unopened → s.spicfg = serialMode s.cfg → csSpan s.ph = false → MidOpen la s := fun h1 h2 h3 =>
    ⟨hb, ho, h1, hd, h.roles, (h.open_rest h1 h3).1, (h.open_rest h1 h3).2, h2⟩
  unfold OpenPhase at hf
  cases hp : s.ph <;> simp only [hp] at hf
  case chk =>
    have hr := h.open_rest hf (by simp [hp, csSpan])
    refine ⟨s.goto .init, by simp [rowOf, openRow, hp], ?_, by simp [hp]⟩
    exact {
      idle_iff := by simp [hb]
      op_iff := by simp [hb, ho]
      roles := by simpa using h.roles
      cs := by simp [csSpan, csAtRest, hf, hr.1]
      rst := fun _ => by simpa using hr.2
      pins := by
        have : s.pincfg = [] := by rw [hpin]; simp [pinsExpected, ho, hp, pinsAtRest, hf]
        simp [pinsExpected, ho, pinsAtRest, hf, this]
      mode := by simp [hf]
      flight := by intro j hj; have : j = .openOp la := by simpa [ho] using hj.symm
                   subst this; exact ⟨hd, by simpa [OpenPhase] using hf⟩ }
  case init =>
    have hr := h.open_rest hf (by simp [hp, csSpan])
    have hpn : s.pincfg = [] := by rw [hpin]; simp [pinsExpected, ho, hp, pinsAtRest, hf]
    refine ⟨openInit la s, by simp [rowOf, openRow, hp], ?_, ?_⟩
    · rw [openInit]
      split
      · exact openToCfgCs_inv ⟨by simpa using hb, by simpa using ho, by simpa using hf, hd, by simpa using h.roles,
          by simpa using hr.1, by simpa using hr.2, by simp [serialMode]⟩ (by simpa using hpn)
      · exact {
          idle_iff := by simp [hb]
          op_iff := by simp [hb, ho]
          roles := by simpa using h.roles
          cs := by simp [csSpan, csAtRest, hf, hr.1]
          rst := fun _ => by simpa using hr.2
          pins := by simp [pinsExpected, ho, pinsAtRest, hf, hpn]
          mode := by simp [hf]
          flight := by intro j hj; have : j = .openOp la := by simpa [ho] using hj.symm
                       subst this; exact ⟨hd, by simp [OpenPhase, hf]⟩ }
    · rw [if_neg (by simp [hp]), openInit]
      refine ⟨.init s.env.takeInit.1, ?_, by simp [PhaseEvent, hp]⟩
      split <;> simp [State.evInit]
  case cfgCs =>
    obtain ⟨h1, h2, h3⟩ := hf
    obtain ⟨c, hc⟩ := Option.isSome_iff_exists.1 h3
    have hm := mid h1 h2 (by simp [hp, csSpan])
    have hpn : s.pincfg = [] := by rw [hpin]; simp [pinsExpected, ho, hp, pinsAtRest, h1]
    refine ⟨openToCfgRst la (configureOutput c s), by simp [rowOf, openRow, hp, hc, withPin], ?_, ?_⟩
    · refine openToCfgRst_inv (hm.of (by simp [configureOutput]) (by simp [configureOutput]) (by simp [configureOutput])
        (by simp [configureOutput]) (by simp [configureOutput]) (by simp [configureOutput]) (by simp [configureOutput])
        (by simp [configureOutput])) ?_
      simp [configureOutput, hpn, pinsWithCs, hc, pinSet]
    · simp [hp, configureOutput, PhaseEvent, linesOf, hc]
  case cfgRst =>
    obtain ⟨h1, h2, h3⟩ := hf
    obtain ⟨c, hc⟩ := Option.isSome_iff_exists.1 h3
    have hm := mid h1 h2 (by simp [hp, csSpan])
    have hpn : s.pincfg = pinsWithCs la := by rw [hpin]; simp [pinsExpected, ho, hp]
    refine ⟨openToCfgRdy la (configureOutput c s), by simp [rowOf, openRow, hp, hc, withPin], ?_, ?_⟩
    · refine openToCfgRdy_inv (hm.of (by simp [configureOutput]) (by simp [configureOutput]) (by simp [configureOutput])
        (by simp [configureOutput]) (by simp [configureOutput]) (by simp [configureOutput]) (by simp [configureOutput])
        (by simp [configureOutput])) ?_
      simp [configureOutput, hpn, pinsWithReset, hc]
    · simp [hp, configureOutput, PhaseEvent, linesOf, hc]
  case cfgRdy =>
    obtain ⟨h1, h2, h3⟩ := hf
    obtain ⟨c, hc⟩ := Option.isSome_iff_exists.1 h3
    have hm := mid h1 h2 (by simp [hp, csSpan])
    have hpn : s.pincfg = pinsWithReset la := by rw [hpin]; simp [pinsExpected, ho, hp]
    refine ⟨(s.emit (.configurePin c .input)).goto .pullRdy, by simp [rowOf, openRow, hp, hc, withPin], ?_, ?_⟩
    · refine MidOpen.inv (la := la) (hm.of (by simp) (by simp) (by simp) (by simp) (by simp) (by simp) (by simp) (by simp))
        (by simp [csSpan]) (by simp) ?_ ?_
      · simp [pinsExpected, ho, hpn]
      · simp [OpenPhase, h1, h2, hc]
    · simp [hp, PhaseEvent, linesOf, hc]
  case pullRdy =>
    obtain ⟨h1, h2, h3⟩ := hf
    obtain ⟨c, hc⟩ := Option.isSome_iff_exists.1 h3
    have hm := mid h1 h2 (by simp [hp, csSpan])
    have hpn : s.pincfg = pinsWithReset la := by rw [hpin]; simp [pinsExpected, ho, hp]
    refine ⟨openToCsInit la (pullDown c s), by simp [rowOf, openRow, hp, hc, withPin], ?_, ?_⟩
    · refine openToCsInit_inv (hm.of (by simp [pullDown]) (by simp [pullDown]) (by simp [pullDown])
        (by simp [pullDown]) (by simp [pullDown]) (by simp [pullDown]) (by simp [pullDown])
        (by simp [pullDown])) ?_
      simp [pullDown, hpn, pinsOpen, hc]
    · simp [hp, pullDown, PhaseEvent, linesOf, hc]
  case csInit =>
    obtain ⟨h1, h2, h3⟩ := hf
    obtain ⟨c, hc⟩ := Option.isSome_iff_exists.1 h3
    have hr := h.open_rest h1 (by simp [hp, csSpan])
    have hpn : s.pincfg = pinsOpen la := by rw [hpin]; simp [pinsExpected, ho, hp]
    refine ⟨openEnd la (s.csDeassert c), by simp [rowOf, openRow, hp, hc, withPin], ?_, ?_⟩
    · exact openEnd_inv (by simpa using hb) (by simpa using ho) hd (by simpa using hr.2) (by simpa using h2) (by simp [hc])
        (by simpa using hpn)
    · simp [hp, PhaseEvent, linesOf, hc, csLevel]
  case done =>
    exact ⟨respondPlain s, by simp [rowOf, openRow, hp], h.responds ho hp _ _ _, by simp [respondPlain, hp]⟩

/-- One step of the operation in flight. -/
theorem Inv.op_step {i : Instr} {s : State} (h : Inv s) (ho : s.op = some i) : ∃ t, exec i s = .next t ∧ StepOk i s t := by
  have hop := h.isOp ho
  cases i with
  | openOp la => exact h.open_step ho
  | closeOp => exact h.close_step ho
  | resetDevice => exact h.reset_step ho
  | waitReady => exact h.wait_step ho
  | read p n => exact h.transfer_step ho rfl
  | write p ws => exact h.transfer_step ho rfl
  | writeBulk bs => exact h.transfer_step ho rfl
  | writeCommand code args => exact h.transfer_step ho rfl
  | writeData ws => exact h.transfer_step ho rfl
  | readData n => exact h.transfer_step ho rfl
  | readSingleWord => exact h.transfer_step ho rfl
  | writePixels ws => exact h.transfer_step ho rfl
  | preambleWriteData => simp [Instr.isOperation] at hop
  | preambleReadData => simp [Instr.isOperation] at hop
  | preambleWriteCommand => simp [Instr.isOperation] at hop

theorem Inv.host {s : State} (h : Inv s) (items : List HostItem) : Inv { s with host := items } :=
  { idle_iff := h.idle_iff, op_iff := h.op_iff, roles := h.roles, cs := h.cs, rst := h.rst, pins := h.pins, mode := h.mode, flight := h.flight }

/-- Acceptance. -/
theorem Inv.begin {i : Instr} {s : State} (h : Inv s) (hb : s.busy = false) (hv : offerValid i = true)
    (ha : admits i s.status = none) : Inv (s.begin i) := by
  have hph := h.idle_iff.1 hb
  have hop := h.op_iff.1 hb
  have hcs := h.cs
  have hpin := h.pins
  rw [hph] at hcs
  have hpn : s.pincfg = pinsAtRest s := by rw [hpin]; simp [pinsExpected, hop]
  exact {
    idle_iff := by simp
    op_iff := by simp
    roles := by simpa using h.roles
    cs := by simp only [State.begin_csOut, hcs]; simp [csSpan, csAtRest]; rfl
    rst := by simpa using h.rst
    pins := by
      have : pinsExpected (s.begin i) = pinsAtRest (s.begin i) := by
        unfold pinsExpected
        split <;> simp
      rw [this]; simp [hpn, pinsAtRest]; rfl
    mode := by simpa using h.mode
    flight := by
      intro j hj
      have : j = i := by simpa using hj.symm
      subst this
      cases j <;> simp_all [FlightOk, admits, offerValid, OpenPhase, ClosePhase, ResetPhase, WaitPhase, TransferPhase, sessionInFlight, sessionsOf, Instr.isCommandLayer, SessionPhase, commandSessions] }

theorem accept_next {i : Instr} {s t : State} (h : accept i s = .next t) :
    offerValid i = true ∧ admits i s.status = none ∧ t = s.begin i := by
  rw [accept] at h
  split at h
  · split at h
    · cases h; exact ⟨‹_›, ‹_›, rfl⟩
    · cases h
  · cases h

/-- A preamble row that runs is the row of the operation in flight. -/
theorem preamble_is_op {j : Instr} {s t : State} (hj : j.isOperation = false) (h : exec j s = .next t) :
    ∃ i, s.op = some i ∧ s.busy = true ∧ isTransfer i = true ∧
      ((s.ph = .preH ∧ t = preambleHigh s) ∨ (s.ph = .preL ∧ t = preambleLow s)) := by
  have key : ∀ v, preambleExchange v s = .next t → ∃ i, s.op = some i ∧ s.busy = true ∧ isTransfer i = true ∧
      ((s.ph = .preH ∧ t = preambleHigh s) ∨ (s.ph = .preL ∧ t = preambleLow s)) := by
    intro v hv
    rw [preambleExchange] at hv
    split at hv
    · rename_i hc
      simp only [Bool.and_eq_true, decide_eq_true_eq] at hc
      cases ho : s.op with
      | none => simp [transferInFlight, ho] at hc
      | some i =>
        refine ⟨i, rfl, hc.1.1, by rw [← transferInFlight_eq ho]; exact hc.1.2, ?_⟩
        split at hv
        · cases hv; exact .inl ⟨‹_›, rfl⟩
        · split at hv
          · cases hv; exact .inr ⟨‹_›, rfl⟩
          · cases hv
    · cases hv
  cases j <;> first | exact key _ h | simp [Instr.isOperation] at hj

theorem Inv.exec_preamble_eq {i j : Instr} {s t : State} (h : Inv s) (ho : s.op = some i) (hj : j.isOperation = false)
    (he : exec j s = .next t) : exec i s = .next t := by
  obtain ⟨i', ho', hb, ht, hcase⟩ := preamble_is_op hj he
  rw [ho] at ho'; cases ho'
  obtain ⟨-, ses, hses, -⟩ := h.session ho ht
  rw [exec_busy (h.isOp ho) hb ho, rowOf_session hses (by rcases hcase with ⟨h, -⟩ | ⟨h, -⟩ <;> simp [h])]
  rcases hcase with ⟨hp, rfl⟩ | ⟨hp, rfl⟩ <;> simp [sessionRow, hp]

/-- What an instruction that answers a next state is: an operation that is accepted, or one step of the operation in flight. -/
theorem Inv.exec_cases {i : Instr} {s t : State} (h : Inv s) (he : exec i s = .next t) :
    (s.busy = false ∧ i.isOperation = true ∧ offerValid i = true ∧ admits i s.status = none ∧ t = s.begin i) ∨
    (s.busy = true ∧ ∃ j, s.op = some j ∧ exec j s = .next t ∧ (j = i ∨ (i.isOperation = false ∧ isTransfer j = true))) := by
  cases hi : i.isOperation with
  | false =>
    obtain ⟨j, ho, hb, ht, -⟩ := preamble_is_op hi he
    exact .inr ⟨hb, j, ho, h.exec_preamble_eq ho hi he, .inr ⟨rfl, ht⟩⟩
  | true =>
    cases hb : s.busy with
    | false =>
      rw [exec_idle hi hb] at he
      obtain ⟨h1, h2, h3⟩ := accept_next he
      exact .inl ⟨rfl, rfl, h1, h2, h3⟩
    | true =>
      rw [exec_eq_operate hi, operate, hb] at he
      simp only [if_true] at he
      split at he
      · rename_i ho
        exact .inr ⟨rfl, i, ho, by rw [exec_busy hi hb ho]; exact he, .inl rfl⟩
      · cases he

/-- A step is a step of an instruction, in the state the fetch leaves. -/
theorem step_cases {s t : State} (h : step s = .next t) : ∃ i items, exec i { s with host := items } = .next t ∧
    ((s.busy = true ∧ items = s.host ∧ ∃ j, s.op = some j ∧ i = currentInstr j s) ∨
      (s.busy = false ∧ decodeDescriptor s.host = .ok (i, items))) := by
  rw [step] at h
  rw [fetch] at h
  split at h
  · rename_i i s' heq
    split at heq
    · split at heq
      · rename_i hb _ j ho
        cases heq
        exact ⟨_, s.host, h, .inl ⟨hb, rfl, j, ho, rfl⟩⟩
      · cases heq
    · rename_i hb
      split at heq
      · rename_i hd
        cases heq
        exact ⟨_, _, h, .inr ⟨by simpa using hb, hd⟩⟩
      · cases heq
      · cases heq
  · cases h
  · cases h

end Sys2Proof.Machine
end

