-- ==== Sys2Proof/Laws/Operation.lean ====
section
/-!
SUPPORT. An operation: the body of the pseudocode against the rows of 41_transport_transfers.md R144 and R145, from acceptance to the
response.
-/

namespace Sys2Proof.Machine

/-- How the small-step form of an operation ends, against its big-step body `r`; where that has not ended, the small-step form comes
to the same state in a wait phase. -/
def OperationEnds (i : Instr) (fuel : Nat) (s : State) : Ran → Prop
  | .went t => ∃ k, runOperation k i s = some (respondOk i t)
  | .raised e info t => ∃ k, runOperation k i s = some (t.respond e info [])
  | .outOfFuel t => ∃ k p, fuel ≤ k ∧ GoesIn i k s (t.goto p)

theorem OperationEnds.before {i : Instr} {fuel k : Nat} {s t : State} {r : Ran} (h : GoesIn i k s t)
    (g : OperationEnds i fuel t r) : OperationEnds i fuel s r := by
  cases r with
  | went u => exact let ⟨m, hm⟩ := g; ⟨k + m, h.ends hm⟩
  | raised e info u => exact let ⟨m, hm⟩ := g; ⟨k + m, h.ends hm⟩
  | outOfFuel u => exact let ⟨m, p, hu, hm⟩ := g; ⟨k + m, p, by omega, h.trans hm⟩

/-- At S_DONE with an error, or with OK and no session left, the response is given. -/
theorem Running.respond {i : Instr} {ses : Session} {s : State} (h : Running i ses s) {e : ErrKind} (info : Nat)
    (hm : e = .ok → moreSessions i s = false) :
    exec i (s.finish e info) = .next (finishOf i (s.finish e info)) := by
  have h' : Running i ses (s.finish e info) := h.of (by simp) (by simp) (by simp)
  rw [exec_busy h'.isOp h'.busy h'.op, rowOf_done h'.session (by simp), if_neg]
  rintro ⟨he, hmore⟩
  have he' : e = .ok := by simpa using he
  have : moreSessions i (s.finish e info) = moreSessions i s := rfl
  rw [this, hm he'] at hmore
  cases hmore

theorem Running.raised {i : Instr} {ses : Session} {s : State} (h : Running i ses s) {e : ErrKind} (he : e ≠ .ok)
    (info : Nat) : runOperation 1 i (s.finish e info) = some (s.respond e info []) := by
  have := h.respond (e := e) info (fun h => absurd h he)
  rw [finishOf_error i s he] at this
  exact runOperation_end this (by simp) 0

theorem Running.ended {i : Instr} {ses : Session} {s : State} (h : Running i ses s) (hm : moreSessions i s = false) :
    runOperation 1 i (s.finish .ok 0) = some (respondOk i s) := by
  have := h.respond (e := .ok) 0 (fun _ => hm)
  rw [finishOf_ok] at this
  exact runOperation_end this (by simp) 0

theorem laterSessions_end {i : Instr} (fuel : Nat) (hc : i.isCommandLayer = true) : ∀ (rest : List Session)
    (ses : Session) (s : State), Running i ses s → s.doneCode = .ok → s.doneInfo = 0 → (sessionsOf i).drop (s.sub + 1) = rest →
      OperationEnds i fuel (s.finish .ok 0) (laterSessionsProc fuel rest s) := by
  intro rest
  induction rest with
  | nil =>
    intro ses s h hk hi hd
    refine ⟨1, h.ended ?_⟩
    have : (sessionsOf i).length ≤ s.sub + 1 := by simpa using hd
    simp [moreSessions]; omega
  | cons ses' rest ih =>
    intro ses s h hk hi hd
    have hlt : s.sub + 1 < (sessionsOf i).length := by
      by_contra hn
      rw [List.drop_eq_nil_of_le (by omega)] at hd
      cases hd
    have hget : (sessionsOf i)[s.sub + 1]? = some ses' := by
      have := congrArg List.head? hd
      simpa [List.head?_drop] using this
    have hd' : (sessionsOf i).drop (s.sub + 1 + 1) = rest := by
      have := congrArg List.tail hd
      simpa [List.tail_drop] using this
    have hr : Running i ses' s.nextSession :=
      ⟨h.isOp, by simpa using h.busy, by simpa using h.op, by simpa [sessionInFlight, hc] using hget⟩
    have h1 : GoesIn i 1 (s.finish .ok 0) s.nextSession := by
      have h' : Running i ses (s.finish .ok 0) := h.of (by simp) (by simp) (by simp)
      refine GoesIn.step ?_ hr.busy
      rw [exec_busy h'.isOp h'.busy h'.op, rowOf_done h'.session (by simp), if_pos (by simp [moreSessions, hc, hlt])]
      simp only [State.finish, State.nextSession, ← hk, ← hi]
    refine OperationEnds.before h1 ?_
    rw [laterSessionsProc]
    have hse := session_ends fuel hr (by simp)
    have hct := sessionProc_control fuel ses' s.nextSession
    have hre := sessionProc_raisesError fuel ses' s.nextSession
    cases hs : sessionProc fuel ses' s.nextSession with
    | outOfFuel t => rw [hs] at hse; exact hse
    | raised e info t =>
      rw [hs] at hse hct hre
      obtain ⟨k, hk⟩ := hse
      exact ⟨_, hk.ends ((hr.control hct).raised hre info)⟩
    | went t =>
      rw [hs] at hse hct
      obtain ⟨k, hk2⟩ := hse
      have hk' := hk
      refine OperationEnds.before hk2 (ih ses' t (hr.control hct) (by rw [hct.doneCode]; exact hk') (by rw [hct.doneInfo]; exact hi) ?_)
      rw [hct.sub]; simpa using hd'

/-- The sessions of an operation that moves data, small-step against big-step. -/
theorem sessions_end {i : Instr} {s : State} {ses : Session} {rest : List Session} (fuel : Nat)
    (hl : sessionsOf i = ses :: rest) (hrest : i.isCommandLayer = false → rest = [])
    (h : Running i ses s) (hp : s.ph = .chk) (hk : s.doneCode = .ok) (hi : s.doneInfo = 0)
    (hs : i.isCommandLayer = true → s.sub = 0) :
    OperationEnds i fuel s (sessionsProc fuel (sessionsOf i) s) := by
  rw [hl, sessionsProc]
  have hse := session_ends fuel h hp
  have hct := sessionProc_control fuel ses s
  have hre := sessionProc_raisesError fuel ses s
  cases hr : sessionProc fuel ses s with
  | outOfFuel t => rw [hr] at hse; exact hse
  | raised e info t =>
    rw [hr] at hse hct hre
    obtain ⟨k, hk⟩ := hse
    exact ⟨_, hk.ends ((h.control hct).raised hre info)⟩
  | went t =>
    rw [hr] at hse hct
    obtain ⟨k, hk2⟩ := hse
    refine OperationEnds.before hk2 ?_
    cases hc : i.isCommandLayer with
    | true =>
      refine laterSessions_end fuel hc rest ses t (h.control hct) (by rw [hct.doneCode, hk]) (by rw [hct.doneInfo, hi]) ?_
      rw [hct.sub, hs hc, hl]; rfl
    | false =>
      rw [hrest hc]
      exact ⟨1, (h.control hct).ended (by simp [moreSessions, hc])⟩

theorem close_end {s : State} (fuel : Nat) (hb : s.busy = true) (ho : s.op = some .closeOp) (hp : s.ph = .chk) :
    OperationEnds .closeOp fuel s (closeProc s) := by
  have hd : ∀ t : State, t.ph = .done → rowOf .closeOp t = .next (respondPlain t) := fun t h => by simp [rowOf, closeRow, h]
  have h1 := rowOf_goes (i := .closeOp) rfl hb ho (t := if s.status = .opened then s.goto .close else s.finish .ok 0)
    (by simp [rowOf, closeRow, hp]) (by split <;> simpa using hb)
  rw [closeProc]
  by_cases hs : s.status = .opened
  · simp only [hs, if_true] at h1 ⊢
    have h2 := rowOf_goes (i := .closeOp) (s := s.goto .close) (t := closeRelease (s.goto .close)) rfl
      (by simpa using hb) (by simpa using ho) rfl (by simpa [closeRelease] using hb)
    exact ⟨_, (h1.trans h2).ends (plain_done (i := .closeOp)
      (s := (s.emit .close).setClosed) rfl hb ho hd .ok 0)⟩
  · simp only [if_neg hs] at h1 ⊢
    exact ⟨_, h1.ends (plain_done (i := .closeOp) rfl hb ho hd .ok 0)⟩

theorem reset_end {s : State} (fuel : Nat) (hb : s.busy = true) (ho : s.op = some .resetDevice) (hp : s.ph = .chk) :
    OperationEnds .resetDevice fuel s (resetProc s) := by
  have hd : ∀ t : State, t.ph = .done → rowOf .resetDevice t = .next (respondPlain t) := fun t h => by
    simp [rowOf, resetRow, h]
  rw [resetProc]
  cases hr : s.la.reset with
  | none =>
    have h1 := rowOf_goes (i := .resetDevice) rfl hb ho (t := s.finish .configurationError roleReset)
      (by simp [rowOf, resetRow, hp, hr]) (by simpa using hb)
    exact ⟨_, h1.ends (plain_done (i := .resetDevice) rfl hb ho hd .configurationError roleReset)⟩
  | some r =>
    have h1 := rowOf_goes (i := .resetDevice) rfl hb ho (t := s.goto .rstA)
      (by simp [rowOf, resetRow, hp, hr]) (by simpa using hb)
    have h2 := rowOf_goes (i := .resetDevice) (s := s.goto .rstA) rfl (by simpa using hb) (by simpa using ho)
      (t := (s.driveReset r resetAssertLevel).goto .rstHold) (by simp [rowOf, resetRow, hr, withPin]) (by simpa using hb)
    have h3 := rowOf_goes (i := .resetDevice) (s := (s.driveReset r resetAssertLevel).goto .rstHold) rfl
      (by simpa using hb) (by simpa using ho)
      (t := ((s.driveReset r resetAssertLevel).emit (.hold tResetHold)).goto .rstD) (by simp [rowOf, resetRow])
      (by simpa using hb)
    have h4 := rowOf_goes (i := .resetDevice)
      (s := ((s.driveReset r resetAssertLevel).emit (.hold tResetHold)).goto .rstD) rfl
      (by simpa using hb) (by simpa using ho)
      (t := ((((s.driveReset r resetAssertLevel).emit (.hold tResetHold))).driveReset r resetAssertLevel.flip).finish .ok 0)
      (by simp [rowOf, resetRow, hr, withPin]) (by simpa using hb)
    exact ⟨_, (h1.trans (h2.trans (h3.trans h4))).ends (plain_done (i := .resetDevice)
      (s := ((s.driveReset r resetAssertLevel).emit (.hold tResetHold)).driveReset r resetAssertLevel.flip) rfl
      (by simpa using hb) (by simpa using ho) hd .ok 0)⟩

theorem waitReady_end {s : State} (fuel : Nat) (hb : s.busy = true) (ho : s.op = some .waitReady) (hp : s.ph = .chk) :
    OperationEnds .waitReady fuel s (waitReadyOp fuel s) := by
  have hd : ∀ t : State, t.ph = .done → rowOf .waitReady t = .next (respondPlain t) := fun t h => by
    simp [rowOf, waitReadyRow, h]
  rw [waitReadyOp]
  cases hy : s.la.ready with
  | none =>
    have h1 := rowOf_goes (i := .waitReady) rfl hb ho (t := s.finish .configurationError roleReady)
      (by simp [rowOf, waitReadyRow, hp, hy]) (by simpa using hb)
    exact ⟨_, h1.ends (plain_done (i := .waitReady) rfl hb ho hd .configurationError roleReady)⟩
  | some y =>
    have h1 := rowOf_goes (i := .waitReady) rfl hb ho (t := s.startWait.goto .wait)
      (by simp [rowOf, waitReadyRow, hp, hy]) (by simpa using hb)
    refine OperationEnds.before h1 ?_
    have hw := wait_goes (i := .waitReady) (y := y) (onReady := State.finish .ok 0)
      (onLimit := State.raise .deviceNotRespondingError 0) (fun t => by simp) (fun t => by simp) fuel
      (s.startWait.goto .wait) (fun t c => by
        have hp' : t.ph = .wait := c.ph
        rw [exec_busy rfl (c.busy.trans (by simpa using hb)) (c.op.trans (by simpa using ho))]
        simp [rowOf, waitReadyRow, hp']) (by simpa using hb) (by simpa using hy)
    rw [waitLoop_goto] at hw
    have hct := waitReadyProc_control fuel y s
    dsimp only
    rw [waitReadyProc] at hct ⊢
    cases hr : waitLoop fuel y s.startWait with
    | outOfFuel t => rw [hr] at hw; exact let ⟨k, hk⟩ := hw; ⟨k, _, hk⟩
    | raised e info t =>
      rw [hr] at hw hct
      obtain ⟨rfl, rfl, k, hk⟩ := hw
      exact ⟨_, hk.ends (plain_done (i := .waitReady) (s := t) rfl (hct.busy.trans hb) (hct.op.trans ho) hd
        .deviceNotRespondingError 0)⟩
    | went t =>
      rw [hr] at hw hct
      obtain ⟨k, hk⟩ := hw
      exact ⟨_, hk.ends (plain_done (i := .waitReady) (s := t) rfl (hct.busy.trans hb) (hct.op.trans ho) hd .ok 0)⟩

@[simp] theorem openToCsInit_goto (la : LineAssign) (p : Phase) (s : State) :
    openToCsInit la (s.goto p) = openToCsInit la s := by simp [openToCsInit, openEnd]

@[simp] theorem openToCfgRdy_goto (la : LineAssign) (p : Phase) (s : State) :
    openToCfgRdy la (s.goto p) = openToCfgRdy la s := by simp [openToCfgRdy]

@[simp] theorem openToCfgRst_goto (la : LineAssign) (p : Phase) (s : State) :
    openToCfgRst la (s.goto p) = openToCfgRst la s := by simp [openToCfgRst]

@[simp] theorem openToCfgCs_goto (la : LineAssign) (p : Phase) (s : State) :
    openToCfgCs la (s.goto p) = openToCfgCs la s := by simp [openToCfgCs]

@[simp] theorem openToCsInit_busy (la : LineAssign) (s : State) : (openToCsInit la s).busy = s.busy := by
  rw [openToCsInit]; split <;> simp [openEnd]

@[simp] theorem openToCfgRdy_busy (la : LineAssign) (s : State) : (openToCfgRdy la s).busy = s.busy := by
  rw [openToCfgRdy]; split <;> simp

@[simp] theorem openToCfgRst_busy (la : LineAssign) (s : State) : (openToCfgRst la s).busy = s.busy := by
  rw [openToCfgRst]; split <;> simp

@[simp] theorem openToCfgCs_busy (la : LineAssign) (s : State) : (openToCfgCs la s).busy = s.busy := by
  rw [openToCfgCs]; split <;> simp

theorem open_end {la : LineAssign} {s : State} (fuel : Nat) (hb : s.busy = true) (ho : s.op = some (.openOp la))
    (hp : s.ph = .chk) : OperationEnds (.openOp la) fuel s (openProc la s) := by
  have hd : ∀ t : State, t.ph = .done → rowOf (.openOp la) t = .next (respondPlain t) := fun t h => by
    simp [rowOf, openRow, h]
  have h1 := rowOf_goes (i := .openOp la) rfl hb ho (t := s.goto .init) (by simp [rowOf, openRow, hp])
    (by simpa using hb)
  have row : ∀ (p : Phase) (t u : State), t.busy = true → t.op = some (.openOp la) → openRow la (t.goto p) = .next u →
      u.busy = true → GoesIn (.openOp la) 1 (t.goto p) u := fun p t u hb ho hr hu =>
    rowOf_goes (i := .openOp la) rfl (by simpa using hb) (by simpa using ho) hr hu
  -- the tail of OPEN from each skippable phase on
  have e5 : ∀ t : State, t.busy = true → t.op = some (.openOp la) →
      ∃ k, GoesIn (.openOp la) k (openToCsInit la t)
        (((ifAssigned la.chipSelect State.csDeassert t).setOpened la).finish .ok 0) := by
    intro t hb ho
    cases hc : la.chipSelect with
    | none => exact ⟨0, by simpa [openToCsInit, hc, ifAssigned, openEnd] using GoesIn.refl _ _⟩
    | some c =>
      refine ⟨1, ?_⟩
      simp only [openToCsInit, hc, Option.isSome_some, if_true, ifAssigned]
      exact row .csInit t _ hb ho (by simp [openRow, hc, withPin, openEnd]) (by simpa using hb)
  have e4 : ∀ t : State, t.busy = true → t.op = some (.openOp la) →
      ∃ k, GoesIn (.openOp la) k (openToCfgRdy la t)
        (openToCsInit la (ifAssigned la.ready (fun y t => pullDown y (t.emit (.configurePin y .input))) t)) := by
    intro t hb ho
    cases hc : la.ready with
    | none => exact ⟨0, by simpa [openToCfgRdy, hc, ifAssigned] using GoesIn.refl _ _⟩
    | some y =>
      simp only [openToCfgRdy, hc, Option.isSome_some, if_true, ifAssigned]
      have a := row .cfgRdy t ((t.emit (.configurePin y .input)).goto .pullRdy) hb ho (by simp [openRow, hc, withPin])
        (by simpa using hb)
      have b := row .pullRdy (t.emit (.configurePin y .input))
        (openToCsInit la (pullDown y (t.emit (.configurePin y .input))))
        (by simpa using hb) (by simpa using ho) (by simp [openRow, hc, withPin, pullDown])
        (by simpa [pullDown] using hb)
      exact ⟨_, a.trans b⟩
  have e3 : ∀ t : State, t.busy = true → t.op = some (.openOp la) →
      ∃ k, GoesIn (.openOp la) k (openToCfgRst la t) (openToCfgRdy la (ifAssigned la.reset configureOutput t)) := by
    intro t hb ho
    cases hc : la.reset with
    | none => exact ⟨0, by simpa [openToCfgRst, hc, ifAssigned] using GoesIn.refl _ _⟩
    | some r =>
      simp only [openToCfgRst, hc, Option.isSome_some, if_true, ifAssigned]
      exact ⟨1, row .cfgRst t _ hb ho (by simp [openRow, hc, withPin, configureOutput])
        (by simpa [configureOutput] using hb)⟩
  have e2 : ∀ t : State, t.busy = true → t.op = some (.openOp la) →
      ∃ k, GoesIn (.openOp la) k (openToCfgCs la t) (openToCfgRst la (ifAssigned la.chipSelect configureOutput t)) := by
    intro t hb ho
    cases hc : la.chipSelect with
    | none => exact ⟨0, by simpa [openToCfgCs, hc, ifAssigned] using GoesIn.refl _ _⟩
    | some c =>
      simp only [openToCfgCs, hc, Option.isSome_some, if_true, ifAssigned]
      exact ⟨1, row .cfgCs t _ hb ho (by simp [openRow, hc, withPin, configureOutput])
        (by simpa [configureOutput] using hb)⟩
  have keep : ∀ (p : Option Pin) (k : Pin → State → State) (t : State), (∀ q u, (k q u).busy = u.busy) →
      (∀ q u, (k q u).op = u.op) → t.busy = true → t.op = some (.openOp la) →
      (ifAssigned p k t).busy = true ∧ (ifAssigned p k t).op = some (.openOp la) := by
    intro p k t h1 h2 hb ho
    cases p with
    | none => exact ⟨hb, ho⟩
    | some q => exact ⟨(h1 q t).trans hb, (h2 q t).trans ho⟩
  refine OperationEnds.before h1 ?_
  have hinit := row .init s (openInit la (s.goto .init)) hb ho rfl (by
    rw [openInit]; split <;> simpa using hb)
  refine OperationEnds.before hinit ?_
  rw [openProc]
  by_cases ha : s.evInit.1 = true
  · have hi : openInit la (s.goto .init)
        = openToCfgCs la (s.evInit.2.setMode ⟨.msbFirst, s.cfg.spiCpol, s.cfg.spiCpha, s.cfg.spiClkdiv⟩) := by
      rw [openInit]
      rw [if_pos (by simpa using ha)]; simp
    rw [hi]
    simp only [ha, if_true]
    generalize hs1 : s.evInit.2.setMode ⟨.msbFirst, s.cfg.spiCpol, s.cfg.spiCpha, s.cfg.spiClkdiv⟩ = s1
    have b1 : s1.busy = true := by rw [← hs1]; simpa using hb
    have o1 : s1.op = some (.openOp la) := by rw [← hs1]; simpa using ho
    obtain ⟨b2, o2⟩ := keep la.chipSelect configureOutput s1 (by simp [configureOutput]) (by simp [configureOutput]) b1 o1
    obtain ⟨b3, o3⟩ := keep la.reset configureOutput _ (by simp [configureOutput]) (by simp [configureOutput]) b2 o2
    obtain ⟨b4, o4⟩ := keep la.ready (fun y t => pullDown y (t.emit (.configurePin y .input))) _
      (by simp [pullDown]) (by simp [pullDown]) b3 o3
    obtain ⟨b5, o5⟩ := keep la.chipSelect State.csDeassert _ (by simp) (by simp) b4 o4
    obtain ⟨k2, g2⟩ := e2 s1 b1 o1
    obtain ⟨k3, g3⟩ := e3 _ b2 o2
    obtain ⟨k4, g4⟩ := e4 _ b3 o3
    obtain ⟨k5, g5⟩ := e5 _ b4 o4
    exact ⟨_, (g2.trans (g3.trans (g4.trans g5))).ends
      (plain_done (i := .openOp la) rfl (by simpa using b5) (by simpa using o5) hd .ok 0)⟩
  · have hi : openInit la (s.goto .init) = s.evInit.2.finish .initializationError 0 := by
      rw [openInit]
      rw [if_neg (by simpa using ha)]; simp
    rw [hi]
    simp only [if_neg ha]
    exact ⟨_, plain_done (i := .openOp la) (s := s.evInit.2) rfl (by simpa using hb) (by simpa using ho) hd
      .initializationError 0⟩

/-- Every operation once accepted: small-step against big-step. -/
theorem operation_end {i : Instr} (hi : i.isOperation = true) (fuel : Nat) (s : State) :
    OperationEnds i fuel (s.begin i) (bodyProc fuel i (s.begin i)) := by
  have run : ∀ ses, sessionInFlight i (s.begin i) = some ses → Running i ses (s.begin i) := fun ses h =>
    ⟨hi, by simp, by simp, h⟩
  cases i with
  | openOp la => exact open_end fuel (by simp) (by simp) (by simp)
  | closeOp => exact close_end fuel (by simp) (by simp) (by simp)
  | resetDevice => exact reset_end fuel (by simp) (by simp) (by simp)
  | waitReady => exact waitReady_end fuel (by simp) (by simp) (by simp)
  | read p count =>
    exact sessions_end fuel rfl (fun _ => rfl) (run _ rfl) (by simp) (by simp) (by simp) (by simp [Instr.isCommandLayer])
  | write p ws =>
    exact sessions_end fuel rfl (fun _ => rfl) (run _ rfl) (by simp) (by simp) (by simp) (by simp [Instr.isCommandLayer])
  | writeBulk bs =>
    exact sessions_end fuel rfl (fun _ => rfl) (run _ rfl) (by simp) (by simp) (by simp) (by simp [Instr.isCommandLayer])
  | writeCommand code args =>
    exact sessions_end (rest := args.map fun a => .write preDataWrite [a]) fuel rfl (by simp [Instr.isCommandLayer])
      (run _ rfl) (by simp) (by simp) (by simp) (by simp [Instr.isCommandLayer])
  | writeData ws =>
    exact sessions_end fuel rfl (fun _ => rfl) (run _ rfl) (by simp) (by simp) (by simp) (by simp [Instr.isCommandLayer])
  | readData count =>
    exact sessions_end fuel rfl (fun _ => rfl) (run _ rfl) (by simp) (by simp) (by simp) (by simp [Instr.isCommandLayer])
  | readSingleWord =>
    exact sessions_end fuel rfl (fun _ => rfl) (run _ rfl) (by simp) (by simp) (by simp) (by simp [Instr.isCommandLayer])
  | writePixels ws =>
    exact sessions_end fuel rfl (fun _ => rfl) (run _ rfl) (by simp) (by simp) (by simp) (by simp [Instr.isCommandLayer])
  | preambleWriteData => cases hi
  | preambleReadData => cases hi
  | preambleWriteCommand => cases hi

/-- An accepted operation whose body goes through responds with OK. -/
theorem accepted_runs {i : Instr} (hi : i.isOperation = true) {s t v : State} {fuel : Nat} (hb : s.busy = false)
    (ha : accept i s = .next t) (h : bodyProc fuel i (s.begin i) = .went v) :
    ∃ k, runOperation k i s = some (respondOk i v) := by
  obtain ⟨-, hg⟩ := accept_goes hi hb ha
  have he := operation_end hi fuel s
  rw [h] at he
  obtain ⟨k, hk⟩ := he
  exact ⟨_, hg.ends hk⟩

/-- An accepted operation whose body raises an error responds with it. -/
theorem accepted_fails {i : Instr} (hi : i.isOperation = true) {s t v : State} {fuel info : Nat} {e : ErrKind}
    (hb : s.busy = false) (ha : accept i s = .next t) (h : bodyProc fuel i (s.begin i) = .raised e info v) :
    ∃ k, runOperation k i s = some (v.respond e info []) := by
  obtain ⟨-, hg⟩ := accept_goes hi hb ha
  have he := operation_end hi fuel s
  rw [h] at he
  obtain ⟨k, hk⟩ := he
  exact ⟨_, hg.ends hk⟩

/-- An operation that ends was accepted, and its body went through or raised an error. -/
theorem run_body {i : Instr} (hi : i.isOperation = true) {k : Nat} {s u : State} (hb : s.busy = false)
    (h : runOperation k i s = some u) : accept i s = .next (s.begin i) ∧
      ((∃ v, bodyProc k i (s.begin i) = .went v ∧ u = respondOk i v) ∨
        ∃ e info v, bodyProc k i (s.begin i) = .raised e info v ∧ u = v.respond e info []) := by
  cases ha : accept i s with
  | fault r => rw [not_accepted hi hb (by simp [ha])] at h; cases h
  | refused r => rw [not_accepted hi hb (by simp [ha])] at h; cases h
  | next t =>
    obtain ⟨rfl, hg⟩ := accept_goes hi hb ha
    refine ⟨rfl, ?_⟩
    have he := operation_end hi k s
    revert he
    cases hr : bodyProc k i (s.begin i) with
    | went v => rintro ⟨m, hm⟩; exact .inl ⟨v, rfl, runOperation_unique h (hg.ends hm)⟩
    | raised e info v => rintro ⟨m, hm⟩; exact .inr ⟨e, info, v, rfl, runOperation_unique h (hg.ends hm)⟩
    | outOfFuel v =>
      rintro ⟨m, p, hm, hv⟩
      have hn := (hg.trans hv).not_ended
      have := runOperation_mono (1 + m - k) h
      rw [show k + (1 + m - k) = 1 + m by omega, hn] at this
      cases this

end Sys2Proof.Machine
end

