-- ==== Sys2Proof/Laws/Ends.lean ====
section
/-!
SUPPORT. How an operation ends: what completes, what fails, and the cases of an operation that ran to its end.
-/

namespace Sys2Proof.Machine

theorem exec_accepts {i : Instr} {s : State} (hi : i.isOperation = true) (hb : s.busy = false) (hv : offerValid i = true)
    (ha : admits i s.status = none) : exec i s = .next (s.accepted i) := by
  rw [exec_idle hi hb, accept, if_pos hv, ha]; rfl

theorem operation_completes {i : Instr} {s v u : State} {fuel : Nat} (hi : i.isOperation = true) (hb : s.busy = false) (hv : offerValid i = true)
    (ha : admits i s.status = none) (h : bodyProc fuel i (s.begin i) = .went v) (hu : respondOk i v = u) :
    exec i s = .next (s.accepted i) ∧ ∃ k, runOperation k i s = some u := by
  have he := exec_accepts hi hb hv ha
  refine ⟨he, ?_⟩
  rw [exec_idle hi hb] at he
  rw [← hu]
  exact accepted_runs hi hb he h

theorem operation_fails {i : Instr} {s v u : State} {fuel : Nat} {e : ErrKind} {info : Nat} (hi : i.isOperation = true) (hb : s.busy = false) (hv : offerValid i = true)
    (ha : admits i s.status = none) (h : bodyProc fuel i (s.begin i) = .raised e info v) (hu : v.respond e info [] = u) :
    exec i s = .next (s.accepted i) ∧ ∃ k, runOperation k i s = some u := by
  have he := exec_accepts hi hb hv ha
  refine ⟨he, ?_⟩
  rw [exec_idle hi hb] at he
  rw [← hu]
  exact accepted_fails hi hb he h

theorem sessions_one (fuel : Nat) (ses : Session) (s : State) : sessionsProc fuel [ses] s = (sessionProc fuel ses s) := by
  simp only [sessionsProc, laterSessionsProc]
  cases sessionProc fuel ses s <;> rfl

theorem ifAssigned_some {p : Option Pin} {q : Pin} (h : p = some q) (k : Pin → State → State) (s : State) : ifAssigned p k s = k q s := by
  simp [ifAssigned, h]

theorem bodyProc_one {i : Instr} {ses : Session} (h : sessionsOf i = [ses]) (fuel : Nat) (s : State) :
    bodyProc fuel i s = sessionProc fuel ses s := by
  have : bodyProc fuel i s = sessionsProc fuel (sessionsOf i) s := by
    cases i <;> first | rfl | simp [sessionsOf] at h
  rw [this, h, sessions_one]

theorem session_error_not_ok {fuel : Nat} {ses : Session} {s t : State} {e : ErrKind} {info : Nat}
    (h : sessionProc fuel ses s = .raised e info t) : e ≠ .ok := by
  rcases session_raised h with ⟨-, rfl, -⟩ | ⟨-, -, rfl, -⟩ | ⟨_, _, _, _, -, -, rfl, -⟩ <;> simp

/-- A one-session operation that ends with OK. -/
theorem one_ok {i : Instr} {ses : Session} (h1 : sessionsOf i = [ses]) {k : Nat} {s u : State} (hb : s.busy = false)
    (h : runOperation k i s = some u) (hu : u.err = .ok) : s.status = .opened ∧ ∃ v, sessionProc k ses (s.begin i) = .went v ∧ u = respondOk i v := by
  have hi : i.isOperation = true := by cases i <;> first | rfl | simp [sessionsOf] at h1
  obtain ⟨ha, h⟩ := run_body hi hb h
  refine ⟨?_, ?_⟩
  · obtain ⟨-, hadm, -⟩ := accept_next ha
    cases i <;> simp [sessionsOf] at h1 <;> simpa [admits] using hadm
  rw [bodyProc_one h1] at h
  rcases h with h | ⟨e, info, v, hbody, rfl⟩
  · exact h
  · exact absurd (by simpa using hu) (session_error_not_ok hbody)

theorem one_fails {i : Instr} {ses : Session} (h1 : sessionsOf i = [ses]) {k : Nat} {s u : State} (hb : s.busy = false)
    (h : runOperation k i s = some u) : s.status = .opened ∧ ((∃ v, sessionProc k ses (s.begin i) = .went v ∧ u = respondOk i v) ∨
      ∃ e info v, sessionProc k ses (s.begin i) = .raised e info v ∧ u = v.respond e info []) := by
  have hi : i.isOperation = true := by cases i <;> first | rfl | simp [sessionsOf] at h1
  obtain ⟨ha, h⟩ := run_body hi hb h
  refine ⟨?_, ?_⟩
  · obtain ⟨-, hadm, -⟩ := accept_next ha
    cases i <;> simp [sessionsOf] at h1 <;> simpa [admits] using hadm
  rw [bodyProc_one h1] at h
  exact h

theorem respondOk_trace (i : Instr) (v : State) : (respondOk i v).trace = v.trace := by
  cases hh : hands i <;> simp [respondOk, hh]
  split <;> simp

theorem respondOk_err (i : Instr) (v : State) : (respondOk i v).err = .ok ∨ (respondOk i v).err = .emptyResponseError := by
  cases hh : hands i <;> simp [respondOk, hh]
  split <;> simp

theorem unpack_get : ∀ (bs : List Byte) (k : Nat) (b0 b1 : Byte), bs[2 * k]? = some b0 → bs[2 * k + 1]? = some b1 →
    (unpack bs)[k]? = some (word b0 b1) := by
  intro bs
  induction bs using unpack.induct with
  | case1 x y rest ih =>
    intro k b0 b1 h0 h1
    cases k with
    | zero => simp at h0 h1; subst h0 h1; simp [unpack]
    | succ k =>
      have : 2 * (k + 1) = 2 * k + 1 + 1 := by omega
      rw [this] at h0 h1
      simp at h0 h1
      simpa [unpack] using ih k b0 b1 h0 h1
  | case2 b => intro k b0 b1 h0 h1; cases k <;> simp at h0 h1
  | case3 => intro k b0 b1 h0; simp at h0

theorem unpack_length : ∀ (n : Nat) (bs : List Byte), bs.length = 2 * n → (unpack bs).length = n := by
  intro n
  induction n with
  | zero => intro bs h; have : bs = [] := by simpa using h
            subst this; rfl
  | succ n ih =>
    intro bs h
    match bs, h with
    | b0 :: b1 :: bs, h => simp [unpack, ih bs (by simp at h; omega)]
    | [b], h => simp at h; omega
    | [], h => simp at h

theorem pack_flatMap (ws : List Word) : pack ws = ws.flatMap fun w => [hi w, lo w] := by
  induction ws with
  | nil => rfl
  | cons w ws ih => simp [pack, ih]

structure SessionKept (s t : State) : Prop where
  la : t.la = s.la
  cfg : t.cfg = s.cfg
  responses : t.responses = s.responses
  err : t.err = s.err
  sub : t.sub = s.sub

theorem session_went_kept {fuel : Nat} {ses : Session} {s t : State} (h : sessionProc fuel ses s = .went t) :
    SessionKept s t ∧ (readSession ses = false → t.res = s.res ∧ t.rxh = s.rxh) ∧ (readSession ses = true → t.res.length = sessionLength ses) := by
  cases ses with
  | read p n =>
    obtain ⟨c, y, a, b, d, rx, hc, hy, hrx, -, -, -, ht⟩ := read_session_went h
    rw [ht]
    refine ⟨⟨rfl, rfl, rfl, rfl, rfl⟩, by simp [readSession], fun _ => unpack_length n _ (by simp [hrx])⟩
  | write p ws =>
    obtain ⟨c, y, a, b, rx, hc, hy, hrx, -, -, ht⟩ := write_session_went h
    rw [ht]
    exact ⟨⟨rfl, rfl, rfl, rfl, rfl⟩, fun _ => ⟨rfl, rfl⟩, by simp [readSession]⟩
  | bulk bs =>
    obtain ⟨c, y, a, b, rx, hc, hy, hrx, -, -, ht⟩ := bulk_session_went h
    rw [ht]
    exact ⟨⟨rfl, rfl, rfl, rfl, rfl⟩, fun _ => ⟨rfl, rfl⟩, by simp [readSession]⟩

/-- How a session can fail. -/
def SessFail (s : State) (e : ErrKind) (info : Nat) : Prop :=
  (e = .configurationError ∧ (s.la.chipSelect = none ∨ s.la.ready = none)) ∨
  (e = .deviceNotRespondingError ∧ info = 0 ∧ ∃ limit, s.cfg.readyPollLimit = some limit)

theorem session_raised_kept {fuel : Nat} {ses : Session} {s t : State} {e : ErrKind} {info : Nat}
    (h : sessionProc fuel ses s = .raised e info t) : SessFail s e info ∧ t.responses = s.responses ∧ t.res = s.res ∧ t.rxh = s.rxh := by
  rcases session_raised h with ⟨h1, rfl, -, rfl⟩ | ⟨-, h1, rfl, -, rfl⟩ | ⟨c, y, limit, m, hc, hy, rfl, rfl, hl, -, ht | ⟨a, rx, hrx, ht⟩ | ⟨-, a, b, rx, hrx, ht⟩⟩
  · exact ⟨.inl ⟨rfl, .inl h1⟩, rfl, rfl, rfl⟩
  · exact ⟨.inl ⟨rfl, .inr h1⟩, rfl, rfl, rfl⟩
  all_goals rw [ht]; exact ⟨.inr ⟨rfl, rfl, limit, hl⟩, rfl, rfl, rfl⟩

theorem later_ends (fuel : Nat) : ∀ (sess : List Session) (s : State), (∀ ses ∈ sess, readSession ses = false) →
    (∀ t, laterSessionsProc fuel sess s = .went t → t.responses = s.responses ∧ t.res = s.res ∧ t.rxh = s.rxh) ∧
    (∀ e info t, laterSessionsProc fuel sess s = .raised e info t → SessFail s e info ∧ t.responses = s.responses ∧ t.res = s.res ∧ t.rxh = s.rxh) := by
  intro sess
  induction sess with
  | nil => intro s _; refine ⟨fun t h => ?_, fun e info t h => ?_⟩ <;> cases h; exact ⟨rfl, rfl, rfl⟩
  | cons ses rest ih =>
    intro s hr
    have hr1 := hr ses (by simp)
    have hr2 : ∀ ses ∈ rest, readSession ses = false := fun x hx => hr x (List.mem_cons_of_mem _ hx)
    refine ⟨fun t h => ?_, fun e info t h => ?_⟩
    · obtain ⟨u, hu, h⟩ := Ran.andThen_went h
      obtain ⟨hk, h1, -⟩ := session_went_kept hu
      obtain ⟨a, b, c⟩ := (ih u hr2).1 t h
      obtain ⟨h2, h3⟩ := h1 hr1
      exact ⟨by rw [a, hk.responses]; rfl, by rw [b, h2]; rfl, by rw [c, h3]; rfl⟩
    · rcases Ran.andThen_raised h with h | ⟨u, hu, h⟩
      · exact session_raised_kept (s := s.nextSession) h
      · obtain ⟨hk, h1, -⟩ := session_went_kept hu
        obtain ⟨a, b, c, d⟩ := (ih u hr2).2 e info t h
        obtain ⟨h2, h3⟩ := h1 hr1
        refine ⟨?_, by rw [b, hk.responses]; rfl, by rw [c, h2]; rfl, by rw [d, h3]; rfl⟩
        simpa [SessFail, hk.la, hk.cfg] using a

/-- The body of an operation that moves data. -/
theorem transfer_body {i : Instr} (ht : isTransfer i = true) (fuel : Nat) (s : State) : bodyProc fuel i s = sessionsProc fuel (sessionsOf i) s := by
  cases i <;> first | rfl | simp [isTransfer, sessionsOf] at ht

theorem transfer_sessions {i : Instr} (ht : isTransfer i = true) : (∃ ses, sessionsOf i = [ses]) ∨ ∃ code args, i = .writeCommand code args := by
  cases i <;> first | exact .inl ⟨_, rfl⟩ | exact .inr ⟨_, _, rfl⟩ | simp [isTransfer, sessionsOf] at ht

theorem transfer_ends {i : Instr} (ht : isTransfer i = true) (fuel : Nat) (s : State) :
    (∀ t, bodyProc fuel i s = .went t → t.responses = s.responses ∧ ((∀ ses ∈ sessionsOf i, readSession ses = false) → t.res = s.res ∧ t.rxh = s.rxh) ∧
      (∀ ses, sessionsOf i = [ses] → readSession ses = true → t.res.length = sessionLength ses)) ∧
    (∀ e info t, bodyProc fuel i s = .raised e info t → SessFail s e info ∧ t.responses = s.responses ∧ t.res = s.res ∧ t.rxh = s.rxh) := by
  rw [transfer_body ht]
  rcases transfer_sessions ht with ⟨ses, hs⟩ | ⟨code, args, rfl⟩
  · rw [hs, sessions_one]
    refine ⟨fun t h => ?_, fun e info t h => session_raised_kept h⟩
    obtain ⟨hk, h1, h2⟩ := session_went_kept h
    exact ⟨hk.responses, fun h => h1 (h ses (by simp)), fun ses' h' => by simp at h'; subst h'; exact h2⟩
  · have hr : ∀ ses ∈ args.map fun a => Session.write preDataWrite [a], readSession ses = false := by
      intro ses h; simp only [List.mem_map] at h; obtain ⟨a, -, rfl⟩ := h; rfl
    refine ⟨fun t h => ?_, fun e info t h => ?_⟩
    · obtain ⟨u, hu, h⟩ := Ran.andThen_went h
      obtain ⟨hk, h1, -⟩ := session_went_kept hu
      obtain ⟨a, b, c⟩ := (later_ends fuel _ u hr).1 t h
      obtain ⟨h2, h3⟩ := h1 rfl
      refine ⟨by rw [a, hk.responses], fun _ => ⟨by rw [b, h2], by rw [c, h3]⟩, fun ses hses => ?_⟩
      simp only [sessionsOf, commandSessions] at hses
      injection hses with h1 h2; subst h1; simp [readSession]
    · rcases Ran.andThen_raised h with h | ⟨u, hu, h⟩
      · exact session_raised_kept h
      · obtain ⟨hk, h1, -⟩ := session_went_kept hu
        obtain ⟨a, b, c, d⟩ := (later_ends fuel _ u hr).2 e info t h
        obtain ⟨h2, h3⟩ := h1 rfl
        refine ⟨?_, by rw [b, hk.responses], by rw [c, h2], by rw [d, h3]⟩
        simpa [SessFail, hk.la, hk.cfg] using a

/-- How an operation that runs to its end ends. -/
theorem ends_cases {i : Instr} {s u : State} {k : Nat} (hi : i.isOperation = true) (hb : s.busy = false) (h : runOperation k i s = some u) :
    (u.err = .ok ∧ (∃ result, u.responses = s.responses ++ [⟨0x00#8, 0, result⟩] ∧
      result.length = (match i with | .read _ n => n | .readData n => n | .readSingleWord => 1 | _ => 0)) ∧
      (∀ la, i = .openOp la → ∃ es, u.trace = s.trace ++ (.init true :: es))) ∨
    (u.err = .initializationError ∧ (∃ la, i = .openOp la) ∧ u.trace = s.trace ++ [.init false]) ∨
    (u.err = .configurationError ∧ missingRole i s.la ≠ none) ∨
    (u.err = .deviceNotRespondingError ∧ (i = .waitReady ∨ isTransfer i = true) ∧ (∃ limit, s.cfg.readyPollLimit = some limit) ∧
      u.responses = s.responses ++ [⟨0x04#8, 0, []⟩]) := by
  obtain ⟨ha, hbody⟩ := run_body hi hb h
  cases hti : isTransfer i with
  | true =>
    obtain ⟨e1, e2⟩ := transfer_ends hti k (s.begin i)
    rcases hbody with ⟨v, hv, rfl⟩ | ⟨e, info, v, hv, rfl⟩
    · obtain ⟨h1, h2, h3⟩ := e1 v hv
      left
      cases i <;> simp [isTransfer, sessionsOf] at hti <;> simp [respondOk, hands, h1, ErrKind.code]
      · simpa [readSession, sessionLength] using h3 _ rfl rfl
      · simpa [readSession, sessionLength] using h3 _ rfl rfl
      · have := h3 _ rfl rfl
        cases hres : v.res with
        | nil => rw [hres] at this; simp [sessionLength] at this
        | cons w ws => simp [h1, ErrKind.code]
    · obtain ⟨h1, h2, h3⟩ := e2 e info v hv
      right; right
      rcases h1 with ⟨rfl, h1⟩ | ⟨rfl, rfl, limit, hl⟩
      · left
        refine ⟨rfl, ?_⟩
        simp only [State.begin_la] at h1
        cases i <;> simp [isTransfer, sessionsOf] at hti <;> simp only [missingRole]
        all_goals
          cases hc : s.la.chipSelect with
          | none => simp
          | some c =>
            cases hy : s.la.ready with
            | none => simp
            | some y => simp [hc, hy] at h1
      · right
        exact ⟨rfl, .inr rfl, ⟨limit, by simpa using hl⟩, by simp [h2, ErrKind.code]⟩
  | false =>
    cases i <;> simp [isTransfer, sessionsOf, Instr.isOperation, commandSessions] at hti hi
    · rename_i la
      rcases hbody with ⟨v, hv, rfl⟩ | ⟨e, info, v, hv, rfl⟩
      · left
        simp only [bodyProc, openProc] at hv
        split at hv
        · injection hv with hv
          subst hv
          rename_i hok
          have hok : s.env.takeInit.1 = true := hok
          refine ⟨by simp [respondOk, hands], ?_, ?_⟩
          · cases hc : la.chipSelect <;> cases hr : la.reset <;> cases hy : la.ready <;>
              simp [respondOk, hands, ifAssigned, configureOutput, pullDown, ErrKind.code]
          · intro _ _
            cases hc : la.chipSelect <;> cases hr : la.reset <;> cases hy : la.ready <;>
              simp [respondOk, hands, ifAssigned, configureOutput, pullDown, hok]
        · cases hv
      · right; left
        simp only [bodyProc, openProc] at hv
        split at hv
        · cases hv
        · cases hv
          refine ⟨rfl, ⟨la, rfl⟩, ?_⟩
          rename_i hne
          simp [State.evInit, State.emit] at hne ⊢
          exact hne
    · left
      rcases hbody with ⟨v, hv, rfl⟩ | ⟨e, info, v, hv, rfl⟩
      · simp only [bodyProc, closeProc] at hv
        split at hv <;> cases hv <;> simp [respondOk, hands, ErrKind.code]
      · simp only [bodyProc, closeProc] at hv
        split at hv <;> cases hv
    · rcases hbody with ⟨v, hv, rfl⟩ | ⟨e, info, v, hv, rfl⟩
      · left
        simp only [bodyProc, resetProc] at hv
        split at hv <;> cases hv
        simp [respondOk, hands, ErrKind.code]
      · right; right; left
        simp only [bodyProc, resetProc, State.begin_la] at hv
        split at hv <;> cases hv
        rename_i hr
        exact ⟨rfl, by simp [missingRole, hr]⟩
    · simp only [bodyProc, waitReadyOp, State.begin_la] at hbody
      rcases hbody with ⟨v, hv, rfl⟩ | ⟨e, info, v, hv, rfl⟩
      · left
        split at hv
        · cases hv
        · obtain ⟨a, ht, -⟩ := waitReadyProc_went hv
          have : v.responses = s.responses := by rw [ht]; rfl
          simp [respondOk, hands, ErrKind.code, this]
      · right; right
        split at hv
        · left; cases hv
          rename_i hr
          exact ⟨rfl, by simp [missingRole, hr]⟩
        · right
          obtain ⟨rfl, rfl, limit, m, hl, -, ht⟩ := waitReadyProc_raised hv
          have : v.responses = s.responses := by rw [ht]; rfl
          exact ⟨rfl, .inl rfl, ⟨limit, by simpa using hl⟩, by simp [this, ErrKind.code]⟩

end Sys2Proof.Machine
end

