-- ==== Sys2Proof/Laws/Commands.lean ====
section
/-!
SUPPORT. The sessions of WRITE_COMMAND after its first, with the environment's answers given.
-/

namespace Sys2Proof.Machine

/-- The events of sessions that write one Word each. -/
def roundEvents (cfg : Config) (c y : Pin) (pws : List (Word × Word)) (rounds : List Round) : List Event :=
  (List.zipWith (fun pw r => writeFrame cfg c y pw.1 [pw.2] r.firstWait r.secondWait r.received) pws rounds).flatten

theorem later_writes_answer {fuel : Nat} {c y : Pin} {levels : List Level} {bytes : List Byte} : ∀ (args : List Word) (rounds : List Round) (s : State),
    rounds.length = args.length → (∀ r ∈ rounds, withinLimit s.cfg r.firstWait ∧ withinLimit s.cfg r.secondWait ∧
      r.received.length = 4 ∧ r.firstWait < fuel ∧ r.secondWait < fuel) →
    s.la.chipSelect = some c → s.la.ready = some y → s.csOut = some .deasserted → s.n = 1 → s.idx = 1 → s.ph = .chk →
    s.env.readyLevels = rounds.flatMap Round.levels ++ levels → s.env.rxBytes = rounds.flatMap Round.received ++ bytes →
    laterSessionsProc fuel (args.map fun a => .write preDataWrite [a]) s = .went { s with
      pre := if args = [] then s.pre else 0x0000#16
      polls := (rounds.getLast?.map Round.secondWait).getD s.polls
      sub := s.sub + args.length
      trace := s.trace ++ roundEvents s.cfg c y (args.map fun a => (preDataWrite, a)) rounds
      env := { s.env with readyLevels := levels, rxBytes := bytes } } := by
  intro args
  induction args with
  | nil =>
    intro rounds s hlen hr hc hy h1 h2 h3 h4 hl hx
    have : rounds = [] := by simpa using hlen
    subst this
    simp only [laterSessionsProc, List.map_nil]
    congr 1
    have hl' : s.env.readyLevels = levels := by simpa using hl
    have hx' : s.env.rxBytes = bytes := by simpa using hx
    subst hl' hx'
    ext1 <;> simp [roundEvents]
  | cons a args ih =>
    intro rounds s hlen hr hc hy h1 h2 h3 h4 hl hx
    match rounds, hlen with
    | r :: rounds, hlen =>
      obtain ⟨ha, hb, hrx, hfa, hfb⟩ := hr r (by simp)
      simp only [laterSessionsProc, List.map_cons]
      rw [write_session_answers (s := s.nextSession) (c := c) (y := y) (a := r.firstWait) (b := r.secondWait) (rx := r.received) (bytes := rounds.flatMap Round.received ++ bytes)
        (levels := rounds.flatMap Round.levels ++ levels) (by simpa using hc) (by simpa using hy) (by simpa using ha) (by simpa using hb) hfa hfb (by simpa using hrx)
        (by simp [hl, Round.levels]) (by simp [hx])]
      simp only [Ran.andThen]
      rw [ih rounds _ (by simpa using hlen) (fun r' hr' => by simpa using hr r' (List.mem_cons_of_mem _ hr')) (by simpa using hc) (by simpa using hy) rfl rfl rfl
        (by simp) rfl rfl]
      congr 1
      ext1 <;> simp [roundEvents, h1, h2, h3, h4]
      · rw [List.getLast?_cons]; cases rounds.getLast? <;> rfl
      · omega
    | [], hlen => simp at hlen

end Sys2Proof.Machine
end

