-- ==== Sys2Proof/Laws/Descriptor.lean ====
section
/-!
SUPPORT. The pieces of the round trip between `encode` and `decode`: the fields of the header and of the line assignment word, the
items after the header, and what each format accepts.
-/

namespace Sys2Proof

/-! ### The fields of the two 32-bit words -/

theorem getLsbD_header (o : BitVec 4) (a : Word) (i : Nat) :
    BitVec.getLsbD (o ++ 0#12 ++ a : BitVec 32) i = if i < 16 then a.getLsbD i else if i < 28 then false else o.getLsbD (i - 28) := by
  have h1 := BitVec.getLsbD_append (x := o ++ 0#12) (y := a) (i := i)
  have h2 := BitVec.getLsbD_append (x := o) (y := 0#12) (i := i - 16)
  refine h1.trans ?_
  by_cases hi : i < 16
  · simp [hi]
  · simp only [hi, if_false]
    refine h2.trans ?_
    by_cases hj : i < 28
    · simp [hj, show i - 16 < 12 by omega]
    · simp [hj, show ¬ (i - 16 < 12) by omega, show i - 16 - 12 = i - 28 by omega]

theorem headerOpsel_encode (o : BitVec 4) (a : Word) : headerOpsel (o ++ 0#12 ++ a) = o.toNat := by
  rw [headerOpsel]; congr 1
  apply BitVec.eq_of_getLsbD_eq
  intro i hi
  rw [BitVec.getLsbD_extractLsb', getLsbD_header]
  simp [hi, show ¬ 28 + i < 16 by omega]

theorem headerRsv_encode (o : BitVec 4) (a : Word) : headerRsv (o ++ 0#12 ++ a) = 0#12 := by
  rw [headerRsv]
  apply BitVec.eq_of_getLsbD_eq
  intro i hi
  rw [BitVec.getLsbD_extractLsb', getLsbD_header]
  simp [show 16 + i < 28 by omega]

theorem headerArg_encode (o : BitVec 4) (a : Word) : headerArg (o ++ 0#12 ++ a) = a := by
  rw [headerArg]
  apply BitVec.eq_of_getLsbD_eq
  intro i hi
  rw [BitVec.getLsbD_extractLsb', getLsbD_header]
  simp [hi]

theorem header_eq (h : BitVec 32) (hr : headerRsv h = 0#12) :
    h = (h.extractLsb' 28 4) ++ 0#12 ++ headerArg h := by
  apply BitVec.eq_of_getLsbD_eq
  intro i hi
  rw [getLsbD_header, headerArg, BitVec.getLsbD_extractLsb', BitVec.getLsbD_extractLsb']
  by_cases h1 : i < 16
  · simp [h1]
  · by_cases h2 : i < 28
    · have := congrArg (fun v : BitVec 12 => v.getLsbD (i - 16)) hr
      rw [headerRsv] at this
      simp only [BitVec.getLsbD_extractLsb', show i - 16 < 12 by omega, show 16 + (i - 16) = i by omega] at this
      simp [h1, h2]
      simpa using this
    · simp [h1, h2, show i - 28 < 4 by omega, show 28 + (i - 28) = i by omega]

theorem getLsbD_line (a b c : BitVec 1) (p q r : BitVec 8) (i : Nat) :
    BitVec.getLsbD (0#1 ++ a ++ b ++ c ++ 0#4 ++ p ++ q ++ r : BitVec 32) i =
      if i < 8 then r.getLsbD i else if i < 16 then q.getLsbD (i - 8) else if i < 24 then p.getLsbD (i - 16)
      else if i < 28 then false else if i < 29 then c.getLsbD (i - 28) else if i < 30 then b.getLsbD (i - 29)
      else if i < 31 then a.getLsbD (i - 30) else false := by
  refine (BitVec.getLsbD_append (x := 0#1 ++ a ++ b ++ c ++ 0#4 ++ p ++ q) (y := r) (i := i)).trans ?_
  by_cases h1 : i < 8
  · simp [h1]
  simp only [h1, if_false]
  refine (BitVec.getLsbD_append (x := 0#1 ++ a ++ b ++ c ++ 0#4 ++ p) (y := q) (i := i - 8)).trans ?_
  by_cases h2 : i < 16
  · simp [h2, show i - 8 < 8 by omega]
  simp only [h2, show ¬ (i - 8 < 8) by omega, if_false, show i - 8 - 8 = i - 16 by omega]
  refine (BitVec.getLsbD_append (x := 0#1 ++ a ++ b ++ c ++ 0#4) (y := p) (i := i - 16)).trans ?_
  by_cases h3 : i < 24
  · simp [h3, show i - 16 < 8 by omega]
  simp only [h3, show ¬ (i - 16 < 8) by omega, if_false, show i - 16 - 8 = i - 24 by omega]
  refine (BitVec.getLsbD_append (x := 0#1 ++ a ++ b ++ c) (y := 0#4) (i := i - 24)).trans ?_
  by_cases h4 : i < 28
  · simp [h4, show i - 24 < 4 by omega]
  simp only [h4, show ¬ (i - 24 < 4) by omega, if_false, show i - 24 - 4 = i - 28 by omega]
  refine (BitVec.getLsbD_append (x := 0#1 ++ a ++ b) (y := c) (i := i - 28)).trans ?_
  by_cases h5 : i < 29
  · simp [h5, show i - 28 < 1 by omega]
  simp only [h5, show ¬ (i - 28 < 1) by omega, if_false, show i - 28 - 1 = i - 29 by omega]
  refine (BitVec.getLsbD_append (x := 0#1 ++ a) (y := b) (i := i - 29)).trans ?_
  by_cases h6 : i < 30
  · simp [h6, show i - 29 < 1 by omega]
  simp only [h6, show ¬ (i - 29 < 1) by omega, if_false, show i - 29 - 1 = i - 30 by omega]
  refine (BitVec.getLsbD_append (x := 0#1) (y := a) (i := i - 30)).trans ?_
  by_cases h7 : i < 31
  · simp [h7, show i - 30 < 1 by omega]
  · simp [h7, show ¬ (i - 30 < 1) by omega]

/-- The fields of a line assignment word. -/
theorem line_fields (a b c : BitVec 1) (p q r : BitVec 8) :
    let w : BitVec 32 := 0#1 ++ a ++ b ++ c ++ 0#4 ++ p ++ q ++ r
    w.getLsbD 31 = false ∧ w.extractLsb' 24 4 = 0#4 ∧ w.getLsbD 30 = a.getLsbD 0 ∧ w.getLsbD 29 = b.getLsbD 0 ∧
      w.getLsbD 28 = c.getLsbD 0 ∧ w.extractLsb' 16 8 = p ∧ w.extractLsb' 8 8 = q ∧ w.extractLsb' 0 8 = r := by
  refine ⟨by rw [getLsbD_line]; simp, ?_, by rw [getLsbD_line]; simp, by rw [getLsbD_line]; simp,
    by rw [getLsbD_line]; simp, ?_, ?_, ?_⟩ <;> apply BitVec.eq_of_getLsbD_eq <;> intro i hi <;>
    rw [BitVec.getLsbD_extractLsb', getLsbD_line]
  · simp [show ¬ 24 + i < 8 by omega, show ¬ 24 + i < 16 by omega, show 24 + i < 28 by omega]
  · simp [hi, show ¬ 16 + i < 8 by omega, show 16 + i < 24 by omega]
  · simp [hi, show 8 + i < 16 by omega]
  · simp [hi]

/-- A word whose reserved bits are zero is made of its fields. -/
theorem line_eq (w : BitVec 32) (h31 : w.getLsbD 31 = false) (h24 : w.extractLsb' 24 4 = 0#4) :
    w = (0#1 ++ BitVec.ofBool (w.getLsbD 30) ++ BitVec.ofBool (w.getLsbD 29) ++ BitVec.ofBool (w.getLsbD 28) ++ 0#4
      ++ w.extractLsb' 16 8 ++ w.extractLsb' 8 8 ++ w.extractLsb' 0 8) := by
  apply BitVec.eq_of_getLsbD_eq
  intro i hi
  rw [getLsbD_line]
  simp only [BitVec.getLsbD_extractLsb', BitVec.getLsbD_ofBool]
  by_cases h1 : i < 8
  · simp [h1]
  by_cases h2 : i < 16
  · simp [h1, h2, show i - 8 < 8 by omega, show 8 + (i - 8) = i by omega]
  by_cases h3 : i < 24
  · simp [h1, h2, h3, show i - 16 < 8 by omega, show 16 + (i - 16) = i by omega]
  by_cases h4 : i < 28
  · have := congrArg (fun v : BitVec 4 => v.getLsbD (i - 24)) h24
    simp only [BitVec.getLsbD_extractLsb', show i - 24 < 4 by omega, show 24 + (i - 24) = i by omega] at this
    simp [h1, h2, h3, h4]
    simpa using this
  obtain h | h | h | h : i = 28 ∨ i = 29 ∨ i = 30 ∨ i = 31 := by omega
  · subst h; simp
  · subst h; simp
  · subst h; simp
  · subst h; simpa using h31

/-! ### The items after the header -/

theorem takeWords_map (ws : List Word) (rest : List HostItem) :
    takeWords ws.length (ws.map .word16 ++ rest) = .ok (ws, rest) := by
  induction ws with
  | nil => simp [takeWords]
  | cons w ws ih => simp [takeWords, ih]

theorem takeBytes_map (bs : List Byte) (rest : List HostItem) :
    takeBytes bs.length (bs.map .byte ++ rest) = .ok (bs, rest) := by
  induction bs with
  | nil => simp [takeBytes]
  | cons w ws ih => simp [takeBytes, ih]

theorem takeWords_ok : ∀ (k : Nat) (items rest : List HostItem) (ws : List Word), takeWords k items = .ok (ws, rest) →
    ws.length = k ∧ items = ws.map .word16 ++ rest := by
  intro k
  induction k with
  | zero => intro items rest ws h; simp [takeWords] at h; obtain ⟨rfl, rfl⟩ := h; simp
  | succ k ih =>
    intro items rest ws h
    match items with
    | [] => simp [takeWords] at h
    | .word32 _ :: _ => simp [takeWords] at h
    | .byte _ :: _ => simp [takeWords] at h
    | .word16 w :: items =>
      rw [takeWords] at h
      cases ht : takeWords k items with
      | error e => simp [ht] at h
      | ok r =>
        obtain ⟨ws', rest'⟩ := r
        obtain ⟨h1, h2⟩ := ih items rest' ws' ht
        simp [ht] at h
        obtain ⟨rfl, rfl⟩ := h
        simp [h1, h2]

theorem takeBytes_ok : ∀ (k : Nat) (items rest : List HostItem) (ws : List Byte), takeBytes k items = .ok (ws, rest) →
    ws.length = k ∧ items = ws.map .byte ++ rest := by
  intro k
  induction k with
  | zero => intro items rest ws h; simp [takeBytes] at h; obtain ⟨rfl, rfl⟩ := h; simp
  | succ k ih =>
    intro items rest ws h
    match items with
    | [] => simp [takeBytes] at h
    | .word32 _ :: _ => simp [takeBytes] at h
    | .word16 _ :: _ => simp [takeBytes] at h
    | .byte w :: items =>
      rw [takeBytes] at h
      cases ht : takeBytes k items with
      | error e => simp [ht] at h
      | ok r =>
        obtain ⟨ws', rest'⟩ := r
        obtain ⟨h1, h2⟩ := ih items rest' ws' ht
        simp [ht] at h
        obtain ⟨rfl, rfl⟩ := h
        simp [h1, h2]

theorem decodeHeader_encode {o : BitVec 4} {a : Word} {rest : List HostItem} (ho : opselReserved o.toNat = false) :
    decodeHeader (o ++ 0#12 ++ a) rest = decodeBody o.toNat a rest := by
  simp [decodeHeader, headerOpsel_encode, headerRsv_encode, headerArg_encode, ho]


theorem encodePin_toNat {p : Pin} (h : pinFits (some p) = true) : (encodePin (some p)).toNat = p := by
  have : p < 2 ^ 8 := by simpa [pinFits] using h
  simp [encodePin]; omega

theorem decodeRole_encode {o : Option Pin} (h : pinFits o = true) :
    decodeRole ((encodeValid o).getLsbD 0) (encodePin o) = .ok o := by
  cases o with
  | none => rfl
  | some p =>
    have h1 : (encodeValid (some p)).getLsbD 0 = true := by simp [encodeValid]
    rw [decodeRole, if_pos h1, encodePin_toNat h]

theorem decodeLineAssign_encode {la : LineAssign} (hd : la.rolesDistinct = true) (h1 : pinFits la.ready = true)
    (h2 : pinFits la.chipSelect = true) (h3 : pinFits la.reset = true) :
    decodeLineAssign (encodeLineAssign la) = .ok la := by
  obtain ⟨f31, f24, f30, f29, f28, f16, f8, f0⟩ := line_fields (encodeValid la.reset) (encodeValid la.chipSelect)
    (encodeValid la.ready) (encodePin la.reset) (encodePin la.chipSelect) (encodePin la.ready)
  rw [decodeLineAssign, encodeLineAssign, f31, f24, f30, f29, f28, f16, f8, f0, decodeRole_encode h1,
    decodeRole_encode h2, decodeRole_encode h3]
  simp [hd]

theorem decodeRole_ok {v : Bool} {p : BitVec 8} {o : Option Pin} (h : decodeRole v p = .ok o) :
    pinFits o = true ∧ encodeValid o = BitVec.ofBool v ∧ encodePin o = p := by
  cases v with
  | true =>
    simp [decodeRole] at h
    subst h
    refine ⟨by simp [pinFits]; exact p.isLt, rfl, by simp [encodePin]⟩
  | false =>
    simp only [decodeRole] at h
    by_cases hp : p = 0#8
    · simp [hp] at h; subst h; exact ⟨rfl, rfl, hp.symm⟩
    · simp [hp] at h

theorem decodeLineAssign_ok {w : BitVec 32} {la : LineAssign} (h : decodeLineAssign w = .ok la) :
    la.rolesDistinct = true ∧ pinFits la.ready = true ∧ pinFits la.chipSelect = true ∧ pinFits la.reset = true ∧
      encodeLineAssign la = w := by
  rw [decodeLineAssign] at h
  by_cases hb : (w.getLsbD 31 || w.extractLsb' 24 4 != 0#4) = true
  · rw [if_pos hb] at h; cases h
  rw [if_neg hb] at h
  have h31 : w.getLsbD 31 = false := by
    cases hw : w.getLsbD 31 with
    | true => exact absurd (by rw [hw]; rfl) hb
    | false => rfl
  have h24 : w.extractLsb' 24 4 = 0#4 := by
    by_contra hn
    exact hb (by simp [hn])
  cases hr : decodeRole (w.getLsbD 28) (w.extractLsb' 0 8) with
  | error e => simp only [hr] at h; cases h
  | ok ready =>
    cases hc : decodeRole (w.getLsbD 29) (w.extractLsb' 8 8) with
    | error e => simp only [hr, hc] at h; cases h
    | ok cs =>
      cases ht : decodeRole (w.getLsbD 30) (w.extractLsb' 16 8) with
      | error e => simp only [hr, hc, ht] at h; cases h
      | ok rst =>
        simp only [hr, hc, ht] at h
        by_cases hd : (LineAssign.mk ready cs rst).rolesDistinct = true
        · rw [if_pos hd] at h
          cases h
          obtain ⟨a1, a2, a3⟩ := decodeRole_ok hr
          obtain ⟨b1, b2, b3⟩ := decodeRole_ok hc
          obtain ⟨c1, c2, c3⟩ := decodeRole_ok ht
          refine ⟨hd, a1, b1, c1, ?_⟩
          rw [encodeLineAssign]
          dsimp only
          rw [a2, a3, b2, b3, c2, c3]
          exact (line_eq w h31 h24).symm
        · rw [if_neg hd] at h; cases h

theorem zeroArg_ok {a : Word} {k : Except DecodeError (Instr × List HostItem)} {r : Instr × List HostItem}
    (h : zeroArg a k = .ok r) : a = 0#16 ∧ k = .ok r := by
  rw [zeroArg] at h
  by_cases ha : a = 0#16
  · rw [if_pos ha] at h; exact ⟨ha, h⟩
  · rw [if_neg ha] at h; cases h

theorem takeArgument_ok {items rest : List HostItem} {w : BitVec 32} (h : takeArgument items = .ok (w, rest)) :
    items = .word32 w :: rest := by
  match items with
  | [] => cases h
  | .word16 _ :: _ => cases h
  | .byte _ :: _ => cases h
  | .word32 v :: t => cases h; rfl

theorem formatCount_ok {mk : Nat → Instr} {items rest : List HostItem} {i : Instr}
    (h : formatCount mk items = .ok (i, rest)) :
    ∃ k, lenFits k = true ∧ i = mk k ∧ items = encodeCount k :: rest := by
  rw [formatCount] at h
  cases ht : takeArgument items with
  | error e => simp only [ht] at h; cases h
  | ok r =>
    obtain ⟨w, t⟩ := r
    simp only [ht] at h
    cases h
    refine ⟨w.toNat, by simp [lenFits]; exact w.isLt, rfl, ?_⟩
    rw [takeArgument_ok ht, encodeCount]; simp

theorem formatWords_ok {mk : List Word → Instr} {items rest : List HostItem} {i : Instr}
    (h : formatWords mk items = .ok (i, rest)) :
    ∃ ws, lenFits ws.length = true ∧ i = mk ws ∧ items = encodeCount ws.length :: (ws.map .word16 ++ rest) := by
  rw [formatWords] at h
  cases ht : takeArgument items with
  | error e => simp only [ht] at h; cases h
  | ok r =>
    obtain ⟨w, t⟩ := r
    simp only [ht] at h
    cases hk : takeWords w.toNat t with
    | error e => simp only [hk] at h; cases h
    | ok r =>
      obtain ⟨ws, t'⟩ := r
      simp only [hk] at h
      cases h
      obtain ⟨h1, h2⟩ := takeWords_ok _ _ _ _ hk
      refine ⟨ws, by rw [h1]; simp [lenFits]; exact w.isLt, rfl, ?_⟩
      rw [takeArgument_ok ht, encodeCount, h1, h2]; simp

theorem formatBytes_ok {mk : List Byte → Instr} {items rest : List HostItem} {i : Instr}
    (h : formatBytes mk items = .ok (i, rest)) :
    ∃ ws, lenFits ws.length = true ∧ i = mk ws ∧ items = encodeCount ws.length :: (ws.map .byte ++ rest) := by
  rw [formatBytes] at h
  cases ht : takeArgument items with
  | error e => simp only [ht] at h; cases h
  | ok r =>
    obtain ⟨w, t⟩ := r
    simp only [ht] at h
    cases hk : takeBytes w.toNat t with
    | error e => simp only [hk] at h; cases h
    | ok r =>
      obtain ⟨ws, t'⟩ := r
      simp only [hk] at h
      cases h
      obtain ⟨h1, h2⟩ := takeBytes_ok _ _ _ _ hk
      refine ⟨ws, by rw [h1]; simp [lenFits]; exact w.isLt, rfl, ?_⟩
      rw [takeArgument_ok ht, encodeCount, h1, h2]; simp

theorem formatOpen_ok {items rest : List HostItem} {i : Instr} (h : formatOpen items = .ok (i, rest)) :
    ∃ la, Instr.WellFormed (.openOp la) ∧ i = .openOp la ∧ items = .word32 (encodeLineAssign la) :: rest := by
  rw [formatOpen] at h
  cases ht : takeArgument items with
  | error e => simp only [ht] at h; cases h
  | ok r =>
    obtain ⟨w, t⟩ := r
    simp only [ht] at h
    cases hk : decodeLineAssign w with
    | error e => simp only [hk] at h; cases h
    | ok la =>
      simp only [hk] at h
      cases h
      obtain ⟨h1, h2, h3, h4, h5⟩ := decodeLineAssign_ok hk
      refine ⟨la, by simp [Instr.WellFormed, Instr.wellFormed, h1, h2, h3, h4], rfl, ?_⟩
      rw [takeArgument_ok ht, h5]

theorem decodePreamble_ok {w : Word} {i : Instr} (h : decodePreamble w = some i) :
    i.WellFormed ∧ encode i = [.word16 w] ∧ i.isOperation = false := by
  rw [decodePreamble] at h
  by_cases h1 : w = preDataWrite
  · rw [if_pos h1] at h; cases h; rw [h1]; exact ⟨rfl, rfl, rfl⟩
  rw [if_neg h1] at h
  by_cases h2 : w = preDataRead
  · rw [if_pos h2] at h; cases h; rw [h2]; exact ⟨rfl, rfl, rfl⟩
  rw [if_neg h2] at h
  by_cases h3 : w = preCommand
  · rw [if_pos h3] at h; cases h; rw [h3]; exact ⟨rfl, rfl, rfl⟩
  rw [if_neg h3] at h; cases h

/-- The header word of a descriptor that decodes. -/
theorem decodeHeader_ok {h : BitVec 32} {rest : List HostItem} {r : Instr × List HostItem}
    (hd : decodeHeader h rest = .ok r) : ∃ o : BitVec 4, HostItem.word32 h = encodeHeader o (headerArg h) ∧
      decodeBody o.toNat (headerArg h) rest = .ok r := by
  rw [decodeHeader] at hd
  by_cases h1 : opselReserved (headerOpsel h) = true
  · rw [if_pos h1] at hd; cases hd
  rw [if_neg h1] at hd
  by_cases h2 : headerRsv h ≠ 0#12
  · rw [if_pos h2] at hd; cases hd
  rw [if_neg h2] at hd
  refine ⟨h.extractLsb' 28 4, ?_, hd⟩
  rw [encodeHeader, ← header_eq h (by simpa using h2)]

theorem decodeDescriptor_ok {items rest : List HostItem} {i : Instr} (h : decodeDescriptor items = .ok (i, rest)) :
    i.WellFormed ∧ i.isOperation = true ∧ items = encode i ++ rest := by
  match items with
  | [] => cases h
  | .word16 _ :: _ => cases h
  | .byte _ :: _ => cases h
  | .word32 hw :: t =>
    obtain ⟨o, ho, hb⟩ := decodeHeader_ok (r := (i, rest)) h
    rw [ho]
    generalize headerArg hw = a at *
    have key : ∀ o' : Nat, o.toNat = o' → o = BitVec.ofNat 4 o' := by intro o' h; rw [← h]; simp
    have hlt := o.isLt
    unfold decodeBody at hb
    split at hb
    all_goals (rename_i ho'; try rw [key _ ho'])
    · obtain ⟨rfl, hb⟩ := zeroArg_ok hb
      obtain ⟨la, hl, rfl, rfl⟩ := formatOpen_ok hb
      exact ⟨hl, rfl, rfl⟩
    · obtain ⟨rfl, hb⟩ := zeroArg_ok hb; cases hb; exact ⟨rfl, rfl, rfl⟩
    · obtain ⟨rfl, hb⟩ := zeroArg_ok hb; cases hb; exact ⟨rfl, rfl, rfl⟩
    · obtain ⟨rfl, hb⟩ := zeroArg_ok hb; cases hb; exact ⟨rfl, rfl, rfl⟩
    · obtain ⟨k, hl, rfl, rfl⟩ := formatCount_ok hb; exact ⟨hl, rfl, rfl⟩
    · obtain ⟨k, hl, rfl, rfl⟩ := formatWords_ok hb; exact ⟨hl, rfl, rfl⟩
    · obtain ⟨rfl, hb⟩ := zeroArg_ok hb; obtain ⟨k, hl, rfl, rfl⟩ := formatBytes_ok hb; exact ⟨hl, rfl, rfl⟩
    · obtain ⟨k, hl, rfl, rfl⟩ := formatWords_ok hb; exact ⟨hl, rfl, rfl⟩
    · obtain ⟨rfl, hb⟩ := zeroArg_ok hb; obtain ⟨k, hl, rfl, rfl⟩ := formatWords_ok hb; exact ⟨hl, rfl, rfl⟩
    · obtain ⟨rfl, hb⟩ := zeroArg_ok hb; obtain ⟨k, hl, rfl, rfl⟩ := formatCount_ok hb; exact ⟨hl, rfl, rfl⟩
    · obtain ⟨rfl, hb⟩ := zeroArg_ok hb; cases hb; exact ⟨rfl, rfl, rfl⟩
    · obtain ⟨rfl, hb⟩ := zeroArg_ok hb; obtain ⟨k, hl, rfl, rfl⟩ := formatWords_ok hb; exact ⟨hl, rfl, rfl⟩
    · cases hb

end Sys2Proof
end

