-- ==== Sys2Proof/Laws/Dropped.lean ====
section
/-!
SUPPORT. Two runs that differ in bytes the operation drops.
-/

namespace Sys2Proof.Machine

/-- `s` with another trace and other bytes to receive. -/
def State.swap (tr : List Event) (b : List Byte) (s : State) : State := { s with trace := tr, env := { s.env with rxBytes := b } }

/-- `s'` is `s` but for the bytes received so far and at most the next `n`. -/
def Sim (n : Nat) (s s' : State) : Prop :=
  ∃ tr b, s' = State.swap tr b s ∧ tr.map Event.forgetRx = s.trace.map Event.forgetRx ∧
    ∃ x x' tail, x.length ≤ n ∧ x.length = x'.length ∧ s.env.rxBytes = x ++ tail ∧ b = x' ++ tail

theorem Sim.mono {n m : Nat} {s s' : State} (h : Sim n s s') (hm : n ≤ m) : Sim m s s' := by
  obtain ⟨tr, b, h1, h2, x, x', tail, h3, h4⟩ := h
  exact ⟨tr, b, h1, h2, x, x', tail, by omega, h4⟩

/-- An operation that appends the events `es` and touches no received byte. -/
theorem Sim.map {n : Nat} {s s' : State} (h : Sim n s s') (f : State → State) (es : State → List Event)
    (hf : ∀ tr b t, f (State.swap tr b t) = State.swap (tr ++ es t) b (f t)) (he : (f s).trace = s.trace ++ es s)
    (hb : (f s).env.rxBytes = s.env.rxBytes) : Sim n (f s) (f s') := by
  obtain ⟨tr, b, rfl, h2, x, x', tail, h3, h4, h5, h6⟩ := h
  exact ⟨tr ++ es s, b, hf tr b s, by simp [he, h2], x, x', tail, h3, h4, by rw [hb, h5], h6⟩

theorem Sim.quiet {n : Nat} {s s' : State} (h : Sim n s s') (f : State → State)
    (hf : ∀ tr b t, f (State.swap tr b t) = State.swap tr b (f t)) (he : (f s).trace = s.trace)
    (hb : (f s).env.rxBytes = s.env.rxBytes) : Sim n (f s) (f s') :=
  h.map f (fun _ => []) (by simpa using hf) (by simpa using he) hb

theorem Sim.xfer {n : Nat} {s s' : State} (h : Sim n s s') (tx : Byte) : Sim (n - 1) (s.evXfer tx).2 (s'.evXfer tx).2 ∧
    (n = 0 → (s'.evXfer tx).1 = (s.evXfer tx).1) := by
  obtain ⟨tr, b, rfl, h2, x, x', tail, h3, h4, h5, rfl⟩ := h
  match x, x', h4 with
  | [], [], _ =>
    have ht : (State.swap tr ([] ++ tail) s).env.takeByte = s.env.takeByte := by
      simp only [List.nil_append] at h5 ⊢
      rw [← h5]; rfl
    refine ⟨⟨tr ++ [.xfer tx s.env.takeByte.1], s.env.takeByte.2.rxBytes, ?_, ?_, [], [], s.env.takeByte.2.rxBytes, by simp, rfl, rfl, rfl⟩, fun _ => ?_⟩
    · simp only [State.evXfer, State.emit, ht]; rfl
    · simp [State.evXfer, State.emit, h2]
    · simp only [State.evXfer, ht]
  | y :: x, y' :: x', h4 =>
    refine ⟨⟨tr ++ [.xfer tx y'], x' ++ tail, ?_, ?_, x, x', tail, by simp at h3; omega, by simpa using h4, ?_, rfl⟩, fun h => by simp at h3; omega⟩
    · simp only [State.evXfer, State.emit, Env.takeByte, h5]; rfl
    · simp only [State.evXfer, State.emit, Env.takeByte, h5]; simp [h2, Event.forgetRx]
    · simp only [State.evXfer, State.emit, Env.takeByte, h5, List.cons_append]

/-- Two procedures that end alike. -/
def RanSim (n : Nat) (r r' : Ran) : Prop :=
  match r, r' with
  | .went s, .went s' => Sim n s s'
  | .raised e i s, .raised e' i' s' => e = e' ∧ i = i' ∧ Sim n s s'
  | .outOfFuel s, .outOfFuel s' => Sim n s s'
  | _, _ => False

theorem RanSim.mono {n m : Nat} {r r' : Ran} (h : RanSim n r r') (hm : n ≤ m) : RanSim m r r' := by
  cases r <;> cases r' <;> simp only [RanSim] at h ⊢
  · exact h.mono hm
  · exact ⟨h.1, h.2.1, h.2.2.mono hm⟩
  · exact h.mono hm

theorem RanSim.closing {n : Nat} {r r' : Ran} (h : RanSim n r r') (c : Pin) : RanSim n (r.closing c) (r'.closing c) := by
  cases r <;> cases r' <;> simp only [RanSim, Ran.closing] at h ⊢
  · exact h
  · exact ⟨h.1, h.2.1, h.2.2.map (State.csDeassert c) (fun t => [.writePin c (csLevel t.cfg .deasserted)]) (fun _ _ _ => rfl) rfl rfl⟩
  · exact h

theorem RanSim.andThen {n m : Nat} {r r' : Ran} {q : State → Ran} (h : RanSim n r r') (hn : n ≤ m)
    (hq : ∀ s s', Sim n s s' → RanSim m (q s) (q s')) : RanSim m (r.andThen q) (r'.andThen q) := by
  cases r <;> cases r' <;> simp only [RanSim, Ran.andThen] at h ⊢
  · exact hq _ _ h
  · exact ⟨h.1, h.2.1, h.2.2.mono hn⟩
  · exact h.mono hn

theorem waitLoop_sim (y : Pin) : ∀ (fuel : Nat) {n : Nat} {s s' : State}, Sim n s s' → RanSim n (waitLoop fuel y s) (waitLoop fuel y s') := by
  intro fuel
  induction fuel with
  | zero => intro n s s' h; trivial
  | succ k ih =>
    intro n s s' h
    have h1 : Sim n (s.evReadPin y).2 (s'.evReadPin y).2 :=
      h.map (fun t => (t.evReadPin y).2) (fun t => [.readPin y t.env.takeLevel.1]) (fun tr b t => by
        cases hl : t.env.readyLevels <;> simp [State.evReadPin, State.emit, State.swap, Env.takeLevel, hl]) rfl (by
        cases hl : s.env.readyLevels <;> simp [State.evReadPin, State.emit, Env.takeLevel, hl])
    have h2 : (s'.evReadPin y).1 = (s.evReadPin y).1 := by
      obtain ⟨tr, b, rfl, -⟩ := h
      cases hl : s.env.readyLevels <;> simp [State.evReadPin, State.swap, Env.takeLevel, hl]
    have h3 : Sim n (s.evReadPin y).2.countPoll (s'.evReadPin y).2.countPoll := h1.quiet State.countPoll (fun _ _ _ => rfl) rfl rfl
    have h4 : limitHit (s'.evReadPin y).2.countPoll = limitHit (s.evReadPin y).2.countPoll := by
      obtain ⟨tr, b, h, -⟩ := h3
      rw [h]; rfl
    rw [waitLoop, waitLoop]
    simp only [h2, h4]
    split
    · exact h1
    · split
      · exact ⟨rfl, rfl, h3⟩
      · exact ih h3

theorem waitReadyProc_sim (y : Pin) (fuel : Nat) {n : Nat} {s s' : State} (h : Sim n s s') : RanSim n (waitReadyProc fuel y s) (waitReadyProc fuel y s') :=
  waitLoop_sim y fuel (h.quiet State.startWait (fun _ _ _ => rfl) rfl rfl)

theorem sendWord_sim {n : Nat} {s s' : State} (h : Sim n s s') (w : Word) : Sim (n - 2) (sendWord w s) (sendWord w s') :=
  ((h.xfer (hi w)).1.xfer (lo w)).1

theorem sendWords_sim : ∀ (ws : List Word) {n : Nat} {s s' : State}, Sim n s s' → Sim n (sendWords ws s) (sendWords ws s') := by
  intro ws
  induction ws with
  | nil => intro n s s' h; exact h
  | cons w ws ih =>
    intro n s s' h
    exact ih (((sendWord_sim h w).mono (by omega)).quiet State.nextIdx (fun _ _ _ => rfl) rfl rfl)

theorem recvWord_sim {s s' : State} (h : Sim 0 s s') : Sim 0 (recvWord s) (recvWord s') := by
  have e1 := (h.xfer 0x00#8).2 rfl
  have h1 := (h.xfer 0x00#8).1.quiet (State.latch (s.evXfer 0x00#8).1) (fun _ _ _ => rfl) rfl rfl
  have e2 := (h1.xfer 0x00#8).2 rfl
  have h2 := (h1.xfer 0x00#8).1
  have h3 := (h2.quiet (State.pushRes (word (s.evXfer 0x00#8).1 (((s.evXfer 0x00#8).2.latch (s.evXfer 0x00#8).1).evXfer 0x00#8).1)) (fun _ _ _ => rfl) rfl rfl).quiet State.nextIdx (fun _ _ _ => rfl) rfl rfl
  rw [recvWord, recvWord]
  simp only [e1, e2]
  exact h3

theorem recvWords_sim : ∀ (k : Nat) {s s' : State}, Sim 0 s s' → Sim 0 (recvWords k s) (recvWords k s') := by
  intro k
  induction k with
  | zero => intro s s' h; exact h
  | succ k ih => intro s s' h; exact ih (recvWord_sim h)

theorem sessionProc_sim {fuel n : Nat} {ses : Session} {s s' : State} (h : Sim n s s') (hr : readSession ses = true → n ≤ 4) :
    RanSim n (sessionProc fuel ses s) (sessionProc fuel ses s') := by
  rw [sessionProc, sessionProc]
  have hla : s'.la = s.la := by obtain ⟨tr, b, rfl, -⟩ := h; rfl
  rw [hla]
  cases s.la.chipSelect with
  | none => exact ⟨rfl, rfl, h⟩
  | some c =>
    cases s.la.ready with
    | none => exact ⟨rfl, rfl, h⟩
    | some y =>
      refine RanSim.andThen (waitReadyProc_sim y fuel (h.quiet (State.load ses) (fun _ _ _ => rfl) rfl rfl)) (le_refl n) ?_
      intro t t' ht
      have hpre : t'.pre = t.pre := by obtain ⟨tr, b, rfl, -⟩ := ht; rfl
      have h1 := ht.map (State.csAssert c) (fun t => [.writePin c (csLevel t.cfg .asserted)]) (fun _ _ _ => rfl) rfl rfl
      have h2 := sendWord_sim h1 t.pre
      simp only [hpre]
      refine RanSim.andThen ((waitReadyProc_sim y fuel h2).closing c) (by omega) ?_
      intro v v' hv
      have close : ∀ {m : Nat} {a b : State}, m ≤ n → Sim m a b → RanSim n (.went (a.csDeassert c)) (.went (b.csDeassert c)) := fun hm hab =>
        ((hab.map (State.csDeassert c) (fun t => [.writePin c (csLevel t.cfg .deasserted)]) (fun _ _ _ => rfl) rfl rfl).mono hm : Sim n _ _)
      cases ses with
      | write p ws => exact close (by omega) (sendWords_sim ws (hv.quiet State.clearIdx (fun _ _ _ => rfl) rfl rfl))
      | bulk bs => exact close (by omega) (hv.map (State.emit (.xferBulk bs)) (fun _ => [.xferBulk bs]) (fun _ _ _ => rfl) rfl rfl)
      | read p k =>
        have hn := hr rfl
        have h3 : Sim 0 (sendWord 0x0000#16 v) (sendWord 0x0000#16 v') := (sendWord_sim hv 0x0000#16).mono (by omega)
        refine RanSim.andThen ((waitReadyProc_sim y fuel h3).closing c) (by omega) ?_
        intro w w' hw
        have hwn : w'.n = w.n := by obtain ⟨tr, b, rfl, -⟩ := hw; rfl
        rw [hwn]
        exact close (by omega) (recvWords_sim w.n ((hw.quiet State.clearIdx (fun _ _ _ => rfl) rfl rfl).quiet State.clearRes (fun _ _ _ => rfl) rfl rfl))

theorem later_sim {fuel n : Nat} : ∀ (sess : List Session) {s s' : State}, Sim n s s' → (∀ ses ∈ sess, readSession ses = true → n ≤ 4) →
    RanSim n (laterSessionsProc fuel sess s) (laterSessionsProc fuel sess s') := by
  intro sess
  induction sess with
  | nil => intro s s' h _; exact h
  | cons ses rest ih =>
    intro s s' h hr
    exact RanSim.andThen (sessionProc_sim (h.quiet State.nextSession (fun _ _ _ => rfl) rfl rfl) (hr ses (by simp))) (le_refl n)
      fun t t' ht => ih ht fun x hx => hr x (List.mem_cons_of_mem _ hx)

theorem sessions_sim {fuel n : Nat} {sess : List Session} {s s' : State} (h : Sim n s s') (hr : ∀ ses ∈ sess, readSession ses = true → n ≤ 4) :
    RanSim n (sessionsProc fuel sess s) (sessionsProc fuel sess s') := by
  cases sess with
  | nil => exact h
  | cons ses rest =>
    exact RanSim.andThen (sessionProc_sim h (hr ses (by simp))) (le_refl n)
      fun t t' ht => later_sim rest ht fun x hx => hr x (List.mem_cons_of_mem _ hx)

end Sys2Proof.Machine
end

