-- ==== Sys2Proof/Laws/Limit.lean ====
section
/-!
SUPPORT. Waits with a limit end; a LOW sample of a wait without one leaves the block where it is.
-/

namespace Sys2Proof.Machine

/-- With a limit no wait takes more samples than the limit. -/
theorem waitLoop_limited {y : Pin} {limit : Nat} : ∀ (fuel : Nat) (s : State), s.cfg.readyPollLimit = some limit → limit - s.polls < fuel →
    ∀ v, waitLoop fuel y s ≠ .outOfFuel v := by
  intro fuel
  induction fuel with
  | zero => intro s _ h; omega
  | succ k ih =>
    intro s hl h
    rw [waitLoop]
    split
    · simp
    · split
      · simp
      · rename_i hh
        have : ¬ limit ≤ s.polls + 1 := by
          intro hle; apply hh; rw [limitHit_iff]; exact ⟨limit, by simpa using hl, by simpa using hle⟩
        exact ih _ (by simpa using hl) (by simp; omega)

theorem waitReadyProc_limited {y : Pin} {limit : Nat} {s : State} (hl : s.cfg.readyPollLimit = some limit) :
    ∀ v, waitReadyProc (limit + 1) y s ≠ .outOfFuel v := waitLoop_limited _ _ (by simpa using hl) (by simp)

theorem andThen_fuel {r : Ran} {q : State → Ran} {v : State} (h : r.andThen q = .outOfFuel v) : r = .outOfFuel v ∨ ∃ t, r = .went t ∧ q t = .outOfFuel v := by
  cases r with
  | went t => exact .inr ⟨t, rfl, h⟩
  | raised e i t => cases h
  | outOfFuel s => exact .inl h

theorem closing_fuel {r : Ran} {c : Pin} {v : State} (h : r.closing c = .outOfFuel v) : r = .outOfFuel v := by
  cases r <;> first | exact h | cases h

theorem session_limited {ses : Session} {limit : Nat} {s : State} (hl : s.cfg.readyPollLimit = some limit) :
    ∀ v, sessionProc (limit + 1) ses s ≠ .outOfFuel v := by
  intro v h
  rw [sessionProc] at h
  split at h
  · cases h
  · cases h
  · rename_i c y hc hy
    rcases andThen_fuel h with h | ⟨t, ht, h⟩
    · exact waitReadyProc_limited (by simpa using hl) _ h
    have hct := waitReadyProc_control (limit + 1) y (s.load ses)
    rw [ht] at hct
    have hlt : t.cfg.readyPollLimit = some limit := by rw [hct.cfg]; simpa using hl
    rcases andThen_fuel h with h | ⟨u, hu, h⟩
    · exact waitReadyProc_limited (by simpa using hlt) _ (closing_fuel h)
    have hcu := waitReadyProc_control (limit + 1) y (sendWord t.pre (t.csAssert c))
    have hu' := Ran.closing_went hu
    rw [hu'] at hcu
    have hlu : u.cfg.readyPollLimit = some limit := by rw [hcu.cfg]; simpa using hlt
    cases ses with
    | write p ws => cases h
    | bulk bs => cases h
    | read p n =>
      rcases andThen_fuel h with h | ⟨v, hv, h⟩
      · exact waitReadyProc_limited (by simpa using hlu) _ (closing_fuel h)
      · cases h

theorem sessionProc_cfg {fuel : Nat} {ses : Session} {s t : State} (h : sessionProc fuel ses s = .went t) : t.cfg = s.cfg := by
  cases ses with
  | read p n => obtain ⟨c, y, a, b, d, rx, hc, hy, hrx, -, -, -, ht⟩ := read_session_went h; rw [ht]
  | write p ws => obtain ⟨c, y, a, b, rx, hc, hy, hrx, -, -, ht⟩ := write_session_went h; rw [ht]
  | bulk bs => obtain ⟨c, y, a, b, rx, hc, hy, hrx, -, -, ht⟩ := bulk_session_went h; rw [ht]

theorem later_limited {limit : Nat} : ∀ (sess : List Session) (s : State), s.cfg.readyPollLimit = some limit →
    ∀ v, laterSessionsProc (limit + 1) sess s ≠ .outOfFuel v := by
  intro sess
  induction sess with
  | nil => intro s _ v h; cases h
  | cons ses rest ih =>
    intro s hl v h
    rcases andThen_fuel h with h | ⟨t, ht, h⟩
    · exact session_limited (s := s.nextSession) hl _ h
    · exact ih t (by rw [sessionProc_cfg ht]; exact hl) _ h

theorem body_limited {i : Instr} (hi : i.isOperation = true) {limit : Nat} {s : State} (hl : s.cfg.readyPollLimit = some limit) :
    ∀ v, bodyProc (limit + 1) i s ≠ .outOfFuel v := by
  have key : ∀ sess v, sessionsProc (limit + 1) sess s ≠ .outOfFuel v := by
    intro sess v h
    cases sess with
    | nil => cases h
    | cons ses rest =>
      rcases andThen_fuel h with h | ⟨t, ht, h⟩
      · exact session_limited hl _ h
      · exact later_limited rest t (by rw [sessionProc_cfg ht]; exact hl) _ h
  cases hti : isTransfer i with
  | true =>
    have : bodyProc (limit + 1) i s = sessionsProc (limit + 1) (sessionsOf i) s := by
      cases i <;> first | rfl | simp [isTransfer, sessionsOf] at hti
    rw [this]; exact key _
  | false =>
  cases i <;> simp [isTransfer, sessionsOf, Instr.isOperation, commandSessions] at hti hi
  · intro v h; simp only [bodyProc, openProc] at h; split at h <;> cases h
  · intro v h; simp only [bodyProc, closeProc] at h; split at h <;> cases h
  · intro v h; simp only [bodyProc, resetProc] at h; split at h <;> cases h
  · intro v h; simp only [bodyProc, waitReadyOp] at h
    split at h
    · cases h
    · exact waitReadyProc_limited hl _ h

theorem run_succ_next {m : Nat} {s t : State} (h : step s = .next t) :
    Host.Core.run Sys2Proof.core (m + 1) s = Host.Core.run Sys2Proof.core m t := by
  have h' : Sys2Proof.core.step s = .next t := h
  simp only [Host.Core.run, h']

theorem step_wait_low {s : State} {y : Pin} {rest : List Level} (h : Inv s) (hl : s.cfg.readyPollLimit = none) (hy : s.la.ready = some y)
    (hp : s.ph = .rdy1 ∨ s.ph = .rdy2 ∨ s.ph = .rdy3 ∨ s.ph = .wait) (he : s.env.readyLevels = .low :: rest) :
    step s = .next { s with polls := s.polls + 1, trace := s.trace ++ [.readPin y .low], env := { s.env with readyLevels := rest } } := by
  have hb : s.busy = true := by
    cases hb : s.busy with
    | true => rfl
    | false => have := h.idle_iff.1 hb; rcases hp with h | h | h | h <;> simp [this] at h
  have hne : s.op ≠ none := fun ho => by rw [h.op_iff.2 ho] at hb; cases hb
  obtain ⟨i, ho⟩ := Option.ne_none_iff_exists'.1 hne
  have hcur : step s = exec i s := by
    rw [step_busy hb ho, currentInstr_op ho (.inr (.inl ?_))]
    rcases hp with h | h | h | h <;> simp [h]
  have hsample : ∀ (a b : State → State), waitRow a b s = .next { s with polls := s.polls + 1, trace := s.trace ++ [.readPin y .low], env := { s.env with readyLevels := rest } } := by
    intro a b
    have hlim : limitHit (s.evReadPin y).2.countPoll = false := by simp [limitHit, hl]
    have hlow : (s.evReadPin y).1 = .low := by simp [State.evReadPin, Env.takeLevel, he]
    rw [waitRow, hy]
    simp only [withPin, waitSample, hlow, readyLevel, hlim]
    congr 1
    simp
    ext1 <;> simp [State.evReadPin, State.emit, Env.takeLevel, he]
  rw [hcur, exec_busy (h.isOp ho) hb ho]
  have hf := h.flight i ho
  cases hti : isTransfer i with
  | true =>
    obtain ⟨-, ses, hses, hph⟩ := h.session ho hti
    rw [rowOf_session hses (by rcases hp with h | h | h | h <;> simp [h])]
    rcases hp with hp | hp | hp | hp
    · simp only [sessionRow, hp]; exact hp ▸ hsample _ _
    · simp only [sessionRow, hp]; exact hp ▸ hsample _ _
    · simp only [sessionRow, hp]; exact hp ▸ hsample _ _
    · simp [SessionPhase, hp] at hph
  | false =>
    cases i <;> simp [isTransfer, sessionsOf, commandSessions] at hti
    · have hf : OpenPhase _ s := hf.2
      unfold OpenPhase at hf
      rcases hp with hp | hp | hp | hp <;> simp [hp] at hf
    · have hf : ClosePhase s := hf
      rcases hp with hp | hp | hp | hp <;> simp [ClosePhase, hp] at hf
    · have hf : ResetPhase s := hf
      rcases hp with hp | hp | hp | hp <;> simp [ResetPhase, hp] at hf
    · have hf : WaitPhase s := hf
      rcases hp with hp | hp | hp | hp
      · simp [WaitPhase, hp] at hf
      · simp [WaitPhase, hp] at hf
      · simp [WaitPhase, hp] at hf
      · simp only [rowOf, waitReadyRow, hp]; exact hp ▸ hsample _ _
    all_goals exact hf.elim

end Sys2Proof.Machine
end

