-- ==== Sys2Proof/Laws/Endless.lean ====
section
/-!
SUPPORT. Waits that do not end: what an operation has done where its pseudocode runs out of fuel, at one fuel (`EndsLow`) and as
the fuel grows (`Settles`).
-/

namespace Sys2Proof.Machine

/-- Events only added, and no response, from `s` to `t`. -/
def Grown (s t : State) : Prop := (∃ es, t.trace = s.trace ++ es) ∧ t.responses = s.responses

theorem Grown.refl (s : State) : Grown s s := ⟨⟨[], by simp⟩, rfl⟩

theorem Grown.trans {s t u : State} (h : Grown s t) (g : Grown t u) : Grown s u := by
  obtain ⟨⟨es, h1⟩, h2⟩ := h
  obtain ⟨⟨fs, g1⟩, g2⟩ := g
  exact ⟨⟨es ++ fs, by simp [g1, h1]⟩, g2.trans h2⟩

theorem Grown.csAssert (s : State) (c : Pin) : Grown s (s.csAssert c) := ⟨⟨_, State.csAssert_trace c s⟩, by simp⟩

theorem Grown.csDeassert (s : State) (c : Pin) : Grown s (s.csDeassert c) := ⟨⟨_, State.csDeassert_trace c s⟩, by simp⟩

theorem Grown.sendWord (w : Word) (s : State) : Grown s (sendWord w s) := by
  obtain ⟨b0, b1, h⟩ := sendWord_eq w s
  exact ⟨⟨xferEvents [hi w, lo w] [b0, b1], by rw [h]⟩, by simp⟩

theorem Grown.sendWords (ws : List Word) (s : State) : Grown s (sendWords ws s) := by
  obtain ⟨rx, -, h⟩ := sendWords_eq ws s
  exact ⟨⟨xferEvents (pack ws) rx, by rw [h]⟩, by rw [h]⟩

theorem Grown.recvWords (k : Nat) (s : State) : Grown s (recvWords k s) := by
  obtain ⟨rx, -, h⟩ := recvWords_eq k s
  exact ⟨⟨xferEvents (List.replicate (2 * k) 0x00#8) rx, by rw [h]⟩, by rw [h]⟩

theorem Grown.wait (y : Pin) (fuel : Nat) (s : State) : (waitReadyProc fuel y s).Post (Grown s) :=
  waitReadyProc_post (fun t h => h.trans ⟨⟨[.readPin y (t.evReadPin y).1], rfl⟩, rfl⟩) (fun t h => h) fuel ⟨⟨[], by simp⟩, rfl⟩

theorem Ran.Post.imp {P Q : State → Prop} {r : Ran} (h : r.Post P) (hpq : ∀ s, P s → Q s) : r.Post Q := by
  cases r <;> exact hpq _ h

theorem Grown.session (fuel : Nat) (ses : Session) (s : State) : (sessionProc fuel ses s).Post (Grown s) := by
  rw [sessionProc]
  split
  · exact .refl s
  · exact .refl s
  · rename_i c y hc hy
    have close : ∀ t, Grown s t → Grown s (t.csDeassert c) := fun t h => h.trans (.csDeassert t c)
    refine .andThen ((Grown.wait y fuel (s.load ses)).imp fun t h => Grown.trans ⟨⟨[], by simp⟩, by simp⟩ h) fun t ht => ?_
    have h2 : Grown s (Machine.sendWord t.pre (t.csAssert c)) := (ht.trans (.csAssert t c)).trans (.sendWord _ _)
    refine .andThen (.closing c ((Grown.wait y fuel _).imp fun u h => h2.trans h) close) fun u hu => ?_
    cases ses with
    | bulk bs => exact close _ (hu.trans ⟨⟨[.xferBulk bs], by simp⟩, by simp⟩)
    | write p ws => exact close _ (hu.trans (Grown.sendWords ws u.clearIdx))
    | read p n =>
      refine .andThen (.closing c ((Grown.wait y fuel _).imp fun v h => (hu.trans (.sendWord _ _)).trans h) close) fun v hv => ?_
      exact close _ (hv.trans (Grown.recvWords v.n v.clearIdx.clearRes))

theorem low_of_not_ready {s : State} {y : Pin} (h : ¬ (s.evReadPin y).1 = readyLevel) : (s.evReadPin y).1 = .low := by
  revert h; cases (s.evReadPin y).1 <;> simp [readyLevel]

/-- `v` is `s` with events added whose last `m` are LOW samples of `y`, and no response. -/
def LowFor (y : Pin) (m : Nat) (es : List Event) (s v : State) : Prop :=
  v.trace = s.trace ++ es ++ List.replicate m (.readPin y .low) ∧ v.responses = s.responses

/-- A wait that has not ended has taken as many LOW samples as its fuel. -/
theorem waitLoop_low (y : Pin) : ∀ (fuel : Nat) (s v : State), waitLoop fuel y s = .outOfFuel v → LowFor y fuel [] s v := by
  intro fuel
  induction fuel with
  | zero => intro s v h; cases h; simp [LowFor]
  | succ k ih =>
    intro s v h
    rw [waitLoop] at h
    split at h
    · cases h
    · rename_i hl
      split at h
      · cases h
      · obtain ⟨h1, h2⟩ := ih _ _ h
        refine ⟨?_, h2⟩
        have : (s.evReadPin y).2.countPoll.trace = s.trace ++ [.readPin y .low] := by rw [← low_of_not_ready hl]; rfl
        rw [h1, List.replicate_succ, this]; simp

theorem waitReadyProc_low {y : Pin} {fuel : Nat} {s v : State} (h : waitReadyProc fuel y s = .outOfFuel v) : LowFor y fuel [] s v :=
  waitLoop_low y fuel s.startWait v h

theorem LowFor.before {y : Pin} {m : Nat} {es fs : List Event} {s t v : State} (h : LowFor y m es t v) (ht : t.trace = s.trace ++ fs)
    (hr : t.responses = s.responses) : LowFor y m (fs ++ es) s v :=
  ⟨by rw [h.1, ht]; simp, h.2.trans hr⟩

/-- A wait that has ended ends so at every larger fuel. -/
theorem waitLoop_mono (y : Pin) : ∀ (fuel : Nat) (s : State), (∀ v, waitLoop fuel y s ≠ .outOfFuel v) → ∀ m, waitLoop (fuel + m) y s = waitLoop fuel y s := by
  intro fuel
  induction fuel with
  | zero => intro s h; exact absurd rfl (h s)
  | succ k ih =>
    intro s h m
    rw [Nat.add_right_comm, waitLoop]
    rw [waitLoop] at h ⊢
    split
    · rfl
    · rename_i hl
      split
      · rfl
      · rename_i hh
        simp only [if_neg hl, if_neg hh] at h
        exact ih _ h m

/-- What becomes of a procedure with pin `y` from `s` as its fuel grows: from some fuel on it ends, the same way at each; or it never ends,
and from some fuel on each unit of fuel is one LOW sample more. -/
def Settles (y : Pin) (s : State) (R : Nat → Ran) : Prop :=
  (∃ f r, (∀ v, r ≠ .outOfFuel v) ∧ ∀ m, R (f + m) = r) ∨
  ∃ first es, ∀ m, ∃ v, R (first + m) = .outOfFuel v ∧ LowFor y m es s v

theorem Settles.const {y : Pin} {s : State} {r : Ran} (h : ∀ v, r ≠ .outOfFuel v) : Settles y s fun _ => r := .inl ⟨0, r, h, fun _ => rfl⟩

theorem Settles.before {y : Pin} {s t : State} {R : Nat → Ran} (h : Settles y t R) (g : Grown s t) : Settles y s R := by
  obtain ⟨⟨fs, g1⟩, g2⟩ := g
  rcases h with h | ⟨first, es, h⟩
  · exact .inl h
  · exact .inr ⟨first, fs ++ es, fun m => let ⟨v, hv, hl⟩ := h m; ⟨v, hv, hl.before g1 g2⟩⟩

theorem Settles.wait (y : Pin) (s : State) : Settles y s fun fuel => waitReadyProc fuel y s := by
  by_cases h : ∃ f, ∀ v, waitReadyProc f y s ≠ .outOfFuel v
  · obtain ⟨f, h⟩ := h
    exact .inl ⟨f, _, h, fun m => waitLoop_mono y f s.startWait h m⟩
  · push Not at h
    refine .inr ⟨0, [], fun m => ?_⟩
    obtain ⟨v, hv⟩ := h m
    exact ⟨v, by simpa using hv, waitReadyProc_low hv⟩

theorem Settles.closing {y : Pin} {s : State} {R : Nat → Ran} (c : Pin) (h : Settles y s R) : Settles y s fun fuel => (R fuel).closing c := by
  rcases h with ⟨f, r, hr, h⟩ | ⟨first, es, h⟩
  · refine .inl ⟨f, r.closing c, fun v hv => hr v (closing_fuel hv), fun m => by simp only [h m]⟩
  · exact .inr ⟨first, es, fun m => let ⟨v, hv, hl⟩ := h m; ⟨v, by simp only [hv, Ran.closing], hl⟩⟩

theorem Settles.andThen {y : Pin} {s : State} {R : Nat → Ran} {Q : Nat → State → Ran} (h : Settles y s R)
    (hp : ∀ fuel, (R fuel).Post (Grown s)) (hq : ∀ fuel t, R fuel = .went t → Settles y t fun fuel => Q fuel t) :
    Settles y s fun fuel => (R fuel).andThen (Q fuel) := by
  rcases h with ⟨f, r, hr, h⟩ | ⟨first, es, h⟩
  · cases r with
    | outOfFuel v => exact absurd rfl (hr v)
    | raised e i v => exact .inl ⟨f, .raised e i v, by simp, fun m => by simp only [h m, Ran.andThen]⟩
    | went t =>
      have hg := hp (f + 0)
      rw [h 0] at hg
      have key : ∀ m, (R (f + m)).andThen (Q (f + m)) = Q (f + m) t := fun m => by rw [h m]; rfl
      rcases hq (f + 0) t (h 0) with ⟨f', r, hr, h'⟩ | ⟨first, es, h'⟩
      · exact .inl ⟨f + f', r, hr, fun m => by
          show (R _).andThen (Q _) = r
          rw [Nat.add_assoc, key]
          have := h' (f + m)
          rwa [show f' + (f + m) = f + (f' + m) by omega] at this⟩
      · obtain ⟨⟨fs, g1⟩, g2⟩ := hg
        refine .inr ⟨f + first, fs ++ es ++ List.replicate f (.readPin y .low), fun m => ?_⟩
        obtain ⟨v, hv, hl1, hl2⟩ := h' (f + m)
        rw [show first + (f + m) = f + (first + m) by omega] at hv
        refine ⟨v, by show (R _).andThen (Q _) = _; rw [Nat.add_assoc, key]; exact hv, ?_, hl2.trans g2⟩
        rw [hl1, g1]
        simp [List.replicate_append_replicate]
  · exact .inr ⟨first, es, fun m => let ⟨v, hv, hl⟩ := h m; ⟨v, by simp only [hv, Ran.andThen], hl⟩⟩

theorem Settles.session {y : Pin} (ses : Session) {s : State} (hy : ∀ q, s.la.ready = some q → q = y) :
    Settles y s fun fuel => sessionProc fuel ses s := by
  simp only [sessionProc]
  split
  · exact .const (by simp)
  · exact .const (by simp)
  · rename_i c y' hc hy'
    obtain rfl := hy _ hy'
    have g0 : Grown s (s.load ses) := ⟨⟨[], by simp⟩, by simp⟩
    refine .andThen ((Settles.wait y' (s.load ses)).before g0) (fun fuel => (Grown.wait _ _ _).imp fun t => g0.trans) fun fuel t _ => ?_
    have g1 : Grown t (sendWord t.pre (t.csAssert c)) := (Grown.csAssert t c).trans (.sendWord _ _)
    refine .andThen (((Settles.wait y' _).before g1).closing c)
      (fun fuel => .closing c ((Grown.wait _ _ _).imp fun t => g1.trans) fun t h => h.trans (.csDeassert t c)) fun fuel u _ => ?_
    cases ses with
    | bulk bs => exact .const (by simp)
    | write p ws => exact .const (by simp)
    | read p n =>
      have g2 : Grown u (sendWord 0x0000#16 u) := .sendWord _ _
      exact .andThen (((Settles.wait y' _).before g2).closing c)
        (fun fuel => .closing c ((Grown.wait _ _ _).imp fun t => g2.trans) fun t h => h.trans (.csDeassert t c)) fun fuel v _ => .const (by simp)

theorem session_la {fuel : Nat} {ses : Session} {s t : State} (h : sessionProc fuel ses s = .went t) : t.la = s.la := by
  have := sessionProc_control fuel ses s
  rw [h] at this
  exact this.la

theorem Settles.later {y : Pin} : ∀ (sess : List Session) (s : State), (∀ q, s.la.ready = some q → q = y) →
    Settles y s fun fuel => laterSessionsProc fuel sess s := by
  intro sess
  induction sess with
  | nil => intro s _; exact .const (by simp)
  | cons ses rest ih =>
    intro s hy
    have g : Grown s s.nextSession := ⟨⟨[], by simp⟩, by simp⟩
    exact .andThen ((Settles.session ses (s := s.nextSession) hy).before g) (fun fuel => (Grown.session _ _ _).imp fun t => g.trans)
      fun fuel t ht => ih t (by rw [session_la ht]; exact hy)

theorem Settles.sessions {y : Pin} (sess : List Session) {s : State} (hy : ∀ q, s.la.ready = some q → q = y) :
    Settles y s fun fuel => sessionsProc fuel sess s := by
  cases sess with
  | nil => exact .const (by simp)
  | cons ses rest =>
    exact .andThen (.session ses hy) (fun fuel => Grown.session _ _ _) fun fuel t ht => .later rest t (by rw [session_la ht]; exact hy)

theorem Settles.body {i : Instr} (hi : i.isOperation = true) {y : Pin} {s : State} (hy : ∀ q, s.la.ready = some q → q = y) :
    Settles y s fun fuel => bodyProc fuel i s := by
  cases hti : isTransfer i with
  | true => simp only [transfer_body hti]; exact .sessions _ hy
  | false =>
    cases i <;> simp [isTransfer, sessionsOf, Instr.isOperation, commandSessions] at hti hi
    · exact .const (r := openProc _ s) fun v => by rw [openProc]; split <;> simp
    · exact .const (r := closeProc s) fun v => by rw [closeProc]; split <;> simp
    · exact .const (r := resetProc s) fun v => by rw [resetProc]; split <;> simp
    · simp only [bodyProc, waitReadyOp]
      split
      · exact .const (by simp)
      · rename_i y' hy'
        obtain rfl := hy _ hy'
        exact .wait _ _

/-- Where an operation's body has not ended, its last events are as many LOW samples of the ready pin as its fuel. -/
def EndsLow (fuel : Nat) (s : State) (r : Ran) : Prop :=
  ∀ v, r = .outOfFuel v → ∃ y es, s.la.ready = some y ∧ LowFor y fuel es s v

theorem EndsLow.andThen {fuel : Nat} {s : State} {r : Ran} {q : State → Ran} (h : EndsLow fuel s r) (hp : r.Post (Grown s))
    (hla : ∀ t, r = .went t → t.la = s.la) (hq : ∀ t, r = .went t → EndsLow fuel t (q t)) : EndsLow fuel s (r.andThen q) := by
  intro v hv
  rcases andThen_fuel hv with hr | ⟨t, ht, hv⟩
  · exact h v hr
  · rw [ht] at hp
    obtain ⟨⟨fs, g1⟩, g2⟩ := hp
    obtain ⟨y, es, hy, hl⟩ := hq t ht v hv
    exact ⟨y, fs ++ es, by rw [← hla t ht]; exact hy, hl.before g1 g2⟩

theorem EndsLow.wait {y : Pin} {fuel : Nat} {s t : State} (hy : s.la.ready = some y) (g : Grown s t) : EndsLow fuel s (waitReadyProc fuel y t) := fun v hv => by
  obtain ⟨⟨fs, g1⟩, g2⟩ := g
  exact ⟨y, fs ++ [], hy, (waitReadyProc_low hv).before g1 g2⟩

theorem EndsLow.closing {fuel : Nat} {s : State} {r : Ran} (c : Pin) (h : EndsLow fuel s r) : EndsLow fuel s (r.closing c) :=
  fun v hv => h v (closing_fuel hv)

theorem wait_la {y : Pin} {fuel : Nat} {s t : State} (h : waitReadyProc fuel y s = .went t) : t.la = s.la := by
  have := waitReadyProc_control fuel y s
  rw [h] at this
  exact this.la

theorem EndsLow.session (fuel : Nat) (ses : Session) (s : State) : EndsLow fuel s (sessionProc fuel ses s) := by
  rw [sessionProc]
  split
  · intro v hv; cases hv
  · intro v hv; cases hv
  · rename_i c y hc hy
    have g0 : Grown s (s.load ses) := ⟨⟨[], by simp⟩, by simp⟩
    refine .andThen (.wait hy g0) ((Grown.wait _ _ _).imp fun t => g0.trans) (fun t ht => by simpa using wait_la ht) fun t ht => ?_
    have hty : t.la.ready = some y := by rw [wait_la ht]; simpa using hy
    have g1 : Grown t (sendWord t.pre (t.csAssert c)) := (Grown.csAssert t c).trans (.sendWord _ _)
    refine .andThen (.closing c (.wait hty g1)) (.closing c ((Grown.wait _ _ _).imp fun t => g1.trans) fun t h => h.trans (.csDeassert t c))
      (fun u hu => by simpa using wait_la (Ran.closing_went hu)) fun u hu => ?_
    have huy : u.la.ready = some y := by rw [wait_la (Ran.closing_went hu)]; simpa using hty
    cases ses with
    | bulk bs => intro v hv; cases hv
    | write p ws => intro v hv; cases hv
    | read p n =>
      have g2 : Grown u (sendWord 0x0000#16 u) := .sendWord _ _
      exact .andThen (.closing c (.wait huy g2)) (.closing c ((Grown.wait _ _ _).imp fun t => g2.trans) fun t h => h.trans (.csDeassert t c))
        (fun v hv => by simpa using wait_la (Ran.closing_went hv)) fun v _ w hw => by cases hw

theorem EndsLow.later (fuel : Nat) : ∀ (sess : List Session) (s : State), EndsLow fuel s (laterSessionsProc fuel sess s) := by
  intro sess
  induction sess with
  | nil => intro s v hv; cases hv
  | cons ses rest ih =>
    intro s
    have g : Grown s s.nextSession := ⟨⟨[], by simp⟩, by simp⟩
    refine .andThen (fun v hv => ?_) ((Grown.session _ _ _).imp fun t => g.trans) (fun t ht => session_la (s := s.nextSession) ht) fun t _ => ih t
    obtain ⟨y, es, hy, hl⟩ := EndsLow.session fuel ses s.nextSession v hv
    exact ⟨y, es, hy, by simpa [LowFor] using hl⟩

theorem EndsLow.body {i : Instr} (hi : i.isOperation = true) (fuel : Nat) (s : State) : EndsLow fuel s (bodyProc fuel i s) := by
  cases hti : isTransfer i with
  | true =>
    rw [transfer_body hti]
    cases sessionsOf i with
    | nil => intro v hv; cases hv
    | cons ses rest => exact .andThen (.session _ _ _) (Grown.session _ _ _) (fun t ht => session_la ht) fun t _ => .later fuel rest t
  | false =>
    cases i <;> simp [isTransfer, sessionsOf, Instr.isOperation, commandSessions] at hti hi
    · intro v hv; simp only [bodyProc, openProc] at hv; split at hv <;> cases hv
    · intro v hv; simp only [bodyProc, closeProc] at hv; split at hv <;> cases hv
    · intro v hv; simp only [bodyProc, resetProc] at hv; split at hv <;> cases hv
    · simp only [bodyProc, waitReadyOp]
      split
      · intro v hv; cases hv
      · exact .wait ‹_› (.refl s)

/-- Where the pseudocode of an operation has not ended: accepted, its body out of fuel. -/
theorem bigStep_fuel {i : Instr} (hi : i.isOperation = true) {s v : State} (hb : s.busy = false) {fuel : Nat} (h : bigStep fuel i s = .outOfFuel v) :
    bodyProc fuel i (s.begin i) = .outOfFuel v ∧ v.busy = true ∧ ∃ k p, fuel ≤ k ∧ runSteps k i s = some (v.goto p) := by
  rw [bigStep] at h
  cases ha : accept i s with
  | fault r => exact absurd ha (by simp only [accept]; split <;> [split; skip] <;> simp)
  | refused r => rw [ha] at h; cases h
  | next t =>
    obtain ⟨rfl, hg⟩ := accept_goes hi hb ha
    rw [ha] at h
    have he := operation_end hi fuel s
    cases hr : bodyProc fuel i (s.begin i) with
    | went u => simp [hr] at h
    | raised e info u => simp [hr] at h
    | outOfFuel u =>
      simp only [hr, Ended.outOfFuel.injEq] at h
      subst h
      rw [hr] at he
      obtain ⟨k, p, hk, hv⟩ := he
      refine ⟨rfl, ?_, 1 + k, p, by omega, hg.trans hv⟩
      exact hg.trans hv |>.busy

end Sys2Proof.Machine
end

