-- ==== Sys2Proof/Laws/HostStream.lean ====
section
/-!
SUPPORT. No instruction reads or writes the host's stream: `exec` commutes with a change of it.
-/

namespace Sys2Proof.Machine

/-- A next state changed by `f`; a stop as it is. -/
def mapNext (f : State → State) : Out → Out
  | .next s => .next (f s)
  | .fault r => .fault r
  | .refused r => .refused r

/-- The state with another stream of the host. -/
def State.setHost (h : List HostItem) (s : State) : State := { s with host := h }

theorem mapNext_waitRow {f : State → State} {onReady onLimit : State → State} (s : State)
    (hl : (f s).la = s.la)
    (h1 : ∀ p, ((f s).evReadPin p).1 = (s.evReadPin p).1) (h2 : ∀ p, ((f s).evReadPin p).2 = f (s.evReadPin p).2)
    (h3 : ∀ t, (f t).countPoll = f t.countPoll) (h4 : ∀ t, limitHit (f t) = limitHit t)
    (h5 : ∀ t, onReady (f t) = f (onReady t)) (h6 : ∀ t, onLimit (f t) = f (onLimit t)) :
    waitRow onReady onLimit (f s) = mapNext f (waitRow onReady onLimit s) := by
  rw [waitRow, waitRow, hl]
  cases s.la.ready with
  | none => rfl
  | some y =>
    simp only [withPin, waitSample, mapNext, h1, h2, h3, h4, h5, h6]
    split <;> [rfl; (split <;> rfl)]

theorem sessionRow_setHost (h : List HostItem) (ses : Session) (s : State) :
    sessionRow ses (s.setHost h) = mapNext (State.setHost h) (sessionRow ses s) := by
  have hw : ∀ a b : State → State, (∀ t, a (State.setHost h t) = (a t).setHost h) → (∀ t, b (State.setHost h t) = (b t).setHost h) →
      waitRow a b (s.setHost h) = mapNext (State.setHost h) (waitRow a b s) := fun a b ha hb =>
    mapNext_waitRow s rfl (fun _ => rfl) (fun _ => rfl) (fun _ => rfl) (fun _ => rfl) ha hb
  have hph : (s.setHost h).ph = s.ph := rfl
  unfold sessionRow
  rw [hph]
  cases hp : s.ph <;> simp only <;> try rfl
  · simp only [checkTransfer]
    have hla : (s.setHost h).la = s.la := rfl
    rw [hla]
    split <;> rfl
  · exact hw _ _ (fun _ => rfl) (fun _ => rfl)
  · simp only [withPin]
    have hla : (s.setHost h).la = s.la := rfl
    rw [hla]
    split <;> rfl
  · exact hw _ _ (fun _ => by cases ses <;> rfl) (fun _ => rfl)
  · exact hw _ _ (fun _ => rfl) (fun _ => rfl)
  · have : (s.setHost h).idx = s.idx := rfl
    rw [this]; cases sessionWord ses s.idx <;> rfl
  · have : (s.setHost h).idx = s.idx := rfl
    rw [this]; cases sessionWord ses s.idx <;> rfl
  · cases ses <;> rfl
  · have hla : (s.setHost h).la = s.la := rfl
    rw [hla]; cases s.la.chipSelect <;> rfl
  · have hla : (s.setHost h).la = s.la := rfl
    rw [hla]; cases s.la.chipSelect <;> rfl

theorem rowOf_setHost (h : List HostItem) (i : Instr) (s : State) :
    rowOf i (s.setHost h) = mapNext (State.setHost h) (rowOf i s) := by
  have hph : (s.setHost h).ph = s.ph := rfl
  have hdc : (s.setHost h).doneCode = s.doneCode := rfl
  have hsub : (s.setHost h).sub = s.sub := rfl
  have hla : (s.setHost h).la = s.la := rfl
  have hst : (s.setHost h).status = s.status := rfl
  have hres : (s.setHost h).res = s.res := rfl
  have hf1 : respondPlain (s.setHost h) = (respondPlain s).setHost h := rfl
  have hf2 : respondWords (s.setHost h) = (respondWords s).setHost h := rfl
  have hf3 : respondSingle (s.setHost h) = (respondSingle s).setHost h := by
    rw [respondSingle, respondSingle, hdc, hres]
    split
    · split <;> rfl
    · rfl
  have hw : ∀ a b : State → State, (∀ t, a (State.setHost h t) = (a t).setHost h) → (∀ t, b (State.setHost h t) = (b t).setHost h) →
      waitRow a b (s.setHost h) = mapNext (State.setHost h) (waitRow a b s) := fun a b ha hb =>
    mapNext_waitRow s rfl (fun _ => rfl) (fun _ => rfl) (fun _ => rfl) (fun _ => rfl) ha hb
  have ht : ∀ (ses : Session) (f : State → State), f (s.setHost h) = (f s).setHost h →
      transportRow ses f (s.setHost h) = mapNext (State.setHost h) (transportRow ses f s) := by
    intro ses f hf
    rw [transportRow, transportRow, hph, hf, sessionRow_setHost]
    split <;> rfl
  have hc : ∀ (l : List Session) (f : State → State), f (s.setHost h) = (f s).setHost h →
      commandRow l f (s.setHost h) = mapNext (State.setHost h) (commandRow l f s) := by
    intro l f hf
    rw [commandRow, commandRow, hsub, hph, hf, hdc]
    cases l[s.sub]? with
    | none => rfl
    | some ses =>
      simp only [sessionRow_setHost]
      split
      · split <;> rfl
      · rfl
  have o1 : ∀ la t, openToCsInit la (State.setHost h t) = (openToCsInit la t).setHost h := by
    intro la t; rw [openToCsInit, openToCsInit]; split <;> rfl
  have o2 : ∀ la t, openToCfgRdy la (State.setHost h t) = (openToCfgRdy la t).setHost h := by
    intro la t; rw [openToCfgRdy, openToCfgRdy, o1]; split <;> rfl
  have o3 : ∀ la t, openToCfgRst la (State.setHost h t) = (openToCfgRst la t).setHost h := by
    intro la t; rw [openToCfgRst, openToCfgRst, o2]; split <;> rfl
  have o4 : ∀ la t, openToCfgCs la (State.setHost h t) = (openToCfgCs la t).setHost h := by
    intro la t; rw [openToCfgCs, openToCfgCs, o3]; split <;> rfl
  cases i with
  | openOp la =>
    simp only [rowOf, openRow, hph]
    cases s.ph <;> simp only <;> try rfl
    · show Host.Outcome.next (openInit la _) = _
      rw [openInit]
      simp only [mapNext, openInit]
      have e1 : (s.setHost h).evInit.1 = s.evInit.1 := rfl
      rw [e1]
      split
      · exact congrArg Host.Outcome.next (o4 la (s.evInit.2.setMode ⟨.msbFirst, s.cfg.spiCpol, s.cfg.spiCpha, s.cfg.spiClkdiv⟩))
      · rfl
    · cases la.chipSelect with
      | none => rfl
      | some c => exact congrArg Host.Outcome.next (o3 la (configureOutput c s))
    · cases la.reset with
      | none => rfl
      | some c => exact congrArg Host.Outcome.next (o2 la (configureOutput c s))
    · cases la.ready <;> rfl
    · cases la.ready with
      | none => rfl
      | some c => exact congrArg Host.Outcome.next (o1 la (pullDown c s))
    · cases la.chipSelect <;> rfl
  | closeOp =>
    simp only [rowOf, closeRow, hph, hst]
    cases s.ph <;> simp only <;> try rfl
    simp only [mapNext]; split <;> rfl
  | resetDevice =>
    simp only [rowOf, resetRow, hph, hla]
    cases s.ph <;> simp only <;> try rfl
    · simp only [mapNext]; split <;> rfl
    · cases s.la.reset <;> rfl
    · cases s.la.reset <;> rfl
  | waitReady =>
    simp only [rowOf, waitReadyRow, hph, hla]
    cases s.ph <;> simp only <;> try rfl
    · simp only [mapNext]; split <;> rfl
    · exact hw _ _ (fun _ => rfl) (fun _ => rfl)
  | read p n => exact ht _ _ hf2
  | write p ws => exact ht _ _ hf1
  | writeBulk bs => exact ht _ _ hf1
  | writeCommand code args => exact hc _ _ hf1
  | writeData ws => exact hc _ _ hf1
  | readData n => exact hc _ _ hf2
  | readSingleWord => exact hc _ _ hf3
  | writePixels ws => exact hc _ _ hf1
  | preambleWriteData => rfl
  | preambleReadData => rfl
  | preambleWriteCommand => rfl

theorem exec_setHost (h : List HostItem) (i : Instr) (s : State) :
    exec i (s.setHost h) = mapNext (State.setHost h) (exec i s) := by
  by_cases hi : i.isOperation = true
  · rw [exec_eq_operate hi, exec_eq_operate hi, operate, operate]
    have hb : (s.setHost h).busy = s.busy := rfl
    have ho : (s.setHost h).op = s.op := rfl
    rw [hb, ho, rowOf_setHost]
    split
    · split <;> rfl
    · have hs : (s.setHost h).status = s.status := rfl
      rw [accept, accept, hs]
      split
      · cases admits i s.status <;> rfl
      · rfl
  · have key : ∀ v, preambleExchange v (s.setHost h) = mapNext (State.setHost h) (preambleExchange v s) := by
      intro v
      have hb : (s.setHost h).busy = s.busy := rfl
      have ht : transferInFlight (s.setHost h) = transferInFlight s := rfl
      have hp : (s.setHost h).pre = s.pre := rfl
      have hph : (s.setHost h).ph = s.ph := rfl
      rw [preambleExchange, preambleExchange, hb, ht, hp, hph]
      split
      · split
        · rfl
        · split <;> rfl
      · rfl
    cases i with
    | preambleWriteData => exact key _
    | preambleReadData => exact key _
    | preambleWriteCommand => exact key _
    | _ => exact absurd rfl hi

/-- No instruction reads or writes the host's stream. -/
theorem exec_host {i : Instr} {s t : State} (h : exec i s = .next t) : t.host = s.host := by
  have := exec_setHost s.host i s
  have hs : s.setHost s.host = s := rfl
  rw [hs, h] at this
  injection this with this
  rw [this]; rfl

end Sys2Proof.Machine
end

