-- ==== Sys2Proof/Laws/PerInstr.lean ====
section
/-!
SUPPORT. What is said of every instruction: the number of items of its encoding, by its format (30_encoding.md R71, R85): L0 one
header, L1 a header and an argument word, LP these two and LEN payload items; a preamble is one Word (R77).
-/

namespace Sys2Proof.Laws

/-- The number of items of the encoding of `i`. -/
def DescriptorLength.Statement (i : Instr) : Prop :=
  (encode i).length =
    match i with
    | .openOp _ => 2
    | .closeOp => 1
    | .resetDevice => 1
    | .waitReady => 1
    | .read _ _ => 2
    | .write _ words => 2 + words.length
    | .writeBulk bytes => 2 + bytes.length
    | .writeCommand _ args => 2 + args.length
    | .writeData words => 2 + words.length
    | .readData _ => 2
    | .readSingleWord => 1
    | .writePixels words => 2 + words.length
    | .preambleWriteData => 1
    | .preambleReadData => 1
    | .preambleWriteCommand => 1

theorem DescriptorLength.openOp (la : LineAssign) : DescriptorLength.Statement (.openOp la) := rfl
theorem DescriptorLength.closeOp : DescriptorLength.Statement .closeOp := rfl
theorem DescriptorLength.resetDevice : DescriptorLength.Statement .resetDevice := rfl
theorem DescriptorLength.waitReady : DescriptorLength.Statement .waitReady := rfl
theorem DescriptorLength.read (p : Word) (count : Nat) : DescriptorLength.Statement (.read p count) := rfl
theorem DescriptorLength.write (p : Word) (words : List Word) : DescriptorLength.Statement (.write p words) := by
  simp [DescriptorLength.Statement, encode]; omega
theorem DescriptorLength.writeBulk (bytes : List Byte) : DescriptorLength.Statement (.writeBulk bytes) := by
  simp [DescriptorLength.Statement, encode]; omega
theorem DescriptorLength.writeCommand (code : Word) (args : List Word) :
    DescriptorLength.Statement (.writeCommand code args) := by
  simp [DescriptorLength.Statement, encode]; omega
theorem DescriptorLength.writeData (words : List Word) : DescriptorLength.Statement (.writeData words) := by
  simp [DescriptorLength.Statement, encode]; omega
theorem DescriptorLength.readData (count : Nat) : DescriptorLength.Statement (.readData count) := rfl
theorem DescriptorLength.readSingleWord : DescriptorLength.Statement .readSingleWord := rfl
theorem DescriptorLength.writePixels (words : List Word) : DescriptorLength.Statement (.writePixels words) := by
  simp [DescriptorLength.Statement, encode]; omega
theorem DescriptorLength.preambleWriteData : DescriptorLength.Statement .preambleWriteData := rfl
theorem DescriptorLength.preambleReadData : DescriptorLength.Statement .preambleReadData := rfl
theorem DescriptorLength.preambleWriteCommand : DescriptorLength.Statement .preambleWriteCommand := rfl

end Sys2Proof.Laws
end

