-- ==== Sys2Proof/Laws/PinMap.lean ====
section
/-!
SUPPORT. PINCFG as a map from pins to configurations.
-/

namespace Sys2Proof.Machine

theorem mem_pinSet {m : List (Pin × PinConf)} {p : Pin} {c : PinConf} : ∀ {x : Pin × PinConf}, x ∈ pinSet m p c → x = (p, c) ∨ x ∈ m := by
  induction m with
  | nil => intro x h; simp [pinSet] at h; exact .inl h
  | cons a m ih =>
    obtain ⟨q, d⟩ := a
    intro x h
    rw [pinSet] at h
    split at h
    · rcases List.mem_cons.1 h with h | h
      · exact .inl h
      · exact .inr h
    · split at h
      · rcases List.mem_cons.1 h with h | h
        · exact .inl h
        · exact .inr (List.mem_cons_of_mem _ h)
      · rcases List.mem_cons.1 h with h | h
        · exact .inr (by rw [h]; simp)
        · rcases ih h with h | h
          · exact .inl h
          · exact .inr (List.mem_cons_of_mem _ h)

theorem pinSet_wf {m : List (Pin × PinConf)} (p : Pin) (c : PinConf) (h : PinMapWf m) : PinMapWf (pinSet m p c) := by
  induction m with
  | nil => simp [pinSet]
  | cons a m ih =>
    obtain ⟨q, d⟩ := a
    have ⟨h1, h2⟩ := List.pairwise_cons.1 h
    rw [pinSet]
    split
    · rename_i hlt
      refine List.pairwise_cons.2 ⟨fun x hx => ?_, h⟩
      rcases List.mem_cons.1 hx with rfl | hx
      · exact hlt
      · exact Nat.lt_trans hlt (h1 x hx)
    · rename_i hlt
      split
      · rename_i heq
        subst heq
        exact List.pairwise_cons.2 ⟨h1, h2⟩
      · rename_i hne
        refine List.pairwise_cons.2 ⟨fun x hx => ?_, ih h2⟩
        rcases mem_pinSet hx with rfl | hx
        · exact Nat.lt_of_le_of_ne (Nat.le_of_not_lt hlt) (Ne.symm hne)
        · exact h1 x hx

/-- A map whose pins all lie above `p` has no entry for it. -/
theorem pinGet_above {m : List (Pin × PinConf)} {p : Pin} (h : ∀ x ∈ m, p < x.1) : pinGet m p = none := by
  induction m with
  | nil => rfl
  | cons a m ih =>
    obtain ⟨q, d⟩ := a
    have : p < q := h (q, d) (by simp)
    rw [pinGet, if_neg (Nat.ne_of_gt this)]
    exact ih fun x hx => h x (List.mem_cons_of_mem _ hx)

theorem pinGet_pinSet {m : List (Pin × PinConf)} (p q : Pin) (c : PinConf) (h : PinMapWf m) :
    pinGet (pinSet m p c) q = if q = p then some c else pinGet m q := by
  induction m with
  | nil => simp [pinSet, pinGet, eq_comm]
  | cons a m ih =>
    obtain ⟨r, d⟩ := a
    have ⟨h1, h2⟩ := List.pairwise_cons.1 h
    rw [pinSet]
    split
    · by_cases hq : q = p
      · subst hq; simp [pinGet]
      · rw [if_neg hq, pinGet, if_neg (Ne.symm hq)]
    · split
      · rename_i heq
        subst heq
        by_cases hq : q = p
        · subst hq; simp [pinGet]
        · rw [if_neg hq]
          rw [pinGet, if_neg (Ne.symm hq), pinGet, if_neg (Ne.symm hq)]
      · rename_i hne
        rw [pinGet, ih h2]
        by_cases hq : q = p
        · subst hq
          simp [Ne.symm hne]
        · rw [if_neg hq, if_neg hq]; rfl

theorem pinMap_ext : ∀ (m m' : List (Pin × PinConf)), PinMapWf m → PinMapWf m' → (∀ p, pinGet m p = pinGet m' p) → m = m' := by
  intro m
  induction m with
  | nil =>
    intro m' _ _ h
    cases m' with
    | nil => rfl
    | cons a m' => have := h a.1; simp [pinGet] at this
  | cons a m ih =>
    intro m' hw hw' h
    cases m' with
    | nil => have := h a.1; simp [pinGet] at this
    | cons b m' =>
      have ⟨h1, h2⟩ := List.pairwise_cons.1 hw
      have ⟨h1', h2'⟩ := List.pairwise_cons.1 hw'
      have hab : a.1 = b.1 := by
        rcases Nat.lt_trichotomy a.1 b.1 with hlt | heq | hlt
        · have := h a.1
          rw [pinGet, if_pos rfl, pinGet_above (m := b :: m') (fun x hx => by
            rcases List.mem_cons.1 hx with rfl | hx
            · exact hlt
            · exact Nat.lt_trans hlt (h1' x hx))] at this
          cases this
        · exact heq
        · have := h b.1
          rw [pinGet_above (m := a :: m) (fun x hx => by
            rcases List.mem_cons.1 hx with rfl | hx
            · exact hlt
            · exact Nat.lt_trans hlt (h1 x hx)), pinGet, if_pos rfl] at this
          cases this
      obtain ⟨p, c⟩ := a
      obtain ⟨q, d⟩ := b
      simp only [] at hab
      subst hab
      have hcd : c = d := by have := h p; simpa [pinGet] using this
      subst hcd
      have htail : m = m' := by
        refine ih m' h2 h2' fun q => ?_
        by_cases hq : p = q
        · subst hq
          rw [pinGet_above fun x hx => h1 x hx, pinGet_above fun x hx => h1' x hx]
        · have := h q
          rwa [pinGet, if_neg hq, pinGet, if_neg hq] at this
      rw [htail]

theorem pinsWithCs_wf (la : LineAssign) : PinMapWf (pinsWithCs la) := by
  rw [pinsWithCs]; split <;> simp

theorem pinsWithReset_wf (la : LineAssign) : PinMapWf (pinsWithReset la) := by
  rw [pinsWithReset]; split
  · exact pinSet_wf _ _ (pinsWithCs_wf la)
  · exact pinsWithCs_wf la

theorem pinsOpen_wf (la : LineAssign) : PinMapWf (pinsOpen la) := by
  rw [pinsOpen]; split
  · exact pinSet_wf _ _ (pinsWithReset_wf la)
  · exact pinsWithReset_wf la

/-- PINCFG after a successful OPEN, read as a map. -/
theorem pinGet_pinsOpen (la : LineAssign) (p : Pin) : pinGet (pinsOpen la) p =
    if la.ready = some p then some readyPin else if la.reset = some p then some outputPin
      else if la.chipSelect = some p then some outputPin else none := by
  rw [pinsOpen]
  have hc : pinGet (pinsWithCs la) p = if la.chipSelect = some p then some outputPin else none := by
    rw [pinsWithCs]; cases la.chipSelect <;> simp [pinGet]
  have hr : pinGet (pinsWithReset la) p = if la.reset = some p then some outputPin
      else if la.chipSelect = some p then some outputPin else none := by
    rw [pinsWithReset]
    cases la.reset with
    | none => simp [hc]
    | some r => simp only []; rw [pinGet_pinSet _ _ _ (pinsWithCs_wf la), hc]; simp [eq_comm]
  cases la.ready with
  | none => simp [hr]
  | some y => simp only []; rw [pinGet_pinSet _ _ _ (pinsWithReset_wf la), hr]; simp [eq_comm]

end Sys2Proof.Machine
end

