-- ==== Sys2Proof/Laws/Relabel.lean ====
section
/-!
SUPPORT. The pseudocode of a session looks at the data registers only, so that operations with the same sessions run alike.
-/

namespace Sys2Proof.Machine

/-- The data of `s` under the control fields of `m`. -/
def State.relabel (m s : State) : State :=
  { s with busy := m.busy, op := m.op, ph := m.ph, err := m.err, sub := m.sub, doneCode := m.doneCode, doneInfo := m.doneInfo, responses := m.responses }

theorem waitLoop_relabel (m : State) (y : Pin) : ∀ (fuel : Nat) (s : State),
    waitLoop fuel y (State.relabel m s) = (waitLoop fuel y s).map (State.relabel m) := by
  intro fuel
  induction fuel with
  | zero => intro s; rfl
  | succ k ih =>
    intro s
    show (if (s.evReadPin y).1 = readyLevel then Ran.went (State.relabel m (s.evReadPin y).2)
      else if limitHit (s.evReadPin y).2.countPoll then
        Ran.raised .deviceNotRespondingError 0 (State.relabel m (s.evReadPin y).2.countPoll)
      else waitLoop k y (State.relabel m (s.evReadPin y).2.countPoll)) = _
    have ih' := ih (s.evReadPin y).2.countPoll
    rw [ih', waitLoop]
    simp only [apply_ite (Ran.map (State.relabel m))]
    rfl

theorem recvWords_relabel (m : State) : ∀ (k : Nat) (s : State), recvWords k (State.relabel m s) = State.relabel m (recvWords k s) := by
  intro k
  induction k with
  | zero => intro s; rfl
  | succ k ih => intro s; exact ih (recvWord s)

theorem sendWords_relabel (m : State) : ∀ (ws : List Word) (s : State), sendWords ws (State.relabel m s) = State.relabel m (sendWords ws s) := by
  intro ws
  induction ws with
  | nil => intro s; rfl
  | cons w ws ih => intro s; exact ih (sendWord w s).nextIdx

theorem Ran.map_andThen (f : State → State) {r : Ran} {q : State → Ran} (h : ∀ s, q (f s) = (q s).map f) :
    (r.map f).andThen q = (r.andThen q).map f := by
  cases r with
  | went s => exact h s
  | raised e i s => rfl
  | outOfFuel s => rfl

theorem Ran.map_closing (f : State → State) {r : Ran} {c : Pin} (h : ∀ s, (f s).csDeassert c = f (s.csDeassert c)) :
    (r.map f).closing c = (r.closing c).map f := by
  cases r with
  | went s => rfl
  | raised e i s => simp [Ran.map, Ran.closing, h]
  | outOfFuel s => rfl

theorem payload_relabel (m : State) (fuel : Nat) (ses : Session) (c y : Pin) (s : State) :
    payloadProc fuel ses c y (State.relabel m s) = (payloadProc fuel ses c y s).map (State.relabel m) := by
  cases ses with
  | read p n =>
    simp only [payloadProc]
    have h1 : waitReadyProc fuel y (sendWord 0x0000#16 (State.relabel m s)) = (waitReadyProc fuel y (sendWord 0x0000#16 s)).map (State.relabel m) :=
      waitLoop_relabel m y fuel (sendWord 0x0000#16 s).startWait
    rw [h1, Ran.map_closing (State.relabel m) (fun _ => rfl), Ran.map_andThen (State.relabel m)]
    intro t
    have := recvWords_relabel m t.n t.clearIdx.clearRes
    show Ran.went ((recvWords t.n (State.relabel m t.clearIdx.clearRes)).csDeassert c) = _
    rw [this]; rfl
  | write p ws =>
    simp only [payloadProc]
    show Ran.went ((sendWords ws (State.relabel m s.clearIdx)).csDeassert c) = _
    rw [sendWords_relabel]; rfl
  | bulk bs => rfl

theorem sessionProc_relabel (m : State) (fuel : Nat) (ses : Session) (s : State) :
    sessionProc fuel ses (State.relabel m s) = (sessionProc fuel ses s).map (State.relabel m) := by
  rw [sessionProc, sessionProc]
  have hla : (State.relabel m s).la = s.la := rfl
  rw [hla]
  cases s.la.chipSelect with
  | none => rfl
  | some c =>
    cases s.la.ready with
    | none => rfl
    | some y =>
      simp only []
      have h1 : waitReadyProc fuel y (State.load ses (State.relabel m s)) = (waitReadyProc fuel y (s.load ses)).map (State.relabel m) :=
        waitLoop_relabel m y fuel (s.load ses).startWait
      rw [h1, Ran.map_andThen (State.relabel m)]
      intro t
      have h2 : waitReadyProc fuel y (sendWord (State.relabel m t).pre ((State.relabel m t).csAssert c)) =
          (waitReadyProc fuel y (sendWord t.pre (t.csAssert c))).map (State.relabel m) :=
        waitLoop_relabel m y fuel (sendWord t.pre (t.csAssert c)).startWait
      rw [h2, Ran.map_closing (State.relabel m) (fun _ => rfl), Ran.map_andThen (State.relabel m)]
      exact fun u => payload_relabel m fuel ses c y u

theorem relabel_respond {m v : State} (e : ErrKind) (info : Nat) (r : List Word) (hs : m.sub = v.sub) (hr : m.responses = v.responses) :
    (State.relabel m v).respond e info r = v.respond e info r := by
  simp [State.relabel, State.respond, hs, hr]

theorem readsWords_one {i : Instr} {ses : Session} (h : sessionsOf i = [ses]) : readsWords i = readSession ses := by
  cases i <;> simp [sessionsOf, commandSessions] at h <;> first | (subst h; rfl) | (obtain ⟨rfl, -⟩ := h; rfl)

/-- Two one-session operations with the same session, of which neither or both hand over the same Words, end alike. -/
theorem same_session {i j : Instr} {ses : Session} (hi : sessionsOf i = [ses]) (hj : sessionsOf j = [ses])
    (hr : ∀ v : State, (readSession ses = true → v.res.length = sessionLength ses) → respondOk i v = respondOk j v) {s s' u : State}
    (hb : s.busy = false) (hd : s' = { s with sub := if i.isCommandLayer then 0 else s.sub })
    (hs : (if j.isCommandLayer then 0 else s'.sub) = s'.sub) (k : Nat) (h : runOperation k i s = some u) : ∃ k, runOperation k j s' = some u := by
  have opi : ∀ {i : Instr}, sessionsOf i = [ses] → i.isOperation = true := fun {i} h => by cases i <;> first | rfl | simp [sessionsOf] at h
  have hst : ∀ {i : Instr} {t : State}, sessionsOf i = [ses] → accept i t = .next (t.begin i) → t.status = .opened := fun {i t} h1 ha => by
    obtain ⟨-, hadm, -⟩ := accept_next ha
    cases i <;> simp [sessionsOf] at h1 <;> simpa [admits] using hadm
  have hto : ∀ {i : Instr} {t : State}, sessionsOf i = [ses] → t.status = .opened → accept i t = .next (t.begin i) := fun {i t} h1 ha => by
    cases i <;> simp [sessionsOf] at h1 <;> simp [accept, offerValid, admits, ha]
  obtain ⟨ha, h⟩ := run_body (opi hi) hb h
  have hb' : s'.busy = false := by rw [hd]; exact hb
  have ha' := hto hj (t := s') (by rw [hd]; have := hst hi ha; exact this)
  rw [bodyProc_one hi] at h
  have hrel : s.begin i = State.relabel (s.begin i) (s'.begin j) := by
    simp [State.relabel, State.begin, hd, readsWords_one hi, readsWords_one hj]
  have hsub : (s.begin i).sub = (s'.begin j).sub := by
    simp only [State.begin]; rw [hs, hd]
  have hresp : (s.begin i).responses = (s'.begin j).responses := by simp [State.begin, hd]
  rw [hrel, sessionProc_relabel] at h
  cases hv : sessionProc k ses (s'.begin j) with
  | outOfFuel v => rw [hv] at h; rcases h with ⟨v, h, -⟩ | ⟨_, _, v, h, -⟩ <;> cases h
  | went v =>
    obtain ⟨hk, -, hres⟩ := session_went_kept hv
    rw [hv] at h
    rcases h with ⟨v', h, hu⟩ | ⟨_, _, v', h, -⟩
    · cases h
      obtain ⟨k', hk'⟩ := accepted_runs (opi hj) hb' ha' (fuel := k) (by rw [bodyProc_one hj]; exact hv)
      refine ⟨k', ?_⟩
      rw [hk', hu, ← hr v hres]
      cases hh : hands i <;> simp only [respondOk, hh]
      · rw [relabel_respond _ _ _ (hsub.trans hk.sub.symm) (hresp.trans hk.responses.symm)]
      · rw [relabel_respond _ _ _ (hsub.trans hk.sub.symm) (hresp.trans hk.responses.symm)]; rfl
      · rw [show (State.relabel (s.begin i) v).res = v.res from rfl]
        cases v.res <;> simp only [] <;> rw [relabel_respond _ _ _ (hsub.trans hk.sub.symm) (hresp.trans hk.responses.symm)]
    · cases h
  | raised e info v =>
    obtain ⟨-, hresp', -⟩ := session_raised_kept hv
    rw [hv] at h
    have hsub' : v.sub = (s'.begin j).sub := by
      rcases session_raised hv with ⟨-, -, -, rfl⟩ | ⟨-, -, -, -, rfl⟩ | ⟨c, y, limit, m, hc, hy, -, -, hl, -, ht | ⟨a, rx, hrx, ht⟩ | ⟨-, a, b, rx, hrx, ht⟩⟩
      · rfl
      · rfl
      all_goals rw [ht]
    rcases h with ⟨v', h, hu⟩ | ⟨_, _, v', h, hu⟩
    · cases h
    · cases h
      obtain ⟨k', hk'⟩ := accepted_fails (opi hj) hb' ha' (fuel := k) (by rw [bodyProc_one hj]; exact hv)
      refine ⟨k', ?_⟩
      rw [hk', hu, relabel_respond _ _ _ (hsub.trans hsub'.symm) (hresp.trans hresp'.symm)]

/-- One write of the expansion against one session of the command. -/
theorem write_against {k : Nat} {p : Word} {ws : List Word} {s t : State} (hb : s.busy = false) (hst : s.status = .opened)
    (hd : State.relabel t s = t) :
    match sessionProc k (.write p ws) t with
    | .went t' => ∃ v k', runOperation k' (.write p ws) s = some v ∧ v.busy = false ∧ v.status = .opened ∧ v.err = .ok ∧
        v.responses = s.responses ++ [⟨0x00#8, 0, []⟩] ∧ State.relabel t' v = t' ∧ t'.responses = t.responses ∧ v.op = none ∧ v.ph = .idle ∧ v.doneCode = .ok ∧ v.doneInfo = 0
    | .raised e info t' => ∃ v k', runOperation k' (.write p ws) s = some v ∧ v.busy = false ∧ v.err = e ∧ e ≠ .ok ∧
        v.responses = s.responses ++ [⟨e.code, info, []⟩] ∧ State.relabel t' v = t' ∧ t'.responses = t.responses ∧ v.op = none ∧ v.ph = .idle ∧ v.doneCode = .ok ∧ v.doneInfo = 0
    | .outOfFuel _ => runOperation k (.write p ws) s = none := by
  have hd' : t = State.relabel t (s.begin (.write p ws)) := hd.symm
  have hacc : accept (.write p ws) s = .next (s.begin (.write p ws)) := by simp [accept, offerValid, admits, hst]
  have hrel : sessionProc k (.write p ws) t = (sessionProc k (.write p ws) (s.begin (.write p ws))).map (State.relabel t) := by
    rw [← sessionProc_relabel, ← hd']
  rw [hrel]
  cases hv : sessionProc k (.write p ws) (s.begin (.write p ws)) with
  | went v =>
    obtain ⟨k', hk'⟩ := accepted_runs (i := .write p ws) rfl hb hacc (fuel := k) (by rw [bodyProc_one rfl]; exact hv)
    obtain ⟨hk, -⟩ := session_went_kept hv
    have hvs : v.status = .opened := by
      obtain ⟨c, y, a, b, rx, hc, hy, hrx, -, -, ht⟩ := write_session_went hv
      rw [ht]; exact hst
    refine ⟨_, k', hk', rfl, hvs, rfl, ?_, rfl, rfl, rfl, rfl, rfl, rfl⟩
    show v.responses ++ _ = _
    rw [hk.responses]; rfl
  | raised e info v =>
    obtain ⟨k', hk'⟩ := accepted_fails (i := .write p ws) rfl hb hacc (fuel := k) (by rw [bodyProc_one rfl]; exact hv)
    obtain ⟨-, hk, -⟩ := session_raised_kept hv
    refine ⟨_, k', hk', rfl, rfl, session_error_not_ok hv, ?_, rfl, rfl, rfl, rfl, rfl, rfl⟩
    show v.responses ++ _ = _
    rw [hk]; rfl
  | outOfFuel w =>
    cases h : runOperation k (.write p ws) s with
    | none => rfl
    | some u =>
      obtain ⟨-, h⟩ := run_body (i := .write p ws) rfl hb h
      rw [bodyProc_one rfl, hv] at h
      rcases h with ⟨v, h, -⟩ | ⟨_, _, v, h, -⟩ <;> cases h

theorem runUntilError_mono {k : Nat} (m : Nat) : ∀ {l : List Instr} {s v : State}, runUntilError k l s = some v → runUntilError (k + m) l s = some v := by
  intro l
  induction l with
  | nil => intro s v h; exact h
  | cons i l ih =>
    intro s v h
    rw [runUntilError] at h ⊢
    cases hr : runOperation k i s with
    | none => rw [hr] at h; cases h
    | some t =>
      rw [hr] at h
      rw [runOperation_mono m hr]
      simp only [] at h ⊢
      split at h
      · rename_i he; rw [if_pos he]; exact ih h
      · rename_i he; rw [if_neg he]; exact h

theorem runUntilError_unique {k m : Nat} {l : List Instr} {s v w : State} (h1 : runUntilError k l s = some v) (h2 : runUntilError m l s = some w) : v = w := by
  have a := runUntilError_mono m h1
  have b := runUntilError_mono k h2
  rw [Nat.add_comm, b] at a
  exact (Option.some.inj a).symm

/-- The writes against the sessions; `q` is what follows the first response. -/
def Against (k : Nat) (l : List Instr) (s t : State) (r : Ran) : Prop :=
  match r with
  | .went t' => ∃ v k', runUntilError k' l s = some v ∧ v.busy = false ∧ v.err = .ok ∧ v.responses.getLast? = some ⟨0x00#8, 0, []⟩ ∧
      State.relabel t' v = t' ∧ t'.responses = t.responses ∧ v.op = none ∧ v.ph = .idle ∧ v.doneCode = .ok ∧ v.doneInfo = 0
  | .raised e info t' => ∃ v k', runUntilError k' l s = some v ∧ v.busy = false ∧ v.err = e ∧ v.responses.getLast? = some ⟨e.code, info, []⟩ ∧
      State.relabel t' v = t' ∧ t'.responses = t.responses ∧ v.op = none ∧ v.ph = .idle ∧ v.doneCode = .ok ∧ v.doneInfo = 0
  | .outOfFuel _ => runUntilError k l s = none

/-- One write, then the rest. -/
theorem Against.cons {k : Nat} {p : Word} {ws : List Word} {l : List Instr} {s t : State} {q : State → Ran} (hb : s.busy = false) (hst : s.status = .opened)
    (hd : State.relabel t s = t)
    (hq : ∀ v t' : State, v.busy = false → v.status = .opened → v.err = .ok → v.responses.getLast? = some ⟨0x00#8, 0, []⟩ → State.relabel t' v = t' →
      v.op = none → v.ph = .idle → v.doneCode = .ok → v.doneInfo = 0 → Against k l v t' (q t')) :
    Against k (.write p ws :: l) s t ((sessionProc k (.write p ws) t).andThen q) := by
  have h := write_against (k := k) (p := p) (ws := ws) hb hst hd
  cases hr : sessionProc k (.write p ws) t with
  | outOfFuel w =>
    rw [hr] at h
    show runUntilError _ _ _ = _
    rw [runUntilError, h]
  | raised e info t' =>
    rw [hr] at h
    obtain ⟨v, k', h1, h2, h3, h4, h5, h6⟩ := h
    refine ⟨v, k', ?_, h2, h3, by simp [h5], h6⟩
    rw [runUntilError, h1]; simp [h3, h4]
  | went t' =>
    rw [hr] at h
    obtain ⟨v, k', h1, h2, h3, h4, h5, h6, h7, h8, h9, h10, h11⟩ := h
    have := hq v t' h2 h3 h4 (by simp [h5]) h6 h8 h9 h10 h11
    simp only [Ran.andThen]
    cases hr' : q t' with
    | outOfFuel w =>
      rw [hr'] at this
      have this : runUntilError k l v = none := this
      show runUntilError _ _ _ = _
      rw [runUntilError]
      cases hx : runOperation k (.write p ws) s with
      | none => rfl
      | some v' =>
        have := runOperation_unique hx h1
        subst this
        simp [h4, this]
    | went t2 =>
      rw [hr'] at this
      obtain ⟨w, m, g1, g2, g3, g4, g5, g6, g7⟩ := this
      refine ⟨w, k' + m, ?_, g2, g3, g4, g5, g6.trans h7, g7⟩
      rw [runUntilError, runOperation_mono m h1]
      simp only [h4]
      rw [Nat.add_comm]; exact runUntilError_mono k' g1
    | raised e info t2 =>
      rw [hr'] at this
      obtain ⟨w, m, g1, g2, g3, g4, g5, g6, g7⟩ := this
      refine ⟨w, k' + m, ?_, g2, g3, g4, g5, g6.trans h7, g7⟩
      rw [runUntilError, runOperation_mono m h1]
      simp only [h4]
      rw [Nat.add_comm]; exact runUntilError_mono k' g1

theorem later_against {k : Nat} : ∀ (args : List Word) (s t : State), s.busy = false → s.status = .opened → s.err = .ok →
    s.responses.getLast? = some ⟨0x00#8, 0, []⟩ → State.relabel t s = t → s.op = none → s.ph = .idle → s.doneCode = .ok → s.doneInfo = 0 →
    Against k (args.map fun a => .write preDataWrite [a]) s t (laterSessionsProc k (args.map fun a => .write preDataWrite [a]) t) := by
  intro args
  induction args with
  | nil =>
    intro s t hb hst he hr hd h1 h2 h3 h4
    exact ⟨s, 0, rfl, hb, he, hr, hd, rfl, h1, h2, h3, h4⟩
  | cons a args ih =>
    intro s t hb hst he hr hd h1 h2 h3 h4
    have hd' : State.relabel t.nextSession s = t.nextSession := by rw [← hd]; rfl
    have := Against.cons (k := k) (p := preDataWrite) (ws := [a]) (l := args.map fun a => .write preDataWrite [a]) (t := t.nextSession)
      (q := laterSessionsProc k (args.map fun a => .write preDataWrite [a])) hb hst hd'
      (fun v t' a b c d e f g h i => ih v t' a b c d e f g h i)
    exact this

end Sys2Proof.Machine
end

