-- ==== Sys2Proof/Laws/Steps.lean ====
section
/-!
SUPPORT. What one step of an instruction can do, in any state: the cases of acceptance, of each row and of the response.
-/

namespace Sys2Proof.Machine

@[simp] theorem Env.takeLevel_initAnswers (v : Env) : v.takeLevel.2.initAnswers = v.initAnswers := by
  rw [Env.takeLevel]; split <;> rfl
@[simp] theorem Env.takeLevel_rxBytes (v : Env) : v.takeLevel.2.rxBytes = v.rxBytes := by rw [Env.takeLevel]; split <;> rfl
@[simp] theorem Env.takeByte_initAnswers (v : Env) : v.takeByte.2.initAnswers = v.initAnswers := by
  rw [Env.takeByte]; split <;> rfl
@[simp] theorem Env.takeByte_readyLevels (v : Env) : v.takeByte.2.readyLevels = v.readyLevels := by
  rw [Env.takeByte]; split <;> rfl
@[simp] theorem Env.takeInit_readyLevels (v : Env) : v.takeInit.2.readyLevels = v.readyLevels := by
  rw [Env.takeInit]; split <;> rfl
@[simp] theorem Env.takeInit_rxBytes (v : Env) : v.takeInit.2.rxBytes = v.rxBytes := by rw [Env.takeInit]; split <;> rfl

theorem withPin_next {p : Option Pin} {k : Pin → State} {t : State} (h : withPin p k = .next t) : ∃ q, p = some q ∧ t = k q := by
  cases p with
  | none => simp [withPin] at h
  | some q => simp only [withPin] at h; cases h; exact ⟨q, rfl, rfl⟩

theorem withOperand_next {w : Option Word} {k : Word → State} {t : State} (h : withOperand w k = .next t) :
    ∃ v, w = some v ∧ t = k v := by
  cases w with
  | none => simp [withOperand] at h
  | some q => simp only [withOperand] at h; cases h; exact ⟨q, rfl, rfl⟩

/-- One sample of a wait, by cases. -/
theorem waitRow_cases {onReady onLimit : State → State} {s t : State} (h : waitRow onReady onLimit s = .next t) :
    ∃ y, s.la.ready = some y ∧
      (t = onReady (s.evReadPin y).2 ∨ t = onLimit (s.evReadPin y).2.countPoll ∨ t = (s.evReadPin y).2.countPoll) := by
  obtain ⟨y, hy, rfl⟩ := withPin_next h
  refine ⟨y, hy, ?_⟩
  rw [waitSample]
  split
  · exact .inl rfl
  · split
    · exact .inr (.inl rfl)
    · exact .inr (.inr rfl)

theorem checkTransfer_cases (ses : Session) (s : State) :
    checkTransfer ses s = s.raise .configurationError roleChipSelect ∨
    checkTransfer ses s = s.raise .configurationError roleReady ∨
    checkTransfer ses s = (s.load ses).startWait.goto .rdy1 := by
  rw [checkTransfer]
  split <;> simp

theorem afterSecondWait_cases (ses : Session) (s : State) :
    (∃ p, afterSecondWait ses s = s.goto p) ∨ ∃ p, afterSecondWait ses s = s.clearIdx.goto p := by
  cases ses with
  | read p n => exact .inl ⟨_, rfl⟩
  | write p n => exact .inr ⟨_, rfl⟩
  | bulk p => exact .inl ⟨_, rfl⟩

/-- What a row of a session that answers a next state leads to (41_transport_transfers.md R144). -/
inductive SessionMove (ses : Session) (s : State) : State → Prop where
  | missing (role : Nat) : SessionMove ses s (s.raise .configurationError role)
  | load : SessionMove ses s ((s.load ses).startWait.goto .rdy1)
  | low (y : Pin) (hy : s.la.ready = some y) : SessionMove ses s (s.evReadPin y).2.countPoll
  | giveUp (y : Pin) (hy : s.la.ready = some y) (hp : s.ph = .rdy1) :
    SessionMove ses s ((s.evReadPin y).2.countPoll.raise .deviceNotRespondingError 0)
  | abort (y : Pin) (hy : s.la.ready = some y) : SessionMove ses s (s.evReadPin y).2.countPoll.raiseInSession
  | high (y : Pin) (hy : s.la.ready = some y) (p : Phase) : SessionMove ses s ((s.evReadPin y).2.goto p)
  | highWrite (y : Pin) (hy : s.la.ready = some y) (p : Phase) : SessionMove ses s ((s.evReadPin y).2.clearIdx.goto p)
  | highRead (y : Pin) (hy : s.la.ready = some y) (hr : s.ph = .rdy3) (p : Phase) :
    SessionMove ses s ((s.evReadPin y).2.clearIdx.clearRes.goto p)
  | assert (c : Pin) (hc : s.la.chipSelect = some c) : SessionMove ses s ((s.csAssert c).goto .preH)
  | deassert (c : Pin) (hc : s.la.chipSelect = some c) : SessionMove ses s ((s.csDeassert c).finish .ok 0)
  | deassertFail (c : Pin) (hc : s.la.chipSelect = some c) :
    SessionMove ses s ((s.csDeassert c).finish .deviceNotRespondingError 0)
  | preH (hp : s.ph = .preH) : SessionMove ses s (preambleHigh s)
  | preL (hp : s.ph = .preL) : SessionMove ses s (preambleLow s)
  | dmy0 (hp : s.ph = .dmy0) : SessionMove ses s ((s.evXfer 0x00#8).2.goto .dmy1)
  | dmy1 (hp : s.ph = .dmy1) : SessionMove ses s ((s.evXfer 0x00#8).2.startWait.goto .rdy3)
  | rdH (hp : s.ph = .rdH) : SessionMove ses s (readHigh s)
  | rdL (hp : s.ph = .rdL) : SessionMove ses s (readLow s)
  | wrH (w : Word) (hp : s.ph = .wrH) : SessionMove ses s (writeHigh w s)
  | wrL (w : Word) (hp : s.ph = .wrL) : SessionMove ses s (writeLow w s)
  | blk (bs : List Byte) (hp : s.ph = .blk) : SessionMove ses s ((s.emit (.xferBulk bs)).goto .csD)

theorem sessionRow_move {ses : Session} {s t : State} (h : sessionRow ses s = .next t) : SessionMove ses s t := by
  cases hp : s.ph <;> simp only [sessionRow, hp] at h <;> try cases h
  case chk =>
    rw [checkTransfer]
    split
    · exact .missing _
    · exact .missing _
    · exact .load
  case rdy1 =>
    obtain ⟨y, hy, rfl | rfl | rfl⟩ := waitRow_cases h
    · exact .high y hy _
    · exact .giveUp y hy hp
    · exact .low y hy
  case rdy2 =>
    obtain ⟨y, hy, rfl | rfl | rfl⟩ := waitRow_cases h
    · cases ses with
      | read p n => exact .high y hy _
      | write p n => exact .highWrite y hy _
      | bulk p => exact .high y hy _
    · exact .abort y hy
    · exact .low y hy
  case rdy3 =>
    obtain ⟨y, hy, rfl | rfl | rfl⟩ := waitRow_cases h
    · exact .highRead y hy hp _
    · exact .abort y hy
    · exact .low y hy
  case csA => obtain ⟨c, hc, rfl⟩ := withPin_next h; exact .assert c hc
  case csD => obtain ⟨c, hc, rfl⟩ := withPin_next h; exact .deassert c hc
  case abort => obtain ⟨c, hc, rfl⟩ := withPin_next h; exact .deassertFail c hc
  case wrH => obtain ⟨w, hw, rfl⟩ := withOperand_next h; exact .wrH w hp
  case wrL => obtain ⟨w, hw, rfl⟩ := withOperand_next h; exact .wrL w hp
  case blk =>
    cases ses <;> simp only [bulkRow] at h <;> cases h
    exact .blk _ hp
  case preH => exact .preH hp
  case preL => exact .preL hp
  case dmy0 => exact .dmy0 hp
  case dmy1 => exact .dmy1 hp
  case rdH => exact .rdH hp
  case rdL => exact .rdL hp

/-- What a row of an operation that moves data leads to: a row of one of its sessions, the next session, or the response. -/
inductive TransferMove (i : Instr) (s : State) : State → Prop where
  | session (ses : Session) (t : State) (h : SessionMove ses s t) : TransferMove i s t
  | again (hp : s.ph = .done) : TransferMove i s s.nextSession
  | respond (hp : s.ph = .done) (e : ErrKind) (info : Nat) (r : List Word) : TransferMove i s (s.respond e info r)

theorem rowOf_move {i : Instr} {s t : State} (ht : isTransfer i = true) (h : rowOf i s = .next t) : TransferMove i s t := by
  have hses : ∃ ses, sessionInFlight i s = some ses := by
    cases i <;> first | (exact ⟨_, rfl⟩) | (simp [isTransfer, sessionsOf] at ht; done) | skip
    all_goals
      simp only [rowOf, commandRow] at h
      split at h
      · cases h
      · exact ⟨_, by simpa [sessionInFlight, Instr.isCommandLayer, sessionsOf] using ‹_›⟩
  obtain ⟨ses, hses⟩ := hses
  by_cases hd : s.ph = .done
  · rw [rowOf_done hses hd] at h
    split at h
    · cases h; exact .again hd
    · cases h
      obtain ⟨e, info, r, hr⟩ := finishOf_responds i s
      rw [hr]; exact .respond hd e info r
  · rw [rowOf_session hses hd] at h
    exact .session ses t (sessionRow_move h)

/-- What an instruction that answers a next state is: an operation accepted, a row of the operation in flight, or the preamble
exchange of a session. -/
theorem exec_cases {i : Instr} {s t : State} (h : exec i s = .next t) :
    (s.busy = false ∧ i.isOperation = true ∧ offerValid i = true ∧ admits i s.status = none ∧ t = s.begin i) ∨
    (s.busy = true ∧ i.isOperation = true ∧ s.op = some i ∧ rowOf i s = .next t) ∨
    (s.busy = true ∧ i.isOperation = false ∧ ∃ j, s.op = some j ∧ isTransfer j = true ∧
      ((s.ph = .preH ∧ t = preambleHigh s) ∨ (s.ph = .preL ∧ t = preambleLow s))) := by
  cases hi : i.isOperation with
  | false =>
    obtain ⟨j, ho, hb, ht, hc⟩ := preamble_is_op hi h
    exact .inr (.inr ⟨hb, rfl, j, ho, ht, hc⟩)
  | true =>
    rw [exec_eq_operate hi, operate] at h
    split at h
    · split at h
      · exact .inr (.inl ⟨‹_›, rfl, ‹_›, h⟩)
      · cases h
    · obtain ⟨h1, h2, h3⟩ := accept_next h
      exact .inl ⟨by simpa using ‹¬ s.busy = true›, rfl, h1, h2, h3⟩

/-! ### The rows of CLOSE, RESET_DEVICE, WAIT_READY and OPEN -/

theorem closeRow_move {s t : State} (h : closeRow s = .next t) :
    t = s.goto .close ∨ t = s.finish .ok 0 ∨ (s.ph = .close ∧ t = closeRelease s) ∨ (s.ph = .done ∧ t = respondPlain s) := by
  cases hp : s.ph <;> simp only [closeRow, hp] at h <;> cases h
  · split <;> simp
  · simp
  · simp

theorem resetRow_move {s t : State} (h : resetRow s = .next t) :
    t = s.goto .rstA ∨ t = s.raise .configurationError roleReset ∨
    (∃ r, s.la.reset = some r ∧ (t = (s.driveReset r resetAssertLevel).goto .rstHold ∨
      t = (s.driveReset r resetAssertLevel.flip).finish .ok 0)) ∨
    t = (s.emit (.hold tResetHold)).goto .rstD ∨ (s.ph = .done ∧ t = respondPlain s) := by
  cases hp : s.ph <;> simp only [resetRow, hp] at h
  case rstA => obtain ⟨r, hr, rfl⟩ := withPin_next h; exact .inr (.inr (.inl ⟨r, hr, .inl rfl⟩))
  case rstD => obtain ⟨r, hr, rfl⟩ := withPin_next h; exact .inr (.inr (.inl ⟨r, hr, .inr rfl⟩))
  all_goals cases h
  · split <;> simp
  · simp
  · simp

theorem waitReadyRow_move {s t : State} (h : waitReadyRow s = .next t) :
    t = s.startWait.goto .wait ∨ t = s.raise .configurationError roleReady ∨
    (∃ y, s.la.ready = some y ∧ (t = (s.evReadPin y).2.finish .ok 0 ∨
      t = (s.evReadPin y).2.countPoll.raise .deviceNotRespondingError 0 ∨ t = (s.evReadPin y).2.countPoll)) ∨
    (s.ph = .done ∧ t = respondPlain s) := by
  cases hp : s.ph <;> simp only [waitReadyRow, hp] at h
  case wait =>
    obtain ⟨y, hy, hc⟩ := waitRow_cases h
    exact .inr (.inr (.inl ⟨y, hy, hc⟩))
  all_goals cases h
  · split <;> simp
  · simp

/-- The choice of the next phase of OPEN: a phase, or the end. -/
theorem openToCsInit_cases (la : LineAssign) (s : State) : (∃ p, p ≠ .idle ∧ openToCsInit la s = s.goto p) ∨ openToCsInit la s = openEnd la s := by
  rw [openToCsInit]; split
  · exact .inl ⟨_, by simp, rfl⟩
  · exact .inr rfl

theorem openToCfgRdy_cases (la : LineAssign) (s : State) : (∃ p, p ≠ .idle ∧ openToCfgRdy la s = s.goto p) ∨ openToCfgRdy la s = openEnd la s := by
  rw [openToCfgRdy]; split
  · exact .inl ⟨_, by simp, rfl⟩
  · exact openToCsInit_cases la s

theorem openToCfgRst_cases (la : LineAssign) (s : State) : (∃ p, p ≠ .idle ∧ openToCfgRst la s = s.goto p) ∨ openToCfgRst la s = openEnd la s := by
  rw [openToCfgRst]; split
  · exact .inl ⟨_, by simp, rfl⟩
  · exact openToCfgRdy_cases la s

theorem openToCfgCs_cases (la : LineAssign) (s : State) : (∃ p, p ≠ .idle ∧ openToCfgCs la s = s.goto p) ∨ openToCfgCs la s = openEnd la s := by
  rw [openToCfgCs]; split
  · exact .inl ⟨_, by simp, rfl⟩
  · exact openToCfgRst_cases la s

/-- What a row of OPEN leads to: an event or none, then the next phase or the end. -/
inductive OpenMove (la : LineAssign) (s : State) : State → Prop where
  | start : OpenMove la s (s.goto .init)
  | initFails : OpenMove la s (s.evInit.2.raise .initializationError 0)
  | phase (u : State) (p : Phase) (hu : (u = s.evInit.2.setMode (serialMode s.cfg)) ∨
      (∃ q, (la.chipSelect = some q ∨ la.reset = some q) ∧ u = configureOutput q s) ∨ (∃ y, la.ready = some y ∧ u = pullDown y s)
        ∨ ∃ y, la.ready = some y ∧ u = s.emit (.configurePin y .input)) : OpenMove la s (u.goto p)
  | finish (u : State) (hp : s.ph ≠ .done) (hu : (u = s.evInit.2.setMode (serialMode s.cfg)) ∨
      (∃ q, (la.chipSelect = some q ∨ la.reset = some q) ∧ u = configureOutput q s) ∨ (∃ y, la.ready = some y ∧ u = pullDown y s)
        ∨ ∃ c, la.chipSelect = some c ∧ u = s.csDeassert c) : OpenMove la s (openEnd la u)
  | respond (hp : s.ph = .done) : OpenMove la s (respondPlain s)

theorem openRow_move {la : LineAssign} {s t : State} (h : openRow la s = .next t) : OpenMove la s t := by
  cases hp : s.ph <;> simp only [openRow, hp] at h
  case cfgCs =>
    obtain ⟨c, hc, rfl⟩ := withPin_next h
    rcases openToCfgRst_cases la (configureOutput c s) with ⟨p, -, h⟩ | h <;> rw [h]
    · exact .phase _ p (.inr (.inl ⟨c, .inl hc, rfl⟩))
    · exact .finish _ (by simp [hp]) (.inr (.inl ⟨c, .inl hc, rfl⟩))
  case cfgRst =>
    obtain ⟨c, hc, rfl⟩ := withPin_next h
    rcases openToCfgRdy_cases la (configureOutput c s) with ⟨p, -, h⟩ | h <;> rw [h]
    · exact .phase _ p (.inr (.inl ⟨c, .inr hc, rfl⟩))
    · exact .finish _ (by simp [hp]) (.inr (.inl ⟨c, .inr hc, rfl⟩))
  case cfgRdy =>
    obtain ⟨c, hc, rfl⟩ := withPin_next h
    exact .phase _ _ (.inr (.inr (.inr ⟨c, hc, rfl⟩)))
  case pullRdy =>
    obtain ⟨c, hc, rfl⟩ := withPin_next h
    rcases openToCsInit_cases la (pullDown c s) with ⟨p, -, h⟩ | h <;> rw [h]
    · exact .phase _ p (.inr (.inr (.inl ⟨c, hc, rfl⟩)))
    · exact .finish _ (by simp [hp]) (.inr (.inr (.inl ⟨c, hc, rfl⟩)))
  case csInit =>
    obtain ⟨c, hc, rfl⟩ := withPin_next h
    exact .finish _ (by simp [hp]) (.inr (.inr (.inr ⟨c, hc, rfl⟩)))
  all_goals cases h
  case chk => exact .start
  case init =>
    rw [openInit]
    split
    · rcases openToCfgCs_cases la (s.evInit.2.setMode (serialMode s.cfg)) with ⟨p, -, h⟩ | h
      · rw [serialMode] at h; rw [h]; exact .phase _ p (.inl rfl)
      · rw [serialMode] at h; rw [h]; exact .finish _ (by simp [hp]) (.inl rfl)
    · exact .initFails
  case done => exact .respond hp

end Sys2Proof.Machine
end

