-- ==== Sys2Proof/Laws/Result.lean ====
section
/-!
SUPPORT. What one step does to the operation in flight, and to RES in an operation that reads Words (10_state.md R32).
-/

namespace Sys2Proof.Machine

/-- An operation's step leaves that operation in flight, or none. -/
theorem exec_op {i : Instr} {s t : State} (hi : i.isOperation = true) (h : exec i s = .next t) : t.op = some i ∨ t.op = none := by
  rcases exec_cases h with ⟨-, -, -, -, rfl⟩ | ⟨-, hop, ho, hr⟩ | ⟨-, hno, -⟩
  · simp
  · cases hti : isTransfer i with
    | true =>
      cases rowOf_move hti hr with
      | session ses t hm => cases hm <;> simp [preambleHigh, preambleLow, readHigh, readLow, writeHigh, writeLow, ho]
      | again hp => simp [ho]
      | respond hp e info r => simp
    | false =>
      cases i <;> simp [isTransfer, sessionsOf, Instr.isOperation, commandSessions] at hti hop
      · cases openRow_move hr with
        | start => simp [ho]
        | initFails => simp [ho]
        | respond hp => simp [respondPlain]
        | phase u p hu =>
          rcases hu with rfl | ⟨q, hq, rfl⟩ | ⟨y, hy, rfl⟩ | ⟨y, hy, rfl⟩ <;> simp [configureOutput, pullDown, ho]
        | finish u hp hu =>
          rcases hu with rfl | ⟨q, hq, rfl⟩ | ⟨y, hy, rfl⟩ | ⟨y, hy, rfl⟩ <;> simp [configureOutput, pullDown, openEnd, ho]
      · rcases closeRow_move hr with rfl | rfl | ⟨-, rfl⟩ | ⟨-, rfl⟩
        on_goal 4 => simp [respondPlain]
        all_goals simp [closeRelease, ho]
      · rcases resetRow_move hr with rfl | rfl | ⟨r, hr, rfl | rfl⟩ | rfl | ⟨-, rfl⟩
        on_goal 6 => simp [respondPlain]
        all_goals simp [ho]
      · rcases waitReadyRow_move hr with rfl | rfl | ⟨y, hy, rfl | rfl | rfl⟩ | ⟨-, rfl⟩
        on_goal 6 => simp [respondPlain]
        all_goals simp [ho]
  · rw [hi] at hno; cases hno

/-- What a row of a read session does to RES (10_state.md R32). -/
theorem readRow_res {p : Word} {n : Nat} {s t : State} (h : sessionRow (.read p n) s = .next t) :
    t.op = s.op ∧ (beforeWords t.ph = true → beforeWords s.ph = true) ∧
    (s.ph = .rdL → ∃ b, t.trace = s.trace ++ [.xfer 0x00#8 b] ∧ t.res = s.res ++ [word s.rxh b]) ∧
    (s.ph ≠ .rdL → t.res = s.res ∨ (s.ph = .rdy3 ∧ t.res = [])) := by
  cases hp : s.ph <;> simp only [sessionRow, hp] at h <;> try cases h
  case chk => rw [checkTransfer]; split <;> simp [beforeWords]
  case rdy1 => obtain ⟨y, hy, rfl | rfl | rfl⟩ := waitRow_cases h <;> simp [beforeWords]
  case rdy2 => obtain ⟨y, hy, rfl | rfl | rfl⟩ := waitRow_cases h <;> simp [beforeWords, afterSecondWait]
  case rdy3 => obtain ⟨y, hy, rfl | rfl | rfl⟩ := waitRow_cases h <;> simp [beforeWords, afterThirdWait]
  case csA => obtain ⟨c, hc, rfl⟩ := withPin_next h; simp [beforeWords]
  case csD => obtain ⟨c, hc, rfl⟩ := withPin_next h; simp [beforeWords]
  case abort => obtain ⟨c, hc, rfl⟩ := withPin_next h; simp [beforeWords]
  case preH => simp [beforeWords, preambleHigh]
  case preL => simp [beforeWords, preambleLow]
  case dmy0 => simp [beforeWords]
  case dmy1 => simp [beforeWords]
  case rdH => simp [beforeWords, readHigh]
  case rdL =>
    refine ⟨by simp [readLow], ?_, fun _ => ⟨(s.evXfer 0x00#8).1, by simp [readLow, State.evXfer, State.emit], by simp [readLow]⟩, by simp⟩
    by_cases hn : s.idx + 1 < s.n <;> simp [readLow, hn, beforeWords]

/-- An operation that reads Words is a transfer of one read session. -/
theorem readsWords_transfer {i : Instr} (h : readsWords i = true) : isTransfer i = true ∧ i.isOperation = true ∧
    ∃ p n, sessionsOf i = [.read p n] := by
  cases i <;> simp [readsWords] at h <;> exact ⟨rfl, rfl, _, _, rfl⟩

/-- What a row of an operation that reads Words does to RES. -/
theorem readOp_res {i : Instr} {s t : State} (hr : readsWords i = true) (ho : s.op = some i) (h : rowOf i s = .next t) :
    (t.op = some i → beforeWords t.ph = true → beforeWords s.ph = true) ∧ (t.op = some i ∨ t.op = none) ∧
    (s.ph = .rdL → ∃ b, t.trace = s.trace ++ [.xfer 0x00#8 b] ∧ t.res = s.res ++ [word s.rxh b]) ∧
    (s.ph ≠ .rdL → t.res = s.res ∨ (s.ph = .rdy3 ∧ t.res = [])) := by
  obtain ⟨ht, hi, p, n, hs⟩ := readsWords_transfer hr
  have hses : sessionInFlight i s = some (.read p n) := by
    cases i <;> first | (simp [readsWords] at hr; done) | (simpa [sessionInFlight, Instr.isCommandLayer, sessionsOf] using hs; done) | skip
    all_goals
      simp only [rowOf, commandRow] at h
      split at h
      · cases h
      · rename_i ses hg
        have hg' := hg
        have h0 : s.sub = 0 := by
          by_contra h0
          rw [List.getElem?_eq_none (by simp; omega)] at hg'; cases hg'
        rw [sessionInFlight, if_pos (by rfl), hs, h0]; rfl
  by_cases hd : s.ph = .done
  · rw [rowOf_done hses hd, if_neg (by simp [moreSessions, hs])] at h
    cases h
    obtain ⟨e, info, r, hr⟩ := finishOf_responds i s
    rw [hr]; simp [hd]
  · rw [rowOf_session hses hd] at h
    obtain ⟨h1, h2, h3, h4⟩ := readRow_res h
    exact ⟨fun _ => h2, .inl (h1.trans ho), h3, h4⟩

/-- A row of a session that does not read writes neither RXH nor RES. -/
theorem sessionRow_drops {ses : Session} {s t : State} (hr : readSession ses = false) (hp : SessionPhase ses s)
    (h : sessionRow ses s = .next t) : t.rxh = s.rxh ∧ t.res = s.res := by
  have hp : s.ph ≠ .rdL ∧ s.ph ≠ .rdH ∧ s.ph ≠ .rdy3 := by
    refine ⟨?_, ?_, ?_⟩ <;> intro h <;> simp [SessionPhase, h, hr] at hp
  cases sessionRow_move h with
  | rdH g => exact absurd g hp.2.1
  | rdL g => exact absurd g hp.1
  | highRead y hy g => exact absurd g hp.2.2
  | _ => simp [preambleHigh, preambleLow, writeHigh, writeLow]

/-- A transfer of one session that does not read drops every received byte. -/
theorem drops_of_write {i : Instr} (hti : isTransfer i = true)
    (hr : ∀ ses ∈ sessionsOf i, readSession ses = false) : DropsReceivedBytes i := by
  intro s t hinv hb ht h
  rcases exec_cases h with ⟨hb', -⟩ | ⟨-, -, ho, hrow⟩ | ⟨-, -, j, -, -, ⟨-, rfl⟩ | ⟨-, rfl⟩⟩
  · rw [hb] at hb'; cases hb'
  · obtain ⟨-, ses, hs, hp⟩ := hinv.session ho hti
    by_cases hd : s.ph = .done
    · rw [rowOf_done hs hd] at hrow
      split at hrow <;> cases hrow
      · simp
      · obtain ⟨e, info, r, hf⟩ := finishOf_responds i s
        rw [hf] at ht; simp at ht
    · rw [rowOf_session hs hd] at hrow
      refine sessionRow_drops (hr ses ?_) hp hrow
      rw [sessionInFlight] at hs
      split at hs <;> exact List.mem_of_getElem? hs
  · simp [preambleHigh]
  · simp [preambleLow]

end Sys2Proof.Machine
end

