-- ==== Sys2Proof/Laws/Wire.lean ====
section
/-!
SUPPORT. The frames of the wire, observed: the bytes they send and the events they count.
-/

namespace Sys2Proof.Machine

theorem wire_wait (y : Pin) (a : Nat) : wireBytes (waitEvents y a) = [] := by
  simp [wireBytes, waitEvents, Event.sent]

theorem wire_append (a b : List Event) : wireBytes (a ++ b) = wireBytes a ++ wireBytes b := by simp [wireBytes]

theorem wire_xfers : ∀ (tx rx : List Byte), rx.length = tx.length → wireBytes (xferEvents tx rx) = tx := by
  intro tx
  induction tx with
  | nil => intro rx h; simp [xferEvents, wireBytes]
  | cons t tx ih =>
    intro rx h
    match rx, h with
    | r :: rx, h => 
      have := ih rx (by simpa using h)
      simpa [xferEvents, wireBytes, Event.sent] using this

theorem wire_head (cfg : Config) (c y : Pin) (p : Word) (a b : Nat) (rx : List Byte) (h : 2 ≤ rx.length) :
    wireBytes (frameHead cfg c y p a b rx) = [hi p, lo p] := by
  match rx, h with
  | b0 :: b1 :: rx, h => simp only [frameHead, wire_append, wire_wait]; simp [xferEvents, wireBytes, Event.sent, assertEvent]

theorem xfers_take (tx rx : List Byte) : xferEvents tx rx = xferEvents tx (rx.take tx.length) := by
  rw [xferEvents, xferEvents, List.zipWith_eq_zipWith_take_min]
  conv_rhs => rw [List.zipWith_eq_zipWith_take_min]
  simp [List.take_take]

theorem wire_xfers_le (tx rx : List Byte) (h : tx.length ≤ rx.length) : wireBytes (xferEvents tx rx) = tx := by
  rw [xfers_take]; exact wire_xfers _ _ (by simpa using h)

def isWrite : Event → Bool := fun e => match e with | .writePin _ _ => true | _ => false

def isXfer : Event → Bool := fun e => match e with | .xfer _ _ => true | _ => false

def isBulk : Event → Bool := fun e => match e with | .xferBulk _ => true | _ => false

def isHigh : Event → Bool := fun e => match e with | .readPin _ .high => true | _ => false

theorem count_wait (y : Pin) (a : Nat) : (waitEvents y a).countP isWrite = 0 ∧ (waitEvents y a).countP isXfer = 0 ∧
    (waitEvents y a).countP isBulk = 0 ∧ (waitEvents y a).countP isHigh = 1 := by
  refine ⟨?_, ?_, ?_, ?_⟩ <;> simp [waitEvents, waitAnswers, List.countP_append, List.countP_replicate, isWrite, isXfer, isBulk, isHigh]

theorem count_xfers (tx rx : List Byte) : (xferEvents tx rx).countP isWrite = 0 ∧ (xferEvents tx rx).countP isXfer = min tx.length rx.length ∧
    (xferEvents tx rx).countP isBulk = 0 ∧ (xferEvents tx rx).countP isHigh = 0 := by
  induction tx generalizing rx with
  | nil => simp [xferEvents]
  | cons t tx ih =>
    cases rx with
    | nil => simp [xferEvents]
    | cons r rx =>
      obtain ⟨h1, h2, h3, h4⟩ := ih rx
      simp only [xferEvents, List.zipWith_cons_cons, List.countP_cons] at *
      rw [h1, h2, h3, h4]
      simp [isWrite, isXfer, isBulk, isHigh]

theorem wait_last (y : Pin) (a : Nat) : (waitEvents y a).getLast? = some (.readPin y .high) := by
  simp [waitEvents, waitAnswers]

theorem wait_all (y : Pin) (a : Nat) : ∀ e ∈ waitEvents y a, ∃ l, e = .readPin y l := by
  intro e he; simp only [waitEvents, List.mem_map] at he; obtain ⟨l, -, rfl⟩ := he; exact ⟨l, rfl⟩

theorem xfers_serial (tx rx : List Byte) : ∀ e ∈ xferEvents tx rx, e.isSerial = true := by
  induction tx generalizing rx with
  | nil => simp [xferEvents]
  | cons t tx ih =>
    cases rx with
    | nil => simp [xferEvents]
    | cons r rx =>
      intro e he
      simp only [xferEvents, List.zipWith_cons_cons, List.mem_cons] at he
      rcases he with rfl | he
      · rfl
      · exact ih rx e he

theorem low_all (y : Pin) (m : Nat) : ∀ e ∈ lowEvents y m, e = .readPin y .low := by
  intro e he; exact List.eq_of_mem_replicate he

end Sys2Proof.Machine
end

