-- ==== Sys2Proof/Tests/Slice0.lean ====
section
/-!
SUPPORT. Tests: the refusals of the well-formedness check, words written out from 30_encoding.md R71 to R74 and R77
(95_test_vectors.md §2.2), at most two steps per instruction with the result of 95_test_vectors.md §2.3 to §2.11, and for every
statement with hypotheses a concrete state and operands that meet them.
-/

namespace Sys2Proof.Tests

open Sys2Proof Sys2Proof.Machine

/-! ### States to test on -/

/-- Concrete parameters, with the poll limit `limit`. -/
def config (limit : Option Nat) : Config := ⟨limit, .low, false, true, 4⟩

/-- The block after reset, with concrete parameters and the environment's answers. -/
def fresh (init : List Bool) : State := { State.reset with cfg := config none, env := ⟨init, [], [], 0⟩ }

/-- The block idle and open on the pins `la`. -/
def openOn (la : LineAssign) (limit : Option Nat) (levels : List Level) (bytes : List Byte) : State :=
  { State.reset with
    cfg := config limit
    status := .opened
    la := la
    csOut := if la.chipSelect.isSome then some .deasserted else none
    pincfg := pinsOpen la
    spicfg := serialMode (config limit)
    env := ⟨[], levels, bytes, 0⟩ }

/-- The block idle and open on ready 24, chip-select 8, reset 17. -/
def idle (limit : Option Nat) (levels : List Level) (bytes : List Byte) : State := openOn LineAssign.default limit levels bytes

/-- `i` in flight at phase `p`. -/
def inFlight (i : Instr) (p : Phase) (s : State) : State := { s with busy := true, op := some i, ph := p }

/-- `READ(0x1000, 1)` in flight inside its session, both roles assigned. -/
def reading (p : Phase) (levels : List Level) (bytes : List Byte) : State :=
  { inFlight (.read 0x1000#16 1) p (idle none levels bytes) with
    pre := 0x1000#16, n := 1, csOut := if csSpan p then some .asserted else some .deasserted }

/-- What `f` says of the state after a step that goes on. -/
def after {α : Type} (o : Out) (f : State → α) : Option α :=
  match o with
  | .next t => some (f t)
  | .fault _ => none
  | .refused _ => none

/-- The last event of a state's trace. -/
def lastEvent (s : State) : Option Event := s.trace.getLast?

/-! ### Well-formedness refuses -/

theorem test_wf_ready_wide : ¬ (Instr.openOp ⟨some 256, none, none⟩).WellFormed := by decide
theorem test_wf_chipSelect_wide : ¬ (Instr.openOp ⟨none, some 256, none⟩).WellFormed := by decide
theorem test_wf_reset_wide : ¬ (Instr.openOp ⟨none, none, some 256⟩).WellFormed := by decide
theorem test_wf_ready_is_chipSelect : ¬ (Instr.openOp ⟨some 8, some 8, none⟩).WellFormed := by decide
theorem test_wf_ready_is_reset : ¬ (Instr.openOp ⟨some 8, none, some 8⟩).WellFormed := by decide
theorem test_wf_chipSelect_is_reset : ¬ (Instr.openOp ⟨none, some 8, some 8⟩).WellFormed := by decide
theorem test_wf_read_count : ¬ (Instr.read 0x1000#16 4294967296).WellFormed := by decide
theorem test_wf_readData_count : ¬ (Instr.readData 4294967296).WellFormed := by decide

/-- A length of 2^32 is refused for each operation that has a payload. -/
theorem test_wf_lengths (ws : List Word) (bs : List Byte) (hw : ws.length = 2 ^ 32) (hb : bs.length = 2 ^ 32) :
    ¬ (Instr.write 0#16 ws).WellFormed ∧ ¬ (Instr.writeBulk bs).WellFormed ∧ ¬ (Instr.writeCommand 0#16 ws).WellFormed ∧
      ¬ (Instr.writeData ws).WellFormed ∧ ¬ (Instr.writePixels ws).WellFormed := by
  simp [Instr.WellFormed, Instr.wellFormed, lenFits, hw, hb]

/-- The nearest well-formed neighbours. -/
theorem test_wf_neighbours : (Instr.openOp ⟨some 255, some 254, some 0⟩).WellFormed ∧
    (Instr.openOp ⟨none, none, none⟩).WellFormed ∧ (Instr.read 0xFFFF#16 4294967295).WellFormed ∧
    (Instr.readData 4294967295).WellFormed := by decide

/-! ### Words written out (95_test_vectors.md §2.2) -/

/-- OPSEL 0; bit 30, 29, 28 the valid bits of reset, chip-select, ready; 17 = 0x11, 8 = 0x08, 24 = 0x18. -/
theorem test_decode_open : decode [.word32 0x00000000#32, .word32 0x70110818#32] = .ok (.openOp ⟨some 24, some 8, some 17⟩, []) := by
  decide
theorem test_decode_open_no_reset : decode [.word32 0x00000000#32, .word32 0x30000818#32] = .ok (.openOp ⟨some 24, some 8, none⟩, []) := by
  decide
theorem test_decode_close : decode [.word32 0x10000000#32] = .ok (.closeOp, []) := by decide
theorem test_decode_reset : decode [.word32 0x20000000#32] = .ok (.resetDevice, []) := by decide
theorem test_decode_wait : decode [.word32 0x30000000#32] = .ok (.waitReady, []) := by decide
theorem test_decode_read : decode [.word32 0x40001000#32, .word32 2#32] = .ok (.read 0x1000#16 2, []) := by decide
theorem test_decode_write : decode [.word32 0x50006000#32, .word32 1#32, .word16 0x0302#16] = .ok (.write 0x6000#16 [0x0302#16], []) := by
  decide
theorem test_decode_bulk : decode [.word32 0x60000000#32, .word32 3#32, .byte 1#8, .byte 2#8, .byte 3#8]
    = .ok (.writeBulk [1#8, 2#8, 3#8], []) := by decide
theorem test_decode_command : decode [.word32 0x80000010#32, .word32 2#32, .word16 0x1234#16, .word16 0xABCD#16]
    = .ok (.writeCommand 0x0010#16 [0x1234#16, 0xABCD#16], []) := by decide
theorem test_decode_writeData : decode [.word32 0x90000000#32, .word32 2#32, .word16 0x1234#16, .word16 0xABCD#16]
    = .ok (.writeData [0x1234#16, 0xABCD#16], []) := by decide
theorem test_decode_readData : decode [.word32 0xA0000000#32, .word32 2#32] = .ok (.readData 2, []) := by decide
theorem test_decode_single : decode [.word32 0xB0000000#32] = .ok (.readSingleWord, []) := by decide
theorem test_decode_pixels : decode [.word32 0xC0000000#32, .word32 3#32, .word16 0x0102#16, .word16 0x0304#16, .word16 0xFFFE#16]
    = .ok (.writePixels [0x0102#16, 0x0304#16, 0xFFFE#16], []) := by decide
theorem test_decode_preambles : decode [.word16 0x0000#16] = .ok (.preambleWriteData, []) ∧
    decode [.word16 0x1000#16] = .ok (.preambleReadData, []) ∧ decode [.word16 0x6000#16] = .ok (.preambleWriteCommand, []) ∧
    decode [.word16 0x6001#16] = .error .notAPreamble := by decide

/-- The invalid words of §2.2. -/
theorem test_decode_invalid : decode [.word32 0x70000000#32] = .error .reservedOpsel ∧
    decode [.word32 0xD0000000#32] = .error .reservedOpsel ∧ decode [.word32 0xF0000000#32] = .error .reservedOpsel ∧
    decode [.word32 0x10010000#32] = .error .reservedField ∧ decode [.word32 0x10000001#32] = .error .argNotZero ∧
    decode [.word32 0xB0001000#32] = .error .argNotZero ∧
    decode [.word32 0#32, .word32 0x80000000#32] = .error .lineAssignReserved ∧
    decode [.word32 0#32, .word32 0x00000018#32] = .error .pinWithoutValid ∧
    decode [.word32 0#32, .word32 0x30000808#32] = .error .rolesSharePin := by decide

/-- And their nearest accepted neighbour with one role. -/
theorem test_decode_ready_alone : decode [.word32 0#32, .word32 0x10000018#32] = .ok (.openOp ⟨some 24, none, none⟩, []) := by decide

/-- The opcode table's numbering: WRITE(0x6000, [0x0302]), the payload above the argument word. -/
theorem test_table_word : decodeTableWord 80 0x03020000000150006000 = some (.write 0x6000#16 [0x0302#16]) ∧
    decodeTableWord 32 0x10000000 = some .closeOp ∧ decodeTableWord 16 0x6000 = some .preambleWriteCommand ∧
    decodeTableWord 32 0x70000000 = none := by decide

/-- The word functions (95_test_vectors.md §2.1). -/
theorem test_words : hi 0x1234#16 = 0x12#8 ∧ lo 0x1234#16 = 0x34#8 ∧ word 0x34#8 0x12#8 = 0x3412#16 ∧
    pack [0x0102#16, 0x0304#16] = [1#8, 2#8, 3#8, 4#8] := by decide

/-! ### One step of each instruction -/

/-- §2.3: `Init()` false ends OPEN with InitializationError, to S_DONE. -/
theorem test_open_init_false : after (exec (.openOp LineAssign.default) (inFlight (.openOp LineAssign.default) .init (fresh [false])))
    (fun t => (t.ph, t.doneCode, lastEvent t)) = some (.done, .initializationError, some (.init false)) := by decide

/-- §2.3: `{ready 24, cs none, reset 17}`: after `Init()` the reset pin is configured next. -/
theorem test_open_skips_chipSelect : after (exec (.openOp ⟨some 24, none, some 17⟩)
    (inFlight (.openOp ⟨some 24, none, some 17⟩) .init (fresh [true])))
    (fun t => (t.ph, t.spicfg.cpha, t.spicfg.clkdiv)) = some (.cfgRst, true, 4) := by decide

/-- §2.4: CLOSE of an open block performs `Close()` and releases the lines. -/
theorem test_close_releases : after (exec .closeOp (inFlight .closeOp .close (idle none [] [])))
    (fun t => (t.status, t.csOut, t.pincfg.isEmpty, lastEvent t)) = some (.closed, none, true, some .close) := by decide

/-- §2.4: CLOSE of a block that is not open performs nothing. -/
theorem test_close_unopened : after (exec .closeOp (inFlight .closeOp .chk (fresh [])))
    (fun t => (t.status, t.ph, t.trace)) = some (.unopened, .done, []) := by decide

/-- §2.5: the hold between the two writes of the reset pin. -/
theorem test_reset_hold : after (exec .resetDevice (inFlight .resetDevice .rstHold (idle none [] [])))
    (fun t => (t.ph, lastEvent t)) = some (.rstD, some (.hold 100)) := by decide

/-- §2.5: the second write is HIGH, on the reset pin. -/
theorem test_reset_high : after (exec .resetDevice (inFlight .resetDevice .rstD (idle none [] [])))
    (fun t => (t.rstOut, t.csOut, lastEvent t)) = some (some .high, some .deasserted, some (.writePin 17 .high)) := by decide

/-- §2.6: one LOW sample with limit 1 gives up. -/
theorem test_wait_limit_one : after (exec .waitReady (inFlight .waitReady .wait (idle (some 1) [.low] [])))
    (fun t => (t.ph, t.doneCode, t.polls)) = some (.done, .deviceNotRespondingError, 1) := by decide

/-- §2.6: a LOW sample below the limit samples again. -/
theorem test_wait_again : after (exec .waitReady (inFlight .waitReady .wait (idle (some 2) [.low, .high] [])))
    (fun t => (t.ph, t.polls, lastEvent t)) = some (.wait, 1, some (.readPin 24 .low)) := by decide

/-- §2.7: the first-received byte is the high one; the one Word is the last. -/
theorem test_read_word : after (exec (.read 0x1000#16 1) { reading .rdL [] [0xEF#8] with rxh := 0xBE#8 })
    (fun t => (t.ph, t.res, t.idx)) = some (.csD, [0xBEEF#16], 1) := by decide

/-- §2.7: both roles unassigned: chip-select is checked first. -/
theorem test_read_no_roles : after (exec (.read 0x1000#16 5) (inFlight (.read 0x1000#16 5) .chk (openOn ⟨none, none, some 17⟩ none [] [])))
    (fun t => (t.ph, t.doneCode, t.doneInfo, t.trace)) = some (.done, .configurationError, 1, []) := by decide

/-- §2.8: the high byte first. -/
theorem test_write_high : after (exec (.write 0x6000#16 [0x0302#16])
    { inFlight (.write 0x6000#16 [0x0302#16]) .wrH (idle none [] [0#8]) with n := 1 })
    (fun t => (t.ph, lastEvent t)) = some (.wrL, some (.xfer 0x03#8 0#8)) := by decide

/-- §2.8: after the low byte of the first of two Words comes the next Word. -/
theorem test_write_next : after (exec (.write 0#16 [0x1234#16, 0xABCD#16])
    { inFlight (.write 0#16 [0x1234#16, 0xABCD#16]) .wrL (idle none [] [7#8]) with n := 2 })
    (fun t => (t.ph, t.idx, lastEvent t)) = some (.wrH, 1, some (.xfer 0x34#8 7#8)) := by decide

/-- §2.9: an odd length in one transfer. -/
theorem test_bulk_odd : after (exec (.writeBulk [1#8, 2#8, 3#8]) (inFlight (.writeBulk [1#8, 2#8, 3#8]) .blk (idle none [] [])))
    (fun t => (t.ph, lastEvent t)) = some (.csD, some (.xferBulk [1#8, 2#8, 3#8])) := by decide

/-- §2.10: a second wait that gives up closes the session. -/
theorem test_bulk_abort : after (exec (.writeBulk []) { inFlight (.writeBulk []) .abort (idle (some 2) [] []) with csOut := some .asserted })
    (fun t => (t.ph, t.doneCode, t.csOut, lastEvent t))
    = some (.done, .deviceNotRespondingError, some .deasserted, some (.writePin 8 .high)) := by decide

/-- §2.11: the second session of WRITE_COMMAND begins without a response. -/
theorem test_command_second_session : after (exec (.writeCommand 0x0010#16 [0x1234#16])
    (inFlight (.writeCommand 0x0010#16 [0x1234#16]) .done (idle none [] [])))
    (fun t => (t.ph, t.sub, t.busy, t.responses)) = some (.chk, 1, true, []) := by decide

/-- §2.11: it sends its argument under 0x0000. -/
theorem test_command_argument : after (exec (.writeCommand 0x0010#16 [0x1234#16])
    { inFlight (.writeCommand 0x0010#16 [0x1234#16]) .chk (idle none [] []) with sub := 1 })
    (fun t => (t.ph, t.pre, t.n)) = some (.rdy1, 0x0000#16, 1) := by decide

/-- §2.11: WRITE_DATA([]) goes from the second wait to the deassertion. -/
theorem test_writeData_empty : after (exec (.writeData []) (inFlight (.writeData []) .rdy2 (idle none [.high] [])))
    (fun t => (t.ph, lastEvent t)) = some (.csD, some (.readPin 24 .high)) := by decide

/-- §2.11: READ_DATA(0) goes from the third wait to the deassertion. -/
theorem test_readData_none : after (exec (.readData 0) (inFlight (.readData 0) .rdy3 (idle none [.high] [])))
    (fun t => (t.ph, t.res)) = some (.csD, []) := by decide

/-- §2.11: a zero word is a word, not an empty response. -/
theorem test_single_zero : after (exec .readSingleWord { inFlight .readSingleWord .done (idle none [] []) with res := [0x0000#16] })
    (fun t => (t.busy, t.err, t.responses)) = some (false, .ok, [⟨0x00#8, 0, [0x0000#16]⟩]) := by decide

/-- §2.11: the packed bytes of a pixel. -/
theorem test_pixels_packed : after (exec (.writePixels [0x8000#16]) (inFlight (.writePixels [0x8000#16]) .blk (idle none [] [])))
    lastEvent = some (some (.xferBulk [0x80#8, 0x00#8])) := by decide

/-- §1 S8: 0x1000 is 0x10, then 0x00. -/
theorem test_preamble_read : after (exec .preambleReadData (reading .preH [] [0xFF#8])) (fun t => (t.ph, lastEvent t))
    = some (.preL, some (.xfer 0x10#8 0xFF#8)) := by decide

/-- §1 S8: 0x6000 is 0x60, then 0x00. -/
theorem test_preamble_command : after (exec .preambleWriteCommand
    { inFlight (.write 0x6000#16 []) .preH (idle none [] [1#8]) with pre := 0x6000#16 }) lastEvent
    = some (some (.xfer 0x60#8 1#8)) := by decide

/-- §1 S8: 0x0000 is 0x00, then 0x00. -/
theorem test_preamble_write : after (exec .preambleWriteData (inFlight (.writeData []) .preL (idle none [] [2#8])))
    (fun t => (t.ph, lastEvent t)) = some (.rdy2, some (.xfer 0x00#8 2#8)) := by decide

/-- §2.12: the refusals. -/
theorem test_refusals : exec (.read 0x1000#16 1) (fresh []) = .refused .notOpened ∧
    exec (.openOp LineAssign.default) (idle none [] []) = .refused .notUnopened ∧
    exec (.openOp ⟨some 8, some 8, some 17⟩) (fresh []) = .refused .rolesSharePin := ⟨rfl, rfl, rfl⟩

/-- The next step runs a word placed for it. -/
theorem test_withFetchWord : step (State.reset.withFetchWord 32 0x10000000) = .next (State.reset.accepted .closeOp) := rfl

/-! ### Witnesses: states and operands that meet the hypotheses of each statement -/

theorem fresh_inv (init : List Bool) : Inv (fresh init) where
  idle_iff := ⟨fun _ => rfl, fun _ => rfl⟩
  op_iff := ⟨fun _ => rfl, fun _ => rfl⟩
  roles := rfl
  cs := rfl
  rst := fun _ => rfl
  pins := rfl
  mode := by intro h; cases h
  flight := by intro i h; cases h

theorem idle_inv (limit : Option Nat) (levels : List Level) (bytes : List Byte) : Inv (idle limit levels bytes) where
  idle_iff := ⟨fun _ => rfl, fun _ => rfl⟩
  op_iff := ⟨fun _ => rfl, fun _ => rfl⟩
  roles := rfl
  cs := rfl
  rst := fun _ => rfl
  pins := rfl
  mode := fun _ => rfl
  flight := by intro i h; cases h

/-- `READ(0x1000, 1)` meets the invariant at S_CHK, S_RDY1, S_PRE_H and S_PRE_L. -/
theorem reading_inv (p : Phase) (levels : List Level) (bytes : List Byte)
    (hp : p = .chk ∨ p = .rdy1 ∨ p = .preH ∨ p = .preL) : Inv (reading p levels bytes) where
  idle_iff := by rcases hp with rfl | rfl | rfl | rfl <;> simp [reading, inFlight]
  op_iff := by simp [reading, inFlight]
  roles := rfl
  cs := by rcases hp with rfl | rfl | rfl | rfl <;> rfl
  rst := fun _ => rfl
  pins := rfl
  mode := fun _ => rfl
  flight := by
    intro i h
    obtain rfl : .read 0x1000#16 1 = i := Option.some.inj h
    refine ⟨rfl, _, rfl, ?_⟩
    rcases hp with rfl | rfl | rfl | rfl
    · trivial
    all_goals exact ⟨rfl, rfl, rfl, rfl⟩

/-- `WAIT_READY` meets the invariant in its wait. -/
theorem waiting_inv (levels : List Level) : Inv (inFlight .waitReady .wait (idle none levels [])) where
  idle_iff := by simp [inFlight]
  op_iff := by simp [inFlight]
  roles := rfl
  cs := rfl
  rst := fun _ => rfl
  pins := rfl
  mode := fun _ => rfl
  flight := by
    intro i h
    obtain rfl : .waitReady = i := Option.some.inj h
    exact ⟨rfl, .inr (.inl ⟨rfl, rfl⟩)⟩

theorem test_witness_DecodeInvertsEncode : (Instr.openOp ⟨some 255, some 0, some 1⟩).WellFormed ∧
    (Instr.write 0xFFFF#16 [0xFFFF#16]).WellFormed ∧ (Instr.read 0#16 4294967295).WellFormed := by decide

theorem test_witness_EncodeInvertsDecode : decode [.word32 0x10000000#32, .byte 5#8] = .ok (.closeOp, [.byte 5#8]) := by decide

/-- The header clauses at their boundaries: the four reserved operations, the lowest and highest bit of RSV, the lowest and highest
bit of ARG16. -/
theorem test_witness_InvalidDescriptors_header : (fresh []).busy = false ∧
    (0x70000000#32).extractLsb' 28 4 = 0x7#4 ∧ (0xD0000000#32).extractLsb' 28 4 = 0xD#4 ∧
    (0xE0000000#32).extractLsb' 28 4 = 0xE#4 ∧ (0xFFFFFFFF#32).extractLsb' 28 4 = 0xF#4 ∧
    ((0x10010000#32).extractLsb' 28 4 = 0x1#4 ∧ (0x10010000#32).extractLsb' 16 12 ≠ 0#12) ∧
    ((0xC8000000#32).extractLsb' 28 4 = 0xC#4 ∧ (0xC8000000#32).extractLsb' 16 12 ≠ 0#12) ∧
    ((0x10000001#32).extractLsb' 16 12 = 0#12 ∧ (0x10000001#32).extractLsb' 0 16 ≠ 0#16) ∧
    ((0xC0008000#32).extractLsb' 16 12 = 0#12 ∧ (0xC0008000#32).extractLsb' 0 16 ≠ 0#16) := by
  refine ⟨rfl, ?_, ?_, ?_, ?_, ?_, ?_, ?_, ?_⟩ <;> decide

/-- The line-assignment clauses: each reserved bit at the ends, a pin without its valid bit for each role, each pair of roles. -/
theorem test_witness_InvalidDescriptors_lines : ((0x80000000#32).getLsbD 31 = true) ∧
    ((0x01000000#32).extractLsb' 24 4 ≠ 0#4) ∧ ((0x08000000#32).extractLsb' 24 4 ≠ 0#4) ∧
    ((0x60110801#32).getLsbD 28 = false ∧ (0x60110801#32).extractLsb' 0 8 ≠ 0#8) ∧
    ((0x50110118#32).getLsbD 29 = false ∧ (0x50110118#32).extractLsb' 8 8 ≠ 0#8) ∧
    ((0x30800818#32).getLsbD 30 = false ∧ (0x30800818#32).extractLsb' 16 8 ≠ 0#8) ∧
    (0x30000808#32).extractLsb' 0 8 = (0x30000808#32).extractLsb' 8 8 ∧
    (0x50080008#32).extractLsb' 0 8 = (0x50080008#32).extractLsb' 16 8 ∧
    (0x60FFFF00#32).extractLsb' 8 8 = (0x60FFFF00#32).extractLsb' 16 8 := by
  refine ⟨?_, ?_, ?_, ?_, ?_, ?_, ?_, ?_, ?_⟩ <;> decide

theorem test_witness_WordFunctionsByArithmetic : [0x1234#16][0]? = some 0x1234#16 ∧
    ([0x12#8, 0x34#8] : List Byte)[2 * 0]? = some 0x12#8 ∧ ([0x12#8, 0x34#8] : List Byte)[2 * 0 + 1]? = some 0x34#8 := by decide

/-- The three clauses: an idle block, an operation away from its preamble or with a preamble that has no name, a preamble. -/
theorem test_witness_StepRunsWhatIsDecoded :
    ((fresh []).busy = false ∧ decodeDescriptor [.word32 0x10000000#32] = .ok (.closeOp, [])) ∧
    ((reading .rdy1 [] []).busy = true ∧ (reading .rdy1 [] []).op = some (.read 0x1000#16 1) ∧
      (reading .rdy1 [] []).ph ≠ .preH ∧ (reading .rdy1 [] []).ph ≠ .preL) ∧
    (isTransfer .closeOp = false ∧ decodePreamble 0xFFFF#16 = none) ∧
    ((reading .preH [] []).busy = true ∧ (reading .preH [] []).op = some (.read 0x1000#16 1) ∧
      isTransfer (.read 0x1000#16 1) = true ∧ (reading .preH [] []).ph = .preH ∧
      decodePreamble (reading .preH [] []).pre = some .preambleReadData) := by decide

theorem test_witness_StepContinuesTheOperation : Inv (reading .preL [] []) ∧ (reading .preL [] []).op = some (.read 0x1000#16 1) :=
  ⟨reading_inv _ _ _ (by simp), rfl⟩

theorem test_witness_MachineRunsTheOperation : Inv (fresh []) ∧ (fresh []).busy = false ∧
    decodeDescriptor [.word32 0x10000000#32] = .ok (.closeOp, []) ∧ (runOperation 3 .closeOp { fresh [] with host := [] }).isSome = true :=
  ⟨fresh_inv _, by decide⟩

/-- Each clause of acceptance; for OPEN the three pairs of roles. -/
theorem test_witness_AcceptanceIsExact : (fresh []).busy = false ∧ (fresh []).status = .unopened ∧
    (idle none [] []).busy = false ∧ (idle none [] []).status = .opened ∧ LineAssign.default.rolesDistinct = true ∧
    (∃ p, (⟨some p, some p, none⟩ : LineAssign).ready = some 8 ∧ (⟨some p, some p, none⟩ : LineAssign).chipSelect = some 8) ∧
    (Instr.closeOp).isOperation = true ∧ (Instr.readSingleWord).isOperation = true :=
  ⟨rfl, rfl, rfl, rfl, rfl, ⟨8, rfl, rfl⟩, rfl, rfl⟩

theorem test_witness_BusyBlockAcceptsNothing : (reading .rdy1 [.low] []).busy = true ∧
    (reading .rdy1 [.low] []).op = some (.read 0x1000#16 1) ∧ (Instr.closeOp).isOperation = true ∧
    Instr.closeOp ≠ .read 0x1000#16 1 ∧ (after (step (reading .rdy1 [.low] [])) fun t => t.ph) = some .rdy1 := by decide

theorem test_witness_PreambleExchange (v : Word) : let s := { reading .preH [] [1#8, 2#8] with pre := v }
    s.busy = true ∧ s.op = some (.read 0x1000#16 1) ∧ isTransfer (.read 0x1000#16 1) = true ∧ s.ph = .preH ∧ s.pre = v ∧
      s.env.rxBytes = [1#8, 2#8] := ⟨rfl, rfl, rfl, rfl, rfl, rfl⟩

/-- Each of the four places where a preamble Word is not next. -/
theorem test_witness_PreambleElsewhereIsRefused : (idle none [] []).busy = false ∧
    (∀ i, (inFlight .waitReady .wait (idle none [] [])).op = some i → isTransfer i = false) ∧
    ((reading .rdy1 [] []).ph ≠ .preH ∧ (reading .rdy1 [] []).ph ≠ .preL) ∧ (reading .preH [] []).pre ≠ 0x6000#16 := by
  refine ⟨rfl, ?_, by decide, by decide⟩
  intro i h
  obtain rfl : .waitReady = i := Option.some.inj h
  rfl

theorem test_witness_OpenAcquiresAndConfigures : Inv (fresh [true]) ∧ (fresh [true]).busy = false ∧
    (fresh [true]).status = .unopened ∧ LineAssign.default.rolesDistinct = true ∧ (fresh [true]).env.initAnswers = [true] :=
  ⟨fresh_inv _, rfl, rfl, rfl, rfl⟩

/-- A successful OPEN of no roles; each role can have a pin. -/
theorem test_witness_OpenConfiguresExactlyItsPins : Inv (fresh [true]) ∧ (fresh [true]).busy = false ∧
    (∃ u, runOperation 4 (.openOp ⟨none, none, none⟩) (fresh [true]) = some u ∧ u.err = .ok) ∧
    LineAssign.default.chipSelect = some 8 ∧ LineAssign.default.reset = some 17 ∧ LineAssign.default.ready = some 24 :=
  ⟨fresh_inv _, rfl, ⟨_, rfl, rfl⟩, rfl, rfl, rfl⟩

theorem test_witness_OpenFailsExactlyWhenInitFails : (fresh [false]).busy = false ∧ (fresh [false]).status = .unopened ∧
    LineAssign.default.rolesDistinct = true ∧ (fresh [false]).env.initAnswers = [false] ∧
    (∃ u, runOperation 4 (.openOp LineAssign.default) (fresh [false]) = some u ∧ u.err = .initializationError) ∧
    (∃ u, runOperation 4 .closeOp (fresh []) = some u ∧ u.err = .ok) :=
  ⟨rfl, rfl, rfl, rfl, ⟨_, rfl, rfl⟩, ⟨_, rfl, rfl⟩⟩

/-- Both clauses: the block open, and not open. -/
theorem test_witness_CloseReleasesOnce : (idle none [] []).busy = false ∧ (idle none [] []).status = .opened ∧
    (fresh []).busy = false ∧ (fresh []).status ≠ .opened := by decide

theorem test_witness_CloseEventAtMostOnce :
    Inv (fresh []) ∧ (fresh []).trace.count .close = (if (fresh []).status = .closed then 1 else 0) ∧
    ∃ t, step { fresh [] with host := [.word32 0x10000000#32] } = .next t := ⟨fresh_inv _, by decide, _, rfl⟩

theorem test_witness_ResetDevicePulsesTheResetLine : (idle none [] []).busy = false ∧ (idle none [] []).status = .opened ∧
    (idle none [] []).la.reset = some 17 := by decide

theorem test_witness_WaitReadyEndsAtTheFirstHigh : (idle (some 2) [.low, .high] []).busy = false ∧
    (idle (some 2) [.low, .high] []).status = .opened ∧ (idle (some 2) [.low, .high] []).la.ready = some 24 ∧
    withinLimit (idle (some 2) [.low, .high] []).cfg 1 ∧ (idle (some 2) [.low, .high] []).env.readyLevels = waitAnswers 1 ++ [] :=
  ⟨rfl, rfl, rfl, by intro l h; cases h; decide, rfl⟩

theorem test_witness_WaitReadyGivesUpAtTheLimit : (idle (some 1) [.low] []).busy = false ∧ (idle (some 1) [.low] []).status = .opened ∧
    (idle (some 1) [.low] []).la.ready = some 24 ∧ (idle (some 1) [.low] []).cfg.readyPollLimit = some 1 ∧
    (idle (some 1) [.low] []).env.readyLevels = List.replicate 1 .low ++ [] := by decide

theorem test_witness_WaitWithoutLimitNeverGivesUp : Inv (inFlight .waitReady .wait (idle none [.low, .low] [])) ∧
    Inv (reading .rdy1 [.low, .low] []) ∧ (reading .rdy1 [.low, .low] []).cfg.readyPollLimit = none ∧
    (reading .rdy1 [.low, .low] []).la.ready = some 24 ∧ (reading .rdy1 [.low, .low] []).ph = .rdy1 ∧
    (reading .rdy1 [.low, .low] []).env.readyLevels = List.replicate 2 .low ++ [] :=
  ⟨waiting_inv _, reading_inv _ _ _ (by simp), rfl, rfl, rfl, rfl⟩

theorem test_witness_LimitedOperationsEnd : (idle (some 1) [] []).busy = false ∧ (idle (some 1) [] []).cfg.readyPollLimit = some 1 ∧
    exec (.readData 1) (idle (some 1) [] []) = .next ((idle (some 1) [] []).accepted (.readData 1)) := ⟨rfl, rfl, rfl⟩

/-- The three roles an operation can miss. -/
theorem test_witness_MissingRoleFailsFast : (openOn ⟨none, none, none⟩ none [] []).busy = false ∧
    (openOn ⟨none, none, none⟩ none [] []).status = .opened ∧ missingRole .resetDevice ⟨none, none, none⟩ = some 2 ∧
    missingRole (.writeData []) ⟨none, none, none⟩ = some 1 ∧ missingRole (.read 0#16 0) ⟨none, some 8, none⟩ = some 0 ∧
    missingRole .waitReady ⟨none, some 8, none⟩ = some 0 := by decide

theorem test_witness_ConfigurationErrorOnlyForAMissingRole : (openOn ⟨none, none, none⟩ none [] []).busy = false ∧
    (∃ u, runOperation 3 .resetDevice (openOn ⟨none, none, none⟩ none [] []) = some u ∧ u.err = .configurationError) ∧
    (∃ u, runOperation 3 .closeOp (fresh []) = some u ∧ u.err = .ok) := ⟨rfl, ⟨_, rfl, rfl⟩, ⟨_, rfl, rfl⟩⟩

/-- ReadRunsTheReadFrame, ReadDataRunsTheReadFrame and ReadSingleWordReturnsTheWord: one Word, the first wait with one LOW sample at
a limit of two. -/
theorem test_witness_reads : let s := idle (some 2) [.low, .high, .high, .high] [1#8, 2#8, 3#8, 4#8, 0xBE#8, 0xEF#8]
    CanTransfer s 8 24 ∧ withinLimit s.cfg 1 ∧ withinLimit s.cfg 0 ∧ withinLimit s.cfg 0 ∧
      s.env.readyLevels = waitAnswers 1 ++ waitAnswers 0 ++ waitAnswers 0 ++ [] ∧
      s.env.rxBytes = [1#8, 2#8, 3#8, 4#8, 0xBE#8, 0xEF#8] ++ [] ∧
      ([1#8, 2#8, 3#8, 4#8, 0xBE#8, 0xEF#8] : List Byte).length = 4 + 2 * 1 :=
  ⟨⟨rfl, rfl, rfl, rfl⟩, by intro l h; cases h; decide, by intro l h; cases h; decide, by intro l h; cases h; decide, rfl, rfl, rfl⟩

/-- The two reads with a count, at no Word. -/
theorem test_witness_reads_of_nothing : let s := idle none [.high, .high, .high] [1#8, 2#8, 3#8, 4#8]
    CanTransfer s 8 24 ∧ withinLimit s.cfg 0 ∧ s.env.readyLevels = waitAnswers 0 ++ waitAnswers 0 ++ waitAnswers 0 ++ [] ∧
      s.env.rxBytes = [1#8, 2#8, 3#8, 4#8] ++ [] ∧ ([1#8, 2#8, 3#8, 4#8] : List Byte).length = 4 + 2 * 0 :=
  ⟨⟨rfl, rfl, rfl, rfl⟩, fun _ h => (by cases h), rfl, rfl, rfl⟩

/-- WriteRunsTheWriteFrame and WriteDataRunsTheWriteFrame: one Word; the second wait with one LOW sample. -/
theorem test_witness_writes : let s := idle (some 2) [.high, .low, .high] [1#8, 2#8, 3#8, 4#8]
    CanTransfer s 8 24 ∧ withinLimit s.cfg 0 ∧ withinLimit s.cfg 1 ∧ s.env.readyLevels = waitAnswers 0 ++ waitAnswers 1 ++ [] ∧
      s.env.rxBytes = [1#8, 2#8, 3#8, 4#8] ++ [] ∧ ([1#8, 2#8, 3#8, 4#8] : List Byte).length = 2 + 2 * [0x1234#16].length :=
  ⟨⟨rfl, rfl, rfl, rfl⟩, by intro l h; cases h; decide, by intro l h; cases h; decide, rfl, rfl, rfl⟩

/-- WriteBulkRunsTheBulkFrame and WritePixelsSendsThePackedWords, at any length; the two writes at no Word. -/
theorem test_witness_bulk : let s := idle none [.high, .high] [1#8, 2#8]
    CanTransfer s 8 24 ∧ withinLimit s.cfg 0 ∧ withinLimit s.cfg 0 ∧ s.env.readyLevels = waitAnswers 0 ++ waitAnswers 0 ++ [] ∧
      s.env.rxBytes = [1#8, 2#8] ++ [] ∧ ([1#8, 2#8] : List Byte).length = 2 ∧ 2 = 2 + 2 * ([] : List Word).length :=
  ⟨⟨rfl, rfl, rfl, rfl⟩, fun _ h => (by cases h), fun _ h => (by cases h), rfl, rfl, rfl, rfl⟩

/-- WRITE_COMMAND with one argument: two rounds. -/
theorem test_witness_WriteCommandRunsItsSessions :
    let s := idle none [.high, .high, .low, .high, .high] [1#8, 2#8, 3#8, 4#8, 5#8, 6#8, 7#8, 8#8]
    let rounds : List Round := [⟨0, 0, [1#8, 2#8, 3#8, 4#8]⟩, ⟨1, 0, [5#8, 6#8, 7#8, 8#8]⟩]
    CanTransfer s 8 24 ∧ rounds.length = 1 + [0x1234#16].length ∧
      (∀ r ∈ rounds, withinLimit s.cfg r.firstWait ∧ withinLimit s.cfg r.secondWait ∧ r.received.length = 4) ∧
      s.env.readyLevels = rounds.flatMap Round.levels ++ [] ∧ s.env.rxBytes = rounds.flatMap Round.received ++ [] := by
  refine ⟨⟨rfl, rfl, rfl, rfl⟩, rfl, ?_, rfl, rfl⟩
  intro r hr
  refine ⟨fun _ h => (by cases h), fun _ h => (by cases h), ?_⟩
  simp only [List.mem_cons, List.not_mem_nil, or_false] at hr
  rcases hr with rfl | rfl <;> rfl

/-- A write and a bulk transfer meet the invariant at their first step. -/
theorem chk_inv (i : Instr) (hi : (∃ p ws, i = .write p ws) ∨ ∃ bs, i = .writeBulk bs) : Inv (inFlight i .chk (idle none [] [])) where
  idle_iff := by simp [inFlight]
  op_iff := by simp [inFlight]
  roles := rfl
  cs := rfl
  rst := fun _ => rfl
  pins := by rcases hi with ⟨_, _, rfl⟩ | ⟨_, rfl⟩ <;> rfl
  mode := fun _ => rfl
  flight := by
    intro j h
    obtain rfl : i = j := Option.some.inj h
    rcases hi with ⟨p, ws, rfl⟩ | ⟨bs, rfl⟩ <;> exact ⟨rfl, _, rfl, trivial⟩

/-- The premises inside DropsReceivedBytes, for WRITE and for WRITE_BULK. -/
theorem test_witness_DropsReceivedBytes : Inv (inFlight (.write 0#16 []) .chk (idle none [] [])) ∧
    Inv (inFlight (.writeBulk []) .chk (idle none [] [])) ∧
    (after (exec (.write 0#16 []) (inFlight (.write 0#16 []) .chk (idle none [] []))) fun t => t.busy) = some true ∧
    (after (exec (.writeBulk []) (inFlight (.writeBulk []) .chk (idle none [] []))) fun t => t.busy) = some true :=
  ⟨chk_inv _ (.inl ⟨_, _, rfl⟩), chk_inv _ (.inr ⟨_, rfl⟩), rfl, rfl⟩

/-- Runs that end with OK: the read, write and bulk frames on the wire, and what is counted of them. -/
theorem test_witness_frames_on_the_wire :
    (∃ u, runOperation 12 (.read 0x1000#16 0) (idle none [.high, .high, .high] [1#8, 2#8, 3#8, 4#8]) = some u ∧ u.err = .ok) ∧
    (∃ u, runOperation 12 (.write 0#16 []) (idle none [.high, .high] [1#8, 2#8]) = some u ∧ u.err = .ok) ∧
    (∃ u, runOperation 12 (.writeBulk (pack [])) (idle none [.high, .high] [1#8, 2#8]) = some u ∧ u.err = .ok) ∧
    (∃ u, runOperation 12 (.writePixels []) (idle none [.high, .high] [1#8, 2#8]) = some u ∧ u.err = .ok) ∧
    (idle none [.high, .high] [1#8, 2#8]).busy = false ∧ isTransportTransfer (.read 0x1000#16 0) = true ∧
    sessionsOf (.read 0x1000#16 0) = [.read 0x1000#16 0] ∧ sessionsOf (.write 0#16 []) = [.write 0#16 []] ∧
    sessionsOf (.writeBulk []) = [.bulk []] :=
  ⟨⟨_, rfl, rfl⟩, ⟨_, rfl, rfl⟩, ⟨_, rfl, rfl⟩, ⟨_, rfl, rfl⟩, rfl, rfl, rfl, rfl, rfl⟩

/-- Both cases of OneSessionPerTransfer end: with chip-select driven (above), and without. The three waits that can give up. -/
theorem test_witness_FailedWaitClosesTheSession : (idle (some 1) [.low] []).cfg.InRange ∧
    (∃ u, runOperation 4 (.write 0#16 []) (idle (some 1) [.low] []) = some u ∧ u.err = .deviceNotRespondingError) ∧
    (∃ u, runOperation 9 (.write 0#16 []) (idle (some 1) [.high, .low] [1#8, 2#8]) = some u ∧ u.err = .deviceNotRespondingError) ∧
    (∃ u, runOperation 12 (.read 0x1000#16 2) (idle (some 1) [.high, .high, .low] [1#8, 2#8, 3#8, 4#8]) = some u ∧
      u.err = .deviceNotRespondingError) := ⟨by decide, ⟨_, rfl, rfl⟩, ⟨_, rfl, rfl⟩, ⟨_, rfl, rfl⟩⟩

/-- A read whose four dropped bytes differ, and a write that drops all. -/
theorem test_witness_DroppedBytesDoNotMatter : isTransfer (.read 0x1000#16 0) = true ∧
    (∀ ses ∈ sessionsOf (.read 0x1000#16 0), readSession ses = true → ([1#8, 2#8, 3#8, 4#8] : List Byte).length ≤ 4) ∧
    (∀ ses ∈ sessionsOf (.write 0#16 []), readSession ses = false) ∧
    ([1#8, 2#8, 3#8, 4#8] : List Byte).length = ([9#8, 9#8, 9#8, 9#8] : List Byte).length ∧
    (idle none [.high, .high, .high] [1#8, 2#8, 3#8, 4#8]).env.rxBytes = [1#8, 2#8, 3#8, 4#8] ++ [] := by decide

theorem test_witness_TwoFormsAgree : (Instr.closeOp).isOperation = true ∧ (fresh []).busy = false ∧
    (∃ u, bigStep 1 .closeOp (fresh []) = .responded u) ∧ bigStep 1 .waitReady (fresh []) = .refused .notOpened ∧
    (∃ v, bigStep 1 .waitReady (idle none [.low] []) = .outOfFuel v) := ⟨rfl, rfl, ⟨_, rfl⟩, rfl, ⟨_, rfl⟩⟩

theorem test_witness_CommandLayerExpands : (idle none [.high, .high] [1#8, 2#8]).busy = false ∧
    (∃ k u, runOperation k (.writeData []) (idle none [.high, .high] [1#8, 2#8]) = some u) := ⟨rfl, 12, _, rfl⟩

theorem test_witness_WriteCommandIsItsWrites : (openOn ⟨none, none, none⟩ none [] []).busy = false ∧
    (openOn ⟨none, none, none⟩ none [] []).status = .opened ∧
    (∃ u, runOperation 3 (.writeCommand 1#16 []) (openOn ⟨none, none, none⟩ none [] []) = some u) ∧
    (∃ v, runUntilError 3 (commandWrites 1#16 []) (openOn ⟨none, none, none⟩ none [] []) = some v) := ⟨rfl, rfl, ⟨_, rfl⟩, ⟨_, rfl⟩⟩

/-- Steps from states that meet the invariant: one with no event, one that samples, one serial event. -/
theorem test_witness_steps : (Inv (reading .chk [] []) ∧ (after (step (reading .chk [] [])) fun t => t.ph) = some .rdy1) ∧
    (Inv (reading .rdy1 [.high] []) ∧ (after (step (reading .rdy1 [.high] [])) fun t => t.trace) = some [.readPin 24 .high]) ∧
    (Inv (reading .preH [] [1#8]) ∧ (after (step (reading .preH [] [1#8])) fun t => t.trace) = some [.xfer 0x10#8 1#8]) ∧
    (reading .chk [] []).busy = true ∧ (reading .chk [] []).op = some (.read 0x1000#16 1) ∧
    (Event.xfer 0x10#8 1#8).isSerial = true :=
  ⟨⟨reading_inv _ _ _ (by simp), by decide⟩, ⟨reading_inv _ _ _ (by simp), by decide⟩, ⟨reading_inv _ _ _ (by simp), by decide⟩, rfl, rfl,
    rfl⟩

/-- STATUS, LA, SPICFG and PINCFG do change: at the end of an OPEN of one role, and when the block is closed. -/
theorem test_witness_LifecycleRegistersHaveTheirWriters :
    (after (exec (.openOp ⟨some 24, none, none⟩) (inFlight (.openOp ⟨some 24, none, none⟩) .pullRdy (fresh [])))
      fun t => decide (t.status ≠ .unopened ∧ t.la ≠ (fresh []).la ∧ t.pincfg ≠ [])) = some true ∧
    (after (exec (.openOp ⟨none, none, none⟩) (inFlight (.openOp ⟨none, none, none⟩) .init (fresh [true])))
      fun t => decide (t.spicfg ≠ (fresh []).spicfg)) = some true ∧
    (after (exec .closeOp (inFlight .closeOp .close (idle none [] []))) fun t => decide (t.status = .closed ∧ t.pincfg = [])) = some true := by
  decide

/-- A row of each group of the frame statements answers a next state; a write runs to its end. -/
theorem test_witness_frames : isTransfer (.writeData []) = true ∧ (Instr.preambleReadData).isOperation = false ∧
    (after (exec (.writeData []) (inFlight (.writeData []) .chk (idle none [] []))) fun t => t.ph) = some .rdy1 ∧
    (∀ ses ∈ sessionsOf (.writeData []), readSession ses = false) ∧
    (∃ u, runOperation 12 (.writeData []) (idle none [.high, .high] [1#8, 2#8]) = some u) ∧
    (after (exec .resetDevice (inFlight .resetDevice .rstA (idle none [] []))) fun t => t.trace) = some [.writePin 17 .low] ∧
    (idle none [] []).la.chipSelect = some 8 ∧ (idle none [] []).la.rolesDistinct = true ∧
    (after (exec (.openOp LineAssign.default) (inFlight (.openOp LineAssign.default) .cfgCs (fresh []))) fun t => t.trace)
      = some [.configurePin 8 .output] ∧ LineAssign.default.reset = some 17 :=
  ⟨rfl, rfl, rfl, by decide, ⟨_, rfl⟩, by decide, rfl, rfl, by decide, rfl⟩

/-- The two cases of ErrAndResponseAreWrittenAtTheEnd. -/
theorem test_witness_ErrAndResponseAreWrittenAtTheEnd :
    (after (exec .closeOp (fresh [])) fun t => t.busy) = some true ∧
    (after (exec .closeOp (inFlight .closeOp .done (fresh []))) fun t => (t.busy, t.responses)) = some (false, [⟨0x00#8, 0, []⟩]) := by decide

theorem test_witness_EndedOperationLeavesTheBlockAtRest : (Instr.waitReady).isOperation = true ∧ Inv (idle none [.high] []) ∧
    (idle none [.high] []).busy = false ∧
    (∃ u, runOperation 4 .waitReady (idle none [.high] []) = some u ∧ u.status = .opened ∧ u.la.chipSelect ≠ none ∧ u.err = .ok) :=
  ⟨rfl, idle_inv _ _ _, rfl, ⟨_, rfl, rfl, by decide, rfl⟩⟩

/-- EmptyResponseIsUnreachable with a Word handed over. -/
theorem test_witness_EmptyResponseIsUnreachable : ∃ u, runOperation 16 .readSingleWord
    (idle none [.high, .high, .high] [0#8, 0#8, 0#8, 0#8, 0xBE#8, 0xEF#8]) = some u ∧ u.err = .ok := ⟨_, rfl, rfl⟩

theorem test_witness_NotRespondingOnlyUnderALimit : ∃ u, runOperation 4 .waitReady (idle (some 1) [.low] []) = some u ∧
    u.err = .deviceNotRespondingError := ⟨_, rfl, rfl⟩

theorem test_witness_PinMapStaysCanonical : Inv (idle none [] []) ∧ PinMapWf [(8, outputPin), (24, readyPin)] ∧
    PinMapWf (pinsOpen LineAssign.default) := ⟨idle_inv _ _ _, by decide, by decide⟩

/-- A wait that has not ended at one sample, and at two: as many LOW samples as the fuel. -/
theorem test_witness_EndlessWaitIsTheSameInBothForms : (Instr.waitReady).isOperation = true ∧ (idle none [.low, .low] []).busy = false ∧
    (∃ v, bigStep 1 .waitReady (idle none [.low, .low] []) = .outOfFuel v ∧ v.trace = [.readPin 24 .low]) ∧
    (∃ v, bigStep 2 .waitReady (idle none [.low, .low] []) = .outOfFuel v ∧ v.trace = [.readPin 24 .low, .readPin 24 .low]) :=
  ⟨rfl, rfl, ⟨_, rfl, rfl⟩, ⟨_, rfl, rfl⟩⟩

/-- The hypothesis of its second clause, of a line that stays LOW (after the listed samples the answers are free values, log 5). -/
theorem test_witness_EndlessWait_lineStaysLow (h : ∀ k, Config.freeLevel k = .low) (fuel : Nat) :
    ∃ v, bigStep fuel .waitReady (idle none [] []) = .outOfFuel v := by
  have loop : ∀ (fuel : Nat) (s : State), s.cfg.readyPollLimit = none → s.env.readyLevels = [] → ∃ v, waitLoop fuel 24 s = .outOfFuel v := by
    intro fuel
    induction fuel with
    | zero => intro s _ _; exact ⟨s, rfl⟩
    | succ k ih =>
      intro s hl he
      have hlow : (s.evReadPin 24).1 ≠ readyLevel := by simp [State.evReadPin, Env.takeLevel, he, h, readyLevel]
      have hlim : limitHit (s.evReadPin 24).2.countPoll = false := by simp [limitHit, State.evReadPin, State.countPoll, State.emit, hl]
      rw [waitLoop, if_neg hlow, hlim]
      exact ih _ hl (by simp [State.evReadPin, State.countPoll, State.emit, Env.takeLevel, he])
  obtain ⟨v, hv⟩ := loop fuel (((idle none [] []).begin .waitReady).startWait) rfl rfl
  have hb : bodyProc fuel .waitReady ((idle none [] []).begin .waitReady) = .outOfFuel v := hv
  have ha : accept .waitReady (idle none [] []) = .next ((idle none [] []).begin .waitReady) := rfl
  exact ⟨v, by simp only [bigStep, ha, hb]⟩

/-- A read accepted with the last read's Words in RES, its S_RD_L, another row of it, a step before its Words, and a run that ends. -/
theorem test_witness_ResultCollectsTheWordsRead : readsWords (.read 0x1000#16 1) = true ∧
    ((idle none [] []).busy = false ∧ (after (exec (.read 0x1000#16 1) { idle none [] [] with res := [1#16] }) fun t => t.res) = some []) ∧
    ((reading .rdL [] [0xEF#8]).busy = true ∧ NoWordsYet { reading .rdL [] [0xEF#8] with res := [1#16] } ∧
      (after (exec (.read 0x1000#16 1) { reading .rdL [] [0xEF#8] with rxh := 0xBE#8, res := [1#16] }) fun t => t.res) = some [1#16, 0xBEEF#16]) ∧
    (NoWordsYet (reading .rdy1 [.high] []) ∧ (after (step (reading .rdy1 [.high] [])) fun t => t.res) = some []) ∧
    (∃ u, runOperation 16 (.read 0x1000#16 1) (idle none [.high, .high, .high] [0#8, 0#8, 0#8, 0#8, 0xBE#8, 0xEF#8]) = some u ∧
      u.err = .ok ∧ u.res = [0xBEEF#16]) := by
  refine ⟨rfl, ⟨rfl, by decide⟩, ⟨rfl, ?_, by decide⟩, ⟨fun _ _ _ _ => rfl, by decide⟩, _, rfl, rfl, by decide⟩
  intro i _ _ h
  cases h

end Sys2Proof.Tests
end

section
/-!
SUPPORT. The word functions by arithmetic (00_scope.md R10), the index law of `pack`, and where the exchange of a preamble
Word refuses (log 10); then the theorems that settle O5 and O12.
-/

namespace Sys2Proof.Machine

/-! ### The word functions as numbers -/

@[simp] theorem toNat_hi (w : Word) : (hi w).toNat = w.toNat / 256 := by
  have hw : w.toNat < 65536 := w.isLt
  rw [hi, BitVec.extractLsb'_toNat, Nat.shiftRight_eq_div_pow]
  omega

@[simp] theorem toNat_lo (w : Word) : (lo w).toNat = w.toNat % 256 := by
  rw [lo, BitVec.extractLsb'_toNat, Nat.shiftRight_zero]

/-- The low byte fits under the shifted high byte, so the disjunction of R10 is a sum. -/
@[simp] theorem toNat_word (b0 b1 : Byte) : (word b0 b1).toNat = 256 * b0.toNat + b1.toNat := by
  have h0 : b0.toNat < 256 := b0.isLt
  have hhigh : (b0.setWidth 16 <<< 8).toNat = b0.toNat <<< 8 := by
    rw [BitVec.toNat_shiftLeft, BitVec.toNat_setWidth_of_le (by decide), Nat.shiftLeft_eq]
    omega
  have hlow : (b1.setWidth 16).toNat = b1.toNat := BitVec.toNat_setWidth_of_le (by decide)
  calc (word b0 b1).toNat
      = b0.toNat <<< 8 ||| b1.toNat := by rw [word, BitVec.toNat_or, hhigh, hlow]
    _ = b0.toNat <<< 8 + b1.toNat := (Nat.shiftLeft_add_eq_or_of_lt b1.isLt b0.toNat).symm
    _ = 256 * b0.toNat + b1.toNat := by rw [Nat.shiftLeft_eq, Nat.mul_comm]

@[simp] theorem word_hi_lo (w : Word) : word (hi w) (lo w) = w := by
  apply BitVec.eq_of_toNat_eq
  rw [toNat_word, toNat_hi, toNat_lo, Nat.div_add_mod]

@[simp] theorem hi_word (b0 b1 : Byte) : hi (word b0 b1) = b0 := by
  have h1 : b1.toNat < 256 := b1.isLt
  apply BitVec.eq_of_toNat_eq
  rw [toNat_hi, toNat_word]
  omega

@[simp] theorem lo_word (b0 b1 : Byte) : lo (word b0 b1) = b1 := by
  have h1 : b1.toNat < 256 := b1.isLt
  apply BitVec.eq_of_toNat_eq
  rw [toNat_lo, toNat_word]
  omega

/-! ### Words and their bytes -/

theorem length_pack (ws : List Word) : (pack ws).length = 2 * ws.length := by
  induction ws with
  | nil => rfl
  | cons w ws ih => simp only [pack, List.length_cons, ih]; omega

theorem unpack_pack (ws : List Word) : unpack (pack ws) = ws := by
  induction ws with
  | nil => rfl
  | cons w ws ih => rw [pack, unpack, word_hi_lo, ih]

/-- Word `k` of `ws` stands in the bytes `2k` and `2k + 1` of `pack ws`, high byte first. -/
theorem getElem?_pack {ws : List Word} {k : Nat} {w : Word} (h : ws[k]? = some w) :
    (pack ws)[2 * k]? = some (hi w) ∧ (pack ws)[2 * k + 1]? = some (lo w) := by
  induction ws generalizing k with
  | nil => simp at h
  | cons v ws ih =>
    cases k with
    | zero =>
      obtain rfl : v = w := by simpa using h
      exact ⟨rfl, rfl⟩
    | succ k => exact ih (by simpa using h)

/-! ### A preamble Word away from its exchange -/

theorem transferInFlight_eq_false {s : State} (h : ∀ i, s.op = some i → isTransfer i = false) :
    transferInFlight s = false := by
  cases ho : s.op with
  | none => simp [transferInFlight, ho]
  | some i => rw [transferInFlight_eq ho, h i ho]

/-- The exchange of `v` runs only with BUSY = 1, inside a transfer, at S_PRE_H or S_PRE_L, and with `v` in PRE. -/
theorem preambleExchange_refused {s : State} {v : Word}
    (h : s.busy = false ∨ (∀ i, s.op = some i → isTransfer i = false) ∨ (s.ph ≠ .preH ∧ s.ph ≠ .preL) ∨ s.pre ≠ v) :
    preambleExchange v s = .refused .notTheCurrentPreamble := by
  unfold preambleExchange
  obtain hbusy | hop | ⟨hpreH, hpreL⟩ | hpre := h
  · simp [hbusy]
  · simp [transferInFlight_eq_false hop]
  · rw [if_neg hpreH, if_neg hpreL, ite_self]
  · simp [hpre]

/-! ### The statements -/

/-- Settles O5, clause by clause from the numbers of `hi`, `lo` and `word` and by induction on the Words. -/
theorem wordFunctionsByArithmetic : Obligations.WordFunctionsByArithmetic := by
  unfold Obligations.WordFunctionsByArithmetic
  refine ⟨?words, ?bytes, ?packed, unpack_get⟩
  case words => exact fun w => ⟨toNat_hi w, toNat_lo w, word_hi_lo w⟩
  case bytes => exact fun b0 b1 => ⟨toNat_word b0 b1, hi_word b0 b1, lo_word b0 b1⟩
  case packed => exact fun ws => ⟨length_pack ws, unpack_pack ws, fun _ _ => getElem?_pack⟩

/-- Settles O12: each of the three rows is the exchange of its Word, which refuses in each of the four places. -/
theorem preambleElsewhereIsRefused : Obligations.PreambleElsewhereIsRefused := by
  unfold Obligations.PreambleElsewhereIsRefused
  intro s j v hmem elsewhere
  have named : decodePreamble v = some j := by
    simp only [List.mem_cons, List.not_mem_nil, or_false, Prod.mk.injEq] at hmem
    rcases hmem with ⟨rfl, rfl⟩ | ⟨rfl, rfl⟩ | ⟨rfl, rfl⟩ <;> rfl
  rw [exec_preamble named, preambleExchange_refused elsewhere]

end Sys2Proof.Machine
end

section
/-!
SUPPORT. The invariant along a step, what a step runs, and the writers of the state's registers: which instruction changes the
lifecycle registers, when ERR and the response are written, when a byte may move, what OPEN leaves in PINCFG and what a read
leaves in RES; then the theorems that settle O6, O7, O10, O14, O44, O45, O46, O49, O50, O54, O58 and O60.
-/

namespace Sys2Proof.Machine

/-! ### The invariant along a step -/

/-- A step of the operation in flight that answers is the one `Inv.op_step` describes. -/
theorem Inv.stepOk {i : Instr} {s t : State} (h : Inv s) (ho : s.op = some i) (he : exec i s = .next t) : StepOk i s t := by
  obtain ⟨u, hu, hok⟩ := h.op_step ho
  obtain rfl : t = u := by simpa [he] using hu
  exact hok

theorem Inv.exec_next {i : Instr} {s t : State} (h : Inv s) (he : exec i s = .next t) : Inv t := by
  obtain ⟨hb, -, hv, ha, rfl⟩ | ⟨-, j, ho, hj, -⟩ := h.exec_cases he
  · exact h.begin hb hv ha
  · exact (h.stepOk ho hj).1

theorem Inv.step_next {s t : State} (h : Inv s) (hs : step s = .next t) : Inv t := by
  obtain ⟨i, items, he, -⟩ := step_cases hs
  exact (h.host items).exec_next he

theorem inv_reset : Inv State.reset where
  idle_iff := by decide
  op_iff := by decide
  roles := rfl
  cs := rfl
  rst := fun _ => rfl
  pins := rfl
  mode := by simp [State.reset]
  flight := by simp [State.reset]

/-! ### What a step runs -/

/-- At its exchange the preamble row does what the row of the operation in flight does, so the fetch may name either. -/
theorem Inv.step_eq_exec {i : Instr} {s : State} (h : Inv s) (ho : s.op = some i) : step s = exec i s := by
  have hb := h.busy_of_op ho
  by_cases hop : isTransfer i = false ∨ (s.ph ≠ .preH ∧ s.ph ≠ .preL) ∨ decodePreamble s.pre = none
  · rw [step_busy hb ho, currentInstr_op ho hop]
  · obtain ⟨ht, hph, hpre⟩ : isTransfer i = true ∧ (s.ph = .preH ∨ s.ph = .preL) ∧ decodePreamble s.pre ≠ none := by
      simpa only [not_or, not_and_or, not_not, Bool.not_eq_false] using hop
    obtain ⟨j, hj⟩ := Option.ne_none_iff_exists'.1 hpre
    have hjop : j.isOperation = false := by
      obtain ⟨rfl, -⟩ | ⟨rfl, -⟩ | ⟨rfl, -⟩ := decodePreamble_cases hj <;> rfl
    obtain ⟨hhigh, hlow⟩ := preambleExchange_runs hb ho ht
    obtain ⟨t, hrun⟩ : ∃ t, exec j s = .next t := by
      rw [exec_preamble hj]
      exact hph.elim (fun hp => ⟨_, hhigh hp⟩) fun hp => ⟨_, hlow hp⟩
    rw [step_busy hb ho, currentInstr_preamble ho ht hph hj, hrun, h.exec_preamble_eq ho hjop hrun]

theorem exec_other_refused {i j : Instr} {s : State} (hb : s.busy = true) (ho : s.op = some i) (hj : j.isOperation = true)
    (hne : j ≠ i) : exec j s = .refused .offeredWhileBusy := by
  rw [exec_eq_operate hj, operate, if_pos hb, if_neg]
  rw [ho]
  exact fun h => hne (Option.some.inj h).symm

/-- A busy block's step commutes with a change of the host's stream: the fetch does not look at it, and no instruction does. -/
theorem step_setHost {s t : State} (items : List HostItem) (hb : s.busy = true) (hs : step s = .next t) :
    step (s.setHost items) = .next (t.setHost items) := by
  obtain ⟨i, _, he, ⟨-, rfl, j, ho, rfl⟩ | ⟨hidle, -⟩⟩ := step_cases hs
  · have hexec : exec (currentInstr j s) s = .next t := he
    have hcur : currentInstr j (s.setHost items) = currentInstr j s := rfl
    rw [step_busy (s := s.setHost items) hb ho, hcur, exec_setHost, hexec]
    rfl
  · rw [hb] at hidle; cases hidle

theorem step_host {s t : State} (hb : s.busy = true) (hs : step s = .next t) : t.host = s.host := by
  obtain ⟨i, _, he, ⟨-, rfl, -⟩ | ⟨hidle, -⟩⟩ := step_cases hs
  · exact exec_host he
  · rw [hb] at hidle; cases hidle

/-- An idle block's step is an acceptance, which performs no event. -/
theorem step_idle_trace {s t : State} (hb : s.busy = false) (hs : step s = .next t) : t.trace = s.trace := by
  obtain ⟨i, items, he, -⟩ := step_cases hs
  obtain ⟨-, -, -, -, rfl⟩ | ⟨hbusy, -⟩ | ⟨hbusy, -⟩ := exec_cases he
  · rfl
  all_goals rw [show s.busy = true from hbusy] at hb; cases hb

/-! ### Chip-select and the serial bus -/

theorem PhaseEvent.csSpan_of_serial {i : Instr} {s : State} {e : Event} (h : PhaseEvent i s e) (he : e.isSerial = true) :
    csSpan s.ph = true := by
  cases hp : s.ph <;> simp only [PhaseEvent, hp] at h
  case rdy1 | wait => obtain ⟨y, l, -, rfl⟩ := h; cases he
  case csA | csInit | cfgCs | cfgRst | cfgRdy | pullRdy | rstA | rstD => obtain ⟨p, -, rfl⟩ := h; cases he
  case init => obtain ⟨ok, rfl⟩ := h; cases he
  case close | rstHold => subst h; cases he
  all_goals rfl

/-- Only a transfer has phases with chip-select asserted. -/
theorem Inv.isTransfer_of_csSpan {i : Instr} {s : State} (h : Inv s) (ho : s.op = some i) (hp : csSpan s.ph = true) :
    isTransfer i = true := by
  have hf := h.flight i ho
  cases i with
  | openOp la =>
    obtain ⟨-, hf⟩ := hf
    cases hph : s.ph <;> simp [hph, OpenPhase, csSpan] at hf hp
  | closeOp =>
    obtain hph | ⟨hph, -⟩ | ⟨hph, -⟩ := hf <;> simp [hph, csSpan] at hp
  | resetDevice =>
    obtain ⟨-, hph | ⟨hph | hph | hph, -⟩ | ⟨hph, -⟩⟩ := hf <;> simp [hph, csSpan] at hp
  | waitReady =>
    obtain ⟨-, hph | ⟨hph, -⟩ | ⟨hph, -⟩⟩ := hf <;> simp [hph, csSpan] at hp
  | preambleWriteData | preambleReadData | preambleWriteCommand => exact hf.elim
  | _ => rfl

/-- A row of a session that moves a byte leaves chip-select as it is: the three rows that write it write a pin instead. -/
theorem SessionMove.csOut_of_serial {ses : Session} {s t : State} {e : Event} (h : SessionMove ses s t)
    (ht : t.trace = s.trace ++ [e]) (he : e.isSerial = true) : t.csOut = s.csOut := by
  cases h with
  | assert c hc | deassert c hc | deassertFail c hc =>
    obtain rfl : _ = e := by simpa using ht
    cases he
  | _ => simp [preambleHigh, preambleLow, readHigh, readLow, writeHigh, writeLow]


/-- The step of a serial event starts and ends inside the span of a session. -/
theorem Inv.csOut_of_serial {i : Instr} {s t : State} {e : Event} (h : Inv s) (ho : s.op = some i) (hs : exec i s = .next t)
    (ht : t.trace = s.trace ++ [e]) (he : e.isSerial = true) : s.csOut = some .asserted ∧ t.csOut = some .asserted := by
  obtain ⟨-, hevent⟩ := h.stepOk ho hs
  have hspan : csSpan s.ph = true := by
    split at hevent
    · simp [ht] at hevent
    · obtain ⟨e', he', hphase⟩ := hevent
      obtain rfl : e = e' := by simpa [ht] using he'
      exact hphase.csSpan_of_serial he
  have hcs : s.csOut = some .asserted := by rw [h.cs, if_pos hspan]
  have htr := h.isTransfer_of_csSpan ho hspan
  rw [exec_busy (h.isOp ho) (h.busy_of_op ho) ho] at hs
  cases rowOf_move htr hs with
  | session ses t hm => exact ⟨hcs, (hm.csOut_of_serial ht he).trans hcs⟩
  | again hp => simp at ht
  | respond hp err info r => simp at ht

/-! ### The writers of the lifecycle registers -/

/-- What only OPEN and CLOSE write (10_state.md R21, R22, R34, R35), and the parameters. -/
structure LifecycleKept (s t : State) : Prop where
  cfg : t.cfg = s.cfg
  status : t.status = s.status
  la : t.la = s.la
  spicfg : t.spicfg = s.spicfg
  pincfg : t.pincfg = s.pincfg

theorem LifecycleKept.of_transferMove {i : Instr} {s t : State} (h : TransferMove i s t) : LifecycleKept s t := by
  cases h with
  | session ses t hm =>
    cases hm <;> constructor <;> simp [preambleHigh, preambleLow, readHigh, readLow, writeHigh, writeLow]
  | again hp => constructor <;> simp
  | respond hp e info r => constructor <;> simp

theorem LifecycleKept.of_resetRow {s t : State} (h : resetRow s = .next t) : LifecycleKept s t := by
  rcases resetRow_move h with rfl | rfl | ⟨r, -, rfl | rfl⟩ | rfl | ⟨-, rfl⟩ <;> constructor <;> simp [respondPlain]

theorem LifecycleKept.of_waitReadyRow {s t : State} (h : waitReadyRow s = .next t) : LifecycleKept s t := by
  rcases waitReadyRow_move h with rfl | rfl | ⟨y, -, rfl | rfl | rfl⟩ | ⟨-, rfl⟩ <;> constructor <;> simp [respondPlain]

/-- An operation in flight is OPEN, CLOSE, RESET_DEVICE, WAIT_READY or a transfer. -/
theorem operation_families {i : Instr} (hi : i.isOperation = true) :
    (∃ la, i = .openOp la) ∨ i = .closeOp ∨ i = .resetDevice ∨ i = .waitReady ∨ isTransfer i = true := by
  cases i with
  | openOp la => exact .inl ⟨la, rfl⟩
  | closeOp => exact .inr (.inl rfl)
  | resetDevice => exact .inr (.inr (.inl rfl))
  | waitReady => exact .inr (.inr (.inr (.inl rfl)))
  | preambleWriteData | preambleReadData | preambleWriteCommand => cases hi
  | _ => exact .inr (.inr (.inr (.inr rfl)))

/-- An instruction other than a row of OPEN or CLOSE keeps the lifecycle registers. -/
theorem exec_lifecycle {i : Instr} {s t : State} (he : exec i s = .next t) : LifecycleKept s t ∨
    (∃ la, i = .openOp la ∧ s.op = some i ∧ openRow la s = .next t) ∨ (i = .closeOp ∧ s.op = some i ∧ closeRow s = .next t) := by
  obtain ⟨-, -, -, -, rfl⟩ | ⟨-, hi, ho, hrow⟩ | ⟨-, -, j, -, -, ⟨-, rfl⟩ | ⟨-, rfl⟩⟩ := exec_cases he
  · left; constructor <;> simp
  · obtain ⟨la, rfl⟩ | rfl | rfl | rfl | ht := operation_families hi
    · exact .inr (.inl ⟨la, rfl, ho, hrow⟩)
    · exact .inr (.inr ⟨rfl, ho, hrow⟩)
    · exact .inl (.of_resetRow hrow)
    · exact .inl (.of_waitReadyRow hrow)
    · exact .inl (.of_transferMove (rowOf_move ht hrow))
  · left; constructor <;> simp [preambleHigh]
  · left; constructor <;> simp [preambleLow]

theorem OpenPhase.unopened {la : LineAssign} {s : State} (h : OpenPhase la s) (hp : s.ph ≠ .done) : s.status = .unopened := by
  cases hph : s.ph <;> simp only [OpenPhase, hph] at h
  case chk | init => exact h
  case cfgCs | cfgRst | cfgRdy | pullRdy | csInit => exact h.1
  case done => exact absurd hph hp

/-- A row of OPEN writes LA and STATUS together, at its end, or neither. -/
theorem openRow_lifecycle {la : LineAssign} {s t : State} (hf : OpenPhase la s) (h : openRow la s = .next t) :
    t.cfg = s.cfg ∧ ((t.status = s.status ∧ t.la = s.la) ∨ (s.status = .unopened ∧ t.status = .opened ∧ t.la = la)) := by
  cases openRow_move h with
  | start => simp
  | initFails => simp
  | phase u p hu =>
    rcases hu with rfl | ⟨q, -, rfl⟩ | ⟨y, -, rfl⟩ | ⟨y, -, rfl⟩ <;> simp [configureOutput, pullDown]
  | finish u hp hu =>
    have hst := hf.unopened hp
    rcases hu with rfl | ⟨q, -, rfl⟩ | ⟨y, -, rfl⟩ | ⟨c, -, rfl⟩ <;> simp [openEnd, configureOutput, pullDown, hst]
  | respond hp => simp [respondPlain]

/-- A row of CLOSE writes STATUS only in S_CLOSE, and neither LA nor SPICFG. -/
theorem closeRow_lifecycle {s t : State} (hf : ClosePhase s) (h : closeRow s = .next t) :
    t.cfg = s.cfg ∧ t.la = s.la ∧ t.spicfg = s.spicfg ∧ (t.status = s.status ∨ (s.status = .opened ∧ t.status = .closed)) := by
  rcases closeRow_move h with rfl | rfl | ⟨hp, rfl⟩ | ⟨-, rfl⟩
  · simp
  · simp
  · have hst : s.status = .opened := by simpa [ClosePhase, hp] using hf
    simp [closeRelease, hst]
  · simp [respondPlain]

/-! ### The writers of ERR and of the responses -/

/-- BUSY, ERR and the responses stay as they are. -/
structure AnswerKept (s t : State) : Prop where
  busy : t.busy = s.busy
  err : t.err = s.err
  responses : t.responses = s.responses

theorem transferMove_answers {i : Instr} {s t : State} (h : TransferMove i s t) :
    AnswerKept s t ∨ ∃ e info r, t = s.respond e info r := by
  cases h with
  | session ses t hm =>
    left
    cases hm <;> constructor <;> simp [preambleHigh, preambleLow, readHigh, readLow, writeHigh, writeLow]
  | again hp => left; constructor <;> simp
  | respond hp e info r => exact .inr ⟨e, info, r, rfl⟩

theorem openMove_answers {la : LineAssign} {s t : State} (h : OpenMove la s t) :
    AnswerKept s t ∨ ∃ e info r, t = s.respond e info r := by
  cases h with
  | start => left; constructor <;> simp
  | initFails => left; constructor <;> simp
  | phase u p hu =>
    left
    rcases hu with rfl | ⟨q, -, rfl⟩ | ⟨y, -, rfl⟩ | ⟨y, -, rfl⟩ <;> constructor <;> simp [configureOutput, pullDown]
  | finish u hp hu =>
    left
    rcases hu with rfl | ⟨q, -, rfl⟩ | ⟨y, -, rfl⟩ | ⟨c, -, rfl⟩ <;> constructor <;>
      simp [openEnd, configureOutput, pullDown]
  | respond hp => exact .inr ⟨_, _, _, rfl⟩

/-- A row of an operation gives the response, or leaves ERR and the responses as they are. -/
theorem rowOf_answers {i : Instr} {s t : State} (hi : i.isOperation = true) (h : rowOf i s = .next t) :
    AnswerKept s t ∨ ∃ e info r, t = s.respond e info r := by
  obtain ⟨la, rfl⟩ | rfl | rfl | rfl | ht := operation_families hi
  · exact openMove_answers (openRow_move h)
  · rcases closeRow_move h with rfl | rfl | ⟨-, rfl⟩ | ⟨-, rfl⟩
    case inr.inr.inr => exact .inr ⟨_, _, _, rfl⟩
    all_goals left; constructor <;> simp [closeRelease]
  · rcases resetRow_move h with rfl | rfl | ⟨r, -, rfl | rfl⟩ | rfl | ⟨-, rfl⟩
    case inr.inr.inr.inr => exact .inr ⟨_, _, _, rfl⟩
    all_goals left; constructor <;> simp
  · rcases waitReadyRow_move h with rfl | rfl | ⟨y, -, rfl | rfl | rfl⟩ | ⟨-, rfl⟩
    case inr.inr.inr => exact .inr ⟨_, _, _, rfl⟩
    all_goals left; constructor <;> simp
  · exact transferMove_answers (rowOf_move ht h)

/-- A step of an instruction leaves the block busy with ERR and the responses kept, or gives the response. -/
theorem exec_answers {i : Instr} {s t : State} (he : exec i s = .next t) :
    (t.busy = true ∧ t.err = s.err ∧ t.responses = s.responses) ∨ ∃ e info r, t = s.respond e info r := by
  obtain ⟨-, -, -, -, rfl⟩ | ⟨hb, hi, -, hrow⟩ | ⟨hb, -, j, -, -, ⟨-, rfl⟩ | ⟨-, rfl⟩⟩ := exec_cases he
  · exact .inl ⟨rfl, rfl, rfl⟩
  · obtain ⟨hbusy, herr, hresp⟩ | hend := rowOf_answers hi hrow
    · exact .inl ⟨hbusy.trans hb, herr, hresp⟩
    · exact .inr hend
  · exact .inl ⟨hb, rfl, rfl⟩
  · exact .inl ⟨hb, rfl, rfl⟩

/-! ### PINCFG -/

theorem pinsAtRest_wf (s : State) : PinMapWf (pinsAtRest s) := by
  rw [pinsAtRest]
  split
  · exact pinsOpen_wf s.la
  · exact List.Pairwise.nil

theorem pinsExpected_wf (s : State) : PinMapWf (pinsExpected s) := by
  unfold pinsExpected
  split
  · split
    · exact pinsWithCs_wf _
    · exact pinsWithReset_wf _
    · exact pinsWithReset_wf _
    · exact pinsOpen_wf _
    · exact pinsAtRest_wf s
  · exact pinsAtRest_wf s

/-- A procedure on the pin of a role keeps what it keeps on every pin. -/
theorem ifAssigned_keeps {α : Type} (f : State → α) {k : Pin → State → State} (hk : ∀ q t, f (k q t) = f t) (p : Option Pin)
    (s : State) : f (ifAssigned p k s) = f s := by
  cases p with
  | none => rfl
  | some q => exact hk q s

theorem configureChipSelect_pincfg {la : LineAssign} {s : State} (hs : s.pincfg = []) :
    (ifAssigned la.chipSelect configureOutput s).pincfg = pinsWithCs la := by
  cases hc : la.chipSelect <;> simp [ifAssigned, pinsWithCs, configureOutput, pinSet, hs, hc]

theorem configureReset_pincfg {la : LineAssign} {s : State} (hs : s.pincfg = pinsWithCs la) :
    (ifAssigned la.reset configureOutput s).pincfg = pinsWithReset la := by
  cases hr : la.reset <;> simp [ifAssigned, pinsWithReset, configureOutput, hs, hr]

theorem configureReady_pincfg {la : LineAssign} {s : State} (hs : s.pincfg = pinsWithReset la) :
    (ifAssigned la.ready (fun y t => pullDown y (t.emit (.configurePin y .input))) s).pincfg = pinsOpen la := by
  cases hy : la.ready <;> simp [ifAssigned, pinsOpen, pullDown, hs, hy]

/-- A successful OPEN configures its pins, one role after the other, and leaves the reset line alone. -/
theorem openProc_went {la : LineAssign} {s v : State} (h : openProc la s = .went v) (hs : s.pincfg = []) :
    v.pincfg = pinsOpen la ∧ v.rstOut = s.rstOut := by
  simp only [openProc] at h
  split at h
  case isFalse => cases h
  case isTrue =>
    obtain rfl := Ran.went.inj h
    constructor
    · rw [State.setOpened_pincfg, ifAssigned_keeps State.pincfg (by simp)]
      exact configureReady_pincfg (configureReset_pincfg (configureChipSelect_pincfg (by simpa using hs)))
    · rw [State.setOpened_rstOut, ifAssigned_keeps State.rstOut (by simp), ifAssigned_keeps State.rstOut (by simp [pullDown]),
        ifAssigned_keeps State.rstOut (by simp [configureOutput]), ifAssigned_keeps State.rstOut (by simp [configureOutput])]
      simp

theorem openProc_raised {la : LineAssign} {s v : State} {e : ErrKind} {info : Nat} (h : openProc la s = .raised e info v) :
    e = .initializationError := by
  simp only [openProc] at h
  split at h
  · cases h
  · cases h; rfl

/-- An OPEN that ends with OK was accepted unopened, with roles on pins of their own. -/
theorem open_ok {la : LineAssign} {s u : State} {k : Nat} (hinv : Inv s) (hb : s.busy = false)
    (h : runOperation k (.openOp la) s = some u) (hu : u.err = .ok) :
    la.rolesDistinct = true ∧ u.pincfg = pinsOpen la ∧ u.rstOut = none := by
  obtain ⟨ha, hbody⟩ := run_body rfl hb h
  obtain ⟨hdistinct, hadmits, -⟩ := accept_next ha
  have hst : s.status = .unopened := by simpa [admits] using hadmits
  have hpins : s.pincfg = [] := by rw [hinv.pins]; simp [pinsExpected, hinv.op_iff.1 hb, pinsAtRest, hst]
  have hrst : s.rstOut = none := hinv.rst (.inl (by simp [hst]))
  obtain ⟨v, hv, rfl⟩ | ⟨e, info, v, hv, rfl⟩ := hbody
  · obtain ⟨hp, hr⟩ := openProc_went hv (by simpa using hpins)
    exact ⟨hdistinct, by simpa [respondOk, hands] using hp, by simpa [respondOk, hands, hrst] using hr⟩
  · obtain rfl := openProc_raised hv
    cases hu

/-- The ready pin of a valid assignment is neither of the two output pins (30_encoding.md R73). -/
theorem rolesDistinct_ready {la : LineAssign} {p : Pin} (h : la.rolesDistinct = true) (hy : la.ready = some p) :
    la.chipSelect ≠ some p ∧ la.reset ≠ some p := by
  simp only [LineAssign.rolesDistinct, Bool.and_eq_true, Bool.not_eq_true'] at h
  obtain ⟨⟨hchipSelect, hreset⟩, -⟩ := h
  constructor
  · intro hc; simp [hy, hc, samePin] at hchipSelect
  · intro hr; simp [hy, hr, samePin] at hreset

/-! ### RES -/

theorem NoWordsYet.of_res {s : State} (h : s.res = []) : NoWordsYet s := fun _ _ _ _ => h

/-- A row before the first Word of a read finds RES empty, and so leaves it empty. -/
theorem NoWordsYet.row {i : Instr} {s t : State} (h : NoWordsYet s) (hi : i.isOperation = true) (hb : s.busy = true)
    (ho : s.op = some i) (he : exec i s = .next t) : NoWordsYet t := by
  intro k hk hread hbefore
  obtain rfl : k = i := by
    rcases exec_op hi he with hop | hop <;> rw [hop] at hk <;> cases hk
    rfl
  obtain ⟨hback, -, -, hres⟩ := readOp_res hread ho ((exec_busy hi hb ho).symm.trans he)
  have hs := hback hk hbefore
  have hempty := h k ho hread hs
  have hph : s.ph ≠ .rdL := fun hp => by simp [hp, beforeWords] at hs
  rcases hres hph with hsame | ⟨-, hclear⟩
  · rw [hsame, hempty]
  · exact hclear

theorem NoWordsYet.exec_next {i : Instr} {s t : State} (h : NoWordsYet s) (he : exec i s = .next t) : NoWordsYet t := by
  obtain ⟨-, -, -, -, rfl⟩ | ⟨hb, hi, ho, -⟩ | ⟨-, -, j, -, -, ⟨hp, rfl⟩ | ⟨hp, rfl⟩⟩ := exec_cases he
  · intro k hk hread _
    obtain rfl : i = k := by simpa using hk
    simp [hread]
  · exact h.row hi hb ho he
  · exact fun k hk hread _ => h k hk hread (by simp [hp, beforeWords])
  · exact fun k hk hread _ => h k hk hread (by simp [hp, beforeWords])

theorem NoWordsYet.step_next {s t : State} (h : NoWordsYet s) (hs : step s = .next t) : NoWordsYet t := by
  obtain ⟨i, items, he, -⟩ := step_cases hs
  have hitems : NoWordsYet { s with host := items } := h
  exact hitems.exec_next he

/-- A row of a read in flight appends one Word at S_RD_L and leaves RES alone elsewhere. -/
theorem NoWordsYet.exec_res {i : Instr} {s t : State} (h : NoWordsYet s) (hread : readsWords i = true) (hb : s.busy = true)
    (he : exec i s = .next t) :
    if s.ph = .rdL then ∃ b, t.trace = s.trace ++ [.xfer 0x00#8 b] ∧ t.res = s.res ++ [word s.rxh b] else t.res = s.res := by
  obtain ⟨-, hi, -⟩ := readsWords_transfer hread
  obtain ⟨hidle, -⟩ | ⟨-, -, ho, hrow⟩ | ⟨-, hpre, -⟩ := exec_cases he
  · rw [hb] at hidle; cases hidle
  · obtain ⟨-, -, hword, hkeep⟩ := readOp_res hread ho hrow
    split
    · exact hword ‹_›
    · obtain hsame | ⟨hp, hclear⟩ := hkeep ‹_›
      · exact hsame
      · rw [hclear, h i ho hread (by simp [hp, beforeWords])]
  · rw [hi] at hpre; cases hpre

/-- The last line of a read hands over RES, all of it where it holds one Word. -/
theorem respondOk_reads {i : Instr} {v : State} (hread : readsWords i = true)
    (hlen : hands i = .first → v.res.length = 1) :
    ∃ info, (respondOk i v).responses = v.responses ++
      [⟨(respondOk i v).err.code, info, if (respondOk i v).err = .ok then (respondOk i v).res else []⟩] := by
  refine ⟨0, ?_⟩
  cases hh : hands i with
  | nothing => cases i <;> simp [hands] at hh <;> cases hread
  | all => simp [respondOk, hh]
  | first =>
    obtain ⟨w, hw⟩ := List.length_eq_one_iff.1 (hlen hh)
    simp [respondOk, hh, hw]

/-- A read that fails does not end with OK, and one that goes through has the Words asked for. -/
theorem read_ends {i : Instr} {s u : State} {k : Nat} (hread : readsWords i = true) (hb : s.busy = false)
    (h : runOperation k i s = some u) :
    ∃ info, u.responses = s.responses ++ [⟨u.err.code, info, if u.err = .ok then u.res else []⟩] := by
  obtain ⟨ht, hi, p, n, hs⟩ := readsWords_transfer hread
  obtain ⟨-, hbody⟩ := run_body hi hb h
  obtain ⟨hwent, hraised⟩ := transfer_ends ht k (s.begin i)
  obtain ⟨v, hv, rfl⟩ | ⟨e, info, v, hv, rfl⟩ := hbody
  · obtain ⟨hresp, -, hlen⟩ := hwent v hv
    obtain ⟨info, heq⟩ := respondOk_reads (v := v) hread fun hh => by
      have hlen := hlen _ hs rfl
      cases i <;> simp [hands] at hh
      obtain ⟨-, rfl⟩ : p = preDataRead ∧ n = 1 := by simpa [sessionsOf, eq_comm] using hs
      exact hlen
    exact ⟨info, by rw [heq, hresp]; rfl⟩
  · obtain ⟨hfail, hresp, -⟩ := hraised e info v hv
    have hne : e ≠ .ok := by
      rcases hfail with ⟨rfl, -⟩ | ⟨rfl, -⟩ <;> simp
    exact ⟨info, by simp [hresp, hne]⟩

/-! ### The statements -/

/-- Settles O46: acceptance and the row of the operation in flight each lead to a state that meets the invariant, and a step is
one of them in the state the fetch leaves. -/
theorem stepKeepsTheInvariant : Obligations.StepKeepsTheInvariant := by
  unfold Obligations.StepKeepsTheInvariant
  exact ⟨fun _ _ h hs => h.step_next hs, fun _ _ _ h he => h.exec_next he⟩

/-- Settles O7: at S_PRE_H and S_PRE_L the preamble row the fetch may name is the row of the operation. -/
theorem stepContinuesTheOperation : Obligations.StepContinuesTheOperation := by
  unfold Obligations.StepContinuesTheOperation
  exact fun _ _ h ho => h.step_eq_exec ho

/-- Settles O10: the guard of `operate`, and no instruction looks at the host's stream. -/
theorem busyBlockAcceptsNothing : Obligations.BusyBlockAcceptsNothing := by
  unfold Obligations.BusyBlockAcceptsNothing
  exact ⟨fun _ _ _ hb ho hj hne => exec_other_refused hb ho hj hne,
    fun _ _ items hb hs => ⟨step_host hb hs, step_setHost items hb hs⟩⟩

/-- Settles O14: the pins OPEN leaves, read as a map; the ready pin is neither of the two output pins. -/
theorem openConfiguresExactlyItsPins : Obligations.OpenConfiguresExactlyItsPins := by
  unfold Obligations.OpenConfiguresExactlyItsPins
  intro la s u k hinv hb h hu
  obtain ⟨hdistinct, hpins, hrst⟩ := open_ok hinv hb h hu
  simp only [hpins, pinGet_pinsOpen]
  refine ⟨?chipSelect, ?reset, ?ready, ?others, hrst⟩
  case chipSelect =>
    intro p hc
    rw [if_neg fun hy => (rolesDistinct_ready hdistinct hy).1 hc, if_pos hc, ite_self]
    rfl
  case reset =>
    intro p hr
    rw [if_neg fun hy => (rolesDistinct_ready hdistinct hy).2 hr, if_pos hr]
    rfl
  case ready => exact fun p hy => if_pos hy
  case others => exact fun p hc hr hy => by rw [if_neg hy, if_neg hr, if_neg hc]

/-- Settles O49: the phases with a serial event lie in the span of a session, and their rows leave CS_OUT alone. -/
theorem serialOnlyWhileSelected : Obligations.SerialOnlyWhileSelected := by
  unfold Obligations.SerialOnlyWhileSelected
  intro s t e h hs ht he
  cases ho : s.op with
  | some i => exact h.csOut_of_serial ho ((h.step_eq_exec ho).symm.trans hs) ht he
  | none =>
    rw [step_idle_trace (h.op_iff.2 ho) hs] at ht
    simp at ht

/-- Settles O50: every row but those of OPEN and CLOSE keeps the registers; OPEN writes LA and STATUS at its end, CLOSE writes
STATUS in S_CLOSE. -/
theorem lifecycleRegistersHaveTheirWriters : Obligations.LifecycleRegistersHaveTheirWriters := by
  unfold Obligations.LifecycleRegistersHaveTheirWriters
  intro i s t h he
  obtain hkept | ⟨la, rfl, ho, hrow⟩ | ⟨rfl, ho, hrow⟩ := exec_lifecycle he
  · exact ⟨fun hne => absurd hkept.status hne, fun hne => absurd hkept.la hne, fun hne => absurd hkept.spicfg hne,
      fun hne => absurd hkept.pincfg hne, hkept.cfg⟩
  · obtain ⟨-, hf⟩ : la.rolesDistinct = true ∧ OpenPhase la s := h.flight _ ho
    obtain ⟨hcfg, hwrites⟩ := openRow_lifecycle hf hrow
    refine ⟨?_, ?_, fun _ => ⟨la, rfl⟩, fun _ => .inl ⟨la, rfl⟩, hcfg⟩
    · obtain ⟨hst, -⟩ | ⟨hs, ht, hla⟩ := hwrites
      · exact fun hne => absurd hst hne
      · exact fun _ => .inl ⟨la, rfl, hs, ht, hla⟩
    · obtain ⟨-, hla⟩ | ⟨-, ht, hla⟩ := hwrites
      · exact fun hne => absurd hla hne
      · exact fun _ => ⟨la, rfl, hla, ht⟩
  · obtain ⟨hcfg, hla, hspi, hwrites⟩ := closeRow_lifecycle (h.flight _ ho) hrow
    refine ⟨?_, fun hne => absurd hla hne, fun hne => absurd hspi hne, fun _ => .inr rfl, hcfg⟩
    obtain hst | ⟨hs, ht⟩ := hwrites
    · exact fun hne => absurd hst hne
    · exact fun _ => .inr ⟨rfl, hs, ht⟩

/-- Settles O54: the only step that writes ERR or the responses is the response itself. -/
theorem errAndResponseAreWrittenAtTheEnd : Obligations.ErrAndResponseAreWrittenAtTheEnd := by
  unfold Obligations.ErrAndResponseAreWrittenAtTheEnd
  intro i s t he
  obtain hkept | ⟨e, info, r, rfl⟩ := exec_answers he
  · exact .inl hkept
  · exact .inr ⟨rfl, rfl, rfl, rfl, info, r, rfl⟩

/-- Settles O58: the invariant names PINCFG, built by `pinSet`, which keeps the form; the laws of the map. -/
theorem pinMapStaysCanonical : Obligations.PinMapStaysCanonical := by
  unfold Obligations.PinMapStaysCanonical
  refine ⟨fun s h => ?_, fun _ p c hm => pinSet_wf p c hm, fun _ p q c hm => pinGet_pinSet p q c hm, pinMap_ext⟩
  rw [h.pins]
  exact pinsExpected_wf s

/-- Settles O60: acceptance empties RES, a row before the first Word keeps it empty, S_RD_L appends, and the response hands it
over with OK. -/
theorem resultCollectsTheWordsRead : Obligations.ResultCollectsTheWordsRead := by
  unfold Obligations.ResultCollectsTheWordsRead
  refine ⟨NoWordsYet.of_res rfl, fun _ _ h hs => h.step_next hs, ?accepted, fun _ _ _ hread hb h he => h.exec_res hread hb he,
    fun _ _ _ _ hread hb h => read_ends hread hb h⟩
  intro i s t hread hb he
  obtain ⟨-, hi, -⟩ := readsWords_transfer hread
  obtain ⟨-, -, rfl⟩ := accept_next ((exec_idle hi hb).symm.trans he)
  simp [hread]

/-- Settles O6: the fetch of an idle and of a busy block. -/
theorem stepRunsWhatIsDecoded : Obligations.StepRunsWhatIsDecoded := by
  unfold Obligations.StepRunsWhatIsDecoded
  refine ⟨fun _ _ _ hb hd => step_idle hb hd, fun s i hb ho hop => ?operation, fun s i j hb ho ht hp hd => ?preamble⟩
  case operation => rw [step_busy hb ho, currentInstr_op ho hop]
  case preamble => rw [step_busy hb ho, currentInstr_preamble ho ht hp hd]

/-- Settles O44, field by field. -/
theorem resetStateIsTheSpecs : Obligations.ResetStateIsTheSpecs := by
  unfold Obligations.ResetStateIsTheSpecs
  exact ⟨rfl, rfl, rfl, fun _ => rfl, rfl, rfl, rfl, rfl, rfl, rfl⟩

/-- Settles O45: the block is idle, unopened and without pins. -/
theorem resetMeetsTheInvariant : Obligations.ResetMeetsTheInvariant := by
  unfold Obligations.ResetMeetsTheInvariant
  exact inv_reset

end Sys2Proof.Machine
end

section
/-!
SUPPORT. The round trip between `encode` and `decode`, and the header and line assignment words that spell no operation
(30_encoding.md R70 to R74, R83); then the theorems that settle O1, O2, O3 and O4.
-/

namespace Sys2Proof

/-! ### Decoding what the encoder writes -/

theorem decode_encodeHeader {o : BitVec 4} {a : Word} {rest : List HostItem} (ho : opselReserved o.toNat = false) :
    decode (encodeHeader o a :: rest) = decodeBody o.toNat a rest :=
  decodeHeader_encode ho

theorem takeArgument_encodeCount {k : Nat} {rest : List HostItem} :
    takeArgument (encodeCount k :: rest) = .ok (BitVec.ofNat 32 k, rest) := rfl

theorem toNat_encodedCount {k : Nat} (h : lenFits k = true) : (BitVec.ofNat 32 k).toNat = k := by
  rw [BitVec.toNat_ofNat, Nat.mod_eq_of_lt (by simpa [lenFits] using h)]

theorem formatCount_encode {mk : Nat → Instr} {k : Nat} {rest : List HostItem} (h : lenFits k = true) :
    formatCount mk (encodeCount k :: rest) = .ok (mk k, rest) := by
  simp only [formatCount, takeArgument_encodeCount, toNat_encodedCount h]

theorem formatWords_encode {mk : List Word → Instr} {ws : List Word} {rest : List HostItem} (h : lenFits ws.length = true) :
    formatWords mk (encodeCount ws.length :: (ws.map .word16 ++ rest)) = .ok (mk ws, rest) := by
  simp only [formatWords, takeArgument_encodeCount, toNat_encodedCount h, takeWords_map]

theorem formatBytes_encode {mk : List Byte → Instr} {bs : List Byte} {rest : List HostItem} (h : lenFits bs.length = true) :
    formatBytes mk (encodeCount bs.length :: (bs.map .byte ++ rest)) = .ok (mk bs, rest) := by
  simp only [formatBytes, takeArgument_encodeCount, toNat_encodedCount h, takeBytes_map]

theorem formatOpen_encode {la : LineAssign} {rest : List HostItem} (h : Instr.WellFormed (.openOp la)) :
    formatOpen (.word32 (encodeLineAssign la) :: rest) = .ok (.openOp la, rest) := by
  simp only [Instr.WellFormed, Instr.wellFormed, Bool.and_eq_true] at h
  obtain ⟨⟨⟨hdistinct, hready⟩, hchipSelect⟩, hreset⟩ := h
  simp only [formatOpen, takeArgument, decodeLineAssign_encode hdistinct hready hchipSelect hreset]

/-- The header names the operation's format, and the format reads back the operand it was written for. -/
theorem decode_encode {i : Instr} (rest : List HostItem) (h : i.WellFormed) : decode (encode i ++ rest) = .ok (i, rest) := by
  cases i with
  | openOp la => exact (decode_encodeHeader rfl).trans (formatOpen_encode h)
  | closeOp | resetDevice | waitReady | readSingleWord => exact decode_encodeHeader rfl
  | read p count => exact (decode_encodeHeader rfl).trans (formatCount_encode h)
  | readData count => exact (decode_encodeHeader rfl).trans (formatCount_encode h)
  | write p ws => exact (decode_encodeHeader rfl).trans (formatWords_encode h)
  | writeCommand code args => exact (decode_encodeHeader rfl).trans (formatWords_encode h)
  | writeData ws => exact (decode_encodeHeader rfl).trans (formatWords_encode h)
  | writePixels ws => exact (decode_encodeHeader rfl).trans (formatWords_encode h)
  | writeBulk bs => exact (decode_encodeHeader rfl).trans (formatBytes_encode h)
  | preambleWriteData | preambleReadData | preambleWriteCommand => rfl

/-- The converse: a Word is one of the three preambles, and every other first item begins a descriptor. -/
theorem decode_ok {items rest : List HostItem} {i : Instr} (h : decode items = .ok (i, rest)) :
    i.WellFormed ∧ items = encode i ++ rest := by
  have descriptor (hd : decodeDescriptor items = .ok (i, rest)) : i.WellFormed ∧ items = encode i ++ rest :=
    let ⟨hwf, _, heq⟩ := decodeDescriptor_ok hd
    ⟨hwf, heq⟩
  match items with
  | [] | .word32 _ :: _ | .byte _ :: _ => exact descriptor h
  | .word16 w :: items =>
    rw [decode] at h
    cases hp : decodePreamble w with
    | none => rw [hp] at h; cases h
    | some j =>
      rw [hp] at h
      cases h
      obtain ⟨hwf, henc, -⟩ := decodePreamble_ok hp
      exact ⟨hwf, by rw [henc]; rfl⟩

/-! ### Headers that spell no operation -/

theorem opselReserved_iff (o : BitVec 4) :
    opselReserved o.toNat = true ↔ o = 0x7#4 ∨ o = 0xD#4 ∨ o = 0xE#4 ∨ o = 0xF#4 := by
  revert o; decide

theorem decodeHeader_opselReserved {h : BitVec 32} {rest : List HostItem} (hr : opselReserved (headerOpsel h) = true) :
    decodeHeader h rest = .error .reservedOpsel := by rw [decodeHeader, if_pos hr]

theorem decodeHeader_rsv {h : BitVec 32} {rest : List HostItem} (hr : ¬ opselReserved (headerOpsel h) = true)
    (hrsv : headerRsv h ≠ 0#12) : decodeHeader h rest = .error .reservedField := by
  rw [decodeHeader, if_neg hr, if_pos hrsv]

theorem decodeHeader_body {h : BitVec 32} {rest : List HostItem} (hr : ¬ opselReserved (headerOpsel h) = true)
    (hrsv : headerRsv h = 0#12) : decodeHeader h rest = decodeBody (headerOpsel h) (headerArg h) rest := by
  rw [decodeHeader, if_neg hr, if_neg (not_not_intro hrsv)]

theorem zeroArg_error {a : Word} {k : Except DecodeError (Instr × List HostItem)} (ha : a ≠ 0#16) :
    zeroArg a k = .error .argNotZero := if_neg ha

/-- The OPSELs whose ARG16 must be zero (30_encoding.md R72). -/
theorem opsel_zeroArg (o : BitVec 4) : ¬ opselReserved o.toNat = true → o ≠ 0x4#4 → o ≠ 0x5#4 → o ≠ 0x8#4 →
    o = 0x0#4 ∨ o = 0x1#4 ∨ o = 0x2#4 ∨ o = 0x3#4 ∨ o = 0x6#4 ∨ o = 0x9#4 ∨ o = 0xA#4 ∨ o = 0xB#4 ∨ o = 0xC#4 := by
  revert o; decide

theorem decodeBody_argNotZero {o : BitVec 4} {a : Word} {rest : List HostItem}
    (hr : ¬ opselReserved o.toNat = true) (h4 : o ≠ 0x4#4) (h5 : o ≠ 0x5#4) (h8 : o ≠ 0x8#4) (ha : a ≠ 0#16) :
    decodeBody o.toNat a rest = .error .argNotZero := by
  rcases opsel_zeroArg o hr h4 h5 h8 with rfl | rfl | rfl | rfl | rfl | rfl | rfl | rfl | rfl <;> exact zeroArg_error ha

/-! ### Line assignments that spell no OPEN -/

theorem decodeRole_error {v : Bool} {p : BitVec 8} (hv : v = false) (hp : p ≠ 0#8) :
    decodeRole v p = .error .pinWithoutValid := by simp [decodeRole, hv, hp]

/-- A role that decodes has its pin exactly when its valid bit is set. -/
theorem decodeRole_eq_ok {v : Bool} {p : BitVec 8} (h : ¬ (v = false ∧ p ≠ 0#8)) :
    decodeRole v p = .ok (if v then some p.toNat else none) := by
  cases v with
  | true => rfl
  | false =>
    obtain rfl : p = 0#8 := by simpa using h
    rfl

/-- A reserved bit of LINEASSIGN is set (30_encoding.md R73). -/
def ReservedBitSet (w : BitVec 32) : Prop := w.getLsbD 31 = true ∨ w.extractLsb' 24 4 ≠ 0#4

/-- A role of LINEASSIGN has a pin but no valid bit (30_encoding.md R73). -/
def PinWithoutValid (w : BitVec 32) : Prop :=
  (w.getLsbD 28 = false ∧ w.extractLsb' 0 8 ≠ 0#8) ∨ (w.getLsbD 29 = false ∧ w.extractLsb' 8 8 ≠ 0#8) ∨
    (w.getLsbD 30 = false ∧ w.extractLsb' 16 8 ≠ 0#8)

/-- Two roles of LINEASSIGN with a valid bit name one pin (30_encoding.md R73). -/
def RolesSharePin (w : BitVec 32) : Prop :=
  (w.getLsbD 28 = true ∧ w.getLsbD 29 = true ∧ w.extractLsb' 0 8 = w.extractLsb' 8 8) ∨
    (w.getLsbD 28 = true ∧ w.getLsbD 30 = true ∧ w.extractLsb' 0 8 = w.extractLsb' 16 8) ∨
    (w.getLsbD 29 = true ∧ w.getLsbD 30 = true ∧ w.extractLsb' 8 8 = w.extractLsb' 16 8)

theorem reservedBitSet_iff (w : BitVec 32) :
    (w.getLsbD 31 || w.extractLsb' 24 4 != 0#4) = true ↔ ReservedBitSet w := by
  rw [Bool.or_eq_true, bne_iff_ne, ReservedBitSet]

theorem decodeLineAssign_reserved {w : BitVec 32} (hb : ReservedBitSet w) :
    decodeLineAssign w = .error .lineAssignReserved := by
  rw [decodeLineAssign, if_pos ((reservedBitSet_iff w).2 hb)]

/-- The first role that does not decode gives the reason, and there is only one reason. -/
theorem decodeLineAssign_pinWithoutValid {w : BitVec 32} (hb : ¬ ReservedBitSet w) (hp : PinWithoutValid w) :
    decodeLineAssign w = .error .pinWithoutValid := by
  rw [decodeLineAssign, if_neg (mt (reservedBitSet_iff w).1 hb)]
  by_cases hready : w.getLsbD 28 = false ∧ w.extractLsb' 0 8 ≠ 0#8
  · simp only [decodeRole_error hready.1 hready.2]
  by_cases hchipSelect : w.getLsbD 29 = false ∧ w.extractLsb' 8 8 ≠ 0#8
  · simp only [decodeRole_eq_ok hready, decodeRole_error hchipSelect.1 hchipSelect.2]
  obtain ⟨hvalid, hpin⟩ := (hp.resolve_left hready).resolve_left hchipSelect
  simp only [decodeRole_eq_ok hready, decodeRole_eq_ok hchipSelect, decodeRole_error hvalid hpin]

theorem decodeLineAssign_rolesSharePin {w : BitVec 32} (hb : ¬ ReservedBitSet w) (hp : ¬ PinWithoutValid w)
    (hshare : RolesSharePin w) : decodeLineAssign w = .error .rolesSharePin := by
  simp only [PinWithoutValid, not_or] at hp
  obtain ⟨hready, hchipSelect, hreset⟩ := hp
  rw [decodeLineAssign, if_neg (mt (reservedBitSet_iff w).1 hb)]
  simp only [decodeRole_eq_ok hready, decodeRole_eq_ok hchipSelect, decodeRole_eq_ok hreset]
  rw [if_neg]
  rcases hshare with ⟨hv, hv', hpin⟩ | ⟨hv, hv', hpin⟩ | ⟨hv, hv', hpin⟩ <;>
    simp [LineAssign.rolesDistinct, samePin, hv, hv', hpin]

theorem decodeHeader_open {h w : BitVec 32} {rest : List HostItem} {e : DecodeError} (ho : h.extractLsb' 28 4 = 0x0#4)
    (hrsv : headerRsv h = 0#12) (ha : headerArg h = 0#16) (he : decodeLineAssign w = .error e) :
    decodeHeader h (.word32 w :: rest) = .error e := by
  have hopsel : headerOpsel h = 0 := by rw [headerOpsel, ho]; rfl
  rw [decodeHeader_body (by rw [hopsel]; decide) hrsv, hopsel, ha]
  simp only [decodeBody, zeroArg, if_true, formatOpen, takeArgument, he]

namespace Machine

theorem step_invalidDescriptor {s : State} {e : DecodeError} (hb : s.busy = false) (hd : decodeDescriptor s.host = .error e)
    (he : e ≠ .nothingOffered) : step s = .refused (.invalidDescriptor e) := by
  cases e with
  | nothingOffered => exact absurd rfl he
  | _ => simp [step, fetch, hb, hd]

/-! ### The statements -/

/-- Settles O2, instruction by instruction: the header, then the format's operand. -/
theorem decodeInvertsEncode : Obligations.DecodeInvertsEncode := by
  unfold Obligations.DecodeInvertsEncode
  exact fun _ rest h => decode_encode rest h

/-- Settles O3, from what each format accepts. -/
theorem encodeInvertsDecode : Obligations.EncodeInvertsDecode := by
  unfold Obligations.EncodeInvertsDecode
  exact fun _ _ _ h => decode_ok h

/-- Settles O4, clause by clause in the order of the decoder's checks. -/
theorem invalidDescriptorsAreRefused : Obligations.InvalidDescriptorsAreRefused := by
  unfold Obligations.InvalidDescriptorsAreRefused
  intro s h rest hb hs opsel rsv arg reserved
  have refused {e : DecodeError} (hd : decodeHeader h rest = .error e) (he : e ≠ .nothingOffered) :
      step s = .refused (.invalidDescriptor e) := step_invalidDescriptor hb (by rw [hs]; exact hd) he
  have hreserved : opselReserved (headerOpsel h) = true ↔ reserved := opselReserved_iff opsel
  refine ⟨fun hr => ?opsel, fun hr hrsv => ?rsv, fun hr hrsv h4 h5 h8 ha => ?arg, ?lineAssign⟩
  case opsel => exact refused (decodeHeader_opselReserved (hreserved.2 hr)) (by decide)
  case rsv => exact refused (decodeHeader_rsv (mt hreserved.1 hr) hrsv) (by decide)
  case arg =>
    have hr' := mt hreserved.1 hr
    exact refused ((decodeHeader_body hr' hrsv).trans (decodeBody_argNotZero (o := opsel) hr' h4 h5 h8 ha)) (by decide)
  case lineAssign =>
    rintro w rest' ho hrsv ha rfl badBits rdy cs rst badPin
    have refusedLine {e : DecodeError} (he : decodeLineAssign w = .error e) (hne : e ≠ .nothingOffered) :
        step s = .refused (.invalidDescriptor e) := refused (decodeHeader_open ho hrsv ha he) hne
    exact ⟨fun hbits => refusedLine (decodeLineAssign_reserved hbits) (by decide),
      fun hbits hpin => refusedLine (decodeLineAssign_pinWithoutValid hbits hpin) (by decide),
      fun hbits hpin hshare => refusedLine (decodeLineAssign_rolesSharePin hbits hpin hshare) (by decide)⟩

/-- Settles O1: each written-out stream is run through the decoder. -/
theorem writtenOutWordsDecode : Obligations.WrittenOutWordsDecode := by
  unfold Obligations.WrittenOutWordsDecode
  and_intros <;> rfl

end Machine
end Sys2Proof
end

section
/-!
SUPPORT. The preamble exchange, the frames that a transfer ending with OK has put on the wire (30_encoding.md R78 to R81), and
the Command Layer operations of one session (30_encoding.md R87); then the theorems that settle O11, O33, O34, O35 and O42.
-/

namespace Sys2Proof.Machine

/-! ### The preamble exchange -/

theorem preambleHigh_rx {s : State} {r : Byte} {rest : List Byte} (h : s.env.rxBytes = r :: rest) :
    preambleHigh s = { s with
      ph := .preL, trace := s.trace ++ [.xfer (hi s.pre) r], env := { s.env with rxBytes := rest } } := by
  simp [preambleHigh, State.evXfer, Env.takeByte, h, State.emit, State.goto]

theorem preambleLow_rx {s : State} {r : Byte} {rest : List Byte} (h : s.env.rxBytes = r :: rest) :
    preambleLow s = { s with
      ph := .rdy2, polls := 0, trace := s.trace ++ [.xfer (lo s.pre) r], env := { s.env with rxBytes := rest } } := by
  simp [preambleLow, State.evXfer, Env.takeByte, h, State.emit, State.goto, State.startWait]

/-- The row of a preamble Word sends its high byte, then its low byte. -/
theorem preambleRuns_of_named {j : Instr} {v : Word} (hj : decodePreamble v = some j) : PreambleRuns j v (hi v) (lo v) := by
  rintro s i r0 r1 rest hb ho ht hp rfl hrx
  refine ⟨?high, ?low⟩
  case high => rw [exec_preamble hj, (preambleExchange_runs hb ho ht).1 hp, preambleHigh_rx hrx]
  case low =>
    rw [← preambleHigh_rx hrx]
    have hrx' : (preambleHigh s).env.rxBytes = r1 :: rest := by rw [preambleHigh_rx hrx]
    calc exec j (preambleHigh s) = preambleExchange s.pre (preambleHigh s) := exec_preamble hj _
      _ = .next (preambleLow (preambleHigh s)) := (preambleExchange_runs (s := preambleHigh s) hb ho ht).2 rfl
      _ = _ := by rw [preambleLow_rx hrx', preambleHigh_rx hrx]; simp

/-! ### The bytes of a frame -/

theorem wireBytes_deassert (cfg : Config) (c : Pin) : wireBytes [deassertEvent cfg c] = [] := rfl

theorem wireBytes_readFrame {cfg : Config} {c y : Pin} {p : Word} {n a b d : Nat} {rx : List Byte} (h : rx.length = 4 + 2 * n) :
    wireBytes (readFrame cfg c y p n a b d rx) = [hi p, lo p] ++ [0x00#8, 0x00#8] ++ List.replicate (2 * n) 0x00#8 := by
  simp only [readFrame, wire_append, wire_wait, wireBytes_deassert, List.append_nil]
  rw [wire_head _ _ _ _ _ _ _ (by omega), wire_xfers_le _ _ (by simp; omega), wire_xfers_le _ _ (by simp; omega)]

theorem wireBytes_writeFrame {cfg : Config} {c y : Pin} {p : Word} {ws : List Word} {a b : Nat} {rx : List Byte}
    (h : rx.length = 2 + 2 * ws.length) : wireBytes (writeFrame cfg c y p ws a b rx) = [hi p, lo p] ++ pack ws := by
  simp only [writeFrame, wire_append, wireBytes_deassert, List.append_nil]
  rw [wire_head _ _ _ _ _ _ _ (by omega), wire_xfers_le _ _ (by simp [length_pack]; omega)]

theorem wireBytes_bulkFrame {cfg : Config} {c y : Pin} {bs : List Byte} {a b : Nat} {rx : List Byte} (h : rx.length = 2) :
    wireBytes (bulkFrame cfg c y bs a b rx) = [0x00#8, 0x00#8] ++ bs := by
  have hbulk : wireBytes [.xferBulk bs] = bs := List.append_nil bs
  simp only [bulkFrame, wire_append, wireBytes_deassert, List.append_nil, hbulk]
  rw [wire_head _ _ _ _ _ _ _ (by omega), hi_zero, lo_zero]

/-- The bytes `4 + 2j` and `5 + 2j` received in a read make Word `j` (30_encoding.md R79). -/
theorem unpack_drop_getElem? {rx : List Byte} {n j : Nat} (h : rx.length = 4 + 2 * n) (hj : j < n) :
    ∃ b0 b1, rx[4 + 2 * j]? = some b0 ∧ rx[5 + 2 * j]? = some b1 ∧ (unpack (rx.drop 4))[j]? = some (word b0 b1) := by
  have h0 : 4 + 2 * j < rx.length := by omega
  have h1 : 5 + 2 * j < rx.length := by omega
  have hb0 := List.getElem?_eq_getElem h0
  have hb1 := List.getElem?_eq_getElem h1
  refine ⟨_, _, hb0, hb1, unpack_get _ _ _ _ ?_ ?_⟩
  · rw [List.getElem?_drop, hb0]
  · rw [List.getElem?_drop, ← hb1]; congr 1; omega

/-! ### Transport transfers that end with OK -/

section
variable {s u : State} {k : Nat} (hb : s.busy = false)
include hb

theorem read_ok {p : Word} {n : Nat} (h : runOperation k (.read p n) s = some u) (hu : u.err = .ok) :
    ∃ c y a b d rx, s.la.chipSelect = some c ∧ s.la.ready = some y ∧ rx.length = 4 + 2 * n ∧
      u.trace = s.trace ++ readFrame s.cfg c y p n a b d rx ∧
      u.responses = s.responses ++ [⟨0x00#8, 0, unpack (rx.drop 4)⟩] := by
  obtain ⟨-, v, hv, rfl⟩ := one_ok (ses := .read p n) rfl hb h hu
  obtain ⟨c, y, a, b, d, rx, hc, hy, hrx, -, -, -, hv⟩ := read_session_went hv
  refine ⟨c, y, a, b, d, rx, hc, hy, hrx, ?_, ?_⟩ <;> rw [hv] <;> rfl

theorem write_ok {p : Word} {ws : List Word} (h : runOperation k (.write p ws) s = some u) (hu : u.err = .ok) :
    ∃ c y a b rx, s.la.chipSelect = some c ∧ s.la.ready = some y ∧ rx.length = 2 + 2 * ws.length ∧
      u.trace = s.trace ++ writeFrame s.cfg c y p ws a b rx ∧ u.responses = s.responses ++ [⟨0x00#8, 0, []⟩] := by
  obtain ⟨-, v, hv, rfl⟩ := one_ok (ses := .write p ws) rfl hb h hu
  obtain ⟨c, y, a, b, rx, hc, hy, hrx, -, -, hv⟩ := write_session_went hv
  refine ⟨c, y, a, b, rx, hc, hy, hrx, ?_, ?_⟩ <;> rw [hv] <;> rfl

theorem writeBulk_ok {bs : List Byte} (h : runOperation k (.writeBulk bs) s = some u) (hu : u.err = .ok) :
    ∃ c y a b rx, s.la.chipSelect = some c ∧ s.la.ready = some y ∧ rx.length = 2 ∧
      u.trace = s.trace ++ bulkFrame s.cfg c y bs a b rx ∧ u.responses = s.responses ++ [⟨0x00#8, 0, []⟩] := by
  obtain ⟨-, v, hv, rfl⟩ := one_ok (ses := .bulk bs) rfl hb h hu
  obtain ⟨c, y, a, b, rx, hc, hy, hrx, -, -, hv⟩ := bulk_session_went hv
  refine ⟨c, y, a, b, rx, hc, hy, hrx, ?_, ?_⟩ <;> rw [hv] <;> rfl

end

/-! ### Command Layer operations of one session -/

theorem isOperation_of_commandLayer {i : Instr} (h : i.isCommandLayer = true) : i.isOperation = true := by
  cases i with
  | writeCommand _ _ | writeData _ | readData _ | readSingleWord | writePixels _ => rfl
  | _ => cases h

/-- Acceptance clears SUB, so a Command Layer operation does not depend on what SUB held (log 12). -/
theorem runOperation_sub {i : Instr} {s : State} (hc : i.isCommandLayer = true) (hb : s.busy = false) (m k : Nat) :
    runOperation k i { s with sub := m } = runOperation k i s := by
  have hbegin : State.begin i { s with sub := m } = s.begin i := by simp [State.begin, hc]
  have hexec : exec i { s with sub := m } = exec i s := by
    have hi := isOperation_of_commandLayer hc
    rw [exec_idle hi hb, exec_idle (s := { s with sub := m }) hi hb, accept, accept, hbegin]
  cases k with
  | zero => rfl
  | succ k => rw [runOperation, runOperation, hexec]

/-- A Command Layer operation of one session and the Transport operation of that session end in the same states, if they hand
over the same Words. -/
theorem commandLayer_iff (i j : Instr) {ses : Session} (hi : sessionsOf i = [ses]) (hj : sessionsOf j = [ses])
    (hci : i.isCommandLayer = true) (hcj : j.isCommandLayer = false)
    (hr : ∀ v : State, (readSession ses = true → v.res.length = sessionLength ses) → respondOk i v = respondOk j v)
    {s u : State} (hb : s.busy = false) :
    (∃ k, runOperation k i s = some u) ↔ ∃ k, runOperation k j { s with sub := 0 } = some u := by
  constructor
  · rintro ⟨k, h⟩
    exact same_session hi hj hr hb (by simp [hci]) (by simp [hcj]) k h
  · rintro ⟨k, h⟩
    obtain ⟨m, hm⟩ := same_session (s := { s with sub := 0 }) (s' := { s with sub := 0 }) hj hi
      (fun v hv => (hr v hv).symm) hb (by simp) (by simp) k h
    exact ⟨m, by rwa [runOperation_sub hci hb] at hm⟩

/-- READ_SINGLE_WORD hands over the one Word that its read has put into RES (42_command_layer.md R174). -/
theorem respondOk_readSingleWord {v : State} (p : Word) (h : v.res.length = 1) :
    respondOk .readSingleWord v = respondOk (.read p 1) v := by
  obtain ⟨w, hw⟩ := List.length_eq_one_iff.1 h
  simp [respondOk, hands, hw]

/-! ### The statements -/

/-- Settles O11: each of the three Words has its name, and the exchange sends its two bytes. -/
theorem preambleExchange_sendsTwoBytes : Obligations.PreambleExchange := by
  unfold Obligations.PreambleExchange
  exact ⟨preambleRuns_of_named rfl, preambleRuns_of_named rfl, preambleRuns_of_named rfl⟩

/-- Settles O33, from the frame of a read that ends with OK and the bytes of that frame. -/
theorem readFrameOnTheWire : Obligations.ReadFrameOnTheWire := by
  unfold Obligations.ReadFrameOnTheWire
  intro p n s u k hb h hu
  obtain ⟨c, y, a, b, d, rx, hc, hy, hrx, htrace, hresp⟩ := read_ok hb h hu
  exact ⟨c, y, a, b, d, rx, unpack (rx.drop 4), hc, hy, hrx, htrace, wireBytes_readFrame hrx, hresp,
    unpack_length n _ (by simp [hrx]), fun j hj => unpack_drop_getElem? hrx hj⟩

/-- Settles O34, from the frame of a write that ends with OK; only a read session has rows that keep a received byte. -/
theorem writeFrameOnTheWire : Obligations.WriteFrameOnTheWire := by
  unfold Obligations.WriteFrameOnTheWire
  intro p ws s u k hb h hu
  obtain ⟨c, y, a, b, rx, hc, hy, hrx, htrace, hresp⟩ := write_ok hb h hu
  have hwire := wireBytes_writeFrame (cfg := s.cfg) (c := c) (y := y) (p := p) (a := a) (b := b) hrx
  refine ⟨c, y, a, b, rx, hc, hy, hrx, htrace, by rw [hwire, pack_flatMap], ?total, hresp,
    drops_of_write rfl (by simp [sessionsOf, readSession])⟩
  case total => rw [hwire, List.length_append, length_pack]; rfl

/-- Settles O35, from the frame of a bulk write that ends with OK; only a read session has rows that keep a received byte. -/
theorem bulkFrameOnTheWire : Obligations.BulkFrameOnTheWire := by
  unfold Obligations.BulkFrameOnTheWire
  intro bs s u k hb h hu
  obtain ⟨c, y, a, b, rx, hc, hy, hrx, htrace, hresp⟩ := writeBulk_ok hb h hu
  have hwire := wireBytes_bulkFrame (cfg := s.cfg) (c := c) (y := y) (bs := bs) (a := a) (b := b) hrx
  refine ⟨c, y, a, b, rx, hc, hy, hrx, htrace, hwire, ?total, hresp, drops_of_write rfl (by simp [sessionsOf, readSession])⟩
  case total => rw [hwire, List.length_append]; rfl

/-- Settles O42: each operation runs the session of its expansion, and acceptance clears SUB. -/
theorem commandLayerExpands : Obligations.CommandLayerExpands := by
  unfold Obligations.CommandLayerExpands
  intro s u hb
  refine ⟨fun ws => ?writeData, fun n => ?readData, ?readSingleWord, fun ws => ?writePixels⟩
  case writeData => exact commandLayer_iff (.writeData ws) (.write preDataWrite ws) rfl rfl rfl rfl (fun _ _ => rfl) hb
  case readData => exact commandLayer_iff (.readData n) (.read preDataRead n) rfl rfl rfl rfl (fun _ _ => rfl) hb
  case readSingleWord =>
    exact commandLayer_iff .readSingleWord (.read preDataRead 1) rfl rfl rfl rfl
      (fun _ hv => respondOk_readSingleWord _ (hv rfl)) hb
  case writePixels => exact commandLayer_iff (.writePixels ws) (.writeBulk (pack ws)) rfl rfl rfl rfl (fun _ _ => rfl) hb

end Sys2Proof.Machine
end

section
/-!
SUPPORT. The lifecycle and the lines (40_lifecycle_and_lines.md): what acceptance answers, the bodies of OPEN, CLOSE, RESET_DEVICE
and WAIT_READY with the environment's answers given, and what their rows leave alone; then the theorems that settle O9, O13, O15,
O16, O17, O18, O19, O20, O52 and O53.
-/

namespace Sys2Proof.Machine

/-! ### Acceptance -/

theorem accept_refused {i : Instr} {s : State} {r : Refusal} (hv : offerValid i = true) (ha : admits i s.status = some r) :
    accept i s = .refused r := by rw [accept, if_pos hv, ha]

/-- Two roles on one pin are what `rolesDistinct` denies (30_encoding.md R73). -/
theorem rolesDistinct_of_shared {la : LineAssign} {p : Pin} (h : (la.ready = some p ∧ la.chipSelect = some p) ∨
    (la.ready = some p ∧ la.reset = some p) ∨ (la.chipSelect = some p ∧ la.reset = some p)) : la.rolesDistinct = false := by
  obtain ⟨hp, hq⟩ | ⟨hp, hq⟩ | ⟨hp, hq⟩ := h <;> simp [LineAssign.rolesDistinct, samePin, hp, hq]

/-- An operation that requires STATUS = OPEN and nothing else (40_lifecycle_and_lines.md R100). -/
theorem acceptance_iff_opened {i : Instr} {s : State} (hi : i.isOperation = true) (hb : s.busy = false)
    (hv : offerValid i = true) (ha : admits i s.status = if s.status = .opened then none else some .notOpened) :
    (s.status = .opened → exec i s = .next (s.accepted i)) ∧ (s.status ≠ .opened → exec i s = .refused .notOpened) := by
  refine ⟨fun hs => exec_accepts hi hb hv (ha.trans (if_pos hs)), fun hs => ?refused⟩
  rw [exec_idle hi hb, accept_refused hv (ha.trans (if_neg hs))]

/-- A step of an operation is its acceptance or a row of it in flight. -/
theorem operation_next {i : Instr} {s t : State} (hi : i.isOperation = true) (h : exec i s = .next t) :
    t = s.begin i ∨ rowOf i s = .next t := by
  obtain ⟨-, -, -, -, ht⟩ | ⟨-, -, -, hrow⟩ | ⟨-, hno, -⟩ := exec_cases h
  · exact .inl ht
  · exact .inr hrow
  · rw [hi] at hno; cases hno

/-! ### OPEN with the answer of `Init()` given -/

theorem evInit_answer {s : State} {ok : Bool} {answers : List Bool} (h : s.env.initAnswers = ok :: answers) :
    s.evInit = (ok, { s with trace := s.trace ++ [.init ok], env := { s.env with initAnswers := answers } }) := by
  simp [State.evInit, Env.takeInit, h, State.emit]

theorem ifAssigned_configureOutput (p : Option Pin) (s : State) : ifAssigned p configureOutput s = { s with
    pincfg := (ifAssigned p configureOutput s).pincfg
    trace := s.trace ++ p.toList.map fun c => .configurePin c .output } := by
  cases p <;> ext1 <;> simp [ifAssigned, configureOutput]

theorem ifAssigned_configureReady (p : Option Pin) (s : State) :
    ifAssigned p (fun y t => pullDown y (t.emit (.configurePin y .input))) s = { s with
      pincfg := (ifAssigned p (fun y t => pullDown y (t.emit (.configurePin y .input))) s).pincfg
      trace := s.trace ++ p.toList.flatMap fun y => [.configurePin y .input, .setPull y .down] } := by
  cases p <;> ext1 <;> simp [ifAssigned, pullDown]

theorem ifAssigned_csDeassert (p : Option Pin) (s : State) : ifAssigned p State.csDeassert s = { s with
    csOut := if p.isSome then some .deasserted else s.csOut
    trace := s.trace ++ p.toList.map fun c => deassertEvent s.cfg c } := by
  cases p <;> ext1 <;> simp [ifAssigned, deassertEvent]

/-- OPEN goes through its roles one after the other once `Init()` has answered true. -/
theorem openProc_initTrue {la : LineAssign} {s : State} {answers : List Bool} (hp : s.pincfg = [])
    (h : s.env.initAnswers = true :: answers) :
    openProc la s = .went { s with
      status := .opened
      la := la
      csOut := if la.chipSelect.isSome then some .deasserted else s.csOut
      pincfg := pinsOpen la
      spicfg := serialMode s.cfg
      trace := s.trace ++ openEvents s.cfg la
      env := { s.env with initAnswers := answers } } := by
  rw [openProc, evInit_answer h]
  simp only [if_true]
  rw [ifAssigned_configureOutput la.chipSelect, configureChipSelect_pincfg (by simpa using hp),
    ifAssigned_configureOutput la.reset, configureReset_pincfg rfl,
    ifAssigned_configureReady, configureReady_pincfg rfl, ifAssigned_csDeassert]
  congr 1
  ext1 <;> simp [openEvents, serialMode]

theorem openProc_initFalse {la : LineAssign} {s : State} {answers : List Bool} (h : s.env.initAnswers = false :: answers) :
    openProc la s = .raised .initializationError 0
      { s with trace := s.trace ++ [.init false], env := { s.env with initAnswers := answers } } := by
  rw [openProc, evInit_answer h]
  rfl

/-- An idle block that is not open drives no line and has no pin configured (10_state.md R24, R34). -/
theorem Inv.unopened_rest {s : State} (h : Inv s) (hb : s.busy = false) (hs : s.status = .unopened) :
    s.csOut = none ∧ s.pincfg = [] := by
  constructor
  · rw [h.cs, h.idle_iff.1 hb]; simp [csSpan, csAtRest, hs]
  · rw [h.pins]; simp [pinsExpected, h.op_iff.1 hb, pinsAtRest, hs]

/-! ### The `Close()` event -/

/-- S_CLOSE is a phase of CLOSE alone (41_transport_transfers.md R145). -/
theorem Inv.closeOp_of_close {i : Instr} {s : State} (h : Inv s) (ho : s.op = some i) (hp : s.ph = .close) :
    i = .closeOp ∧ s.status = .opened := by
  have hf := h.flight i ho
  cases i with
  | closeOp =>
    obtain hph | ⟨-, hst⟩ | ⟨hph, -⟩ := hf
    · simp [hp] at hph
    · exact ⟨rfl, hst⟩
    · simp [hp] at hph
  | openOp la =>
    obtain ⟨-, hf⟩ := hf
    simp [OpenPhase, hp] at hf
  | resetDevice =>
    obtain ⟨-, hf⟩ := hf
    simp [hp] at hf
  | waitReady =>
    obtain ⟨-, hf⟩ := hf
    simp [hp] at hf
  | preambleWriteData | preambleReadData | preambleWriteCommand => exact hf.elim
  | _ =>
    obtain ⟨-, ses, -, hf⟩ := hf
    simp [SessionPhase, hp] at hf

theorem PhaseEvent.ph_of_close {i : Instr} {s : State} (h : PhaseEvent i s .close) : s.ph = .close := by
  cases hp : s.ph <;> simp [PhaseEvent, hp] at h
  rfl

/-- A step outside S_CLOSE neither enters STATUS = CLOSED nor leaves it. -/
theorem Inv.closed_iff {i : Instr} {s t : State} (h : Inv s) (he : exec i s = .next t) (hp : s.ph ≠ .close) :
    t.status = .closed ↔ s.status = .closed := by
  obtain hkept | ⟨la, rfl, ho, hrow⟩ | ⟨rfl, ho, hrow⟩ := exec_lifecycle he
  · rw [hkept.status]
  · obtain ⟨-, hf⟩ : la.rolesDistinct = true ∧ OpenPhase la s := h.flight _ ho
    obtain ⟨-, ⟨hst, -⟩ | ⟨hs, ht, -⟩⟩ := openRow_lifecycle hf hrow
    · rw [hst]
    · simp [hs, ht]
  · obtain rfl | rfl | ⟨hph, -⟩ | ⟨-, rfl⟩ := closeRow_move hrow
    · simp
    · simp
    · exact absurd hph hp
    · simp [respondPlain]

/-- The step of S_CLOSE appends `Close()` and closes an open block; every other step does neither. -/
theorem Inv.close_event {i : Instr} {s t : State} (h : Inv s) (ho : s.op = some i) (he : exec i s = .next t) :
    (s.status = .opened ∧ t.status = .closed ∧ t.trace = s.trace ++ [.close]) ∨
    ((t.status = .closed ↔ s.status = .closed) ∧ t.trace.count .close = s.trace.count .close) := by
  by_cases hp : s.ph = .close
  · left
    obtain ⟨rfl, hst⟩ := h.closeOp_of_close ho hp
    have hrow : closeRow s = .next t := (exec_busy rfl (h.busy_of_op ho) ho).symm.trans he
    obtain rfl : closeRelease s = t := by simpa [closeRow, hp] using hrow
    exact ⟨hst, rfl, rfl⟩
  · right
    refine ⟨h.closed_iff he hp, ?count⟩
    obtain ⟨-, hevent⟩ := h.stepOk ho he
    split at hevent
    · rw [hevent]
    · obtain ⟨e, htrace, hphase⟩ := hevent
      have hne : e ≠ .close := fun hclose => hp (hclose ▸ hphase).ph_of_close
      simp [htrace, hne]

/-! ### The rows of RESET_DEVICE and WAIT_READY -/

/-- The datapath registers (10_state.md R27, R32), the host's stream and the bytes to come: what only a transfer writes. -/
structure DatapathKept (s t : State) : Prop where
  pre : t.pre = s.pre
  n : t.n = s.n
  idx : t.idx = s.idx
  rxh : t.rxh = s.rxh
  sub : t.sub = s.sub
  res : t.res = s.res
  host : t.host = s.host
  rxBytes : t.env.rxBytes = s.env.rxBytes

theorem DatapathKept.of_resetRow {s t : State} (h : resetRow s = .next t) : DatapathKept s t := by
  obtain rfl | rfl | ⟨r, -, rfl | rfl⟩ | rfl | ⟨-, rfl⟩ := resetRow_move h <;> constructor <;> simp [respondPlain]

theorem DatapathKept.of_waitReadyRow {s t : State} (h : waitReadyRow s = .next t) : DatapathKept s t := by
  obtain rfl | rfl | ⟨y, -, rfl | rfl | rfl⟩ | ⟨-, rfl⟩ := waitReadyRow_move h <;> constructor <;> simp [respondPlain]

theorem resetRow_outside {s t : State} (h : resetRow s = .next t) : t.csOut = s.csOut ∧ t.polls = s.polls ∧ t.env = s.env := by
  obtain rfl | rfl | ⟨r, -, rfl | rfl⟩ | rfl | ⟨-, rfl⟩ := resetRow_move h <;> exact ⟨rfl, rfl, rfl⟩

theorem waitReadyRow_outside {s t : State} (h : waitReadyRow s = .next t) :
    t.csOut = s.csOut ∧ t.rstOut = s.rstOut ∧ t.env.initAnswers = s.env.initAnswers := by
  obtain rfl | rfl | ⟨y, -, rfl | rfl | rfl⟩ | ⟨-, rfl⟩ := waitReadyRow_move h <;> simp [respondPlain]

/-- RESET_DEVICE writes the reset pin, holds it, and performs no other event (40_lifecycle_and_lines.md R107). -/
theorem resetRow_event {s t : State} {e : Event} (h : resetRow s = .next t) (ht : t.trace = s.trace ++ [e]) :
    e = .hold tResetHold ∨ ∃ r l, s.la.reset = some r ∧ e = .writePin r l := by
  obtain rfl | rfl | ⟨r, hr, rfl | rfl⟩ | rfl | ⟨-, rfl⟩ := resetRow_move h <;> simp [respondPlain] at ht
  · exact .inr ⟨r, _, hr, ht.symm⟩
  · exact .inr ⟨r, _, hr, ht.symm⟩
  · exact .inl ht.symm

/-- WAIT_READY samples the ready pin and performs no other event (40_lifecycle_and_lines.md R108). -/
theorem waitReadyRow_event {s t : State} {e : Event} (h : waitReadyRow s = .next t) (ht : t.trace = s.trace ++ [e]) :
    ∃ y l, e = .readPin y l := by
  obtain rfl | rfl | ⟨y, -, rfl | rfl | rfl⟩ | ⟨-, rfl⟩ := waitReadyRow_move h <;> simp [respondPlain] at ht
  all_goals exact ⟨y, _, ht.symm⟩

/-- The reset pin of a valid assignment is not its chip-select pin (30_encoding.md R73). -/
theorem rolesDistinct_reset {la : LineAssign} {c r : Pin} (h : la.rolesDistinct = true) (hc : la.chipSelect = some c)
    (hr : la.reset = some r) : c ≠ r := by
  rintro rfl
  rw [rolesDistinct_of_shared (.inr (.inr ⟨hc, hr⟩))] at h
  cases h

/-! ### The rows of OPEN and CLOSE -/

theorem DatapathKept.of_openRow {la : LineAssign} {s t : State} (h : openRow la s = .next t) : DatapathKept s t := by
  cases openRow_move h with
  | start | initFails | respond _ => constructor <;> simp [respondPlain]
  | phase u p hu =>
    obtain rfl | ⟨q, -, rfl⟩ | ⟨y, -, rfl⟩ | ⟨y, -, rfl⟩ := hu <;> constructor <;> simp [configureOutput, pullDown]
  | finish u _ hu =>
    obtain rfl | ⟨q, -, rfl⟩ | ⟨y, -, rfl⟩ | ⟨c, -, rfl⟩ := hu <;> constructor <;>
      simp [openEnd, configureOutput, pullDown]

theorem DatapathKept.of_closeRow {s t : State} (h : closeRow s = .next t) : DatapathKept s t := by
  obtain rfl | rfl | ⟨-, rfl⟩ | ⟨-, rfl⟩ := closeRow_move h <;> constructor <;> simp [closeRelease, respondPlain]

theorem openRow_outside {la : LineAssign} {s t : State} (h : openRow la s = .next t) :
    t.cfg = s.cfg ∧ t.polls = s.polls ∧ t.rstOut = s.rstOut ∧ t.env.readyLevels = s.env.readyLevels := by
  cases openRow_move h with
  | start | initFails | respond _ => simp [respondPlain]
  | phase u p hu =>
    obtain rfl | ⟨q, -, rfl⟩ | ⟨y, -, rfl⟩ | ⟨y, -, rfl⟩ := hu <;> simp [configureOutput, pullDown]
  | finish u _ hu =>
    obtain rfl | ⟨q, -, rfl⟩ | ⟨y, -, rfl⟩ | ⟨c, -, rfl⟩ := hu <;> simp [openEnd, configureOutput, pullDown]

theorem closeRow_outside {s t : State} (h : closeRow s = .next t) :
    t.cfg = s.cfg ∧ t.polls = s.polls ∧ t.env = s.env ∧ (t.rstOut = s.rstOut ∨ t.rstOut = none) := by
  obtain rfl | rfl | ⟨-, rfl⟩ | ⟨-, rfl⟩ := closeRow_move h <;> simp [closeRelease, respondPlain]

/-- OPEN calls `Init()`, configures pins, and writes no pin but chip-select (40_lifecycle_and_lines.md R103). -/
theorem openRow_event {la : LineAssign} {s t : State} {e : Event} (h : openRow la s = .next t)
    (ht : t.trace = s.trace ++ [e]) :
    (∃ ok, e = .init ok) ∨ (∃ p d, e = .configurePin p d) ∨ (∃ p m, e = .setPull p m) ∨
      ∃ c l, la.chipSelect = some c ∧ e = .writePin c l := by
  cases openRow_move h with
  | start | respond _ => simp [respondPlain] at ht
  | initFails =>
    simp at ht
    exact .inl ⟨_, ht.symm⟩
  | phase u p hu =>
    obtain rfl | ⟨q, -, rfl⟩ | ⟨y, -, rfl⟩ | ⟨y, -, rfl⟩ := hu <;> simp [configureOutput, pullDown] at ht
    · exact .inl ⟨_, ht.symm⟩
    · exact .inr (.inl ⟨_, _, ht.symm⟩)
    · exact .inr (.inr (.inl ⟨_, _, ht.symm⟩))
    · exact .inr (.inl ⟨_, _, ht.symm⟩)
  | finish u _ hu =>
    obtain rfl | ⟨q, -, rfl⟩ | ⟨y, -, rfl⟩ | ⟨c, hc, rfl⟩ := hu <;> simp [configureOutput, pullDown] at ht
    · exact .inl ⟨_, ht.symm⟩
    · exact .inr (.inl ⟨_, _, ht.symm⟩)
    · exact .inr (.inr (.inl ⟨_, _, ht.symm⟩))
    · exact .inr (.inr (.inr ⟨c, _, hc, ht.symm⟩))

theorem closeRow_event {s t : State} {e : Event} (h : closeRow s = .next t) (ht : t.trace = s.trace ++ [e]) : e = .close := by
  obtain rfl | rfl | ⟨-, rfl⟩ | ⟨-, rfl⟩ := closeRow_move h <;> simp [closeRelease, respondPlain] at ht
  exact ht.symm

/-! ### The statements -/

/-- Settles O9: OPEN by its roles and STATUS, CLOSE always, and the other ten by STATUS = OPEN. -/
theorem acceptanceIsExact : Obligations.AcceptanceIsExact := by
  unfold Obligations.AcceptanceIsExact
  intro i s hi hb
  cases i with
  | openOp la =>
    refine ⟨?shared, ?accepted, ?notUnopened⟩
    case shared =>
      rintro ⟨p, hp⟩
      rw [exec_idle hi hb, accept, if_neg (by simp [offerValid, rolesDistinct_of_shared hp])]
    case accepted => exact fun hd hs => exec_accepts hi hb hd (if_pos hs)
    case notUnopened =>
      intro hd hs
      rw [exec_idle hi hb, accept_refused (i := .openOp la) hd (if_neg hs)]
  | closeOp => exact exec_accepts hi hb rfl rfl
  | preambleWriteData | preambleReadData | preambleWriteCommand => cases hi
  | _ => exact acceptance_iff_opened hi hb rfl rfl

/-- Settles O13, from the body of OPEN with `Init()` true; the idle block has no pin configured and drives no line. -/
theorem openAcquiresAndConfigures : Obligations.OpenAcquiresAndConfigures := by
  unfold Obligations.OpenAcquiresAndConfigures
  intro la s answers hinv hb hs hd ha
  obtain ⟨hcs, hpins⟩ := hinv.unopened_rest hb hs
  refine operation_completes (fuel := 0) rfl hb hd (if_pos hs) (openProc_initTrue hpins ha) ?_
  simp only [State.begin_csOut, hcs]
  rfl

/-- Settles O15: the body of OPEN with `Init()` false, and of the ways an operation ends the one with that error. -/
theorem openFailsExactlyWhenInitFails : Obligations.OpenFailsExactlyWhenInitFails := by
  unfold Obligations.OpenFailsExactlyWhenInitFails
  refine ⟨?fails, ?only⟩
  case fails =>
    intro la s answers hb hs hd ha
    exact operation_fails (fuel := 0) rfl hb hd (if_pos hs) (openProc_initFalse ha) rfl
  case only =>
    intro i s u k hi hb h
    obtain ⟨herr, -, hopen⟩ | ⟨herr, hopen, htrace⟩ | ⟨herr, hrole⟩ | ⟨herr, hwaits, -⟩ := ends_cases hi hb h
    · refine ⟨fun hu => by simp [herr] at hu, ?_⟩
      rintro ⟨⟨la, rfl⟩, htrace⟩
      obtain ⟨es, hes⟩ := hopen la rfl
      simp [htrace] at hes
    · exact ⟨fun _ => ⟨hopen, htrace⟩, fun _ => herr⟩
    · refine ⟨fun hu => by simp [herr] at hu, ?_⟩
      rintro ⟨⟨la, rfl⟩, -⟩
      exact absurd rfl hrole
    · refine ⟨fun hu => by simp [herr] at hu, ?_⟩
      rintro ⟨⟨la, rfl⟩, -⟩
      obtain hw | ht := hwaits
      · cases hw
      · exact absurd rfl (isTransfer_not_open ht la)

/-- Settles O16: the body of CLOSE on an open block and on any other. -/
theorem closeReleasesOnce : Obligations.CloseReleasesOnce := by
  unfold Obligations.CloseReleasesOnce
  intro s hb
  refine ⟨exec_accepts rfl hb rfl rfl, fun hs => ?opened, fun hs => ?other⟩
  case opened => exact (operation_completes (i := .closeOp) (fuel := 0) rfl hb rfl rfl (if_pos hs) rfl).2
  case other => exact (operation_completes (i := .closeOp) (fuel := 0) rfl hb rfl rfl (if_neg hs) rfl).2

/-- Settles O17: only S_CLOSE performs `Close()`, and it takes an open block to CLOSED. -/
theorem closeEventAtMostOnce : Obligations.CloseEventAtMostOnce := by
  unfold Obligations.CloseEventAtMostOnce
  refine ⟨rfl, fun s t h hcount hs => ?_⟩
  cases ho : s.op with
  | none =>
    have hb : s.busy = false := h.op_iff.2 ho
    obtain ⟨i, items, he, -⟩ := step_cases hs
    have hclosed : t.status = .closed ↔ s.status = .closed :=
      (h.host items).closed_iff he (by simp [h.idle_iff.1 hb])
    rw [step_idle_trace hb hs, hcount]
    simp only [hclosed]
  | some i =>
    obtain ⟨hst, ht, htrace⟩ | ⟨hclosed, htrace⟩ := h.close_event ho ((h.step_eq_exec ho).symm.trans hs)
    · simp [htrace, hcount, hst, ht]
    · rw [htrace, hcount]
      simp only [hclosed]

/-- Settles O18, from the body of RESET_DEVICE. -/
theorem resetDevicePulsesTheResetLine : Obligations.ResetDevicePulsesTheResetLine := by
  unfold Obligations.ResetDevicePulsesTheResetLine
  intro s r hb hs hr
  have hbody : resetProc (s.begin .resetDevice) = .went ((((s.begin .resetDevice).driveReset r resetAssertLevel).emit
      (.hold tResetHold)).driveReset r resetAssertLevel.flip) := by simp [resetProc, hr]
  refine operation_completes (fuel := 0) rfl hb rfl (if_pos hs) hbody ?_
  ext1 <;> simp [respondOk, hands, State.answered, Level.flip, Instr.isCommandLayer, ErrKind.code]

/-- Settles O19: the wait of WAIT_READY with its answers given. -/
theorem waitReadyEndsAtTheFirstHigh : Obligations.WaitReadyEndsAtTheFirstHigh := by
  unfold Obligations.WaitReadyEndsAtTheFirstHigh
  intro s y a levels hb hs hy hl ha
  have hbody : waitReadyOp (a + 1) (s.begin .waitReady) = waitReadyProc (a + 1) y (s.begin .waitReady) := by
    simp [waitReadyOp, hy]
  exact operation_completes (fuel := a + 1) rfl hb rfl (if_pos hs)
    (hbody.trans (waitReadyProc_answers (Nat.lt_succ_self a) ha hl)) rfl

/-- Settles O20: the wait of WAIT_READY with LOW answers up to the limit. -/
theorem waitReadyGivesUpAtTheLimit : Obligations.WaitReadyGivesUpAtTheLimit := by
  unfold Obligations.WaitReadyGivesUpAtTheLimit
  intro s y limit levels hb hs hy hl hpos ha
  obtain ⟨m, rfl⟩ := Nat.exists_eq_succ_of_ne_zero (Nat.one_le_iff_ne_zero.1 hpos)
  have hbody : waitReadyOp (m + 1) (s.begin .waitReady) = waitReadyProc (m + 1) y (s.begin .waitReady) := by
    simp [waitReadyOp, hy]
  exact (operation_fails (i := .waitReady) (fuel := m + 1) rfl hb rfl (if_pos hs)
    (hbody.trans (waitReadyProc_gives_up (Nat.le_refl _) ha hl)) rfl).2

/-- Settles O52, row by row: RESET_DEVICE writes the reset pin alone, WAIT_READY only samples. -/
theorem lineOperationsLeaveTheRestAlone : Obligations.LineOperationsLeaveTheRestAlone := by
  unfold Obligations.LineOperationsLeaveTheRestAlone
  rintro i s t (rfl | rfl) he
  case inl =>
    obtain rfl | hrow := operation_next rfl he
    · simp [Instr.isCommandLayer]
    · have hl := LifecycleKept.of_resetRow hrow
      have hd := DatapathKept.of_resetRow hrow
      obtain ⟨hcs, hpolls, henv⟩ := resetRow_outside hrow
      refine ⟨hl.cfg, hl.status, hl.la, hcs, hl.pincfg, hl.spicfg, hd.pre, hd.n, hd.idx, hd.rxh, hd.sub, hd.res, hd.host,
        by rw [henv], hd.rxBytes, fun hi => (by cases hi), fun _ => ⟨hpolls, henv⟩, fun e ht => ?_⟩
      obtain rfl | ⟨r, l, hr, rfl⟩ := resetRow_event hrow ht
      · exact ⟨rfl, fun _ _ _ => rfl⟩
      · exact ⟨rfl, fun c hc hdist => beq_false_of_ne (rolesDistinct_reset hdist hc hr).symm⟩
  case inr =>
    obtain rfl | hrow := operation_next rfl he
    · simp [Instr.isCommandLayer]
    · have hl := LifecycleKept.of_waitReadyRow hrow
      have hd := DatapathKept.of_waitReadyRow hrow
      obtain ⟨hcs, hrst, hinit⟩ := waitReadyRow_outside hrow
      refine ⟨hl.cfg, hl.status, hl.la, hcs, hl.pincfg, hl.spicfg, hd.pre, hd.n, hd.idx, hd.rxh, hd.sub, hd.res, hd.host,
        hinit, hd.rxBytes, fun _ => hrst, fun hi => (by cases hi), fun e ht => ?_⟩
      obtain ⟨y, l, rfl⟩ := waitReadyRow_event hrow ht
      exact ⟨rfl, fun _ _ _ => rfl⟩

/-- Settles O53, row by row: OPEN writes no pin but chip-select, CLOSE performs `Close()` alone. -/
theorem lifecycleLeavesTheRestAlone : Obligations.LifecycleLeavesTheRestAlone := by
  unfold Obligations.LifecycleLeavesTheRestAlone
  rintro i s t (⟨la, rfl⟩ | rfl) he
  case inl =>
    obtain rfl | hrow := operation_next rfl he
    · simp [Instr.isCommandLayer]
    · have hd := DatapathKept.of_openRow hrow
      obtain ⟨hcfg, hpolls, hrst, hlevels⟩ := openRow_outside hrow
      refine ⟨hcfg, hd.pre, hd.n, hd.idx, hd.rxh, hpolls, hd.sub, hd.res, hd.host, hlevels, hd.rxBytes, .inl hrst,
        fun e ht => ?_⟩
      obtain ⟨ok, rfl⟩ | ⟨p, d, rfl⟩ | ⟨p, m, rfl⟩ | ⟨c, l, hc, rfl⟩ := openRow_event hrow ht
      case inr.inr.inr =>
        refine ⟨rfl, by simp, fun la' r hla hdist hr => ?_⟩
        cases hla
        exact beq_false_of_ne (rolesDistinct_reset hdist hc hr)
      all_goals exact ⟨rfl, by simp, fun _ _ _ _ _ => rfl⟩
  case inr =>
    obtain rfl | hrow := operation_next rfl he
    · simp [Instr.isCommandLayer]
    · have hd := DatapathKept.of_closeRow hrow
      obtain ⟨hcfg, hpolls, henv, hrst⟩ := closeRow_outside hrow
      refine ⟨hcfg, hd.pre, hd.n, hd.idx, hd.rxh, hpolls, hd.sub, hd.res, hd.host, by rw [henv], hd.rxBytes,
        hrst.imp_right fun h => ⟨rfl, h⟩, fun e ht => ?_⟩
      obtain rfl := closeRow_event hrow ht
      exact ⟨rfl, by simp, fun _ _ hi => by cases hi⟩

end Sys2Proof.Machine
end

section
/-!
SUPPORT. The transfers (41_transport_transfers.md): what their frames count and where chip-select stands in a session, what the
bulk path sends, runs that differ in dropped bytes, what a transfer leaves alone, and the agreement of the two forms of an
operation; then the theorems that settle O25, O26, O27, O36, O37, O38, O39, O40, O41, O48, O51 and O59.
-/

namespace Sys2Proof.Machine

/-! ### What a frame counts -/

/-- The Transport transfers (41_transport_transfers.md R135, R137, R139). -/
theorem transport_cases {i : Instr} (h : isTransportTransfer i = true) :
    (∃ p n, i = .read p n) ∨ (∃ p ws, i = .write p ws) ∨ ∃ bs, i = .writeBulk bs := by
  cases i with
  | read p n => exact .inl ⟨p, n, rfl⟩
  | write p ws => exact .inr (.inl ⟨p, ws, rfl⟩)
  | writeBulk bs => exact .inr (.inr ⟨bs, rfl⟩)
  | _ => cases h

/-- `es` holds `writes` pin writes, `xfers` byte exchanges, `bulks` bulk exchanges and `highs` HIGH samples. -/
def Counts (es : List Event) (writes xfers bulks highs : Nat) : Prop :=
  es.countP isWrite = writes ∧ es.countP isXfer = xfers ∧ es.countP isBulk = bulks ∧ es.countP isHigh = highs

theorem Counts.append {es fs : List Event} {w w' x x' b b' h h' : Nat} (hes : Counts es w x b h) (hfs : Counts fs w' x' b' h') :
    Counts (es ++ fs) (w + w') (x + x') (b + b') (h + h') := by
  obtain ⟨rfl, rfl, rfl, rfl⟩ := hes
  obtain ⟨rfl, rfl, rfl, rfl⟩ := hfs
  exact ⟨List.countP_append, List.countP_append, List.countP_append, List.countP_append⟩

theorem Counts.wait (y : Pin) (a : Nat) : Counts (waitEvents y a) 0 0 0 1 := count_wait y a

theorem Counts.assert (cfg : Config) (c : Pin) : Counts [assertEvent cfg c] 1 0 0 0 := ⟨rfl, rfl, rfl, rfl⟩

theorem Counts.deassert (cfg : Config) (c : Pin) : Counts [deassertEvent cfg c] 1 0 0 0 := ⟨rfl, rfl, rfl, rfl⟩

theorem Counts.bulk (bs : List Byte) : Counts [.xferBulk bs] 0 0 1 0 := ⟨rfl, rfl, rfl, rfl⟩

/-- With a received byte for each byte sent, every byte is one exchange. -/
theorem Counts.xfers {tx rx : List Byte} {k : Nat} (hk : tx.length = k) (h : k ≤ rx.length) :
    Counts (xferEvents tx rx) 0 k 0 0 := by
  have := count_xfers tx rx
  rwa [hk, min_eq_left h] at this

section
variable (cfg : Config) (c y : Pin) (p : Word) (a b d : Nat) {rx : List Byte}

theorem Counts.frameHead (h : 2 ≤ rx.length) : Counts (frameHead cfg c y p a b rx) 1 2 0 2 :=
  (((Counts.wait y a).append (.assert cfg c)).append (.xfers (tx := [hi p, lo p]) rfl h)).append (.wait y b)

theorem Counts.writeFrame {ws : List Word} (h : rx.length = 2 + 2 * ws.length) :
    Counts (writeFrame cfg c y p ws a b rx) 2 (2 + 2 * ws.length) 0 2 :=
  ((Counts.frameHead cfg c y p a b (by omega)).append (.xfers (length_pack ws) (by simp [h]))).append (.deassert cfg c)

theorem Counts.bulkFrame (bs : List Byte) (h : rx.length = 2) : Counts (bulkFrame cfg c y bs a b rx) 2 2 1 2 :=
  ((Counts.frameHead cfg c y preDataWrite a b h.ge).append (.bulk bs)).append (.deassert cfg c)

theorem Counts.readFrame {n : Nat} (h : rx.length = 4 + 2 * n) : Counts (readFrame cfg c y p n a b d rx) 2 (4 + 2 * n) 0 3 :=
  ((((Counts.frameHead cfg c y p a b (by omega)).append (.xfers (tx := [0x00#8, 0x00#8]) rfl (by simp [h]; omega))).append
    (.wait y d)).append (.xfers List.length_replicate (by simp [h]))).append (.deassert cfg c)

end

/-! ### Where chip-select stands in a session -/

/-- Only samples of the ready pin `y` and serial events: what may stand between the assertion and the deassertion. -/
def InsideSession (y : Pin) (es : List Event) : Prop := ∀ e ∈ es, (∃ l, e = .readPin y l) ∨ e.isSerial = true

theorem InsideSession.append {y : Pin} {es fs : List Event} (h : InsideSession y es) (g : InsideSession y fs) :
    InsideSession y (es ++ fs) := fun e he => (List.mem_append.1 he).elim (h e) (g e)

theorem InsideSession.wait (y : Pin) (a : Nat) : InsideSession y (waitEvents y a) := fun e he => .inl (wait_all y a e he)

theorem InsideSession.low (y : Pin) (m : Nat) : InsideSession y (lowEvents y m) := fun e he => .inl ⟨.low, low_all y m e he⟩

theorem InsideSession.xfers (y : Pin) (tx rx : List Byte) : InsideSession y (xferEvents tx rx) :=
  fun e he => .inr (xfers_serial tx rx e he)

theorem InsideSession.bulk (y : Pin) (bs : List Byte) : InsideSession y [.xferBulk bs] := by
  intro e he
  obtain rfl := List.mem_singleton.1 he
  exact .inr rfl

/-- A wait that ends HIGH, the assertion of chip-select `c`, the session, and the deassertion last (41_transport_transfers.md
R142). -/
def OneSession (cfg : Config) (c y : Pin) (es : List Event) : Prop :=
  ∃ before between, es = before ++ [assertEvent cfg c] ++ between ++ [deassertEvent cfg c] ∧
    (∀ e ∈ before, ∃ l, e = .readPin y l) ∧ before.getLast? = some (.readPin y .high) ∧ InsideSession y between

section
variable (cfg : Config) (c y : Pin) (a : Nat)

theorem oneSession_of_inside {between : List Event} (h : InsideSession y between) :
    OneSession cfg c y (waitEvents y a ++ [assertEvent cfg c] ++ between ++ [deassertEvent cfg c]) :=
  ⟨_, _, rfl, wait_all y a, wait_last y a, h⟩

theorem oneSession_of_frameHead (p : Word) (b : Nat) (rx : List Byte) {payload : List Event} (h : InsideSession y payload) :
    OneSession cfg c y (frameHead cfg c y p a b rx ++ payload ++ [deassertEvent cfg c]) := by
  have := oneSession_of_inside cfg c y a (((InsideSession.xfers y [hi p, lo p] rx).append (.wait y b)).append h)
  simpa only [frameHead, List.append_assoc] using this

theorem oneSession_of_readFrame (p : Word) (n b d : Nat) (rx : List Byte) :
    OneSession cfg c y (readFrame cfg c y p n a b d rx) := by
  have := oneSession_of_frameHead cfg c y a p b rx
    (((InsideSession.xfers y [0x00#8, 0x00#8] (rx.drop 2)).append (.wait y d)).append (.xfers y (List.replicate (2 * n) 0x00#8) (rx.drop 4)))
  simpa only [readFrame, List.append_assoc] using this

theorem oneSession_of_writeFrame (p : Word) (ws : List Word) (b : Nat) (rx : List Byte) :
    OneSession cfg c y (writeFrame cfg c y p ws a b rx) := oneSession_of_frameHead cfg c y a p b rx (.xfers y _ _)

theorem oneSession_of_bulkFrame (bs : List Byte) (b : Nat) (rx : List Byte) : OneSession cfg c y (bulkFrame cfg c y bs a b rx) :=
  oneSession_of_frameHead cfg c y a preDataWrite b rx (.bulk y bs)

end

theorem session_went_oneSession {fuel : Nat} {ses : Session} {s t : State} (h : sessionProc fuel ses s = .went t) :
    ∃ c y es, s.la.chipSelect = some c ∧ s.la.ready = some y ∧ t.trace = s.trace ++ es ∧ OneSession s.cfg c y es := by
  cases ses with
  | read p n =>
    obtain ⟨c, y, a, b, d, rx, hc, hy, -, -, -, -, ht⟩ := read_session_went h
    exact ⟨c, y, _, hc, hy, by rw [ht], oneSession_of_readFrame ..⟩
  | write p ws =>
    obtain ⟨c, y, a, b, rx, hc, hy, -, -, -, ht⟩ := write_session_went h
    exact ⟨c, y, _, hc, hy, by rw [ht], oneSession_of_writeFrame ..⟩
  | bulk bs =>
    obtain ⟨c, y, a, b, rx, hc, hy, -, -, -, ht⟩ := bulk_session_went h
    exact ⟨c, y, _, hc, hy, by rw [ht], oneSession_of_bulkFrame ..⟩

/-- A session that fails before the assertion has taken LOW samples only; later it deasserts chip-select. -/
theorem session_raised_events {fuel info : Nat} {ses : Session} {s t : State} {e : ErrKind}
    (h : sessionProc fuel ses s = .raised e info t) : ∃ es, t.trace = s.trace ++ es ∧
      ((∀ e ∈ es, ∃ y, s.la.ready = some y ∧ e = .readPin y .low) ∨
       ∃ c y, s.la.chipSelect = some c ∧ s.la.ready = some y ∧ OneSession s.cfg c y es) := by
  obtain ⟨-, -, -, rfl⟩ | ⟨-, -, -, -, rfl⟩ |
    ⟨c, y, limit, m, hc, hy, -, -, -, -, ht | ⟨a, rx, -, ht⟩ | ⟨-, a, b, rx, -, ht⟩⟩ := session_raised h
  · exact ⟨[], by simp, .inl (by simp)⟩
  · exact ⟨[], by simp, .inl (by simp)⟩
  · exact ⟨_, by rw [ht], .inl fun e he => ⟨y, hy, low_all y m e he⟩⟩
  · refine ⟨_, by rw [ht], .inr ⟨c, y, hc, hy, ?_⟩⟩
    have := oneSession_of_inside s.cfg c y a
      ((InsideSession.xfers y [hi (sessionPreamble ses), lo (sessionPreamble ses)] rx).append (.low y m))
    simpa only [List.append_assoc] using this
  · refine ⟨_, by rw [ht], .inr ⟨c, y, hc, hy, ?_⟩⟩
    have := oneSession_of_frameHead s.cfg c y a (sessionPreamble ses) b rx
      ((InsideSession.xfers y [0x00#8, 0x00#8] (rx.drop 2)).append (.low y m))
    simpa only [List.append_assoc] using this

/-! ### The bulk path and the word path -/

/-- What an operation of one bulk session that ends with OK has put on the wire. -/
theorem bulk_ok {i : Instr} {bs : List Byte} {s u : State} {k : Nat} (h1 : sessionsOf i = [.bulk bs]) (hb : s.busy = false)
    (h : runOperation k i s = some u) (hu : u.err = .ok) :
    ∃ c y a b rx, rx.length = 2 ∧ u.trace = s.trace ++ bulkFrame s.cfg c y bs a b rx := by
  obtain ⟨-, v, hv, rfl⟩ := one_ok h1 hb h hu
  obtain ⟨c, y, a, b, rx, -, -, hrx, -, -, hv⟩ := bulk_session_went hv
  exact ⟨c, y, a, b, rx, hrx, (respondOk_trace i v).trans (by rw [hv]; rfl)⟩

/-! ### Dropped bytes -/

/-- The response does not look at the received bytes. -/
theorem Sim.respond {n : Nat} {s s' : State} (h : Sim n s s') (e : ErrKind) (info : Nat) (r : List Word) :
    Sim n (s.respond e info r) (s'.respond e info r) := h.quiet (State.respond e info r) (fun _ _ _ => rfl) rfl rfl

theorem respondOk_swap (i : Instr) (tr : List Event) (b : List Byte) (s : State) :
    respondOk i (State.swap tr b s) = State.swap tr b (respondOk i s) := by
  have hres : (State.swap tr b s).res = s.res := rfl
  cases hh : hands i <;> simp only [respondOk, hh, hres]
  case first => cases s.res <;> rfl
  all_goals rfl

/-- The last line of an operation is a response. -/
theorem respondOk_responds (i : Instr) (s : State) : ∃ e r, respondOk i s = s.respond e 0 r := by
  cases hh : hands i <;> simp only [respondOk, hh]
  case first => cases s.res <;> exact ⟨_, _, rfl⟩
  all_goals exact ⟨_, _, rfl⟩

theorem Sim.respondOk {n : Nat} {s s' : State} (h : Sim n s s') (i : Instr) : Sim n (respondOk i s) (respondOk i s') := by
  obtain ⟨e, r, hresp⟩ := respondOk_responds i s
  exact h.quiet (Machine.respondOk i) (respondOk_swap i) (by rw [hresp]; rfl) (by rw [hresp]; rfl)

/-- From two states that differ only in bytes received so far and in at most the next `n`, all of them dropped, a transfer ends
alike. -/
theorem transfer_sim {i : Instr} {n k : Nat} {s s' u : State} (ht : isTransfer i = true) (hb : s.busy = false) (h : Sim n s s')
    (hr : ∀ ses ∈ sessionsOf i, readSession ses = true → n ≤ 4) (hrun : runOperation k i s = some u) :
    ∃ u' k', runOperation k' i s' = some u' ∧ Sim n u u' := by
  have hi := isTransfer_isOperation ht
  obtain ⟨ha, hbody⟩ := run_body hi hb hrun
  have hb' : s'.busy = false := by obtain ⟨tr, b, rfl, -⟩ := h; exact hb
  have ha' : accept i s' = .next (s'.begin i) := by
    obtain ⟨hv, hadmits, -⟩ := accept_next ha
    obtain ⟨tr, b, rfl, -⟩ := h
    have hadmits' : admits i (State.swap tr b s).status = none := hadmits
    rw [accept, if_pos hv, hadmits']
  have hsim : RanSim n (bodyProc k i (s.begin i)) (bodyProc k i (s'.begin i)) := by
    rw [transfer_body ht, transfer_body ht]
    exact sessions_sim (h.quiet (State.begin i) (fun _ _ _ => rfl) rfl rfl) hr
  obtain ⟨v, hv, rfl⟩ | ⟨e, info, v, hv, rfl⟩ := hbody <;> rw [hv] at hsim <;>
    cases hv' : bodyProc k i (s'.begin i) <;> rw [hv'] at hsim
  case inl.went v' =>
    obtain ⟨k', hk'⟩ := accepted_runs hi hb' ha' hv'
    exact ⟨_, k', hk', Sim.respondOk hsim i⟩
  case inr.raised e' info' v' =>
    obtain ⟨rfl, rfl, hsim⟩ := hsim
    obtain ⟨k', hk'⟩ := accepted_fails hi hb' ha' hv'
    exact ⟨_, k', hk', hsim.respond e info []⟩
  all_goals exact hsim.elim

/-! ### The frame of the transfers -/

/-- A row of a transfer writes neither the reset line nor the answers to `Init()`. -/
theorem TransferMove.rstOut_initAnswers {i : Instr} {s t : State} (h : TransferMove i s t) :
    t.rstOut = s.rstOut ∧ t.env.initAnswers = s.env.initAnswers := by
  cases h with
  | session ses t hm => cases hm <;> simp [preambleHigh, preambleLow, readHigh, readLow, writeHigh, writeLow]
  | again hp => simp
  | respond hp e info r => simp

/-- A step of a transfer, or of a preamble Word, keeps what only the lifecycle and the lines write. -/
theorem exec_transfer_kept {i : Instr} {s t : State} (hi : isTransfer i = true ∨ i.isOperation = false)
    (he : exec i s = .next t) : LifecycleKept s t ∧ t.rstOut = s.rstOut ∧ t.env.initAnswers = s.env.initAnswers := by
  obtain ⟨-, -, -, -, rfl⟩ | ⟨-, hop, -, hrow⟩ | ⟨-, -, j, -, -, ⟨-, rfl⟩ | ⟨-, rfl⟩⟩ := exec_cases he
  · exact ⟨by constructor <;> simp, by simp⟩
  · have hmove := rowOf_move (hi.resolve_right (by simp [hop])) hrow
    exact ⟨.of_transferMove hmove, hmove.rstOut_initAnswers⟩
  · exact ⟨by constructor <;> simp [preambleHigh], by simp [preambleHigh]⟩
  · exact ⟨by constructor <;> simp [preambleLow], by simp [preambleLow]⟩

/-- A transfer without a read session leaves RES and RXH as they were before its acceptance (log 32). -/
theorem write_keeps_result {i : Instr} {s u : State} {k : Nat} (ht : isTransfer i = true)
    (hr : ∀ ses ∈ sessionsOf i, readSession ses = false) (hb : s.busy = false) (h : runOperation k i s = some u) :
    u.res = s.res ∧ u.rxh = s.rxh := by
  have hreads : readsWords i = false := by
    by_contra hne
    obtain ⟨-, -, p, n, hs⟩ := readsWords_transfer (Bool.eq_true_of_not_eq_false hne)
    exact absurd (hr (.read p n) (by simp [hs])) (by simp [readSession])
  have hbegin : (s.begin i).res = s.res := by simp [hreads]
  obtain ⟨-, hbody⟩ := run_body (isTransfer_isOperation ht) hb h
  obtain ⟨hwent, hraised⟩ := transfer_ends ht k (s.begin i)
  obtain ⟨v, hv, rfl⟩ | ⟨e, info, v, hv, rfl⟩ := hbody
  · obtain ⟨-, hkeep, -⟩ := hwent v hv
    obtain ⟨hres, hrxh⟩ := hkeep hr
    obtain ⟨e, r, hresp⟩ := respondOk_responds i v
    rw [hresp]
    exact ⟨hres.trans hbegin, hrxh⟩
  · obtain ⟨-, -, hres, hrxh⟩ := hraised e info v hv
    exact ⟨hres.trans hbegin, hrxh⟩

/-! ### The two forms -/

theorem accept_ne_fault {i : Instr} {s : State} {f : Fault} : accept i s ≠ .fault f := by
  rw [accept]
  split
  · split <;> simp
  · simp

/-- What the pseudocode of an accepted operation comes to, by how its body ends. -/
theorem bigStep_accepted {i : Instr} {s : State} (ha : accept i s = .next (s.begin i)) (fuel : Nat) :
    (∃ v, bodyProc fuel i (s.begin i) = .went v ∧ bigStep fuel i s = .responded (respondOk i v)) ∨
    (∃ e info v, bodyProc fuel i (s.begin i) = .raised e info v ∧ bigStep fuel i s = .responded (v.respond e info [])) ∨
    ∃ v, bodyProc fuel i (s.begin i) = .outOfFuel v ∧ bigStep fuel i s = .outOfFuel v := by
  simp only [bigStep, ha]
  cases bodyProc fuel i (s.begin i) with
  | went v => exact .inl ⟨v, rfl, rfl⟩
  | raised e info v => exact .inr (.inl ⟨e, info, v, rfl, rfl⟩)
  | outOfFuel v => exact .inr (.inr ⟨v, rfl, rfl⟩)

theorem bigStep_not_accepted {i : Instr} {s : State} {r : Refusal} (ha : accept i s = .refused r) (fuel : Nat) :
    bigStep fuel i s = .refused r := by simp only [bigStep, ha]

/-- Acceptance of an idle block answers the accepted state or a refusal. -/
theorem accept_next_or_refused (i : Instr) (s : State) : accept i s = .next (s.begin i) ∨ ∃ r, accept i s = .refused r := by
  cases ha : accept i s with
  | next t => obtain ⟨-, -, rfl⟩ := accept_next ha; exact .inl rfl
  | refused r => exact .inr ⟨r, rfl⟩
  | fault f => exact absurd ha accept_ne_fault

/-- The pseudocode responds with a state, at some fuel, exactly when the steps of the tables lead to it. -/
theorem bigStep_responded_iff {i : Instr} {s u : State} (hi : i.isOperation = true) (hb : s.busy = false) :
    (∃ fuel, bigStep fuel i s = .responded u) ↔ ∃ k, runOperation k i s = some u := by
  constructor
  · rintro ⟨fuel, h⟩
    obtain ha | ⟨r, ha⟩ := accept_next_or_refused i s
    case inr => rw [bigStep_not_accepted ha] at h; cases h
    obtain ⟨v, hv, hbig⟩ | ⟨e, info, v, hv, hbig⟩ | ⟨v, -, hbig⟩ := bigStep_accepted ha fuel <;> rw [hbig] at h <;> cases h
    · exact accepted_runs hi hb ha hv
    · exact accepted_fails hi hb ha hv
  · rintro ⟨k, h⟩
    obtain ⟨ha, hbody⟩ := run_body hi hb h
    refine ⟨k, ?_⟩
    obtain ⟨v, hv, rfl⟩ | ⟨e, info, v, hv, rfl⟩ := hbody
    · simp only [bigStep, ha, hv]
    · simp only [bigStep, ha, hv]

/-- Both forms begin with acceptance, and nothing after it refuses. -/
theorem bigStep_refused_iff {i : Instr} {s : State} (hi : i.isOperation = true) (hb : s.busy = false) (fuel : Nat)
    (r : Refusal) : bigStep fuel i s = .refused r ↔ exec i s = .refused r := by
  rw [exec_idle hi hb]
  obtain ha | ⟨r', ha⟩ := accept_next_or_refused i s
  · rw [ha]
    obtain ⟨v, -, hbig⟩ | ⟨e, info, v, -, hbig⟩ | ⟨v, -, hbig⟩ := bigStep_accepted ha fuel <;> simp [hbig]
  · rw [ha, bigStep_not_accepted ha]
    simp

/-- The pseudocode runs out at every fuel exactly when the accepted operation does not end. -/
theorem bigStep_outOfFuel_iff {i : Instr} {s : State} (hi : i.isOperation = true) (hb : s.busy = false) :
    (∀ fuel, ∃ v, bigStep fuel i s = .outOfFuel v) ↔ exec i s = .next (s.accepted i) ∧ ∀ k, runOperation k i s = none := by
  rw [exec_idle hi hb]
  constructor
  · intro h
    obtain ⟨v, hv⟩ := h 0
    obtain ha | ⟨r, ha⟩ := accept_next_or_refused i s
    case inr => rw [bigStep_not_accepted ha] at hv; cases hv
    refine ⟨ha, fun k => Option.eq_none_iff_forall_ne_some.2 fun u hu => ?_⟩
    obtain ⟨fuel, hfuel⟩ := (bigStep_responded_iff hi hb).2 ⟨k, hu⟩
    obtain ⟨w, hw⟩ := h fuel
    rw [hfuel] at hw
    cases hw
  · rintro ⟨ha, h⟩ fuel
    have ended : ∀ u, bigStep fuel i s ≠ .responded u := fun u hu => by
      obtain ⟨k, hk⟩ := (bigStep_responded_iff hi hb).1 ⟨fuel, hu⟩
      rw [h k] at hk
      cases hk
    obtain ⟨v, -, hbig⟩ | ⟨e, info, v, -, hbig⟩ | ⟨v, -, hbig⟩ := bigStep_accepted ha fuel
    · exact absurd hbig (ended _)
    · exact absurd hbig (ended _)
    · exact ⟨v, hbig⟩

/-! ### The statements -/

/-- Settles O25, from the session of a read with its answers given. -/
theorem readRunsTheReadFrame : Obligations.ReadRunsTheReadFrame := by
  unfold Obligations.ReadRunsTheReadFrame
  rintro p n s c y a b d rx bytes levels ⟨hidle, hs, hc, hy⟩ ha hb hd hl hx hrx
  have hsession := read_session_answers (s := s.begin (.read p n)) (p := p) (fuel := a + b + d + 1) (levels := levels)
    hc hy ha hb hd (by omega) (by omega) (by omega) hrx (by simpa using hl) hx
  exact operation_completes rfl hidle rfl (if_pos hs) ((bodyProc_one rfl _ _).trans hsession) rfl

/-- Settles O26, from the session of a write with its answers given. -/
theorem writeRunsTheWriteFrame : Obligations.WriteRunsTheWriteFrame := by
  unfold Obligations.WriteRunsTheWriteFrame
  rintro p ws s c y a b rx bytes levels ⟨hidle, hs, hc, hy⟩ ha hb hl hx hrx
  have hsession := write_session_answers (s := s.begin (.write p ws)) (p := p) (fuel := a + b + 1) (levels := levels)
    hc hy ha hb (by omega) (by omega) hrx (by simpa using hl) hx
  exact operation_completes rfl hidle rfl (if_pos hs) ((bodyProc_one rfl _ _).trans hsession) rfl

/-- Settles O27, from the session of a bulk write with its answers given. -/
theorem writeBulkRunsTheBulkFrame : Obligations.WriteBulkRunsTheBulkFrame := by
  unfold Obligations.WriteBulkRunsTheBulkFrame
  rintro bs s c y a b rx bytes levels ⟨hidle, hs, hc, hy⟩ ha hb hl hx hrx
  have hsession := bulk_session_answers (s := s.begin (.writeBulk bs)) (bs := bs) (fuel := a + b + 1) (levels := levels)
    hc hy ha hb (by omega) (by omega) hrx (by simpa using hl) hx
  exact operation_completes rfl hidle rfl (if_pos hs) ((bodyProc_one rfl _ _).trans hsession) rfl

/-- Settles O36: what the three frames count. -/
theorem countedPropertiesOfTransfers : Obligations.CountedPropertiesOfTransfers := by
  unfold Obligations.CountedPropertiesOfTransfers
  intro i ses s u k hi hses hb h hu
  obtain ⟨p, n, rfl⟩ | ⟨p, ws, rfl⟩ | ⟨bs, rfl⟩ := transport_cases hi <;> obtain rfl := (List.singleton_inj.1 hses)
  · obtain ⟨c, y, a, b, d, rx, hc, -, hrx, htrace, -⟩ := read_ok hb h hu
    obtain ⟨hwrite, hxfer, hbulk, hhigh⟩ := Counts.readFrame s.cfg c y p a b d hrx
    exact ⟨_, htrace, hwrite, hxfer, hbulk, hhigh.ge, c, hc, List.getLast?_concat⟩
  · obtain ⟨c, y, a, b, rx, hc, -, hrx, htrace, -⟩ := write_ok hb h hu
    obtain ⟨hwrite, hxfer, hbulk, hhigh⟩ := Counts.writeFrame s.cfg c y p a b hrx
    exact ⟨_, htrace, hwrite, hxfer, hbulk, hhigh.ge, c, hc, List.getLast?_concat⟩
  · obtain ⟨c, y, a, b, rx, hc, -, hrx, htrace, -⟩ := writeBulk_ok hb h hu
    obtain ⟨hwrite, hxfer, hbulk, hhigh⟩ := Counts.bulkFrame s.cfg c y a b bs hrx
    exact ⟨_, htrace, hwrite, hxfer, hbulk, hhigh.ge, c, hc, List.getLast?_concat⟩

/-- Settles O37, from the events of the one session of the transfer. -/
theorem oneSessionPerTransfer : Obligations.OneSessionPerTransfer := by
  unfold Obligations.OneSessionPerTransfer
  intro i s u k hi hb h
  obtain ⟨ses, hses⟩ : ∃ ses, sessionsOf i = [ses] := by
    obtain ⟨p, n, rfl⟩ | ⟨p, ws, rfl⟩ | ⟨bs, rfl⟩ := transport_cases hi <;> exact ⟨_, rfl⟩
  obtain ⟨-, ⟨v, hv, rfl⟩ | ⟨e, info, v, hv, rfl⟩⟩ := one_fails hses hb h
  · obtain ⟨c, y, es, hc, hy, ht, before, between, hes⟩ := session_went_oneSession hv
    exact ⟨es, (respondOk_trace i v).trans ht, .inr ⟨c, y, before, between, hc, hy, hes⟩⟩
  · obtain ⟨es, ht, hlow | ⟨c, y, hc, hy, before, between, hes⟩⟩ := session_raised_events hv
    · exact ⟨es, ht, .inl ⟨session_error_not_ok hv, hlow⟩⟩
    · exact ⟨es, ht, .inr ⟨c, y, before, between, hc, hy, hes⟩⟩

/-- Settles O38: of the ways a session fails, those of its three waits, each with exactly the limit of LOW samples. -/
theorem failedWaitClosesTheSession : Obligations.FailedWaitClosesTheSession := by
  unfold Obligations.FailedWaitClosesTheSession
  intro i ses s u k hses hb hr h hu
  obtain ⟨-, ⟨v, hv, rfl⟩ | ⟨e, info, v, hv, rfl⟩⟩ := one_fails hses hb h
  · obtain herr | herr := respondOk_err i v <;> rw [herr] at hu <;> cases hu
  obtain rfl : e = .deviceNotRespondingError := hu
  obtain ⟨-, he, -⟩ | ⟨-, -, he, -⟩ | ⟨c, y, limit, m, hc, hy, -, rfl, hl, hm, hfail⟩ := session_raised hv
  · cases he
  · cases he
  obtain rfl := hm hr
  obtain ⟨-, hresp, -⟩ := session_raised_kept hv
  refine ⟨c, y, m, hc, hy, hl, congrArg (· ++ _) hresp, ?_⟩
  obtain ht | ⟨a, rx, hrx, ht⟩ | ⟨hread, a, b, rx, hrx, ht⟩ := hfail
  · exact .inl ⟨by rw [ht]; rfl, by rw [ht]; rfl⟩
  · exact .inr (.inl ⟨⟨a, rx, hrx, by rw [ht]; rfl⟩, by rw [ht]; rfl⟩)
  · exact .inr (.inr ⟨hread, ⟨a, b, rx, hrx, by rw [ht]; rfl⟩, by rw [ht]; rfl⟩)

/-- Settles O39: both frames send the preamble 0x0000 and then the packed Words. -/
theorem bulkAndWordPathsSendTheSameBytes : Obligations.BulkAndWordPathsSendTheSameBytes := by
  unfold Obligations.BulkAndWordPathsSendTheSameBytes
  intro ws s s' u u' k k' hb hb' h hu h' hu'
  obtain ⟨c, y, a, b, rx, hrx, htrace⟩ : ∃ c y a b rx, rx.length = 2 ∧
      u.trace = s.trace ++ bulkFrame s.cfg c y (pack ws) a b rx := by
    obtain h | h := h
    · exact bulk_ok rfl hb h hu
    · exact bulk_ok rfl hb h hu
  obtain ⟨c', y', a', b', rx', -, -, hrx', htrace', -⟩ := write_ok hb' h' hu'
  refine ⟨_, _, htrace, htrace', ?_, ⟨c, y, a, b, rx, rfl⟩, c', y', a', b', rx', hrx', rfl⟩
  rw [wireBytes_bulkFrame hrx, wireBytes_writeFrame hrx', hi_zero, lo_zero]

/-- Settles O40: two runs whose states are alike but for dropped bytes stay so, from acceptance to the response. -/
theorem droppedBytesDoNotMatter : Obligations.DroppedBytesDoNotMatter := by
  unfold Obligations.DroppedBytesDoNotMatter
  intro i s u k x x' tail ht hb hr hlen hx h
  have hsim : Sim x.length s { s with env := { s.env with rxBytes := x' ++ tail } } :=
    ⟨s.trace, x' ++ tail, rfl, rfl, x, x', tail, le_rfl, hlen, hx, rfl⟩
  obtain ⟨u', k', hk', tr, b, rfl, htrace, y, y', rest, -, hy, hu, rfl⟩ := transfer_sim ht hb hsim hr h
  refine ⟨_, ⟨k', hk'⟩, rfl, htrace, ?_⟩
  simp [State.swap, hu, hy]

/-- Settles O41: the body of the pseudocode ends as the rows do, and acceptance is the first step of both. -/
theorem twoFormsAgree : Obligations.TwoFormsAgree := by
  unfold Obligations.TwoFormsAgree
  intro i s hi hb
  exact ⟨fun _ => bigStep_responded_iff hi hb, bigStep_refused_iff hi hb, bigStep_outOfFuel_iff hi hb⟩

/-- Settles O48: the event `Inv.op_step` gives for the row of the operation in flight, which is the row a step runs. -/
theorem eventOfEachPhase : Obligations.EventOfEachPhase := by
  unfold Obligations.EventOfEachPhase
  intro i s t h ho hs
  exact (h.stepOk ho ((h.step_eq_exec ho).symm.trans hs)).2

/-- Settles O51, row by row, and for a run to its end from its body. -/
theorem transfersLeaveTheRestAlone : Obligations.TransfersLeaveTheRestAlone := by
  unfold Obligations.TransfersLeaveTheRestAlone
  refine ⟨fun i s t hi he => ?_, fun i s u k ht hr hb h => write_keeps_result ht hr hb h⟩
  obtain ⟨⟨hcfg, hst, hla, hspi, hpin⟩, hrst, hinit⟩ := exec_transfer_kept hi he
  exact ⟨hcfg, hst, hla, hrst, hpin, hspi, exec_host he, hinit⟩

/-- Settles O59: at one fuel the wait has taken as many LOW samples, and as the fuel grows an operation that never ends settles
in one wait. -/
theorem endlessWaitIsTheSameInBothForms : Obligations.EndlessWaitIsTheSameInBothForms := by
  unfold Obligations.EndlessWaitIsTheSameInBothForms
  intro i s hi hb
  refine ⟨fun fuel v h => ?atOneFuel, fun h => ?asItGrows⟩
  case atOneFuel =>
    obtain ⟨hbody, hbusy, hsteps⟩ := bigStep_fuel hi hb h
    obtain ⟨y, es, hy, htrace, hresp⟩ := EndsLow.body hi fuel (s.begin i) v hbody
    exact ⟨hbusy, hresp, ⟨y, es, hy, htrace⟩, hsteps⟩
  case asItGrows =>
    have body : ∀ fuel, ∃ v, bigStep fuel i s = .outOfFuel v ∧ bodyProc fuel i (s.begin i) = .outOfFuel v ∧
        ∃ k p, runSteps k i s = some (v.goto p) := fun fuel => by
      obtain ⟨v, hv⟩ := h fuel
      obtain ⟨hbody, -, k, p, -, hk⟩ := bigStep_fuel hi hb hv
      exact ⟨v, hv, hbody, k, p, hk⟩
    obtain ⟨v, -, hv, -⟩ := body 0
    obtain ⟨y, -, hy, -⟩ := EndsLow.body hi 0 (s.begin i) v hv
    have hready : ∀ q, (s.begin i).la.ready = some q → q = y := fun q hq => Option.some.inj (hq.symm.trans hy)
    obtain ⟨f, r, hr, hends⟩ | ⟨first, es, hlow⟩ := Settles.body hi hready
    · obtain ⟨w, -, hw, -⟩ := body (f + 0)
      exact absurd ((hends 0).symm.trans hw) (hr w)
    · refine ⟨y, es, first, hy, fun m => ?_⟩
      obtain ⟨w, hw, htrace, hresp⟩ := hlow m
      obtain ⟨w', hbig, hw', k, p, hk⟩ := body (first + m)
      obtain rfl : w = w' := Ran.outOfFuel.inj (hw.symm.trans hw')
      exact ⟨w, k, p, hbig, hk, htrace, hresp⟩

end Sys2Proof.Machine
end

section
/-!
SUPPORT. The Command Layer (42_command_layer.md): WRITE_COMMAND with the environment's answers given, and against the WRITE
operations of its expansion; then the theorems that settle O28, O29, O30, O31, O32, O43 and O56.
-/

namespace Sys2Proof.Machine

/-! ### WRITE_COMMAND with its answers given -/

/-- The events of WRITE_COMMAND: the frame of its code, then those of its arguments. -/
theorem commandEvents_cons (cfg : Config) (c y : Pin) (code : Word) (args : List Word) (r : Round) (rounds : List Round) :
    commandEvents cfg c y code args (r :: rounds) =
      writeFrame cfg c y preCommand [code] r.firstWait r.secondWait r.received ++
        roundEvents cfg c y (args.map fun a => (preDataWrite, a)) rounds := rfl

/-- A fuel that is enough for each wait of the rounds. -/
def roundsFuel (rounds : List Round) : Nat := (rounds.map fun r => r.firstWait + r.secondWait + 1).sum

theorem waits_lt_roundsFuel {rounds : List Round} {r : Round} (h : r ∈ rounds) :
    r.firstWait < roundsFuel rounds ∧ r.secondWait < roundsFuel rounds := by
  have := List.single_le_sum (l := rounds.map fun r => r.firstWait + r.secondWait + 1) (by simp) _ (List.mem_map_of_mem h)
  rw [roundsFuel]
  omega

/-- The sessions of WRITE_COMMAND: that of the code, then those of the arguments. -/
theorem writeCommand_body (fuel : Nat) (code : Word) (args : List Word) (s : State) :
    bodyProc fuel (.writeCommand code args) s = (sessionProc fuel (.write preCommand [code]) s).andThen
      (laterSessionsProc fuel (args.map fun a => .write preDataWrite [a])) := rfl

/-- The body of WRITE_COMMAND with the answers of every session given. -/
theorem writeCommand_answers {code : Word} {args : List Word} {s : State} {c y : Pin} {rounds : List Round}
    {bytes : List Byte} {levels : List Level} (hc : s.la.chipSelect = some c) (hy : s.la.ready = some y)
    (hlen : rounds.length = 1 + args.length)
    (hr : ∀ r ∈ rounds, withinLimit s.cfg r.firstWait ∧ withinLimit s.cfg r.secondWait ∧ r.received.length = 4)
    (hp : s.ph = .chk) (hsub : s.sub = 0) (hl : s.env.readyLevels = rounds.flatMap Round.levels ++ levels)
    (hx : s.env.rxBytes = rounds.flatMap Round.received ++ bytes) :
    bodyProc (roundsFuel rounds) (.writeCommand code args) s = .went { s with
      csOut := some .deasserted
      pre := if args = [] then 0x6000#16 else 0x0000#16
      n := 1
      idx := 1
      polls := (rounds.getLast?.map Round.secondWait).getD s.polls
      sub := args.length
      trace := s.trace ++ commandEvents s.cfg c y code args rounds
      env := { s.env with readyLevels := levels, rxBytes := bytes } } := by
  obtain ⟨r, rest, rfl⟩ := List.exists_cons_of_length_eq_add_one (hlen.trans (Nat.add_comm ..))
  obtain ⟨ha, hb, hrx⟩ := hr r List.mem_cons_self
  obtain ⟨hfa, hfb⟩ := waits_lt_roundsFuel (rounds := r :: rest) List.mem_cons_self
  have hcode := write_session_answers (p := preCommand) (ws := [code]) (rx := r.received)
    (levels := rest.flatMap Round.levels ++ levels) (bytes := rest.flatMap Round.received ++ bytes)
    hc hy ha hb hfa hfb hrx (by simp [hl, Round.levels]) (by simp [hx])
  rw [writeCommand_body, hcode]
  refine Eq.trans (later_writes_answer args rest _ ?length ?rounds hc hy rfl rfl rfl hp rfl rfl) ?_
  case length => rw [List.length_cons] at hlen; omega
  case rounds =>
    intro r' h'
    obtain ⟨ha, hb, hrx⟩ := hr r' (List.mem_cons_of_mem _ h')
    obtain ⟨hfa, hfb⟩ := waits_lt_roundsFuel (rounds := r :: rest) (List.mem_cons_of_mem _ h')
    exact ⟨ha, hb, hrx, hfa, hfb⟩
  have hpolls : (rest.getLast?.map Round.secondWait).getD r.secondWait
      = (((r :: rest).getLast?).map Round.secondWait).getD s.polls := by
    rw [List.getLast?_cons]
    cases rest.getLast? <;> rfl
  simp only [hpolls, commandEvents_cons, List.append_assoc, hsub, Nat.zero_add]
  rfl

/-! ### WRITE_COMMAND against its writes -/

/-- The sessions of WRITE_COMMAND against the writes of its expansion, from the state it is accepted in. -/
theorem writeCommand_against (k : Nat) (code : Word) (args : List Word) {s : State} (hb : s.busy = false)
    (hs : s.status = .opened) : Against k (commandWrites code args) s (s.begin (.writeCommand code args))
      (bodyProc k (.writeCommand code args) (s.begin (.writeCommand code args))) := by
  have hwrites : commandWrites code args = .write preCommand [code] :: args.map fun a => .write preDataWrite [a] := by
    simp [commandWrites, commandWords]
  rw [writeCommand_body, hwrites]
  exact Against.cons hb hs rfl fun v t hb hs he hr hd ho hp hk hi => later_against args v t hb hs he hr hd ho hp hk hi

/-- A body that has come to `t` responds in the state of a block that is idle with the same data and the same answer, but for SUB
and the earlier responses. -/
theorem respond_eq_of_relabel {s t v : State} {e : ErrKind} {info : Nat} (hd : State.relabel t v = t)
    (ht : t.responses = s.responses) (hb : v.busy = false) (he : v.err = e) (hr : v.responses.getLast? = some ⟨e.code, info, []⟩) (ho : v.op = none)
    (hp : v.ph = .idle) (hk : v.doneCode = .ok) (hi : v.doneInfo = 0) :
    t.respond e info [] = { v with sub := t.sub, responses := s.responses ++ v.responses.getLast?.toList } := by
  rw [← hd]
  ext1 <;> simp [State.relabel, State.respond, ht, hb, he, hr, ho, hp, hk, hi]

/-- Either neither WRITE_COMMAND nor its writes end within `k` steps each, or both end, in states that agree but for SUB and for
the responses, of which WRITE_COMMAND gives only the last. -/
theorem writeCommand_ends_with_writes (k : Nat) (code : Word) (args : List Word) {s : State} (hb : s.busy = false)
    (hs : s.status = .opened) :
    (runOperation k (.writeCommand code args) s = none ∧ runUntilError k (commandWrites code args) s = none) ∨
    ∃ m n u v, runOperation m (.writeCommand code args) s = some u ∧ runUntilError n (commandWrites code args) s = some v ∧
      u = { v with sub := u.sub, responses := s.responses ++ v.responses.getLast?.toList } := by
  have ha : accept (.writeCommand code args) s = .next (s.begin (.writeCommand code args)) := by
    simp [accept, offerValid, admits, hs]
  have h := writeCommand_against k code args hb hs
  cases hbody : bodyProc k (.writeCommand code args) (s.begin (.writeCommand code args)) with
  | went t =>
    rw [hbody] at h
    obtain ⟨v, n, hv, hvb, he, hr, hd, ht, ho, hp, hk, hi⟩ := h
    obtain ⟨m, hm⟩ := accepted_runs rfl hb ha hbody
    exact .inr ⟨m, n, _, v, hm, hv, respond_eq_of_relabel hd ht hvb he hr ho hp hk hi⟩
  | raised e info t =>
    rw [hbody] at h
    obtain ⟨v, n, hv, hvb, he, hr, hd, ht, ho, hp, hk, hi⟩ := h
    obtain ⟨m, hm⟩ := accepted_fails rfl hb ha hbody
    exact .inr ⟨m, n, _, v, hm, hv, respond_eq_of_relabel hd ht hvb he hr ho hp hk hi⟩
  | outOfFuel t =>
    rw [hbody] at h
    refine .inl ⟨Option.eq_none_iff_forall_ne_some.2 fun u hu => ?_, h⟩
    obtain ⟨-, ⟨v, hv, -⟩ | ⟨e, info, v, hv, -⟩⟩ := run_body rfl hb hu <;> rw [hbody] at hv <;> cases hv

/-! ### The statements -/

/-- Settles O28, from the sessions of the command with their answers given. -/
theorem writeCommandRunsItsSessions : Obligations.WriteCommandRunsItsSessions := by
  unfold Obligations.WriteCommandRunsItsSessions
  rintro code args s c y rounds bytes levels ⟨hidle, hs, hc, hy⟩ hlen hr hl hx
  have hbody := writeCommand_answers (code := code) (s := s.begin (.writeCommand code args)) hc hy hlen hr rfl rfl
    hl hx
  exact operation_completes rfl hidle rfl (if_pos hs) hbody rfl

/-- Settles O29: the operation is its WRITE, offered with SUB = 0. -/
theorem writeDataRunsTheWriteFrame : Obligations.WriteDataRunsTheWriteFrame := by
  unfold Obligations.WriteDataRunsTheWriteFrame
  rintro ws s c y a b rx bytes levels ⟨hidle, hs, hlines⟩ ha hb hl hx hrx
  obtain ⟨-, hrun⟩ := writeRunsTheWriteFrame 0x0000#16 ws { s with sub := 0 } c y a b rx bytes levels ⟨hidle, hs, hlines⟩
    ha hb hl hx hrx
  obtain ⟨hwrite, -⟩ := commandLayerExpands s _ hidle
  exact ⟨exec_accepts rfl hidle rfl (if_pos hs), (hwrite ws).2 hrun⟩

/-- Settles O30: the operation is its READ, offered with SUB = 0. -/
theorem readDataRunsTheReadFrame : Obligations.ReadDataRunsTheReadFrame := by
  unfold Obligations.ReadDataRunsTheReadFrame
  rintro n s c y a b d rx bytes levels ⟨hidle, hs, hlines⟩ ha hb hd hl hx hrx
  obtain ⟨-, hrun⟩ := readRunsTheReadFrame 0x1000#16 n { s with sub := 0 } c y a b d rx bytes levels ⟨hidle, hs, hlines⟩
    ha hb hd hl hx hrx
  obtain ⟨-, hread, -⟩ := commandLayerExpands s _ hidle
  exact ⟨exec_accepts rfl hidle rfl (if_pos hs), (hread n).2 hrun⟩

/-- Settles O31: the operation is its READ of one Word, offered with SUB = 0. -/
theorem readSingleWordReturnsTheWord : Obligations.ReadSingleWordReturnsTheWord := by
  unfold Obligations.ReadSingleWordReturnsTheWord
  rintro s c y a b d x0 x1 x2 x3 b0 b1 bytes levels ⟨hidle, hs, hlines⟩ ha hb hd hl hx
  obtain ⟨-, hrun⟩ := readRunsTheReadFrame 0x1000#16 1 { s with sub := 0 } c y a b d [x0, x1, x2, x3, b0, b1] bytes levels
    ⟨hidle, hs, hlines⟩ ha hb hd hl hx rfl
  obtain ⟨-, -, hsingle, -⟩ := commandLayerExpands s _ hidle
  exact ⟨exec_accepts rfl hidle rfl (if_pos hs), hsingle.2 hrun⟩

/-- Settles O32: the operation is its WRITE_BULK, offered with SUB = 0. -/
theorem writePixelsSendsThePackedWords : Obligations.WritePixelsSendsThePackedWords := by
  unfold Obligations.WritePixelsSendsThePackedWords
  rintro ws s c y a b rx bytes levels ⟨hidle, hs, hlines⟩ ha hb hl hx hrx
  obtain ⟨-, hrun⟩ := writeBulkRunsTheBulkFrame (pack ws) { s with sub := 0 } c y a b rx bytes levels ⟨hidle, hs, hlines⟩
    ha hb hl hx hrx
  obtain ⟨-, -, -, hbulk⟩ := commandLayerExpands s _ hidle
  rw [← length_pack ws]
  exact ⟨exec_accepts rfl hidle rfl (if_pos hs), (hbulk ws).2 hrun⟩

/-- Settles O43: the command and its writes end together, and each of them ends in one state only. -/
theorem writeCommandIsItsWrites : Obligations.WriteCommandIsItsWrites := by
  unfold Obligations.WriteCommandIsItsWrites
  intro code args s hb hs
  refine ⟨fun u ⟨k, hu⟩ => ?command, fun k v hv => ?writes⟩
  case command =>
    obtain ⟨hnone, -⟩ | ⟨m, n, u', v, hu', hv, hagree⟩ := writeCommand_ends_with_writes k code args hb hs
    · rw [hnone] at hu; cases hu
    · obtain rfl := runOperation_unique hu hu'
      exact ⟨n, v, hv, hagree⟩
  case writes =>
    obtain ⟨-, hnone⟩ | ⟨m, n, u, v', hu, hv', hagree⟩ := writeCommand_ends_with_writes k code args hb hs
    · rw [hnone] at hv; cases hv
    · obtain rfl := runUntilError_unique hv hv'
      exact ⟨m, u, hu, hagree⟩

/-- Settles O56: none of the ways an operation ends has that error, and the one with OK has the length. -/
theorem emptyResponseIsUnreachable : Obligations.EmptyResponseIsUnreachable := by
  unfold Obligations.EmptyResponseIsUnreachable
  intro i s u k hi hb h
  obtain ⟨hok, hresult, -⟩ | ⟨herr, -⟩ | ⟨herr, -⟩ | ⟨herr, -⟩ := ends_cases hi hb h
  · exact ⟨by simp [hok], fun _ => hresult⟩
  all_goals exact ⟨by simp [herr], by simp [herr]⟩

end Sys2Proof.Machine
end

section
/-!
SUPPORT. The exceptions (60_exceptions.md): an operation that lacks a role fails before its first event, and a wait without a limit
goes on while its samples are LOW; then the theorems that settle O21, O23, O24 and O57.
-/

namespace Sys2Proof.Machine

/-! ### A role without a pin (60_exceptions.md R202, R207) -/

/-- The role a session needs and the line assignment lacks, chip-select before ready. -/
def missingSessionRole (la : LineAssign) : Option Nat :=
  if la.chipSelect.isNone then some roleChipSelect else if la.ready.isNone then some roleReady else none

theorem missingRole_of_isTransfer {i : Instr} (ht : isTransfer i = true) (la : LineAssign) :
    missingRole i la = missingSessionRole la := by
  cases i with
  | openOp | closeOp | resetDevice | waitReady | preambleWriteData | preambleReadData | preambleWriteCommand => cases ht
  | _ => rfl

theorem sessionProc_of_missing {s : State} {role : Nat} (h : missingSessionRole s.la = some role) (fuel : Nat) (ses : Session) :
    sessionProc fuel ses s = .raised .configurationError role s := by
  cases hc : s.la.chipSelect with
  | none =>
    obtain rfl : roleChipSelect = role := by simpa [missingSessionRole, hc] using h
    simp [sessionProc, hc]
  | some c =>
    cases hy : s.la.ready with
    | none =>
      obtain rfl : roleReady = role := by simpa [missingSessionRole, hc, hy] using h
      simp [sessionProc, hc, hy]
    | some y => simp [missingSessionRole, hc, hy] at h

/-- The first session of an operation that moves data raises the error, and no other begins. -/
theorem transfer_body_of_missing {i : Instr} {s : State} {role : Nat} (ht : isTransfer i = true)
    (h : missingRole i s.la = some role) (fuel : Nat) : bodyProc fuel i s = .raised .configurationError role s := by
  rw [missingRole_of_isTransfer ht] at h
  rw [transfer_body ht]
  cases hs : sessionsOf i with
  | nil => simp [isTransfer, hs] at ht
  | cons ses rest => rw [sessionsProc, sessionProc_of_missing h, Ran.andThen]

/-- The body of an operation that lacks a role raises ConfigurationError and has changed nothing. -/
theorem body_of_missingRole {i : Instr} {s : State} {role : Nat} (h : missingRole i s.la = some role) (fuel : Nat) :
    bodyProc fuel i s = .raised .configurationError role s := by
  cases i with
  | openOp | closeOp | preambleWriteData | preambleReadData | preambleWriteCommand => cases h
  | resetDevice =>
    obtain ⟨hr, rfl⟩ : s.la.reset = none ∧ roleReset = role := by simpa [missingRole] using h
    simp [bodyProc, resetProc, hr]
  | waitReady =>
    obtain ⟨hy, rfl⟩ : s.la.ready = none ∧ roleReady = role := by simpa [missingRole] using h
    simp [bodyProc, waitReadyOp, hy]
  | _ => exact transfer_body_of_missing rfl h fuel

/-- An operation that needs a role is one an open block accepts. -/
theorem admitted_of_missingRole {i : Instr} {la : LineAssign} {role : Nat} (h : missingRole i la = some role) :
    offerValid i = true ∧ admits i .opened = none := by
  cases i with
  | openOp | closeOp | preambleWriteData | preambleReadData | preambleWriteCommand => cases h
  | _ => exact ⟨rfl, rfl⟩

/-! ### LOW samples of a wait without a limit (60_exceptions.md R205) -/

/-- `s` with `k` LOW samples of `y` more, each counted, and `levels` the answers still to come. -/
def State.lowSamples (y : Pin) (k : Nat) (levels : List Level) (s : State) : State :=
  { s with
    polls := s.polls + k
    trace := s.trace ++ List.replicate k (.readPin y .low)
    env := { s.env with readyLevels := levels } }

theorem State.lowSamples_zero (y : Pin) (s : State) : s.lowSamples y 0 s.env.readyLevels = s := by
  ext1 <;> simp [State.lowSamples]

theorem State.lowSamples_succ (y : Pin) (k : Nat) (mid levels : List Level) (s : State) :
    (s.lowSamples y 1 mid).lowSamples y k levels = s.lowSamples y (k + 1) levels := by
  ext1 <;> simp [State.lowSamples, List.replicate_succ, Nat.add_assoc, Nat.add_comm 1 k]

/-- Each LOW sample is one step that stays in the wait phase, where the next one finds the invariant again. -/
theorem run_lowSamples {y : Pin} {levels : List Level} (k : Nat) {s : State} (h : Inv s) (hl : s.cfg.readyPollLimit = none)
    (hy : s.la.ready = some y) (hp : s.ph = .rdy1 ∨ s.ph = .rdy2 ∨ s.ph = .rdy3 ∨ s.ph = .wait)
    (he : s.env.readyLevels = List.replicate k .low ++ levels) :
    Host.Core.run Sys2Proof.core k s = .next (s.lowSamples y k levels) := by
  induction k generalizing s with
  | zero =>
    obtain rfl : s.env.readyLevels = levels := he
    rw [State.lowSamples_zero]
    rfl
  | succ k ih =>
    have hs : step s = .next (s.lowSamples y 1 (List.replicate k .low ++ levels)) := step_wait_low h hl hy hp he
    rw [run_succ_next hs, ih (h.step_next hs) hl hy hp rfl, State.lowSamples_succ]

/-! ### The statements -/

/-- Settles O21: one step for each LOW sample, by induction on their number. -/
theorem waitWithoutLimitNeverGivesUp : Obligations.WaitWithoutLimitNeverGivesUp := by
  unfold Obligations.WaitWithoutLimitNeverGivesUp
  exact fun _ _ k _ h hl hy hp he => run_lowSamples k h hl hy hp he

/-- Settles O23: the operation is accepted, and its body raises the error in the state acceptance leaves. -/
theorem missingRoleFailsFast : Obligations.MissingRoleFailsFast := by
  unfold Obligations.MissingRoleFailsFast
  intro i s role hi hb hs hm
  obtain ⟨hvalid, hadmits⟩ := admitted_of_missingRole hm
  exact operation_fails (fuel := 0) hi hb hvalid (hs ▸ hadmits) (body_of_missingRole (s := s.begin i) hm 0) rfl

/-- Settles O24: of the ways an operation ends the one with that error lacks a role, and the body of an operation that lacks one
ends in no other way. -/
theorem configurationErrorOnlyForAMissingRole : Obligations.ConfigurationErrorOnlyForAMissingRole := by
  unfold Obligations.ConfigurationErrorOnlyForAMissingRole
  intro i s u k hi hb h
  refine ⟨fun hu => ?lacks, fun hm => ?raises⟩
  case lacks =>
    obtain ⟨herr, -⟩ | ⟨herr, -⟩ | ⟨-, hm⟩ | ⟨herr, -⟩ := ends_cases hi hb h
    · simp [herr] at hu
    · simp [herr] at hu
    · exact hm
    · simp [herr] at hu
  case raises =>
    obtain ⟨role, hrole⟩ := Option.ne_none_iff_exists'.1 hm
    have hraised := body_of_missingRole (s := s.begin i) hrole k
    obtain ⟨-, ⟨v, hbody, -⟩ | ⟨e, info, v, hbody, rfl⟩⟩ := run_body hi hb h
    · cases hraised.symm.trans hbody
    · cases hraised.symm.trans hbody
      rfl

/-- Settles O57: of the ways an operation ends the one with that error is a wait's, under a limit. -/
theorem notRespondingOnlyUnderALimit : Obligations.NotRespondingOnlyUnderALimit := by
  unfold Obligations.NotRespondingOnlyUnderALimit
  intro i s u k hi hb h hu
  obtain ⟨herr, -⟩ | ⟨herr, -⟩ | ⟨herr, -⟩ | ⟨-, hgaveUp⟩ := ends_cases hi hb h
  · simp [herr] at hu
  · simp [herr] at hu
  · simp [herr] at hu
  · exact hgaveUp

end Sys2Proof.Machine
end

section
/-!
SUPPORT. A run of one operation, taken apart at its first step and followed to its last (70_reset_and_hazards.md R245): the machine
goes through it, and at its end the block is at rest; then the theorems that settle O8, O22, O47 and O55.
-/

namespace Sys2Proof.Machine

/-! ### The steps of a run -/

/-- The first step of a run that ends: it ends the operation, or the rest of the run lies ahead. -/
theorem runOperation_first {i : Instr} {k : Nat} {s u : State} (h : runOperation (k + 1) i s = some u) :
    ∃ t, exec i s = .next t ∧ ((t.busy = false ∧ t = u) ∨ (t.busy = true ∧ runOperation k i t = some u)) := by
  rw [runOperation] at h
  cases he : exec i s with
  | next t =>
    rw [he] at h
    cases hb : t.busy with
    | false => exact ⟨t, rfl, .inl ⟨hb, by simpa [hb] using h⟩⟩
    | true => exact ⟨t, rfl, .inr ⟨hb, by simpa [hb] using h⟩⟩
  | fault r => rw [he] at h; cases h
  | refused r => rw [he] at h; cases h

/-- What holds where a run begins and is kept by each step that goes on holds where its last step is taken. -/
theorem runOperation_last {i : Instr} {P : State → Prop}
    (hstep : ∀ t v, P t → exec i t = .next v → v.busy = true → P v) {k : Nat} {s u : State} (hs : P s)
    (h : runOperation k i s = some u) : ∃ t, P t ∧ exec i t = .next u ∧ u.busy = false := by
  induction k generalizing s with
  | zero => cases h
  | succ k ih =>
    obtain ⟨t, he, ⟨hb, rfl⟩ | ⟨hb, hrest⟩⟩ := runOperation_first h
    · exact ⟨s, hs, he, hb⟩
    · exact ih (hstep s t hs he hb) hrest

theorem Inv.exists_op {s : State} (h : Inv s) (hb : s.busy = true) : ∃ i, s.op = some i := by
  refine Option.ne_none_iff_exists'.1 fun hop => ?_
  rw [h.op_iff.2 hop] at hb
  cases hb

/-- After a step of an operation that goes on, the machine's next step is again a step of that operation. -/
theorem Inv.step_eq_exec_of_next {i : Instr} {s t : State} (h : Inv s) (hi : i.isOperation = true) (he : exec i s = .next t)
    (hb : t.busy = true) : step t = exec i t := by
  have hinv := h.exec_next he
  obtain ⟨j, hj⟩ := hinv.exists_op hb
  obtain hop | hop := exec_op hi he
  · exact hinv.step_eq_exec hop
  · rw [hop] at hj; cases hj

/-- Where the machine's next step is the first one of a run of `i`, each of its later steps is the run's too. -/
theorem Inv.run_of_runOperation {i : Instr} (hi : i.isOperation = true) {k : Nat} {s s' u : State} (h : Inv s')
    (hs : step s = exec i s') (hr : runOperation k i s' = some u) :
    ∃ m, 0 < m ∧ m ≤ k ∧ Host.Core.run Sys2Proof.core m s = .next u := by
  induction k generalizing s s' with
  | zero => cases hr
  | succ k ih =>
    obtain ⟨t, he, ⟨-, rfl⟩ | ⟨hb, hrest⟩⟩ := runOperation_first hr
    · exact ⟨1, Nat.one_pos, Nat.le_add_left 1 k, run_succ_next (hs.trans he)⟩
    · obtain ⟨m, -, hm, hrun⟩ := ih (h.exec_next he) (h.step_eq_exec_of_next hi he hb) hrest
      exact ⟨m + 1, m.succ_pos, Nat.succ_le_succ hm, (run_succ_next (hs.trans he)).trans hrun⟩

/-- A run that ends from an idle block is one of an operation: a preamble Word is no offer. -/
theorem isOperation_of_runOperation {i : Instr} {k : Nat} {s u : State} (hb : s.busy = false)
    (h : runOperation k i s = some u) : i.isOperation = true := by
  cases k with
  | zero => cases h
  | succ k =>
    obtain ⟨t, he, -⟩ := runOperation_first h
    obtain ⟨-, hi, -⟩ | ⟨hbusy, -⟩ | ⟨hbusy, -⟩ := exec_cases he
    · exact hi
    · rw [hb] at hbusy; cases hbusy
    · rw [hb] at hbusy; cases hbusy

/-! ### What a run leaves -/

theorem Inv.trace_of_exec {i : Instr} {s t : State} (h : Inv s) (he : exec i s = .next t) : ∃ es, t.trace = s.trace ++ es := by
  obtain ⟨-, -, -, -, rfl⟩ | ⟨-, j, ho, hj, -⟩ := h.exec_cases he
  · exact ⟨[], by simp⟩
  · obtain ⟨-, hevent⟩ := h.stepOk ho hj
    split at hevent
    · exact ⟨[], by simp [hevent]⟩
    · obtain ⟨e, ht, -⟩ := hevent
      exact ⟨[e], ht⟩

/-- A step after which the operation goes on adds events and gives no response. -/
theorem Inv.grown_of_exec {i : Instr} {s t : State} (h : Inv s) (he : exec i s = .next t) (hb : t.busy = true) : Grown s t := by
  obtain ⟨-, -, hresp⟩ | ⟨e, info, r, rfl⟩ := exec_answers he
  · exact ⟨h.trace_of_exec he, hresp⟩
  · cases hb

/-- The last step of an operation is its response, given in a state that meets the invariant and to which the steps before have only
added events. -/
theorem Inv.runOperation_responds {i : Instr} {k : Nat} {s u : State} (h : Inv s) (hr : runOperation k i s = some u) :
    Inv u ∧ ∃ t e info r, Grown s t ∧ u = t.respond e info r := by
  obtain ⟨t, ⟨hinv, hgrown⟩, he, hb⟩ := runOperation_last (P := fun t => Inv t ∧ Grown s t)
    (fun t v ⟨hinv, hgrown⟩ he hb => ⟨hinv.exec_next he, hgrown.trans (hinv.grown_of_exec he hb)⟩) ⟨h, .refl s⟩ hr
  obtain ⟨hbusy, -⟩ | ⟨e, info, r, hu⟩ := exec_answers he
  · rw [hb] at hbusy; cases hbusy
  · exact ⟨hinv.exec_next he, t, e, info, r, hgrown, hu⟩

theorem Inv.csOut_of_idle {s : State} (h : Inv s) (hp : s.ph = .idle) (hst : s.status = .opened)
    (hc : s.la.chipSelect ≠ none) : s.csOut = some .deasserted := by
  have hcs := h.cs
  simp only [hp, csSpan, Bool.false_eq_true, if_false] at hcs
  rw [hcs, csAtRest, if_pos ⟨hst, Option.isSome_iff_ne_none.2 hc⟩]

/-! ### The statements -/

/-- Settles O8: the machine's first step takes the offer and accepts it, and each later one is the operation's next row. -/
theorem machineRunsTheOperation : Obligations.MachineRunsTheOperation := by
  unfold Obligations.MachineRunsTheOperation
  intro s u i items k h hb hd hr
  have hi : i.isOperation = true := isOperation_of_runOperation (s := { s with host := items }) hb hr
  exact (h.host items).run_of_runOperation hi (step_idle hb hd) hr

/-- Settles O22: with more fuel than the limit no wait of the pseudocode's body runs out, and where the body ends the rows end. -/
theorem limitedOperationsEnd : Obligations.LimitedOperationsEnd := by
  unfold Obligations.LimitedOperationsEnd
  intro i s limit hi hb hl he
  have ha : accept i s = .next (s.accepted i) := (exec_idle hi hb).symm.trans he
  cases hbody : bodyProc (limit + 1) i (s.begin i) with
  | went v => exact (accepted_runs hi hb ha hbody).imp fun _ hk => ⟨_, hk⟩
  | raised e info v => exact (accepted_fails hi hb ha hbody).imp fun _ hk => ⟨_, hk⟩
  | outOfFuel v => exact absurd hbody (body_limited (s := s.begin i) hi hl v)

/-- Settles O47: the operation in flight has a row for the phase the invariant allows it, and a step runs that row. -/
theorem neverStuckWhileBusy : Obligations.NeverStuckWhileBusy := by
  unfold Obligations.NeverStuckWhileBusy
  intro s h hb
  obtain ⟨i, ho⟩ := h.exists_op hb
  obtain ⟨t, ht, -⟩ := h.op_step ho
  exact ⟨t, (h.step_eq_exec ho).trans ht⟩

/-- Settles O55: the last step is the response, before it events were only added, and the invariant says the rest of the idle block. -/
theorem endedOperationLeavesTheBlockAtRest : Obligations.EndedOperationLeavesTheBlockAtRest := by
  unfold Obligations.EndedOperationLeavesTheBlockAtRest
  intro i s u k _ h _ hr
  obtain ⟨hinv, t, e, info, r, ⟨htrace, hresp⟩, rfl⟩ := h.runOperation_responds hr
  exact ⟨rfl, rfl, rfl, hinv, ⟨info, r, by simp [hresp]⟩, htrace, hinv.csOut_of_idle rfl⟩

end Sys2Proof.Machine
end
